-- ==== Sys2Proof/Word.lean ====
section
/-! DEFINITION. Words and their plainest arithmetic: the widths the manual uses, and the sparse maps that hold
registers, bytes and counters as plain data. -/

namespace Sys2Proof

/-- A byte (R4). -/
abbrev Byte := BitVec 8

/-- A 32-bit register (R17). -/
abbrev Word := BitVec 32

/-- A 64-bit value: an even-odd pair, an address, a 64-bit special register (R24). -/
abbrev DWord := BitVec 64

/-- An instruction word (R19). -/
abbrev IWord96 := BitVec 96

/-- A map from natural numbers, held as pairs in rising key order with no pair equal to the default. -/
abbrev SMap (α : Type) := List (Nat × α)

/-- `ceil(a / b)`. -/
def ceilDiv (a b : Nat) : Nat := (a + b - 1) / b

end Sys2Proof
end

