-- ==== Sys2Proof/Syntax.lean ====
section
/-! DEFINITION. The syntax of the machine's steps: one constructor of `Instr` for each row of the opcode table. An
instruction carries its word with every field named (R22-R36); an event carries what the party that makes it supplies. -/

namespace Sys2Proof

/-- Element types (R30 Table 7). -/
inductive Ty where
  | i32 | n32 | i64 | n64 | f32 | f64 | f16 | bf16 | e4m3 | e5m2 | l6 | i16 | n16 | i8 | n8
  deriving DecidableEq, Repr

/-- Rounding modes (R30 Table 7, R78 Table 3). -/
inductive Rnd where
  | rne | rtz | rup | rdn | rna | sr | dyn
  deriving DecidableEq, Repr

/-- What a 10-bit operand field names (R23 Table 2). An absent operand is encoded as zero, the pattern of v0. -/
inductive Operand where
  | v (i : BitVec 8)
  | s (i : BitVec 8)
  | o (i : BitVec 4)
  | h (i : BitVec 2)
  | k (i : BitVec 5)
  | a (i : BitVec 8)
  deriving DecidableEq, Repr

/-- The operand of a field that must be 0b00_0000_0000. -/
abbrev Operand.zero : Operand := .v 0

/-- The lane guard (R27 Table 4). -/
structure Guard where
  ge : Bool
  gn : Bool
  gc : Bool
  greg : BitVec 8
  gbit : BitVec 5
  deriving DecidableEq, Repr

/-- The guard that is off: every bit zero (R27). -/
abbrev Guard.off : Guard := ⟨false, false, false, 0, 0⟩

/-- The hints (R29 Table 5). `tec` is bit [32], which `atom`, `red` and `aord` redefine as AOP[3] (R271). -/
structure Hints where
  stop : Bool
  yld : Bool
  lua : Bool
  lub : Bool
  tea : Bool
  teb : Bool
  tec : Bool
  deriving DecidableEq, Repr

/-- No hint. -/
abbrev Hints.none : Hints := ⟨false, false, false, false, false, false, false⟩

/-- Scopes (R32 Table 9). -/
inductive Scope where
  | team | cluster | device | system
  deriving DecidableEq, Repr

/-- Spaces (R32 Table 9); codes 4 to 7 are reserved. -/
inductive Space where
  | global | spad | rspad | const
  deriving DecidableEq, Repr

/-- Access widths and tile forms (R32 Table 9); the other codes are reserved. -/
inductive Width where
  | w8 | w16 | w32 | w64 | w128 | tl32 | tl16 | tl8
  deriving DecidableEq, Repr

/-- A word of format 0 (R22, R30). `c` is present exactly when CV = 1. -/
structure RWord where
  d : Operand
  a : Operand
  b : Operand
  guard : Guard
  hints : Hints
  opx : BitVec 11
  c : Option Operand
  sat : Bool
  rnd : Rnd
  ty : Ty
  deriving DecidableEq, Repr

/-- A word of format 1 (R31): B is zero and M is the immediate. -/
structure ImmWord where
  d : Operand
  a : Operand
  guard : Guard
  hints : Hints
  imm : Word
  deriving DecidableEq, Repr

/-- A word of format 2 (R32). -/
structure MWord where
  d : Operand
  a : Operand
  b : Operand
  guard : Guard
  hints : Hints
  opx : BitVec 3
  scope : Scope
  space : Space
  width : Width
  off : BitVec 20
  deriving DecidableEq, Repr

/-- A word of formats 3, 4 and 6 (R33); each instruction lays out M itself. -/
structure XWord where
  d : Operand
  a : Operand
  b : Operand
  guard : Guard
  hints : Hints
  m : Word
  deriving DecidableEq, Repr

/-- The opcodes of format 0 (R34 Table 10). -/
inductive ROp where
  | add | sub | addw | mul24 | mul32 | mulhi | mad24 | mad32 | min | max | abs | neg | and | or | xor | not
  | andn | shl | shr | sar | rotl | popc | clz | brev | bfx | bfi | cmp | sel | mov | lea | fadd | fsub
  | fmul | fma | fmin | fmax | fcmp | fcvt | frnd | fclass | fscale | sfu | xacc | xcvt | shfl | push
  | bcast | scan | lred | vote | kcg
  deriving DecidableEq, Repr

/-- The I-capable opcodes, format 1 (R31, R34 Table 10). -/
inductive IOp where
  | add | sub | mul24 | mul32 | min | max | and | or | xor | andn | shl | shr | sar | rotl | cmp | mov | lea
  deriving DecidableEq, Repr

/-- The opcodes of format 2 (R34 Table 11). -/
inductive MOp where
  | ld | st | ldt | pref | atom | red | aord | waitc | qpush | qpop | fset | fget | claim | rxst | cpq
  | launch | wb
  deriving DecidableEq, Repr

/-- The opcodes of format 3 (R34 Table 11). -/
inductive XOp where
  | macq | marel | mcvr | mma | mld | mzero | mdrain | mfill | mcopy | mstat | bwait | bset | srnext | tcopy
  | skins | skdel | skxch | skpeel | rlbeg | rwave | rlend | rxbeg | rxin | rxout | rxjac | rxend | rxcmt
  | rxabort
  deriving DecidableEq, Repr

/-- The opcodes of format 4 (R34 Table 11). -/
inductive COp where
  | nop | bra | brs | jmp | call | ret | join | spawn | fend | yield | arrive | waitb | fence
  deriving DecidableEq, Repr

/-- The opcodes of format 6 (R34 Table 11). -/
inductive YOp where
  | rdsr | wrsr | trap | eret | brk | twc | tlbinv
  deriving DecidableEq, Repr
/-- One half of a paired word (R36 Table 13). -/
structure PHalf where
  op : ROp
  d : BitVec 8
  a : BitVec 8
  b : BitVec 8
  ty : Ty
  deriving DecidableEq, Repr

/-- A paired word (R36): two operations, one guard, one set of hints. -/
structure PWord where
  h0 : PHalf
  h1 : PHalf
  guard : Guard
  hints : Hints
  deriving DecidableEq, Repr

/-- A host transaction (R99-R101): a load, a store, or a locked read-modify-write with the operation code of R271
Table 2. -/
inductive HostOp where
  | load | store | amo (aop : Nat)
  deriving DecidableEq, Repr

/-- A record that the host appends to a queue (R103): the port it comes in on, and its bytes. -/
structure HostRecord where
  port : Nat
  bytes : List Byte
  deriving DecidableEq, Repr

/-- The host's request: the port it came in on, the physical address, the width in bytes, the value, and the value that a
compare-and-swap compares with. -/
structure HostReq where
  port : Nat
  op : HostOp
  pa : Nat
  bytes : Nat
  value : DWord
  cmp : DWord
  deriving DecidableEq, Repr

/-- A physical range that the runtime gives a context: its base and its size in bytes. -/
structure Area where
  base : Nat
  size : Nat
  deriving DecidableEq, Repr

/-- What the runtime gives a new context (R96, R97, R118, R133, R134, R215, R340, R364): `completion` is the header of its
completion queue; the swap area has room for `swapRoom` groups and bins. -/
structure CtxReq where
  id : Nat
  srKey : DWord
  root : Nat
  swaptmo : Word
  swapRoom : Nat
  swapArea : Area
  saveArea : Area
  watchdog : Nat
  completion : Nat
  deriving DecidableEq, Repr

/-- Which queue the runtime registers (R102, R118, R233); headers are physical addresses in device memory. -/
inductive QueueReq where
  | launch (ctx qnum header : Nat)
  | copy (ctx cluster q header : Nat)
  | completion (ctx header : Nat)
  deriving DecidableEq, Repr

/-- An image to load (R70): the file's bytes, its base B, the frames that receive it and the pool from which new
table pages come (both physical and 4 KiB aligned). -/
structure ImageReq where
  ctx : Nat
  base : Nat
  frames : Nat
  pool : Nat
  file : List Byte
  deriving DecidableEq, Repr

/-- A window of an access table (R221): a physical range `lo ≤ pa < hi` with rights. -/
structure Window where
  lo : Nat
  hi : Nat
  read : Bool
  write : Bool
  deriving DecidableEq, Repr

/-- The targets that keep an access table (R221): the L2 slice groups, the HBM controllers, the fabric ports and the engines. No
request that the manual describes brings a physical address to an engine (log 68). -/
inductive Target where
  | slice | hbm | port | engine
  deriving DecidableEq, Repr

/-- A write of one master's windows in the access table of a target by the runtime or the firmware (R221, R391). -/
structure AccessReq where
  byFirmware : Bool
  target : Target
  master : Nat
  windows : List Window
  deriving DecidableEq, Repr

/-- A watchpoint's space (R361). -/
inductive WatchSpace where
  | global
  | share (grid team core : Nat)
  deriving DecidableEq, Repr

/-- A watchpoint (R361). -/
structure Watchpoint where
  base : Nat
  size : Nat
  space : WatchSpace
  read : Bool
  write : Bool
  deriving DecidableEq, Repr

/-- An error event (R386, R387, R389): its unit, kind, syndrome and place. For an uncorrectable error outside M, `victim` is
the context whose access the value would reach, if any; one in M is met by the access that reaches its line. -/
structure ErrorReq where
  unit : BitVec 16
  kind : BitVec 16
  synd : BitVec 16
  loc : DWord
  victim : Option Nat
  deriving DecidableEq, Repr

/-- The provisioning state (R99, R391): host ports with their master ids, the provisioned windows of each master,
the physical ranges that are the host's memory and a power cap in watts. -/
structure Provision where
  ports : List (Nat × Nat)
  windows : List (Nat × List Window)
  hostRanges : List (Nat × Nat)
  powerCap : Nat
  deriving DecidableEq, Repr

/-- A provisioning write (R391): of the module's provisioning state, or of the firmware's power cap. -/
inductive ProvReq where
  | module (p : Provision)
  | firmware (cap : Nat)
  deriving DecidableEq, Repr

/-- A message of a collective (R336, R340): an element vector going up from a child position, the result going down, a
rank's contribution to an allgather, or an abort. Elements are exact integers: a type's bits, or a wide accumulator (xfadd). -/
inductive RankMsg where
  | up (child : Nat) (vals : List Int)
  | down (vals : List Int)
  | gather (rank : Nat) (vals : List Int)
  | abort
  deriving DecidableEq, Repr

/-- A message as it arrives (R338): the port, how many bytes each of its elements has, and what it says. -/
structure PortMsg where
  port : Nat
  width : Nat
  msg : RankMsg
  deriving DecidableEq, Repr

/-- What a debugger loads into a program buffer (R367, R368): up to 16 words, and a value for DBGDATA if it writes one. -/
structure BufferReq where
  words : List IWord96
  data : Option DWord
  deriving DecidableEq, Repr

/-- A line to be sampled into a tag register of a core (R370). -/
structure ReuseReq where
  core : Nat
  line : Nat
  deriving DecidableEq, Repr

/-- What a `tcopy` packet's remote side answers (R337): the box bytes of a get, or a fault at some rank. -/
inductive RemoteAnswer where
  | ok (dense : List Byte)
  | fault (code : Nat)
  deriving DecidableEq, Repr

/-- A sketch cell (R343 Table 1). -/
structure SketchCell where
  count : Word
  keysum : DWord
  check : DWord
  deriving DecidableEq, Repr

/-- What the peer's link engine answers in a round (R347): its folded sketch, or a fault. -/
inductive PeerFold where
  | cells (c : List SketchCell)
  | fault (code : Nat)
  deriving DecidableEq, Repr

/-- The part of a profiling record that the hardware measures (R369 Table 3). -/
structure ProfileMeasure where
  cycles : List Nat
  level : Nat
  block : Nat
  deriving DecidableEq, Repr

/-- Every row of the opcode table: the instructions of formats 0 to 6, then the events. -/
inductive Instr where
  | add (w : RWord)
  | addImm (w : ImmWord)
  | sub (w : RWord)
  | subImm (w : ImmWord)
  | addw (w : RWord)
  | mul24 (w : RWord)
  | mul24Imm (w : ImmWord)
  | mul32 (w : RWord)
  | mul32Imm (w : ImmWord)
  | mulhi (w : RWord)
  | mad24 (w : RWord)
  | mad32 (w : RWord)
  | min (w : RWord)
  | minImm (w : ImmWord)
  | max (w : RWord)
  | maxImm (w : ImmWord)
  | abs (w : RWord)
  | neg (w : RWord)
  | and (w : RWord)
  | andImm (w : ImmWord)
  | or (w : RWord)
  | orImm (w : ImmWord)
  | xor (w : RWord)
  | xorImm (w : ImmWord)
  | not (w : RWord)
  | andn (w : RWord)
  | andnImm (w : ImmWord)
  | shl (w : RWord)
  | shlImm (w : ImmWord)
  | shr (w : RWord)
  | shrImm (w : ImmWord)
  | sar (w : RWord)
  | sarImm (w : ImmWord)
  | rotl (w : RWord)
  | rotlImm (w : ImmWord)
  | popc (w : RWord)
  | clz (w : RWord)
  | brev (w : RWord)
  | bfx (w : RWord)
  | bfi (w : RWord)
  | cmp (w : RWord)
  | cmpImm (w : ImmWord)
  | sel (w : RWord)
  | mov (w : RWord)
  | movImm (w : ImmWord)
  | lea (w : RWord)
  | leaImm (w : ImmWord)
  | fadd (w : RWord)
  | fsub (w : RWord)
  | fmul (w : RWord)
  | fma (w : RWord)
  | fmin (w : RWord)
  | fmax (w : RWord)
  | fcmp (w : RWord)
  | fcvt (w : RWord)
  | frnd (w : RWord)
  | fclass (w : RWord)
  | fscale (w : RWord)
  | sfu (w : RWord)
  | xacc (w : RWord)
  | xcvt (w : RWord)
  | shfl (w : RWord)
  | push (w : RWord)
  | bcast (w : RWord)
  | scan (w : RWord)
  | lred (w : RWord)
  | vote (w : RWord)
  | kcg (w : RWord)
  | pairedWord (w : PWord)
  | ld (w : MWord)
  | st (w : MWord)
  | ldt (w : MWord)
  | pref (w : MWord)
  | atom (w : MWord)
  | red (w : MWord)
  | aord (w : MWord)
  | waitc (w : MWord)
  | qpush (w : MWord)
  | qpop (w : MWord)
  | fset (w : MWord)
  | fget (w : MWord)
  | claim (w : MWord)
  | rxst (w : MWord)
  | cpq (w : MWord)
  | launch (w : MWord)
  | wb (w : MWord)
  | macq (w : XWord)
  | marel (w : XWord)
  | mcvr (w : XWord)
  | mma (w : XWord)
  | mld (w : XWord)
  | mzero (w : XWord)
  | mdrain (w : XWord)
  | mfill (w : XWord)
  | mcopy (w : XWord)
  | mstat (w : XWord)
  | bwait (w : XWord)
  | bset (w : XWord)
  | srnext (w : XWord)
  | tcopy (w : XWord)
  | skins (w : XWord)
  | skdel (w : XWord)
  | skxch (w : XWord)
  | skpeel (w : XWord)
  | rlbeg (w : XWord)
  | rwave (w : XWord)
  | rlend (w : XWord)
  | rxbeg (w : XWord)
  | rxin (w : XWord)
  | rxout (w : XWord)
  | rxjac (w : XWord)
  | rxend (w : XWord)
  | rxcmt (w : XWord)
  | rxabort (w : XWord)
  | nop (w : XWord)
  | bra (w : XWord)
  | brs (w : XWord)
  | jmp (w : XWord)
  | call (w : XWord)
  | ret (w : XWord)
  | join (w : XWord)
  | spawn (w : XWord)
  | fend (w : XWord)
  | yield (w : XWord)
  | arrive (w : XWord)
  | waitb (w : XWord)
  | fence (w : XWord)
  | rdsr (w : XWord)
  | wrsr (w : XWord)
  | trap (w : XWord)
  | eret (w : XWord)
  | brk (w : XWord)
  | twc (w : XWord)
  | tlbinv (w : XWord)
  | issuePick (core : Nat)
  | hostAppend (ctx q : Nat) (copy : Bool) (record : HostRecord)
  | launchQueueTake (ctx q : Nat)
  | pendingLaunchTake (core : Nat)
  | teamSteal (grid n home : Nat)
  | teamAdmission (grid n : Nat)
  | gridRetire (grid : Nat)
  | swapOut (group : Nat)
  | swapIn (group : Nat)
  | binTimeout (core bin : Nat)
  | binFormGroup (core bin : Nat)
  | longLatencyWriteback (producer : Nat)
  | sfuEntryStart (core : Nat)
  | sfuWriteback (core : Nat)
  | engineOpStart (core : Nat)
  | engineOpEnd (core : Nat)
  | peerAdd (core : Nat)
  | copyPacketTake (ctx q : Nat)
  | copyLineLand (copy line : Nat)
  | copySourceReadDone (copy : Nat)
  | copyComplete (copy : Nat)
  | copyFault (copy code addr : Nat)
  | cpqPublish (core : Nat)
  | ringDepthAdjust (team teamCore ring depth : Nat)
  | tcDrain (core line : Nat)
  | qchPerform (channel : Nat)
  | redAccumulate (index : Nat)
  | hPerform (index : Nat)
  | hostAccess (req : HostReq)
  | biasSetRequest (frame : Nat)
  | aordArrival (op lane : Nat)
  | aordRetry (op lane : Nat)
  | monitorWake (group : Nat)
  | waitcTimeout (group : Nat)
  | waitReread (group : Nat)
  | waveDecide (team role : Nat)
  | passEnd (team : Nat)
  | collectiveContribute (grid : Nat)
  | collectiveMessage (grid : Nat) (msg : PortMsg)
  | collectiveFinish (grid : Nat)
  | collectiveTimeoutFlush (grid : Nat)
  | collectiveWatchdog (grid : Nat)
  | collectiveAbort (grid : Nat)
  | collectivePacketTake (packet : Nat) (answer : RemoteAnswer)
  | exchangeRound (exchange : Nat) (peer : PeerFold)
  | trapEntry (group : Nat)
  | handlerWindowFree (core : Nat)
  | preemptRequest (ctx : Nat)
  | contextSave (ctx : Nat)
  | contextRestore (ctx : Nat)
  | debugHaltRequest (group : Nat)
  | programBufferStart (group : Nat) (words : BufferReq)
  | debugResume (group : Nat)
  | profileSample (core : Nat) (m : ProfileMeasure)
  | reuseSample (req : ReuseReq)
  | contextDestroy (ctx : Nat)
  | contextKill (ctx : Nat)
  | errorEvent (req : ErrorReq)
  | journalEntryTimeout
  | clockLower
  | powerOn (held strap : Bool)
  | provisioningWrite (p : ProvReq)
  | queueRegister (req : QueueReq)
  | imageLoad (req : ImageReq)
  | imageUnload (ctx image : Nat)
  | accessTableWrite (req : AccessReq)
  | formatWindowWrite (stack index : Nat) (words : List DWord)
  | watchpointSet (ctx index : Nat) (w : Option Watchpoint)
  | reservationGrant (ctx slots kib : Nat)
  | tokenBucketSet (ctx cls : Nat) (collective : Bool) (rate burst : Nat)
  | domainJoin (ctx rank gx gy gz : Nat)
  | deviceReset (held : Bool)
  | contextCreate (req : CtxReq)
  | engineLineComplete (core line : Nat)
  | clockRestore
  | debuggerAttach (ctx : Nat) (haltOnTrap : Bool)
  | profilingEnable (ctx interval : Nat)
  | partitionAssign (dies : List Nat) (ctxs : List Nat)
  | tokenBucketRefill (ctx cls : Nat) (collective : Bool)
  deriving DecidableEq, Repr

end Sys2Proof
end

