-- ==== Sys2Proof/Machine/Legal.lean ====
section
/-! DEFINITION. Which words are assigned instructions (R23, R26, R29-R36, R39, R160-R187, R200-R210, R228, R246, R270,
R297, R322 and the other field tables). A word that fails a check here is ILLOP, or ILLPAIR by R37; what depends on the
kernel or the group (R17, R127, R300) is checked at issue. -/

namespace Sys2Proof

namespace Ty

/-- Width of a type in bits (R41). -/
def width : Ty → Nat
  | .i64 | .n64 | .f64 => 64
  | .i32 | .n32 | .f32 => 32
  | .f16 | .bf16 | .i16 | .n16 => 16
  | .e4m3 | .e5m2 | .l6 | .i8 | .n8 => 8

/-- An integer type (R73 Table 1). -/
def isInt : Ty → Bool
  | .i8 | .n8 | .i16 | .n16 | .i32 | .n32 | .i64 | .n64 => true
  | _ => false

/-- A signed integer type. -/
def signed : Ty → Bool
  | .i8 | .i16 | .i32 | .i64 => true
  | _ => false

/-- A floating type (R75 Table 2 and l6). -/
def isFloat (t : Ty) : Bool := !t.isInt

/-- f64, f32, f16 and bf16, the types of floating arithmetic (R173). -/
def isArith : Ty → Bool
  | .f64 | .f32 | .f16 | .bf16 => true
  | _ => false

/-- i32, n32, i64 and n64, the types of logic and shifts (R168). -/
def isLogic : Ty → Bool
  | .i32 | .n32 | .i64 | .n64 => true
  | _ => false

/-- i32 and n32. -/
def is32 : Ty → Bool
  | .i32 | .n32 => true
  | _ => false

/-- The wide type that `addw` gives B and D (R166 Table 4), for the types it accepts. -/
def widened : Ty → Option Ty
  | .i8 => some .i16 | .n8 => some .n16 | .i16 => some .i32 | .n16 => some .i32
  | .i32 => some .i64 | .n32 => some .n64
  | _ => none

/-- TYPE codes (R30 Table 7); 15 is reserved. -/
def ofCode : Nat → Option Ty
  | 0 => some .i32 | 1 => some .n32 | 2 => some .i64 | 3 => some .n64 | 4 => some .f32 | 5 => some .f64
  | 6 => some .f16 | 7 => some .bf16 | 8 => some .e4m3 | 9 => some .e5m2 | 10 => some .l6 | 11 => some .i16
  | 12 => some .n16 | 13 => some .i8 | 14 => some .n8
  | _ => none

/-- The code of a type (R30 Table 7). -/
def code : Ty → Nat
  | .i32 => 0 | .n32 => 1 | .i64 => 2 | .n64 => 3 | .f32 => 4 | .f64 => 5 | .f16 => 6 | .bf16 => 7
  | .e4m3 => 8 | .e5m2 => 9 | .l6 => 10 | .i16 => 11 | .n16 => 12 | .i8 => 13 | .n8 => 14

/-- The formats with block scales (R86). -/
def scaled : Ty → Bool
  | .e4m3 | .e5m2 | .l6 => true
  | _ => false

/-- Registers that a value of the type occupies (R24). -/
def regs (t : Ty) : Nat := if t.width = 64 then 2 else 1

end Ty

namespace Rnd

/-- RND codes (R30 Table 7); 7 is reserved. -/
def ofCode : Nat → Option Rnd
  | 0 => some .rne | 1 => some .rtz | 2 => some .rup | 3 => some .rdn | 4 => some .rna | 5 => some .sr
  | 6 => some .dyn
  | _ => none

/-- The code of a mode. -/
def code : Rnd → Nat
  | .rne => 0 | .rtz => 1 | .rup => 2 | .rdn => 3 | .rna => 4 | .sr => 5 | .dyn => 6

end Rnd

namespace Operand

def isV : Operand → Bool | .v _ => true | _ => false
def isS : Operand → Bool | .s _ => true | _ => false
def isO : Operand → Bool | .o _ => true | _ => false
def isH : Operand → Bool | .h _ => true | _ => false
def isK : Operand → Bool | .k _ => true | _ => false
def isA : Operand → Bool | .a _ => true | _ => false

/-- The number that the field's pattern holds (R23 Table 2). -/
def idx : Operand → Nat
  | .v i => i.toNat | .s i => i.toNat | .o i => i.toNat | .h i => i.toNat | .k i => i.toNat | .a i => i.toNat

/-- v, s or o: the classes with a full/empty bit (R17, R25). -/
def hasBit (x : Operand) : Bool := x.isV || x.isS || x.isO

/-- A register class of the vector formats: v, s, o or h. -/
def isReg (x : Operand) : Bool := x.hasBit || x.isH

/-- Registers of the operand's class (R17 Table 3). -/
def limit : Operand → Nat
  | .v _ | .s _ | .a _ => 256 | .o _ => 16 | .h _ => 4 | .k _ => 32

/-- A block of n registers from an index that is a multiple of n; a constant stands for itself (R24). -/
def block (x : Operand) (n : Nat) : Bool := x.isK || (x.idx % n == 0 && x.idx + n ≤ x.limit)

end Operand

/-- A guard with GE = 0 has every other bit zero (R27). -/
def Guard.ok (g : Guard) : Bool := g.ge || (!g.gn && !g.gc && g.greg == 0 && g.gbit == 0)

/-- The guard is off or of class s. -/
def Guard.uniform (g : Guard) : Bool := !g.gc

/-- The exact value of an inline constant (R26 Table 3), as a fraction `num / 2^k`; the infinities and −0.0 are
given by their class alone. -/
inductive ConstVal where
  | int (x : Int)
  | frac (neg : Bool) (num : Nat) (log2den : Nat)
  | inf (neg : Bool)
  deriving DecidableEq, Repr

/-- Inline constants (R26 Table 3). -/
def constVal (i : BitVec 5) : ConstVal :=
  match i.toNat with
  | 0 => .int 0 | 1 => .int 1 | 2 => .int 2 | 3 => .int 3 | 4 => .int 4 | 5 => .int 8 | 6 => .int 16
  | 7 => .int 32 | 8 => .int 64 | 9 => .int 128 | 10 => .int 255 | 11 => .int (-1) | 12 => .int (-2)
  | 13 => .int (-4) | 14 => .int 2147483647 | 15 => .int (-2147483648)
  | 16 => .frac false 0 0 | 17 => .frac true 0 0 | 18 => .frac false 1 0 | 19 => .frac true 1 0
  | 20 => .frac false 2 0 | 21 => .frac true 2 0 | 22 => .frac false 1 1 | 23 => .frac true 1 1
  | 24 => .frac false 4 0 | 25 => .frac true 4 0 | 26 => .frac false 1 2 | 27 => .frac false 8 0
  | 28 => .frac false 1 3 | 29 => .frac false 3 0 | 30 => .inf false | _ => .inf true

/-- An integer constant fits only an integer slot, and a floating constant only a floating slot whose type encodes it:
E4M3 has no infinity, and L6 has no −0.0, no 3.0 and no infinity (R26). -/
def constFits (i : BitVec 5) (t : Ty) : Bool :=
  match constVal i with
  | .int _ => t.isInt
  | .frac neg n _ =>
    t.isFloat && !(t == .l6 && (n == 3 || (neg && n == 0)))
  | .inf _ => t.isFloat && t != .e4m3 && t != .l6

/-- A source or destination of the vector formats read as type t: a pair is even, a constant fits (R24, R26). -/
def Operand.fits (x : Operand) (t : Ty) : Bool :=
  match x with
  | .k i => constFits i t
  | .a _ => false
  | _ => x.idx % t.regs == 0

/-- A hint of an operand is allowed only when the operand is present and of class v, o or s (R29). -/
def hintsOk (h : Hints) (a b c : Option Operand) : Bool :=
  let ok := fun (x : Option Operand) => match x with | some y => y.hasBit | none => false
  ((!h.lua && !h.tea) || ok a) && ((!h.lub && !h.teb) || ok b) && (!h.tec || ok c)

namespace ROp

/-- Instructions with no B (R160 Table 1). -/
def unary : ROp → Bool
  | .mov | .not | .abs | .neg | .popc | .clz | .brev | .frnd | .fclass | .fcvt | .sfu | .xacc | .xcvt
  | .scan | .lred | .vote => true
  | _ => false

/-- The instructions that combine lanes are never uniform (R182). -/
def crossLane : ROp → Bool
  | .shfl | .push | .bcast | .scan | .lred | .vote => true
  | _ => false

/-- Shifts read their amount as n32 (R168). -/
def shift : ROp → Bool
  | .shl | .shr | .sar | .rotl => true
  | _ => false

/-- Instructions that read part of their destination (R161). -/
def readsD : ROp → Bool
  | .cmp | .fcmp | .xacc => true
  | _ => false

/-- TYPEs that an instruction accepts (R165-R187). -/
def accepts (op : ROp) (t : Ty) : Bool :=
  match op with
  | .add | .sub | .min | .max | .abs | .neg | .cmp => t.isInt
  | .addw => t.widened.isSome
  | .mul24 | .mul32 | .mulhi | .mad24 | .mad32 | .bfx | .bfi => t.is32
  | .and | .or | .xor | .not | .andn | .shl | .shr | .sar | .rotl | .popc | .clz | .brev => t.isLogic
  | .sel | .mov | .shfl | .push | .bcast | .fcvt => true
  | .lea => t == .i64
  | .fadd | .fsub | .fmul | .fma | .fmin | .fmax | .frnd | .fscale => t.isArith
  | .fcmp | .fclass => t.isFloat
  | .sfu => t == .f32 || t == .f16 || t == .bf16
  | .xacc => t == .f64 || t == .f32 || t.isLogic
  | .xcvt => t.isArith || t.isLogic
  | .scan | .lred => t.isInt || t.isArith
  | .vote => t == .n32 || t == .n64
  | .kcg => t == .n32

/-- Instructions that accept every RND (R78, R173, R176, R178, R181, R185). -/
def takesRnd (op : ROp) (t : Ty) : Bool :=
  match op with
  | .fadd | .fsub | .fmul | .fma | .frnd | .fscale | .fcvt | .sfu | .xcvt => true
  | .scan | .lred => t.isFloat
  | _ => false

/-- Instructions that accept SAT = 1 (R165 Table 3, R166, R173, R176, R178, R181, R185). -/
def takesSat (op : ROp) : Bool :=
  match op with
  | .add | .sub | .mul24 | .mul32 | .mad24 | .mad32 | .abs | .neg | .addw | .fadd | .fsub | .fmul | .fma | .fscale
  | .fcvt | .sfu | .xcvt | .scan | .lred => true
  | _ => false

/-- Instructions that require C; every other has none (R162). -/
def takesC : ROp → Bool
  | .mad24 | .mad32 | .bfi | .sel | .fma | .push => true
  | _ => false

/-- The op-specific bits M[31:21] (R167, R170, R171, R175-R187): no reserved value, no undefined bit. -/
def opxOk (op : ROp) (w : RWord) : Bool :=
  let x := w.opx.toNat
  match op with
  | .cmp => x % 8 < 6 && x < 256
  | .fcmp => x < 256
  | .lea => x ≤ 4
  | .sel => x < 32
  | .fcvt => x < 15
  | .sfu => x ≤ 8
  | .xacc | .xcvt => true
  | .scan | .lred =>
    x < 6 &&
    (if w.ty.isInt then x < 3 || (w.ty.isLogic && !w.sat) else x == 0 || (x < 3 && w.rnd == .rne && !w.sat))
  | .vote => x < 256 && x / 4 % 2 == 0
  | _ => x == 0

/-- The type of the slots D, A, B and C (R165-R187); D of `cmp` is one register read and written as n32. -/
def slotD (op : ROp) (w : RWord) : Ty :=
  match op with
  | .addw => w.ty.widened.getD .i64
  | .fcvt => (Ty.ofCode w.opx.toNat).getD .i32
  | .cmp | .fcmp | .popc | .clz | .fclass | .xacc | .kcg => .n32
  | _ => w.ty

@[inherit_doc slotD] def slotA (op : ROp) (w : RWord) : Ty :=
  match op with
  | .vote | .xcvt | .kcg => .n32
  | _ => w.ty

@[inherit_doc slotD] def slotB (op : ROp) (w : RWord) : Ty :=
  match op with
  | .addw => w.ty.widened.getD .i64
  | .shl | .shr | .sar | .rotl | .bfx | .bfi | .lea | .shfl | .push | .bcast => .n32
  | .fscale => .i32
  | .kcg => .n64
  | _ => w.ty

@[inherit_doc slotD] def slotC (op : ROp) (w : RWord) : Ty :=
  match op with
  | .sel | .push => .n32
  | _ => w.ty

/-- A uniform instruction: D and every source are of class s or constants, and it does not combine lanes (R34, R160). -/
def uniform (op : ROp) (w : RWord) : Bool :=
  let sk := fun (x : Operand) => x.isS || x.isK
  !op.crossLane && w.d.isS && sk w.a && (op.unary || sk w.b) && (match w.c with | some c => sk c | none => true)

/-- The operand classes beyond R160 Table 1 (R161, R180-R187). -/
def classesOk (op : ROp) (w : RWord) : Bool :=
  match op with
  | .cmp | .fcmp | .sfu => w.d.hasBit
  | .push => (w.d.isV || w.d.isO) && (match w.c with | some c => c.isS | none => false)
  | .bcast => w.b.isS || w.b.isK
  | .xacc => (w.d.isV || w.d.isS) && w.d.block 8
  | .xcvt => (w.a.isV || w.a.isS && op.uniform w) && w.a.block 8
  | .kcg => w.d.hasBit && w.a.hasBit && w.d.isS == w.a.isS && w.d.block 4 && w.a.block 4 && w.d != w.a
  | _ => true

/-- An assigned word of format 0 (R39). -/
def wf (op : ROp) (w : RWord) : Bool :=
  w.guard.ok &&
  op.accepts w.ty && (w.rnd == .rne || op.takesRnd w.ty) && (!w.sat || op.takesSat) &&
  (w.c.isSome == op.takesC) && op.opxOk w &&
  w.d.isReg && w.d.fits (op.slotD w) &&
  (w.a.isReg || w.a.isK) && w.a.fits (op.slotA w) &&
  (if op.unary then w.b == .zero else (w.b.isReg || w.b.isK) && w.b.fits (op.slotB w)) &&
  (match w.c with | some c => (c.isReg || c.isK) && c.fits (op.slotC w) | none => true) &&
  op.classesOk w &&
  (!w.d.isS || op.uniform w || op == .bcast || op == .lred || op == .vote) &&
  (!op.uniform w || w.guard.uniform) &&
  hintsOk w.hints (some w.a) (if op.unary then none else some w.b) (if op == .push then none else w.c)

end ROp

namespace IOp

/-- The format-0 opcode that a format-1 opcode stands for (R31). -/
def toR : IOp → ROp
  | .add => .add | .sub => .sub | .mul24 => .mul24 | .mul32 => .mul32 | .min => .min | .max => .max
  | .and => .and | .or => .or | .xor => .xor | .andn => .andn | .shl => .shl | .shr => .shr | .sar => .sar
  | .rotl => .rotl | .cmp => .cmp | .mov => .mov | .lea => .lea

/-- The implied TYPE (R31 Table 8). -/
def ty : IOp → Ty
  | .lea => .i64
  | _ => .i32

/-- The must-be-zero bits of the immediate are zero (R31 Table 8). -/
def immOk (op : IOp) (imm : Word) : Bool :=
  match op with
  | .shl | .shr | .sar | .rotl => imm.toNat < 32
  | .cmp => imm.toNat < 2 ^ 24 && imm.toNat / 2 ^ 21 < 6
  | _ => true

/-- Uniform: D and A are of class s or constants (R34); the I form of `mov` reads only the immediate (R50). -/
def uniform (op : IOp) (w : ImmWord) : Bool := w.d.isS && (op == .mov || w.a.isS || w.a.isK)

/-- An assigned word of format 1 (R31, R39). -/
def wf (op : IOp) (w : ImmWord) : Bool :=
  w.guard.ok && op.immOk w.imm &&
  w.d.isReg && (op != .cmp || w.d.hasBit) && w.d.fits op.ty &&
  (if op == .mov then w.a == .zero else (w.a.isReg || w.a.isK) && w.a.fits op.ty) &&
  (!w.d.isS || op.uniform w) && (!op.uniform w || w.guard.uniform) &&
  hintsOk w.hints (if op == .mov then none else some w.a) none none

end IOp

namespace PHalf

/-- The opcodes that half 0 and half 1 accept (R36 Table 14). -/
def opOk (half1 : Bool) : ROp → Bool
  | .add | .sub | .min | .max | .and | .or | .xor | .andn | .shl | .shr | .sar | .rotl | .mov | .not | .abs | .neg
  | .fmin | .fmax => true
  | .mul24 | .fadd | .fsub | .fmul => !half1
  | _ => false

/-- The paired types (R36 Table 14). -/
def tyOk : Ty → Bool
  | .i32 | .n32 | .i64 | .f32 | .f16 | .bf16 | .i16 | .n16 => true
  | _ => false

/-- Registers of B: a shift amount is one register (R168). -/
def bRegs (h : PHalf) : Nat := if h.op.shift then 1 else h.ty.regs

/-- A 64-bit operand names an even register (R24). -/
def evenOk (h : PHalf) : Bool :=
  h.d.toNat % h.ty.regs == 0 && h.a.toNat % h.ty.regs == 0 && (h.op.unary || h.b.toNat % h.bRegs == 0)

/-- The registers written. -/
def dSpan (h : PHalf) : List Nat := (List.range h.ty.regs).map (h.d.toNat + ·)

/-- The registers read; the B of a unary half is not a source (R37). -/
def srcSpan (h : PHalf) : List Nat :=
  (List.range h.ty.regs).map (h.a.toNat + ·) ++
  (if h.op.unary then [] else (List.range h.bRegs).map (h.b.toNat + ·))

/-- The half's operation, types and unused B (R37). -/
def ok (half1 : Bool) (h : PHalf) : Bool :=
  opOk half1 h.op && h.op.accepts h.ty && (!h.op.unary || h.b == 0)

end PHalf

namespace PWord

/-- Fields whose breach is ILLOP (R36, R39, R24, R29; with one unary half the hints of B stand for the other half, log 84). -/
def wfOp (w : PWord) : Bool :=
  w.guard.ok && !w.hints.tec && w.h0.evenOk && w.h1.evenOk && PHalf.tyOk w.h0.ty && PHalf.tyOk w.h1.ty &&
  ((!w.hints.lub && !w.hints.teb) || !w.h0.op.unary || !w.h1.op.unary)

/-- The cases of R37, whose breach is ILLPAIR. -/
def wfPair (w : PWord) : Bool :=
  w.h0.ok false && w.h1.ok true &&
  w.h0.dSpan.all (fun r => !w.h1.srcSpan.contains r && !w.h1.dSpan.contains r) &&
  (let srcs := w.h0.srcSpan ++ w.h1.srcSpan
   srcs.all fun x => srcs.all fun y => x % 16 != y % 16 || x == y)

/-- An assigned paired word (R36, R37). -/
def wf (w : PWord) : Bool := w.wfOp && w.wfPair

end PWord

namespace Width

/-- Bits moved per element (R32 Table 9). -/
def bits : Width → Nat
  | .w8 | .tl8 => 8 | .w16 | .tl16 => 16 | .w32 | .tl32 => 32 | .w64 => 64 | .w128 => 128

/-- A tile form. -/
def tile : Width → Bool
  | .tl32 | .tl16 | .tl8 => true
  | _ => false

/-- Consecutive registers that a lane's datum occupies (R228). -/
def regs : Width → Nat
  | .w64 => 2 | .w128 => 4 | .tl32 | .tl16 | .tl8 => 16
  | _ => 1

/-- 32 or 64 bits: the widths of the synchronisation instructions (R270). -/
def sync (w : Width) : Bool := w == .w32 || w == .w64

end Width

namespace MWord

/-- AOP, whose bit 3 lies in the TEC position (R271). -/
def aop (w : MWord) : Nat := w.opx.toNat + (if w.hints.tec then 8 else 0)

/-- The address operand of Table 1 of Feeding Data (R213). -/
def addrOk (w : MWord) : Bool :=
  match w.space with
  | .global | .const => (w.a.isV || w.a.isS) && w.a.idx % 2 == 0
  | .spad | .rspad => w.a.isReg

/-- The integer or floating type of the datum slots of an atomic (R26, R271). -/
def atomTy (w : MWord) : Ty :=
  if w.aop = 11 then (if w.width == .w64 then .f64 else .f32) else (if w.width == .w64 then .n64 else .n32)

/-- An s or v pair holding an address. -/
def pairVS (x : Operand) : Bool := (x.isV || x.isS) && x.idx % 2 == 0

/-- An s block from a multiple of n. -/
def sBlock (x : Operand) (n : Nat) : Bool := x.isS && x.block n

end MWord

namespace MOp

/-- Instructions that execute once for the group whatever their operands (R270, R251, R112). -/
def once : MOp → Bool
  | .waitc | .qpush | .qpop | .cpq | .launch => true
  | _ => false

/-- A uniform form executes once (R228, R270). -/
def uniform (op : MOp) (w : MWord) : Bool :=
  let sk := w.b.isS || w.b.isK
  match op with
  | .ld | .st => w.d.isS && w.a.isS
  | .atom | .aord => w.d.isS && w.a.isS && sk
  | .red => w.a.isS && sk
  | .fset => w.d.isS && w.a.isS && w.b.isS
  | .fget => w.d.isS && w.a.isS
  | .waitc | .qpush | .qpop | .cpq | .launch => true
  | _ => false

/-- The operand classes, widths, spaces, scopes and op-specific bits of each format-2 instruction (R112, R228 Table 6,
R251, R270 Table 1, R271 Table 2, R297 Table 1, R322 Table 5). -/
def fieldsOk (op : MOp) (w : MWord) : Bool :=
  let z := Operand.zero
  let scope23 := w.scope == .device || w.scope == .system
  let n := w.width.regs
  let hint := w.opx.toNat < 3
  let dataB := (w.b.isReg || w.b.isK) && w.b.fits w.atomTy
  match op with
  | .ld => w.d.hasBit && w.d.block n && w.addrOk && w.b == z && !w.width.tile && hint && (!w.d.isS || w.a.isS)
  | .st =>
    w.addrOk && w.space != .const && hint && (!w.d.isS || w.a.isS) &&
    (if w.width.tile then w.d.isReg && w.d.idx + 16 ≤ w.d.limit && w.b.isS
     else (w.d.isReg || w.d.isK) && w.d.block n && w.b == z &&
       (match w.d with
        | .k i => w.width != .w128 && constFits i (if w.width == .w64 then .n64 else .n32)
        | _ => true))
  | .ldt => w.d.isV && w.d.block 16 && w.a.isS && w.addrOk && w.b.isS && w.width.tile && w.space != .const && hint
  | .pref =>
    w.d == z && w.addrOk && w.b == z && w.width == .w8 && (w.space == .global || w.space == .const) && w.opx.toNat < 2
  | .wb => w.d == z && w.addrOk && w.b == z && w.width == .w8 && w.space == .global && w.opx.toNat < 2
  | .atom =>
    w.d.hasBit && w.d.block n && w.addrOk && dataB && w.width.sync && w.space != .const && w.aop ≤ 11 &&
    (!w.d.isS || w.a.isS)
  | .red =>
    w.d == z && w.addrOk && dataB && w.width.sync && w.space != .const && w.aop ≤ 11 && w.aop != 6 && w.aop != 7 &&
    w.aop != 8
  | .aord =>
    w.d.hasBit && w.d.block n && MWord.pairVS w.a && dataB && w.width.sync && w.space == .global && scope23 &&
    w.aop ≤ 11 && w.aop != 7 && (!w.d.isS || w.a.isS)
  | .waitc =>
    MWord.sBlock w.d 2 && MWord.sBlock w.a 2 && MWord.sBlock w.b 4 && w.width.sync && w.space == .global && scope23 &&
    w.opx.toNat < 6
  | .qpush =>
    w.d == z && MWord.sBlock w.a 2 && MWord.sBlock w.b n && w.width.sync && w.space == .global && scope23 && w.opx == 0
  | .qpop =>
    MWord.sBlock w.d n && MWord.sBlock w.a 2 && w.b == z && w.width.sync && w.space == .global && scope23 && w.opx == 0
  | .fset =>
    w.d.hasBit && MWord.pairVS w.a && w.b.hasBit && w.b.block 2 && w.width == .w64 && w.space == .global && scope23 &&
    w.opx == 0 && (!w.d.isS || w.a.isS)
  | .fget =>
    w.d.hasBit && w.d.block 2 && MWord.pairVS w.a && w.b == z && w.width == .w64 && w.space == .global && scope23 &&
    w.opx.toNat < 2 && (!w.d.isS || w.a.isS)
  | .claim => w.d == z && MWord.pairVS w.a && w.b == z && w.width == .w8 && w.space == .global && w.opx == 0
  | .rxst =>
    (w.d.isReg || w.d.isK) && w.d.block n && MWord.pairVS w.a && w.b == z && w.width.sync && w.space == .global &&
    scope23 && w.opx == 0 &&
    (match w.d with | .k i => constFits i (if w.width == .w64 then .n64 else .n32) | _ => true)
  | .cpq =>
    (w.d == z || MWord.sBlock w.d 2) && MWord.sBlock w.a 2 && MWord.sBlock w.b 16 && w.width == .w8 &&
    w.space == .global && scope23 && w.opx == 0
  | .launch =>
    w.d.isS && MWord.sBlock w.a 2 && w.b == z && w.width == .w8 && w.space == .global && scope23 && w.opx == 0

/-- Instructions whose guard must be off or of class s (R251, R270). -/
def sGuard : MOp → Bool
  | .waitc | .qpush | .qpop | .cpq => true
  | _ => false

/-- The hints (R228, R270), less the bits that `fset` (TEA, R285) and the atomics (TEC, R271) redefine. -/
def hintsFit (op : MOp) (w : MWord) : Bool :=
  let b := match op with
    | .st => if w.width.tile then some w.b else none
    | .ldt | .atom | .red | .aord | .waitc | .qpush | .fset | .cpq => some w.b
    | _ => none
  let h := match op with
    | .atom | .red | .aord => { w.hints with tec := false }
    | .fset => { w.hints with tea := false }
    | _ => w.hints
  hintsOk h (some w.a) b none

/-- An assigned word of format 2 (R39). -/
def wf (op : MOp) (w : MWord) : Bool :=
  w.guard.ok && op.fieldsOk w && (!op.sGuard || w.guard.uniform) && op.hintsFit w

end MOp

namespace XWord

/-- Bits hi down to lo of M (R41). -/
def f (w : XWord) (hi lo : Nat) : Nat := w.m.toNat / 2 ^ lo % 2 ^ (hi + 1 - lo)

/-- The handle operand's REM and CORE agree (R245). -/
def handleOk (w : XWord) : Bool := w.f 10 10 == 1 || w.f 9 8 == 0

end XWord

/-- The element types of the matrix engine (R204 Table 5). -/
def Ty.engine : Ty → Bool
  | .e4m3 | .e5m2 | .l6 | .bf16 | .f16 | .f32 | .f64 => true
  | _ => false

/-- The block depth kb of a format (R191). -/
def Ty.blockDepth (t : Ty) : Nat := if t.scaled then 32 else 8

/-- The format pairs that `mma` accepts (R204). -/
def mmaPair (ta tb : Ty) : Bool :=
  ta.engine && (ta == tb || (ta == .e4m3 && tb == .e5m2) || (ta == .e5m2 && tb == .e4m3))

namespace XOp

/-- The operands that hints may name (R200, R246, R297, R322, R337, R345, R350). -/
def presentA : XOp → XWord → Bool
  | .mma, _ | .mld, _ | .mdrain, _ | .mfill, _ | .mcopy, _ | .tcopy, _ | .skins, _ | .skdel, _ | .skxch, _
  | .skpeel, _ | .rlbeg, _ | .rxbeg, _ | .rxout, _ | .rxjac, _ | .rxcmt, _ => true
  | .bset, w => w.f 18 16 == 3
  | _, _ => false

@[inherit_doc presentA] def presentB : XOp → XWord → Bool
  | .mma, _ | .mdrain, _ | .tcopy, _ | .skins, _ | .skdel, _ | .skpeel, _ | .rlbeg, _ => true
  | .rxbeg, w => w.b != .zero
  | _, _ => false

/-- Operand classes and M layout of each format-3 instruction (R200-R210, R246, R248, R297, R322, R337, R345, R350). -/
def fieldsOk (op : XOp) (w : XWord) : Bool :=
  let z := Operand.zero
  let m := w.m.toNat
  let dz := w.d == z
  let az := w.a == z
  let bz := w.b == z
  match op with
  | .macq | .marel | .rlend | .rxend | .rxabort => dz && az && bz && m == 0
  | .mcvr => dz && az && bz && m < 2 ^ 16 && 1 ≤ w.f 11 0 && w.f 11 0 ≤ 2048
  | .mma =>
    w.d.isA && MWord.sBlock w.a 2 && MWord.sBlock w.b 2 && m < 2 ^ 29 && (w.f 20 20 == 1 || w.f 19 16 == 0) &&
    (match Ty.ofCode (w.f 3 0), Ty.ofCode (w.f 7 4) with
     | some ta, some tb =>
       mmaPair ta tb && (8 * (w.f 15 8 + 1)) % ta.blockDepth == 0 &&
       (if ta == .f64 then w.d.idx % 2 == 0 && w.d.idx ≤ 250 else w.d.idx ≤ 253)
     | _, _ => false)
  | .mld =>
    w.d.isS && MWord.sBlock w.a 8 && bz && m < 2 ^ 27 && w.f 10 8 != 7 && w.f 13 12 != 3 && w.f 17 16 != 3 &&
    (match Ty.ofCode (w.f 3 0), Ty.ofCode (w.f 7 4) with
     | some ts, some td =>
       (w.f 17 16 == 0 || ts.isFloat) && (w.f 18 18 == 0 || (td.scaled && w.f 13 12 != 0))
     | _, _ => false)
  | .mzero => w.d.isA && az && bz && m < 256 && w.d.idx + m < 256
  | .mdrain =>
    w.a.isA && m < 2 ^ 25 && w.f 6 4 != 7 &&
    (let n := w.f 16 14 + 1
     let f64 := w.f 13 13 == 1
     w.a.idx + n ≤ 256 && (!f64 || (n % 2 == 0 && w.a.idx % 2 == 0)) &&
     match Ty.ofCode (w.f 3 0) with
     | none => false
     | some t =>
       match w.f 9 8 with
       | 0 => MWord.sBlock w.d 2 && MWord.sBlock w.b 4
       | 1 => w.d.isV && MWord.sBlock w.b 4 && n == 1 && !f64 && t.width != 64
       | 2 =>
         w.d.isA && w.b.isS && w.d.idx + n ≤ 256 && t == (if f64 then .f64 else .f32) && w.f 6 4 != 5 &&
         (!f64 || w.d.idx % 2 == 0)
       | _ => false)
  | .mfill => w.d.isA && MWord.sBlock w.a 2 && bz && m < 512 && w.d.idx + w.f 7 0 < 256
  | .mcopy => w.d.isA && w.a.isA && bz && m < 256 && w.d.idx + m < 256 && w.a.idx + m < 256
  | .mstat => w.d.isS && az && bz && m < 4
  | .bwait => w.d.isS && az && bz && w.handleOk && w.f 20 16 != 0 && w.f 15 11 == 0 && m < 2 ^ 21
  | .bset =>
    w.d.isS && bz && w.handleOk && w.f 15 11 == 0 && m < 2 ^ 19 && w.f 18 16 < 5 &&
    (if w.f 18 16 == 3 then MWord.sBlock w.a 2 else az)
  | .srnext => w.d.isS && az && bz && m < 512 && (w.f 7 7 == 1 || w.f 6 5 == 0)
  | .tcopy =>
    MWord.sBlock w.d 2 && MWord.sBlock w.a 2 && MWord.sBlock w.b 4 && w.handleOk && w.f 12 11 != 3 && m < 2 ^ 16
  | .skins | .skdel => dz && MWord.pairVS w.a && MWord.sBlock w.b 2 && m < 256
  | .skxch => dz && MWord.sBlock w.a 2 && bz && m < 256
  | .skpeel => w.d.isV && w.d.block 4 && MWord.sBlock w.a 2 && w.b.isS && m == 0
  | .rlbeg => w.d.isV && w.a.isS && w.b.isS && m < 256
  | .rwave => MWord.sBlock w.d 2 && az && bz && m < 2 ^ 16 && w.f 7 5 == 0 && w.f 15 8 != 0
  | .rxbeg => dz && MWord.sBlock w.a 2 && (bz || MWord.sBlock w.b 2) && m < 256
  | .rxin => (w.d.isV || w.d.isO) && az && bz && m < 64 && w.f 3 3 == 0 && w.f 5 4 != 3
  | .rxout => dz && (w.a.isReg || w.a.isK) && w.a.fits .f32 && bz && m < 8
  | .rxjac => dz && (w.a.isReg || w.a.isK) && w.a.fits .f32 && bz && m < 64
  | .rxcmt => dz && w.a.isS && bz && m == 0

/-- Instructions whose guard must be off or of class s (R246, R248, R297, R322, R337, R350). -/
def sGuard : XOp → Bool
  | .bwait | .bset | .srnext | .tcopy | .skxch | .rlbeg | .rwave | .rlend | .rxbeg | .rxcmt | .rxabort => true
  | _ => false

/-- An assigned word of format 3 (R39). -/
def wf (op : XOp) (w : XWord) : Bool :=
  w.guard.ok && op.fieldsOk w && (!op.sGuard || w.guard.uniform) && (op != .rxend || !w.guard.ge) &&
  hintsOk w.hints (if op.presentA w then some w.a else none) (if op.presentB w then some w.b else none) none

end XOp

namespace COp

/-- Operand classes and M layout of each format-4 instruction (R150 Table 3, R262, R282). -/
def fieldsOk (op : COp) (w : XWord) : Bool :=
  let z := Operand.zero
  let m := w.m.toNat
  let dz := w.d == z
  let az := w.a == z
  w.b == z &&
  match op with
  | .nop | .join | .fend => dz && az && m == 0
  | .bra | .brs => dz && az && m < 2 ^ 24
  | .jmp => dz && MWord.pairVS w.a && m < 2 ^ 24
  | .call => MWord.pairVS w.d && az && m < 2 ^ 24
  | .ret => dz && MWord.pairVS w.a && m == 0
  | .spawn => dz && m < 2 ^ 28 && (if w.f 27 24 = 0 then az else w.a.isV && w.a.idx + w.f 27 24 ≤ 256)
  | .yield => dz && az && m < 2 ^ 16
  | .arrive => dz && az && m < 2 ^ 20 && 1 ≤ w.f 11 0 && w.f 11 0 ≤ 2048
  | .waitb => dz && az && m < 2 ^ 21 && w.f 11 0 == 0
  | .fence => dz && az && m < 16

/-- An assigned word of format 4 (R39): the guard of `brs` and `waitb`, and of a `call` that writes an s pair, is off
or of class s (R152, R154, R282). -/
def wf (op : COp) (w : XWord) : Bool :=
  w.guard.ok && op.fieldsOk w &&
  (w.guard.uniform || !(op == .brs || op == .waitb || (op == .call && w.d.isS))) &&
  hintsOk w.hints
    (match op with
     | .jmp | .ret => some w.a
     | .spawn => if w.f 27 24 = 0 then none else some w.a
     | _ => none) none none

end COp

/-- The special registers (R18, R35 Table 12). -/
inductive SReg where
  | laneid | fibid | grpid | teamid | taskidx | role | width | seed | ctxid
  | clk | bintmo | swaptmo | fpmode
  | srdepth | rxstat | rxres | rxpass | rlstat | skstat | cstat | lqstat
  | trapcause | trappc | trapaddr | traplanes | traplevel | dbgdata
  deriving DecidableEq, Repr

namespace SReg

/-- Special-register numbers (R35 Table 12). -/
def ofCode : Nat → Option SReg
  | 0x00 => some .laneid | 0x01 => some .fibid | 0x02 => some .grpid | 0x03 => some .teamid | 0x04 => some .taskidx
  | 0x05 => some .role | 0x06 => some .width | 0x07 => some .seed | 0x08 => some .ctxid
  | 0x10 => some .clk | 0x11 => some .bintmo | 0x12 => some .swaptmo | 0x18 => some .fpmode
  | 0x20 => some .srdepth | 0x21 => some .rxstat | 0x22 => some .rxres | 0x23 => some .rxpass | 0x24 => some .rlstat
  | 0x25 => some .skstat | 0x26 => some .cstat | 0x27 => some .lqstat
  | 0x30 => some .trapcause | 0x31 => some .trappc | 0x32 => some .trapaddr | 0x33 => some .traplanes
  | 0x34 => some .traplevel | 0x35 => some .dbgdata
  | _ => none

/-- The 64-bit special registers (R371). -/
def wide : SReg → Bool
  | .taskidx | .seed | .clk | .srdepth | .rxstat | .rlstat | .skstat | .trappc | .trapaddr | .traplanes
  | .dbgdata => true
  | _ => false

/-- Registers with a field that `wrsr` may write (R371), among them those writable only in the handler (R360). -/
def writable : SReg → Bool
  | .bintmo | .swaptmo | .fpmode | .rlstat | .cstat | .lqstat | .trapcause | .trappc | .dbgdata => true
  | _ => false

end SReg

namespace YOp

/-- Operand classes and M layout of each format-6 instruction (R220, R359, R371, R373, R374). -/
def fieldsOk (op : YOp) (w : XWord) : Bool :=
  let z := Operand.zero
  let m := w.m.toNat
  let dz := w.d == z
  let az := w.a == z
  let bz := w.b == z
  match op with
  | .rdsr =>
    az && bz && m < 256 &&
    (match SReg.ofCode m with
     | some .laneid | some .fibid => w.d.isV || w.d.isO
     | some r => w.d.isS && (!r.wide || w.d.idx % 2 == 0)
     | none => false)
  | .wrsr =>
    dz && bz && m < 256 &&
    (match SReg.ofCode m with
     | some r =>
       r.writable && (w.a.isS || w.a.isK) && w.a.fits (if r.wide then .n64 else .n32)
     | none => false)
  | .trap | .brk => dz && az && bz && m < 2 ^ 16
  | .eret => dz && az && bz && m < 2
  | .twc =>
    (dz || w.d.isS) && bz && m < 2 ^ 10 &&
    (if 2 ≤ w.f 9 8 then (w.a.isS || w.a.isK) && w.a.fits .n32 else az)
  | .tlbinv => dz && MWord.sBlock w.a 2 && w.b.isS && m == 0

/-- An assigned word of format 6 (R39). -/
def wf (op : YOp) (w : XWord) : Bool :=
  w.guard.ok && op.fieldsOk w &&
  (w.guard.uniform || !(op == .wrsr || op == .twc || op == .tlbinv || (op == .rdsr && w.d.isS))) &&
  (op != .eret || !w.guard.ge) &&
  hintsOk w.hints
    (match op with
     | .wrsr | .tlbinv => some w.a
     | .twc => if 2 ≤ w.f 9 8 then some w.a else none
     | _ => none)
    (if op == .tlbinv then some w.b else none) none

end YOp

end Sys2Proof
end

