-- ==== Sys2Proof/WellFormed.lean ====
section
/-! DEFINITION. The well-formed instructions: every instruction seen as its format, opcode and word, and the check that
the word is assigned (the field tables stand in Machine/Legal.lean). -/

namespace Sys2Proof

/-- An instruction seen by format: its opcode and its word. Events have no word. -/
inductive View where
  | r (op : ROp) (w : RWord)
  | i (op : IOp) (w : ImmWord)
  | p (w : PWord)
  | m (op : MOp) (w : MWord)
  | x (op : XOp) (w : XWord)
  | c (op : COp) (w : XWord)
  | y (op : YOp) (w : XWord)
  deriving DecidableEq, Repr

/-- The instruction of a format-0 opcode. -/
def ROp.instr (op : ROp) (w : RWord) : Instr :=
  match op with
  | .add => .add w
  | .sub => .sub w
  | .addw => .addw w
  | .mul24 => .mul24 w
  | .mul32 => .mul32 w
  | .mulhi => .mulhi w
  | .mad24 => .mad24 w
  | .mad32 => .mad32 w
  | .min => .min w
  | .max => .max w
  | .abs => .abs w
  | .neg => .neg w
  | .and => .and w
  | .or => .or w
  | .xor => .xor w
  | .not => .not w
  | .andn => .andn w
  | .shl => .shl w
  | .shr => .shr w
  | .sar => .sar w
  | .rotl => .rotl w
  | .popc => .popc w
  | .clz => .clz w
  | .brev => .brev w
  | .bfx => .bfx w
  | .bfi => .bfi w
  | .cmp => .cmp w
  | .sel => .sel w
  | .mov => .mov w
  | .lea => .lea w
  | .fadd => .fadd w
  | .fsub => .fsub w
  | .fmul => .fmul w
  | .fma => .fma w
  | .fmin => .fmin w
  | .fmax => .fmax w
  | .fcmp => .fcmp w
  | .fcvt => .fcvt w
  | .frnd => .frnd w
  | .fclass => .fclass w
  | .fscale => .fscale w
  | .sfu => .sfu w
  | .xacc => .xacc w
  | .xcvt => .xcvt w
  | .shfl => .shfl w
  | .push => .push w
  | .bcast => .bcast w
  | .scan => .scan w
  | .lred => .lred w
  | .vote => .vote w
  | .kcg => .kcg w

/-- The instruction of a format-1 opcode. -/
def IOp.instr (op : IOp) (w : ImmWord) : Instr :=
  match op with
  | .add => .addImm w
  | .sub => .subImm w
  | .mul24 => .mul24Imm w
  | .mul32 => .mul32Imm w
  | .min => .minImm w
  | .max => .maxImm w
  | .and => .andImm w
  | .or => .orImm w
  | .xor => .xorImm w
  | .andn => .andnImm w
  | .shl => .shlImm w
  | .shr => .shrImm w
  | .sar => .sarImm w
  | .rotl => .rotlImm w
  | .cmp => .cmpImm w
  | .mov => .movImm w
  | .lea => .leaImm w

/-- The instruction of a format-2 opcode. -/
def MOp.instr (op : MOp) (w : MWord) : Instr :=
  match op with
  | .ld => .ld w
  | .st => .st w
  | .ldt => .ldt w
  | .pref => .pref w
  | .atom => .atom w
  | .red => .red w
  | .aord => .aord w
  | .waitc => .waitc w
  | .qpush => .qpush w
  | .qpop => .qpop w
  | .fset => .fset w
  | .fget => .fget w
  | .claim => .claim w
  | .rxst => .rxst w
  | .cpq => .cpq w
  | .launch => .launch w
  | .wb => .wb w

/-- The instruction of a format-3 opcode. -/
def XOp.instr (op : XOp) (w : XWord) : Instr :=
  match op with
  | .macq => .macq w
  | .marel => .marel w
  | .mcvr => .mcvr w
  | .mma => .mma w
  | .mld => .mld w
  | .mzero => .mzero w
  | .mdrain => .mdrain w
  | .mfill => .mfill w
  | .mcopy => .mcopy w
  | .mstat => .mstat w
  | .bwait => .bwait w
  | .bset => .bset w
  | .srnext => .srnext w
  | .tcopy => .tcopy w
  | .skins => .skins w
  | .skdel => .skdel w
  | .skxch => .skxch w
  | .skpeel => .skpeel w
  | .rlbeg => .rlbeg w
  | .rwave => .rwave w
  | .rlend => .rlend w
  | .rxbeg => .rxbeg w
  | .rxin => .rxin w
  | .rxout => .rxout w
  | .rxjac => .rxjac w
  | .rxend => .rxend w
  | .rxcmt => .rxcmt w
  | .rxabort => .rxabort w

/-- The instruction of a format-4 opcode. -/
def COp.instr (op : COp) (w : XWord) : Instr :=
  match op with
  | .nop => .nop w
  | .bra => .bra w
  | .brs => .brs w
  | .jmp => .jmp w
  | .call => .call w
  | .ret => .ret w
  | .join => .join w
  | .spawn => .spawn w
  | .fend => .fend w
  | .yield => .yield w
  | .arrive => .arrive w
  | .waitb => .waitb w
  | .fence => .fence w

/-- The instruction of a format-6 opcode. -/
def YOp.instr (op : YOp) (w : XWord) : Instr :=
  match op with
  | .rdsr => .rdsr w
  | .wrsr => .wrsr w
  | .trap => .trap w
  | .eret => .eret w
  | .brk => .brk w
  | .twc => .twc w
  | .tlbinv => .tlbinv w

/-- The instruction that a view names. -/
def View.instr : View → Instr
  | .r op w => op.instr w
  | .i op w => op.instr w
  | .p w => .pairedWord w
  | .m op w => op.instr w
  | .x op w => op.instr w
  | .c op w => op.instr w
  | .y op w => op.instr w

/-- An instruction's view; an event has none. -/
def Instr.view : Instr → Option View
  | .add w => some (.r .add w)
  | .addImm w => some (.i .add w)
  | .sub w => some (.r .sub w)
  | .subImm w => some (.i .sub w)
  | .addw w => some (.r .addw w)
  | .mul24 w => some (.r .mul24 w)
  | .mul24Imm w => some (.i .mul24 w)
  | .mul32 w => some (.r .mul32 w)
  | .mul32Imm w => some (.i .mul32 w)
  | .mulhi w => some (.r .mulhi w)
  | .mad24 w => some (.r .mad24 w)
  | .mad32 w => some (.r .mad32 w)
  | .min w => some (.r .min w)
  | .minImm w => some (.i .min w)
  | .max w => some (.r .max w)
  | .maxImm w => some (.i .max w)
  | .abs w => some (.r .abs w)
  | .neg w => some (.r .neg w)
  | .and w => some (.r .and w)
  | .andImm w => some (.i .and w)
  | .or w => some (.r .or w)
  | .orImm w => some (.i .or w)
  | .xor w => some (.r .xor w)
  | .xorImm w => some (.i .xor w)
  | .not w => some (.r .not w)
  | .andn w => some (.r .andn w)
  | .andnImm w => some (.i .andn w)
  | .shl w => some (.r .shl w)
  | .shlImm w => some (.i .shl w)
  | .shr w => some (.r .shr w)
  | .shrImm w => some (.i .shr w)
  | .sar w => some (.r .sar w)
  | .sarImm w => some (.i .sar w)
  | .rotl w => some (.r .rotl w)
  | .rotlImm w => some (.i .rotl w)
  | .popc w => some (.r .popc w)
  | .clz w => some (.r .clz w)
  | .brev w => some (.r .brev w)
  | .bfx w => some (.r .bfx w)
  | .bfi w => some (.r .bfi w)
  | .cmp w => some (.r .cmp w)
  | .cmpImm w => some (.i .cmp w)
  | .sel w => some (.r .sel w)
  | .mov w => some (.r .mov w)
  | .movImm w => some (.i .mov w)
  | .lea w => some (.r .lea w)
  | .leaImm w => some (.i .lea w)
  | .fadd w => some (.r .fadd w)
  | .fsub w => some (.r .fsub w)
  | .fmul w => some (.r .fmul w)
  | .fma w => some (.r .fma w)
  | .fmin w => some (.r .fmin w)
  | .fmax w => some (.r .fmax w)
  | .fcmp w => some (.r .fcmp w)
  | .fcvt w => some (.r .fcvt w)
  | .frnd w => some (.r .frnd w)
  | .fclass w => some (.r .fclass w)
  | .fscale w => some (.r .fscale w)
  | .sfu w => some (.r .sfu w)
  | .xacc w => some (.r .xacc w)
  | .xcvt w => some (.r .xcvt w)
  | .shfl w => some (.r .shfl w)
  | .push w => some (.r .push w)
  | .bcast w => some (.r .bcast w)
  | .scan w => some (.r .scan w)
  | .lred w => some (.r .lred w)
  | .vote w => some (.r .vote w)
  | .kcg w => some (.r .kcg w)
  | .pairedWord w => some (.p w)
  | .ld w => some (.m .ld w)
  | .st w => some (.m .st w)
  | .ldt w => some (.m .ldt w)
  | .pref w => some (.m .pref w)
  | .atom w => some (.m .atom w)
  | .red w => some (.m .red w)
  | .aord w => some (.m .aord w)
  | .waitc w => some (.m .waitc w)
  | .qpush w => some (.m .qpush w)
  | .qpop w => some (.m .qpop w)
  | .fset w => some (.m .fset w)
  | .fget w => some (.m .fget w)
  | .claim w => some (.m .claim w)
  | .rxst w => some (.m .rxst w)
  | .cpq w => some (.m .cpq w)
  | .launch w => some (.m .launch w)
  | .wb w => some (.m .wb w)
  | .macq w => some (.x .macq w)
  | .marel w => some (.x .marel w)
  | .mcvr w => some (.x .mcvr w)
  | .mma w => some (.x .mma w)
  | .mld w => some (.x .mld w)
  | .mzero w => some (.x .mzero w)
  | .mdrain w => some (.x .mdrain w)
  | .mfill w => some (.x .mfill w)
  | .mcopy w => some (.x .mcopy w)
  | .mstat w => some (.x .mstat w)
  | .bwait w => some (.x .bwait w)
  | .bset w => some (.x .bset w)
  | .srnext w => some (.x .srnext w)
  | .tcopy w => some (.x .tcopy w)
  | .skins w => some (.x .skins w)
  | .skdel w => some (.x .skdel w)
  | .skxch w => some (.x .skxch w)
  | .skpeel w => some (.x .skpeel w)
  | .rlbeg w => some (.x .rlbeg w)
  | .rwave w => some (.x .rwave w)
  | .rlend w => some (.x .rlend w)
  | .rxbeg w => some (.x .rxbeg w)
  | .rxin w => some (.x .rxin w)
  | .rxout w => some (.x .rxout w)
  | .rxjac w => some (.x .rxjac w)
  | .rxend w => some (.x .rxend w)
  | .rxcmt w => some (.x .rxcmt w)
  | .rxabort w => some (.x .rxabort w)
  | .nop w => some (.c .nop w)
  | .bra w => some (.c .bra w)
  | .brs w => some (.c .brs w)
  | .jmp w => some (.c .jmp w)
  | .call w => some (.c .call w)
  | .ret w => some (.c .ret w)
  | .join w => some (.c .join w)
  | .spawn w => some (.c .spawn w)
  | .fend w => some (.c .fend w)
  | .yield w => some (.c .yield w)
  | .arrive w => some (.c .arrive w)
  | .waitb w => some (.c .waitb w)
  | .fence w => some (.c .fence w)
  | .rdsr w => some (.y .rdsr w)
  | .wrsr w => some (.y .wrsr w)
  | .trap w => some (.y .trap w)
  | .eret w => some (.y .eret w)
  | .brk w => some (.y .brk w)
  | .twc w => some (.y .twc w)
  | .tlbinv w => some (.y .tlbinv w)
  | .issuePick _ => none
  | .hostAppend _ _ _ _ => none
  | .launchQueueTake _ _ => none
  | .pendingLaunchTake _ => none
  | .teamSteal _ _ _ => none
  | .teamAdmission _ _ => none
  | .gridRetire _ => none
  | .swapOut _ => none
  | .swapIn _ => none
  | .binTimeout _ _ => none
  | .binFormGroup _ _ => none
  | .longLatencyWriteback _ => none
  | .sfuEntryStart _ => none
  | .sfuWriteback _ => none
  | .engineOpStart _ => none
  | .engineOpEnd _ => none
  | .peerAdd _ => none
  | .copyPacketTake _ _ => none
  | .copyLineLand _ _ => none
  | .copySourceReadDone _ => none
  | .copyComplete _ => none
  | .copyFault _ _ _ => none
  | .cpqPublish _ => none
  | .ringDepthAdjust _ _ _ _ => none
  | .tcDrain _ _ => none
  | .qchPerform _ => none
  | .redAccumulate _ => none
  | .hPerform _ => none
  | .hostAccess _ => none
  | .biasSetRequest _ => none
  | .aordArrival _ _ => none
  | .aordRetry _ _ => none
  | .monitorWake _ => none
  | .waitcTimeout _ => none
  | .waitReread _ => none
  | .waveDecide _ _ => none
  | .passEnd _ => none
  | .collectiveContribute _ => none
  | .collectiveMessage _ _ => none
  | .collectiveFinish _ => none
  | .collectiveTimeoutFlush _ => none
  | .collectiveWatchdog _ => none
  | .collectiveAbort _ => none
  | .collectivePacketTake _ _ => none
  | .exchangeRound _ _ => none
  | .trapEntry _ => none
  | .handlerWindowFree _ => none
  | .preemptRequest _ => none
  | .contextSave _ => none
  | .contextRestore _ => none
  | .debugHaltRequest _ => none
  | .programBufferStart _ _ => none
  | .debugResume _ => none
  | .profileSample _ _ => none
  | .reuseSample _ => none
  | .contextDestroy _ => none
  | .contextKill _ => none
  | .errorEvent _ => none
  | .journalEntryTimeout => none
  | .clockLower => none
  | .powerOn _ _ => none
  | .provisioningWrite _ => none
  | .queueRegister _ => none
  | .imageLoad _ => none
  | .imageUnload _ _ => none
  | .accessTableWrite _ => none
  | .formatWindowWrite _ _ _ => none
  | .watchpointSet _ _ _ => none
  | .reservationGrant _ _ _ => none
  | .tokenBucketSet _ _ _ _ _ => none
  | .domainJoin _ _ _ _ _ => none
  | .deviceReset _ => none
  | .contextCreate _ => none
  | .engineLineComplete _ _ => none
  | .clockRestore => none
  | .debuggerAttach _ _ => none
  | .profilingEnable _ _ => none
  | .partitionAssign _ _ => none
  | .tokenBucketRefill _ _ _ => none

/-- The word of a view is assigned (R39). -/
def View.wf : View → Bool
  | .r op w => op.wf w
  | .i op w => op.wf w
  | .p w => w.wf
  | .m op w => op.wf w
  | .x op w => op.wf w
  | .c op w => op.wf w
  | .y op w => op.wf w

/-- A well-formed instruction: its word is assigned. Every event is well formed. -/
def Instr.wf (i : Instr) : Bool :=
  match i.view with
  | some v => v.wf
  | none => true

end Sys2Proof
end

