-- ==== Sys2Proof/Decode.lean ====
section
/-! DEFINITION. The decoder, total on any bytes, which rejects by name (R39), and the encoder, both from the word
layouts of The Instruction Word (R19, R22-R37). -/

namespace Sys2Proof

/-- The OP value of a format-0 (R34 Table 10) opcode. -/
def ROp.code : ROp → BitVec 8
  | .add => 0x01 | .sub => 0x02 | .addw => 0x03 | .mul24 => 0x04 | .mul32 => 0x05 | .mulhi => 0x06
  | .mad24 => 0x07 | .mad32 => 0x08 | .min => 0x09 | .max => 0x0A | .abs => 0x0B | .neg => 0x0C | .and => 0x0D
  | .or => 0x0E | .xor => 0x0F | .not => 0x10 | .andn => 0x11 | .shl => 0x12 | .shr => 0x13 | .sar => 0x14
  | .rotl => 0x15 | .popc => 0x16 | .clz => 0x17 | .brev => 0x18 | .bfx => 0x19 | .bfi => 0x1A | .cmp => 0x1B
  | .sel => 0x1C | .mov => 0x1D | .lea => 0x1E | .fadd => 0x20 | .fsub => 0x21 | .fmul => 0x22 | .fma => 0x23
  | .fmin => 0x24 | .fmax => 0x25 | .fcmp => 0x26 | .fcvt => 0x27 | .frnd => 0x28 | .fclass => 0x29
  | .fscale => 0x2A | .sfu => 0x2B | .xacc => 0x2C | .xcvt => 0x2D | .shfl => 0x30 | .push => 0x31
  | .bcast => 0x32 | .scan => 0x33 | .lred => 0x34 | .vote => 0x35 | .kcg => 0x36

/-- The format-0 (R34 Table 10) opcode of an OP value; any other is unassigned. -/
def ROp.ofCode (c : BitVec 8) : Option ROp :=
  match c.toNat with
  | 0x01 => some .add | 0x02 => some .sub | 0x03 => some .addw | 0x04 => some .mul24 | 0x05 => some .mul32
  | 0x06 => some .mulhi | 0x07 => some .mad24 | 0x08 => some .mad32 | 0x09 => some .min | 0x0A => some .max
  | 0x0B => some .abs | 0x0C => some .neg | 0x0D => some .and | 0x0E => some .or | 0x0F => some .xor
  | 0x10 => some .not | 0x11 => some .andn | 0x12 => some .shl | 0x13 => some .shr | 0x14 => some .sar
  | 0x15 => some .rotl | 0x16 => some .popc | 0x17 => some .clz | 0x18 => some .brev | 0x19 => some .bfx
  | 0x1A => some .bfi | 0x1B => some .cmp | 0x1C => some .sel | 0x1D => some .mov | 0x1E => some .lea
  | 0x20 => some .fadd | 0x21 => some .fsub | 0x22 => some .fmul | 0x23 => some .fma | 0x24 => some .fmin
  | 0x25 => some .fmax | 0x26 => some .fcmp | 0x27 => some .fcvt | 0x28 => some .frnd | 0x29 => some .fclass
  | 0x2A => some .fscale | 0x2B => some .sfu | 0x2C => some .xacc | 0x2D => some .xcvt | 0x30 => some .shfl
  | 0x31 => some .push | 0x32 => some .bcast | 0x33 => some .scan | 0x34 => some .lred | 0x35 => some .vote
  | 0x36 => some .kcg
  | _ => none

/-- The OP value of a format-2 (R34 Table 11) opcode. -/
def MOp.code : MOp → BitVec 8
  | .ld => 0x01 | .st => 0x02 | .ldt => 0x03 | .pref => 0x04 | .atom => 0x05 | .red => 0x06 | .aord => 0x07
  | .waitc => 0x08 | .qpush => 0x09 | .qpop => 0x0A | .fset => 0x0B | .fget => 0x0C | .claim => 0x0D
  | .rxst => 0x0E | .cpq => 0x0F | .launch => 0x10 | .wb => 0x11

/-- The format-2 (R34 Table 11) opcode of an OP value; any other is unassigned. -/
def MOp.ofCode (c : BitVec 8) : Option MOp :=
  match c.toNat with
  | 0x01 => some .ld | 0x02 => some .st | 0x03 => some .ldt | 0x04 => some .pref | 0x05 => some .atom
  | 0x06 => some .red | 0x07 => some .aord | 0x08 => some .waitc | 0x09 => some .qpush | 0x0A => some .qpop
  | 0x0B => some .fset | 0x0C => some .fget | 0x0D => some .claim | 0x0E => some .rxst | 0x0F => some .cpq
  | 0x10 => some .launch | 0x11 => some .wb
  | _ => none

/-- The OP value of a format-3 (R34 Table 11) opcode. -/
def XOp.code : XOp → BitVec 8
  | .macq => 0x01 | .marel => 0x02 | .mcvr => 0x03 | .mma => 0x04 | .mld => 0x05 | .mzero => 0x06
  | .mdrain => 0x07 | .mfill => 0x08 | .mcopy => 0x09 | .mstat => 0x0A | .bwait => 0x10 | .bset => 0x11
  | .srnext => 0x12 | .tcopy => 0x13 | .skins => 0x18 | .skdel => 0x19 | .skxch => 0x1A | .skpeel => 0x1B
  | .rlbeg => 0x20 | .rwave => 0x21 | .rlend => 0x22 | .rxbeg => 0x28 | .rxin => 0x29 | .rxout => 0x2A
  | .rxjac => 0x2B | .rxend => 0x2C | .rxcmt => 0x2D | .rxabort => 0x2E

/-- The format-3 (R34 Table 11) opcode of an OP value; any other is unassigned. -/
def XOp.ofCode (c : BitVec 8) : Option XOp :=
  match c.toNat with
  | 0x01 => some .macq | 0x02 => some .marel | 0x03 => some .mcvr | 0x04 => some .mma | 0x05 => some .mld
  | 0x06 => some .mzero | 0x07 => some .mdrain | 0x08 => some .mfill | 0x09 => some .mcopy
  | 0x0A => some .mstat | 0x10 => some .bwait | 0x11 => some .bset | 0x12 => some .srnext | 0x13 => some .tcopy
  | 0x18 => some .skins | 0x19 => some .skdel | 0x1A => some .skxch | 0x1B => some .skpeel
  | 0x20 => some .rlbeg | 0x21 => some .rwave | 0x22 => some .rlend | 0x28 => some .rxbeg | 0x29 => some .rxin
  | 0x2A => some .rxout | 0x2B => some .rxjac | 0x2C => some .rxend | 0x2D => some .rxcmt
  | 0x2E => some .rxabort
  | _ => none

/-- The OP value of a format-4 (R34 Table 11) opcode. -/
def COp.code : COp → BitVec 8
  | .nop => 0x00 | .bra => 0x01 | .brs => 0x02 | .jmp => 0x03 | .call => 0x04 | .ret => 0x05 | .join => 0x06
  | .spawn => 0x07 | .fend => 0x08 | .yield => 0x09 | .arrive => 0x0A | .waitb => 0x0B | .fence => 0x0C

/-- The format-4 (R34 Table 11) opcode of an OP value; any other is unassigned. -/
def COp.ofCode (c : BitVec 8) : Option COp :=
  match c.toNat with
  | 0x00 => some .nop | 0x01 => some .bra | 0x02 => some .brs | 0x03 => some .jmp | 0x04 => some .call
  | 0x05 => some .ret | 0x06 => some .join | 0x07 => some .spawn | 0x08 => some .fend | 0x09 => some .yield
  | 0x0A => some .arrive | 0x0B => some .waitb | 0x0C => some .fence
  | _ => none

/-- The OP value of a format-6 (R34 Table 11) opcode. -/
def YOp.code : YOp → BitVec 8
  | .rdsr => 0x01 | .wrsr => 0x02 | .trap => 0x03 | .eret => 0x04 | .brk => 0x05 | .twc => 0x07
  | .tlbinv => 0x08

/-- The format-6 (R34 Table 11) opcode of an OP value; any other is unassigned. -/
def YOp.ofCode (c : BitVec 8) : Option YOp :=
  match c.toNat with
  | 0x01 => some .rdsr | 0x02 => some .wrsr | 0x03 => some .trap | 0x04 => some .eret | 0x05 => some .brk
  | 0x07 => some .twc | 0x08 => some .tlbinv
  | _ => none

/-- The I-capable opcodes (R31, R34 Table 10). -/
def ROp.toI : ROp → Option IOp
  | .add => some .add | .sub => some .sub | .mul24 => some .mul24 | .mul32 => some .mul32 | .min => some .min
  | .max => some .max | .and => some .and | .or => some .or | .xor => some .xor | .andn => some .andn
  | .shl => some .shl | .shr => some .shr | .sar => some .sar | .rotl => some .rotl | .cmp => some .cmp
  | .mov => some .mov | .lea => some .lea
  | _ => none

/-- Bits hi down to lo of an instruction word. -/
abbrev fieldOf (w : IWord96) (lo n : Nat) : BitVec n := w.extractLsb' lo n

/-- One bit of an instruction word. -/
abbrev flagOf (w : IWord96) (i : Nat) : Bool := w.getLsbD i

/-- The operand patterns (R23 Table 2); the others are reserved. -/
def Operand.ofBits (x : BitVec 10) : Option Operand :=
  match (x.extractLsb' 8 2).toNat with
  | 0 => some (.v (x.extractLsb' 0 8))
  | 1 => some (.s (x.extractLsb' 0 8))
  | 3 => some (.a (x.extractLsb' 0 8))
  | _ =>
    if x.extractLsb' 4 4 = 0 then some (.o (x.extractLsb' 0 4))
    else if x.extractLsb' 2 6 = 4 then some (.h (x.extractLsb' 0 2))
    else if x.extractLsb' 5 3 = 4 then some (.k (x.extractLsb' 0 5))
    else none

/-- The pattern of an operand (R23 Table 2). -/
def Operand.bits : Operand → BitVec 10
  | .v i => 0#2 ++ i
  | .s i => 1#2 ++ i
  | .o i => 0b100000#6 ++ i
  | .h i => 0b10000100#8 ++ i
  | .k i => 0b10100#5 ++ i
  | .a i => 3#2 ++ i

/-- GUARD (R27 Table 4). -/
def Guard.ofBits (g : BitVec 16) : Guard :=
  ⟨g.getLsbD 15, g.getLsbD 14, g.getLsbD 13, g.extractLsb' 5 8, g.extractLsb' 0 5⟩

@[inherit_doc Guard.ofBits] def Guard.bits (g : Guard) : BitVec 16 :=
  BitVec.ofBool g.ge ++ BitVec.ofBool g.gn ++ BitVec.ofBool g.gc ++ g.greg ++ g.gbit

/-- HINTS (R29 Table 5). -/
def Hints.ofBits (h : BitVec 7) : Hints :=
  ⟨h.getLsbD 6, h.getLsbD 5, h.getLsbD 4, h.getLsbD 3, h.getLsbD 2, h.getLsbD 1, h.getLsbD 0⟩

@[inherit_doc Hints.ofBits] def Hints.bits (h : Hints) : BitVec 7 :=
  BitVec.ofBool h.stop ++ BitVec.ofBool h.yld ++ BitVec.ofBool h.lua ++ BitVec.ofBool h.lub ++
  BitVec.ofBool h.tea ++ BitVec.ofBool h.teb ++ BitVec.ofBool h.tec

/-- SCOPE (R32 Table 9). -/
def Scope.ofBits (x : BitVec 2) : Scope :=
  match x.toNat with | 0 => .team | 1 => .cluster | 2 => .device | _ => .system

@[inherit_doc Scope.ofBits] def Scope.bits : Scope → BitVec 2
  | .team => 0 | .cluster => 1 | .device => 2 | .system => 3

/-- SPACE (R32 Table 9); codes 4 to 7 are reserved. -/
def Space.ofBits (x : BitVec 3) : Option Space :=
  match x.toNat with
  | 0 => some .global | 1 => some .spad | 2 => some .rspad | 3 => some .const
  | _ => none

@[inherit_doc Space.ofBits] def Space.bits : Space → BitVec 3
  | .global => 0 | .spad => 1 | .rspad => 2 | .const => 3

/-- WIDTH (R32 Table 9); the codes not listed are reserved. -/
def Width.ofBits (x : BitVec 4) : Option Width :=
  match x.toNat with
  | 0 => some .w8 | 1 => some .w16 | 2 => some .w32 | 3 => some .w64 | 4 => some .w128
  | 8 => some .tl32 | 9 => some .tl16 | 10 => some .tl8
  | _ => none

@[inherit_doc Width.ofBits] def Width.enc : Width → BitVec 4
  | .w8 => 0 | .w16 => 1 | .w32 => 2 | .w64 => 3 | .w128 => 4 | .tl32 => 8 | .tl16 => 9 | .tl8 => 10

/-- The paired types (R36 Table 14). -/
def pairedTy (x : BitVec 3) : Ty :=
  match x.toNat with
  | 0 => .i32 | 1 => .n32 | 2 => .i64 | 3 => .f32 | 4 => .f16 | 5 => .bf16 | 6 => .i16 | _ => .n16

@[inherit_doc pairedTy] def pairedTyCode : Ty → BitVec 3
  | .n32 => 1 | .i64 => 2 | .f32 => 3 | .f16 => 4 | .bf16 => 5 | .i16 => 6 | .n16 => 7 | _ => 0

/-- The format-0 fields of a word (R22, R30): `none` for a reserved operand, TYPE or RND, for M[9:8] not zero, and for
C bits with CV = 0. -/
def rWordOf (w : IWord96) : Option RWord := do
  let d ← Operand.ofBits (fieldOf w 75 10)
  let a ← Operand.ofBits (fieldOf w 65 10)
  let b ← Operand.ofBits (fieldOf w 55 10)
  let ty ← Ty.ofCode (fieldOf w 0 4).toNat
  let rnd ← Rnd.ofCode (fieldOf w 4 3).toNat
  let c ← if flagOf w 20 then (Operand.ofBits (fieldOf w 10 10)).map some
          else if fieldOf w 10 10 = 0 then some none else none
  if fieldOf w 8 2 = 0 then
    some ⟨d, a, b, Guard.ofBits (fieldOf w 39 16), Hints.ofBits (fieldOf w 32 7), fieldOf w 21 11, c, flagOf w 7, rnd, ty⟩
  else none

/-- The format-1 fields of a word (R31): B must be zero. -/
def immWordOf (w : IWord96) : Option ImmWord := do
  let d ← Operand.ofBits (fieldOf w 75 10)
  let a ← Operand.ofBits (fieldOf w 65 10)
  if fieldOf w 55 10 = 0 then
    some ⟨d, a, Guard.ofBits (fieldOf w 39 16), Hints.ofBits (fieldOf w 32 7), fieldOf w 0 32⟩
  else none

/-- The format-2 fields of a word (R32): `none` for a reserved operand, WIDTH or SPACE. -/
def mWordOf (w : IWord96) : Option MWord := do
  let d ← Operand.ofBits (fieldOf w 75 10)
  let a ← Operand.ofBits (fieldOf w 65 10)
  let b ← Operand.ofBits (fieldOf w 55 10)
  let space ← Space.ofBits (fieldOf w 24 3)
  let width ← Width.ofBits (fieldOf w 20 4)
  some ⟨d, a, b, Guard.ofBits (fieldOf w 39 16), Hints.ofBits (fieldOf w 32 7), fieldOf w 29 3,
    Scope.ofBits (fieldOf w 27 2), space, width, fieldOf w 0 20⟩

/-- The fields of a word of format 3, 4 or 6 (R22, R33). -/
def xWordOf (w : IWord96) : Option XWord := do
  let d ← Operand.ofBits (fieldOf w 75 10)
  let a ← Operand.ofBits (fieldOf w 65 10)
  let b ← Operand.ofBits (fieldOf w 55 10)
  some ⟨d, a, b, Guard.ofBits (fieldOf w 39 16), Hints.ofBits (fieldOf w 32 7), fieldOf w 0 32⟩

/-- What a word decodes to: an instruction, or the trap of R39 or R37. -/
inductive Decoded where
  | ok (i : Instr)
  | illop
  | illpair (w : PWord)
  deriving DecidableEq, Repr

/-- A word whose fields stand is an instruction if it is assigned, else ILLOP (R39). -/
def Decoded.ofView (v : Option View) : Decoded :=
  match v with
  | some v => if v.wf then .ok v.instr else .illop
  | none => .illop

/-- A paired word (R36 Table 13): ILLOP comes before ILLPAIR (R40); an OP that is unassigned is ILLPAIR (R37). -/
def decodePair (w : IWord96) : Decoded :=
  let g := Guard.ofBits (fieldOf w 17 16)
  let h := Hints.ofBits (fieldOf w 10 7)
  let half := fun (op : ROp) (lo : Nat) (ty : Ty) =>
    (⟨op, fieldOf w (lo + 16) 8, fieldOf w (lo + 8) 8, fieldOf w lo 8, ty⟩ : PHalf)
  let op0 := ROp.ofCode ((fieldOf w 87 6).setWidth 8)
  let op1 := ROp.ofCode ((fieldOf w 57 6).setWidth 8)
  let pw : PWord := ⟨half (op0.getD .add) 63 (pairedTy (fieldOf w 7 3)), half (op1.getD .add) 33 (pairedTy (fieldOf w 4 3)), g, h⟩
  if fieldOf w 0 4 ≠ 0 || !pw.wfOp then .illop
  else if op0.isNone || op1.isNone || !pw.wfPair then .illpair pw
  else .ok (.pairedWord pw)

/-- The decoder of one word (R22, R34, R39). -/
def decodeWord (w : IWord96) : Decoded :=
  let op := fieldOf w 85 8
  match (fieldOf w 93 3).toNat with
  | 0 => Decoded.ofView (do let o ← ROp.ofCode op; let x ← rWordOf w; some (.r o x))
  | 1 => Decoded.ofView (do let o ← ROp.ofCode op; let o ← o.toI; let x ← immWordOf w; some (.i o x))
  | 2 => Decoded.ofView (do let o ← MOp.ofCode op; let x ← mWordOf w; some (.m o x))
  | 3 => Decoded.ofView (do let o ← XOp.ofCode op; let x ← xWordOf w; some (.x o x))
  | 4 => Decoded.ofView (do let o ← COp.ofCode op; let x ← xWordOf w; some (.c o x))
  | 5 => decodePair w
  | 6 => Decoded.ofView (do let o ← YOp.ofCode op; let x ← xWordOf w; some (.y o x))
  | _ => .illop

/-- The value of bytes laid out little-endian, the first at the lowest address (R4). -/
def leNat : List Byte → Nat
  | [] => 0
  | b :: rest => b.toNat + 256 * leNat rest

/-- The n bytes of a value, little-endian (R4). -/
def leBytes : Nat → Nat → List Byte
  | 0, _ => []
  | n + 1, x => BitVec.ofNat 8 x :: leBytes n (x / 256)

/-- The decoder on bytes: the first 12 hold the word, byte 0 its bits [7:0] (R19); what is left is returned. -/
def decodeBytes (l : List Byte) : Decoded × List Byte :=
  if l.length < 12 then (.illop, []) else (decodeWord (BitVec.ofNat 96 (leNat (l.take 12))), l.drop 12)

/-- The common layout of formats 0, 1, 2, 3, 4 and 6 (R22 Table 1). -/
def packWord (fmt : BitVec 3) (op : BitVec 8) (d a b : BitVec 10) (g : BitVec 16) (h : BitVec 7) (m : Word) : IWord96 :=
  fmt ++ op ++ d ++ a ++ b ++ g ++ h ++ m

/-- M of format 0 (R30 Table 6). -/
def RWord.mBits (w : RWord) : Word :=
  let c := match w.c with | some c => c.bits | none => 0
  w.opx ++ BitVec.ofBool w.c.isSome ++ c ++ 0#2 ++ BitVec.ofBool w.sat ++ BitVec.ofNat 3 w.rnd.code ++ BitVec.ofNat 4 w.ty.code

/-- M of format 2 (R32 Table 9). -/
def MWord.mBits (w : MWord) : Word := w.opx ++ w.scope.bits ++ w.space.bits ++ w.width.enc ++ w.off

/-- The word of a view (R22, R36). -/
def View.encode : View → IWord96
  | .r op w => packWord 0 op.code w.d.bits w.a.bits w.b.bits w.guard.bits w.hints.bits w.mBits
  | .i op w => packWord 1 op.toR.code w.d.bits w.a.bits 0 w.guard.bits w.hints.bits w.imm
  | .p w =>
    5#3 ++ w.h0.op.code.setWidth 6 ++ w.h0.d ++ w.h0.a ++ w.h0.b ++ w.h1.op.code.setWidth 6 ++ w.h1.d ++ w.h1.a ++ w.h1.b ++
    w.guard.bits ++ w.hints.bits ++ pairedTyCode w.h0.ty ++ pairedTyCode w.h1.ty ++ 0#4
  | .m op w => packWord 2 op.code w.d.bits w.a.bits w.b.bits w.guard.bits w.hints.bits w.mBits
  | .x op w => packWord 3 op.code w.d.bits w.a.bits w.b.bits w.guard.bits w.hints.bits w.m
  | .c op w => packWord 4 op.code w.d.bits w.a.bits w.b.bits w.guard.bits w.hints.bits w.m
  | .y op w => packWord 6 op.code w.d.bits w.a.bits w.b.bits w.guard.bits w.hints.bits w.m

/-- The word of an instruction; an event has none. -/
def encode (i : Instr) : Option IWord96 := i.view.map View.encode

/-- The instruction that the decoder reads from a word whose bits are those of w, the bits above nbits zero. -/
def decodeTableWord (nbits w : Nat) : Option Instr :=
  match (decodeBytes (leBytes 12 (w % 2 ^ min nbits 96))).1 with
  | .ok i => some i
  | _ => none

end Sys2Proof
end

