-- ==== Sys2Proof/Machine/Kcg.lean ====
section
/-! DEFINITION. KCG, the keyed counter generator (R94), and the draws made with it (R95, R96). -/

namespace Sys2Proof

/-- The four words of KCG's state. -/
structure Kcg4 where
  x0 : Word
  x1 : Word
  x2 : Word
  x3 : Word
  deriving DecidableEq, Repr

/-- One round of KCG (R94), for round i. -/
def kcgRound (k0 k1 : Word) (i : Nat) (s : Kcg4) : Kcg4 :=
  let x0 := s.x0 + s.x1 + (if i % 2 = 0 then k0 else k1)
  let x3 := (s.x3 ^^^ x0).rotateLeft 16
  let x2 := s.x2 + x3
  let x1 := (s.x1 ^^^ x2).rotateLeft 12
  let x0 := x0 + x1
  let x3 := (x3 ^^^ x0).rotateLeft 8
  let x2 := x2 + x3 + BitVec.ofNat 32 ((i + 1) * 0x9E3779B9)
  let x1 := (x1 ^^^ x2).rotateLeft 7
  ⟨x1, x2, x3, x0⟩

/-- KCG (R94): eight rounds. -/
def kcg (k0 k1 c0 c1 c2 c3 : Word) : Kcg4 := (List.range 8).foldl (fun s i => kcgRound k0 k1 i s) ⟨c0, c1, c2, c3⟩

/-- The halves of a 64-bit value. -/
def loWord (x : DWord) : Word := x.setWidth 32

@[inherit_doc loWord] def hiWord (x : DWord) : Word := (x >>> 32).setWidth 32

/-- The 16 random bits of a draw under an SR key (R95 step 2, R96). -/
def drawBits (srKey : DWord) (c0 c1 c2 c3 : Word) : Nat :=
  (kcg (loWord srKey) (hiWord srKey) c0 c1 c2 c3).x0.toNat % 2 ^ 16

end Sys2Proof
end

