-- ==== Sys2Proof/Machine/Numbers.lean ====
section
/-! DEFINITION. Numbers and how they are rounded (R73-R90): exact values, the floating formats, the six rounding modes,
overflow and saturation, the logarithmic format, conversions, exact arithmetic and the wide fixed-point accumulator. -/

namespace Sys2Proof

/-- Exception flags: NV, DZ, OF, UF, NX, XOV at bits 0 to 5, the order of FPMODE[13:8] (R81). -/
abbrev FpFlags := BitVec 6

namespace FpFlags

abbrev none : FpFlags := 0
abbrev nv : FpFlags := 1
abbrev dz : FpFlags := 2
abbrev of : FpFlags := 4
abbrev uf : FpFlags := 8
abbrev nx : FpFlags := 16
abbrev xov : FpFlags := 32

end FpFlags

/-- Bits needed to write a number. -/
def bitLen (m : Nat) : Nat := if m = 0 then 0 else Nat.log2 m + 1

/-- An exact value: a NaN, signalling or not; an infinity; or ±m × 2^e, zeros signed. -/
inductive Exact where
  | nan (sig : Bool)
  | inf (neg : Bool)
  | fin (neg : Bool) (m : Nat) (e : Int)
  deriving DecidableEq, Repr

namespace Exact

/-- An exact value is a NaN. -/
def isNan : Exact → Bool
  | .nan _ => true
  | _ => false

/-- An exact value is a signalling NaN. -/
def isSig : Exact → Bool
  | .nan b => b
  | _ => false

/-- An exact value is ±0. -/
def isZero : Exact → Bool
  | .fin _ 0 _ => true
  | _ => false

/-- An exact value is ±∞. -/
def isInf : Exact → Bool
  | .inf _ => true
  | _ => false

/-- The sign. -/
def sign : Exact → Bool
  | .nan _ => false
  | .inf n => n
  | .fin n _ _ => n

/-- An integer as an exact value. -/
def ofInt (x : Int) : Exact := .fin (x < 0) x.natAbs 0

/-- −x. -/
def negate : Exact → Exact
  | .nan b => .nan b
  | .inf n => .inf (!n)
  | .fin n m e => .fin (!n) m e

end Exact

/-- A value reduced mod 2^n. -/
def truncInt (x : Int) (n : Nat) : Nat := (x % (2 ^ n : Int)).toNat

/-- The low n bits read as two's complement. -/
def sextNat (x n : Nat) : Int :=
  let y := x % 2 ^ n
  if n ≠ 0 ∧ 2 ^ (n - 1) ≤ y then (y : Int) - 2 ^ n else y

/-! ### Integers (R73, R74) -/

/-- The least and the greatest value of an integer type (R73 Table 1). -/
def Ty.minInt (t : Ty) : Int := if t.signed then -(2 ^ (t.width - 1) : Int) else 0

@[inherit_doc Ty.minInt] def Ty.maxInt (t : Ty) : Int := if t.signed then 2 ^ (t.width - 1) - 1 else 2 ^ t.width - 1

/-- The mathematical value of the low bits as an integer type (R73). -/
def Ty.intOf (t : Ty) (bits : Nat) : Int :=
  if t.signed then sextNat bits t.width else (bits % 2 ^ t.width : Nat)

/-- x clamped to the range of t (R41, `satint`). -/
def satInt (x : Int) (t : Ty) : Int := max t.minInt (min t.maxInt x)

/-- Reduction of an exact integer to a type (R74), as the type's bits. -/
def reduceInt (x : Int) (t : Ty) (sat : Bool) : Nat := truncInt (if sat then satInt x t else x) t.width

/-! ### Floating formats (R75, R77) -/

/-- A floating format: fraction bits, the exponent of its smallest step, the largest finite value as m × 2^e, and
whether it has infinities. -/
structure Fmt where
  frac : Nat
  qmin : Int
  maxM : Nat
  maxE : Int
  hasInf : Bool
  deriving DecidableEq, Repr

/-- The formats of R75 Table 2; every other type reads as f32's, and is never asked. -/
def Ty.fmt : Ty → Fmt
  | .f64 => ⟨52, -1074, 2 ^ 53 - 1, 971, true⟩
  | .f16 => ⟨10, -24, 2047, 5, true⟩
  | .bf16 => ⟨7, -133, 255, 120, true⟩
  | .e4m3 => ⟨3, -9, 14, 5, false⟩
  | .e5m2 => ⟨2, -16, 7, 13, true⟩
  | _ => ⟨23, -149, 2 ^ 24 - 1, 104, true⟩

/-- cnan(t) (R75 Table 2, R84). -/
def Ty.cnan : Ty → Nat
  | .f64 => 0x7FF8_0000_0000_0000 | .f32 => 0x7FC0_0000 | .f16 => 0x7E00 | .bf16 => 0x7FC0 | .e4m3 => 0x7F
  | .e5m2 => 0x7E | .l6 => 0x30 | _ => 0

/-- The l6 table (R83 Table 6). -/
def l6T : Nat → Nat
  | 0 => 8388608 | 1 => 9975792 | 2 => 11863283 | 3 => 14107901 | _ => 16777216

/-- The value of an l6 code (R82). -/
def decodeL6 (bits : Nat) : Exact :=
  let x := sextNat bits 5
  let s := bits / 32 % 2 = 1
  if x = -16 then (if s then .nan false else .fin false 0 0)
  else .fin s (l6T (x % 4).toNat) (x / 4 - 23)

/-- The value of an element (R41 `decode`; R75, R77, R82); an integer type gives its integer. -/
def decode (t : Ty) (bits : Nat) : Exact :=
  if t.isInt then .ofInt (t.intOf bits)
  else if t = .l6 then decodeL6 bits
  else
    let f := t.fmt
    let frac := bits % 2 ^ f.frac
    let ew := t.width - 1 - f.frac
    let ex := bits / 2 ^ f.frac % 2 ^ ew
    let s := bits / 2 ^ (t.width - 1) % 2 = 1
    if ex = 2 ^ ew - 1 && (t != .e4m3 || frac = 7) then
      if t = .e4m3 then .nan false
      else if frac = 0 then .inf s
      else .nan (t != .e5m2 && frac < 2 ^ (f.frac - 1))
    else if ex = 0 then .fin s frac f.qmin
    else .fin s (2 ^ f.frac + frac) (f.qmin + ex - 1)

/-- The bits of ±r × 2^q in a format, where r fits its precision at step q (R75). -/
def encodeFin (t : Ty) (neg : Bool) (r : Nat) (q : Int) : Nat :=
  let f := t.fmt
  (if neg then 2 ^ (t.width - 1) else 0) + (if r = 0 then 0 else (q - f.qmin).toNat * 2 ^ f.frac + r)

/-- ±∞ of a format that has it. -/
def encodeInf (t : Ty) (neg : Bool) : Nat :=
  (if neg then 2 ^ (t.width - 1) else 0) + (2 ^ (t.width - 1 - t.fmt.frac) - 1) * 2 ^ t.fmt.frac

/-- ±max finite of a format (R79 Table 4). -/
def encodeMax (t : Ty) (neg : Bool) : Nat :=
  if t = .l6 then (if neg then 0x2F else 0x0F) else encodeFin t neg t.fmt.maxM t.fmt.maxE

/-! ### Rounding (R78, R79, R95) -/

/-- Whether a magnitude `lo` + rest, with the rest below one step as `rem` / 2^sh, goes up (R78 Table 3). -/
def goesUp (mode : Rnd) (neg : Bool) (lo rem sh : Nat) : Bool :=
  match mode with
  | .rtz => false
  | .rup => rem != 0 && !neg
  | .rdn => rem != 0 && neg
  | .rna => 2 ^ sh ≤ 2 * rem
  | _ => 2 ^ sh < 2 * rem || (2 ^ sh = 2 * rem && lo % 2 = 1)

/-- m × 2^e rounded to a multiple of 2^q: the multiple, and whether it differs (R78, R95). `rho` is the 16 bits of the
draw. -/
def roundAt (mode : Rnd) (neg : Bool) (m : Nat) (e q : Int) (rho : Nat) : Nat × Bool :=
  if q ≤ e then (m * 2 ^ (e - q).toNat, false)
  else
    let sh := min (q - e).toNat (bitLen m + 20)
    let lo := m / 2 ^ sh
    let rem := m % 2 ^ sh
    if mode = .sr then ((m * 2 ^ 16 + rho * 2 ^ sh) / 2 ^ (sh + 16), rem != 0)
    else (if goesUp mode neg lo rem sh then lo + 1 else lo, rem != 0)

/-- Overflow (R79 Table 4). -/
def overflowBits (t : Ty) (neg : Bool) (mode : Rnd) (sat : Bool) : Nat :=
  if sat || !t.fmt.hasInf || t = .l6 then encodeMax t neg
  else match mode with
    | .rtz => encodeMax t neg
    | .rup => if neg then encodeMax t neg else encodeInf t neg
    | .rdn => if neg then encodeInf t neg else encodeMax t neg
    | _ => encodeInf t neg

/-- Rounding to l6 (R84 step 3): the code without its sign's effect on zero, and the flags. -/
def roundL6 (neg : Bool) (m : Nat) (e : Int) (mode : Rnd) (rho : Nat) : Nat × FpFlags :=
  let code := fun (x : Int) => (if neg then 32 else 0) + truncInt x 5
  let dir := match mode with
    | .rup => some (!neg)
    | .rdn => some neg
    | .rtz => some false
    | _ => none
  -- compare m × 2^e with t × 2^k on one scale
  let cmp := fun (t : Nat) (k : Int) =>
    if e ≤ k then compare m (t * 2 ^ (min (k - e).toNat (bitLen m + 32))) else compare (m * 2 ^ (min (e - k).toNat 64)) t
  if cmp (l6T 3) (-20) = .gt then (code 15, FpFlags.of ||| FpFlags.nx)
  else if cmp (l6T 1) (-27) = .lt then
    let up : Bool := match dir with
      | some b => b
      | none =>
        if mode = .sr then
          let k : Int := -27
          if e ≤ k then
            let d := 2 ^ min (k - e).toNat (bitLen m + 60)
            decide (l6T 1 * 2 ^ 16 * d ≤ m * 2 ^ 16 + rho * l6T 1 * d)
          else decide (l6T 1 * 2 ^ 16 ≤ m * 2 ^ (e - k).toNat * 2 ^ 16 + rho * l6T 1)
        else
          match cmp (l6T 1) (-28) with
          | .gt => true
          | .eq => mode == .rna
          | .lt => false
    (if up then code (-15) else 0x10, FpFlags.uf ||| FpFlags.nx)
  else
    let e2 : Int := (bitLen m : Int) + e - 1
    let sh : Int := 24 - (bitLen m : Int)
    let n := m * 2 ^ sh.toNat
    let d := 2 ^ (-sh).toNat
    let j : Nat := if l6T 3 * d ≤ n then 3 else if l6T 2 * d ≤ n then 2 else if l6T 1 * d ≤ n then 1 else 0
    let x : Int := 4 * e2 + (j : Int)
    if n = l6T j * d then (code x, 0)
    else
      let up : Bool := match dir with
        | some b => b
        | none =>
          if mode = .sr then
            let w := l6T (j + 1) - l6T j
            decide (w * 2 ^ 16 * d ≤ (n - l6T j * d) * 2 ^ 16 + rho * w * d)
          else
            let mid := (l6T j + l6T (j + 1)) * d
            if 2 * n = mid then mode == .rna || x % 2 != 0 else decide (mid < 2 * n)
      (code (if up then x + 1 else x), FpFlags.nx)

/-- `round(x, t, mode, sat)` to a floating format, as bits, with the flags of R78 and R79. A NaN gives cnan(t); its NV
belongs to the operation that made it. -/
def roundTo (t : Ty) (x : Exact) (mode : Rnd) (sat : Bool) (rho : Nat) : Nat × FpFlags :=
  match x with
  | .nan _ => (t.cnan, 0)
  | .inf n => if sat || !t.fmt.hasInf || t = .l6 then (encodeMax t n, FpFlags.of ||| FpFlags.nx) else (encodeInf t n, 0)
  | .fin n m e =>
    if m = 0 then (if t = .l6 then 0x10 else encodeFin t n 0 0, 0)
    else if t = .l6 then roundL6 n m e mode rho
    else
      let f := t.fmt
      let qn := (bitLen m : Int) + e - (f.frac + 1)
      let q := max qn f.qmin
      let (r, nx) := roundAt mode n m e q rho
      if f.maxE < q || (q = f.maxE && f.maxM < r) then (overflowBits t n mode sat, FpFlags.of ||| FpFlags.nx)
      else
        let (ru, _) := roundAt mode n m e qn rho
        let tiny := qn < f.qmin && ru != 0 && decide ((bitLen ru : Int) + qn ≤ f.qmin + f.frac)
        (encodeFin t n r q, (if nx then FpFlags.nx else 0) ||| (if nx && tiny then FpFlags.uf else 0))

/-- An exact value rounded to an integer type (R80): NaN gives 0 with NV, out of range gives satint with NV. -/
def roundToInt (t : Ty) (x : Exact) (mode : Rnd) (rho : Nat) : Nat × FpFlags :=
  match x with
  | .nan _ => (0, FpFlags.nv)
  | .inf n => (truncInt (if n then t.minInt else t.maxInt) t.width, FpFlags.nv)
  | .fin n m e =>
    if 4096 < e && m != 0 then (truncInt (if n then t.minInt else t.maxInt) t.width, FpFlags.nv)
    else
      let (r, nx) := roundAt mode n m e 0 rho
      let v : Int := if n then -(r : Int) else r
      if v < t.minInt || t.maxInt < v then (truncInt (satInt v t) t.width, FpFlags.nv)
      else (truncInt v t.width, if nx then FpFlags.nx else 0)

/-- `fcvt` (R176, R80, R84): the bits of the destination type, and the flags. NaR of l6 converts with NV (R84), except to
l6 itself (R176). -/
def convert (ts td : Ty) (bits : Nat) (mode : Rnd) (sat : Bool) (rho : Nat) : Nat × FpFlags :=
  if ts.isInt && td.isInt then (reduceInt (ts.intOf bits) td sat, 0)
  else
    let x := decode ts bits
    if td.isInt then roundToInt td x mode rho
    else
      let nv := x.isSig || (x.isNan && ts = .l6 && td != .l6)
      let (b, fl) := roundTo td x mode sat rho
      (b, fl ||| (if nv then FpFlags.nv else 0))

/-! ### Exact arithmetic (R76, R173) -/

/-- m × 2^e as an integer at step 2^q, for q ≤ e. -/
def scaleTo (neg : Bool) (m : Nat) (e q : Int) : Int :=
  let v : Int := (m * 2 ^ (e - q).toNat : Nat)
  if neg then -v else v

/-- The sign of an exact zero sum (R76): that of both operands, else + except in rdn. -/
def zeroSign (a b : Bool) (mode : Rnd) : Bool := if a = b then a else mode = .rdn

/-- a + b, exact, with NV for ∞ − ∞ and for a signalling NaN. -/
def addEx (a b : Exact) (mode : Rnd) : Exact × FpFlags :=
  let sig : FpFlags := if a.isSig || b.isSig then FpFlags.nv else 0
  match a, b with
  | .nan _, _ | _, .nan _ => (.nan false, sig)
  | .inf s, .inf t => if s = t then (.inf s, 0) else (.nan false, FpFlags.nv)
  | .inf s, _ => (.inf s, 0)
  | _, .inf s => (.inf s, 0)
  | .fin s m e, .fin t n f =>
    if m = 0 && n = 0 then (.fin (zeroSign s t mode) 0 0, 0)
    else if m = 0 then (.fin t n f, 0)
    else if n = 0 then (.fin s m e, 0)
    else
      let q := min e f
      let v := scaleTo s m e q + scaleTo t n f q
      if v = 0 then (.fin (mode = .rdn) 0 0, 0) else (.fin (v < 0) v.natAbs q, 0)

/-- a × b, exact, with NV for 0 × ∞ and for a signalling NaN. -/
def mulEx (a b : Exact) : Exact × FpFlags :=
  let sig : FpFlags := if a.isSig || b.isSig then FpFlags.nv else 0
  match a, b with
  | .nan _, _ | _, .nan _ => (.nan false, sig)
  | .inf s, x | x, .inf s => if x.isZero then (.nan false, FpFlags.nv) else (.inf (s != x.sign), 0)
  | .fin s m e, .fin t n f => (.fin (s != t) (m * n) (e + f), 0)

/-- a × b + c, exact (R173): NV for 0 × ∞ whatever c holds. -/
def fmaEx (a b c : Exact) (mode : Rnd) : Exact × FpFlags :=
  let (p, f) := mulEx a b
  let (r, g) := addEx p c mode
  (r, f ||| g)

/-- Order of two exact values that are not NaN: whether a < b and whether a = b, with −0 = +0. -/
def ltEx (a b : Exact) : Bool :=
  match a, b with
  | .inf s, .inf t => s && !t
  | .inf s, _ => s
  | _, .inf t => !t
  | .fin s m e, .fin t n f => scaleTo s m e (min e f) < scaleTo t n f (min e f)
  | _, _ => false

@[inherit_doc ltEx] def eqEx (a b : Exact) : Bool :=
  match a, b with
  | .inf s, .inf t => s = t
  | .fin s m e, .fin t n f => scaleTo s m e (min e f) = scaleTo t n f (min e f)
  | _, _ => false

/-- −0 below +0 (R174). -/
def ltZeroEx (a b : Exact) : Bool := ltEx a b || (a.isZero && b.isZero && a.sign && !b.sign)

/-- `fmin` and `fmax` of two elements of t (R174). -/
def minMax (t : Ty) (wantMax : Bool) (a b : Nat) : Nat × FpFlags :=
  let x := decode t a
  let y := decode t b
  let fl : FpFlags := if x.isSig || y.isSig then FpFlags.nv else 0
  let r := match x.isNan, y.isNan with
    | true, true => t.cnan
    | true, false => b % 2 ^ t.width
    | false, true => a % 2 ^ t.width
    | false, false =>
      let bLess := ltZeroEx y x
      if bLess != wantMax then b % 2 ^ t.width else a % 2 ^ t.width
  (r, fl)

/-- The condition codes (R170 Table 6) on integers. -/
def condInt (c : Nat) (a b : Int) : Bool :=
  match c with
  | 0 => a = b | 1 => a ≠ b | 2 => a < b | 3 => a ≤ b | 4 => b < a | _ => b ≤ a

/-- The condition codes on floating elements (R170 Table 6, R175), with NV. -/
def condFloat (t : Ty) (c : Nat) (a b : Nat) : Bool × FpFlags :=
  let x := decode t a
  let y := decode t b
  let un := x.isNan || y.isNan
  let nv := x.isSig || y.isSig || (un && 2 ≤ c && c ≤ 5)
  let r := match c with
    | 0 => !un && eqEx x y | 1 => un || !eqEx x y | 2 => !un && ltEx x y | 3 => !un && (ltEx x y || eqEx x y)
    | 4 => !un && ltEx y x | 5 => !un && (ltEx y x || eqEx x y) | 6 => un | _ => !un
  (r, if nv then FpFlags.nv else 0)

/-- `fclass` (R177 Table 8). -/
def classOf (t : Ty) (a : Nat) : Nat :=
  match decode t a with
  | .nan s => if s then 0 else 1
  | .inf n => if n then 2 else 9
  | .fin n m e =>
    if m = 0 then (if n then 5 else 6)
    else if t != .l6 && e = t.fmt.qmin && m < 2 ^ t.fmt.frac then (if n then 4 else 7)
    else (if n then 3 else 8)

/-- `frnd` (R173, R95): rounded to an integral value; a magnitude at or above 2^frac is one already. -/
def roundIntegral (t : Ty) (a : Nat) (mode : Rnd) (rho : Nat) : Nat × FpFlags :=
  match decode t a with
  | .nan s => (t.cnan, if s then FpFlags.nv else 0)
  | .inf n => (encodeInf t n, 0)
  | .fin n m e =>
    if m = 0 || 0 ≤ e then (a % 2 ^ t.width, 0)
    else
      let (r, nx) := roundAt mode n m e 0 rho
      ((roundTo t (.fin n r 0) .rne false 0).1, if nx then FpFlags.nx else 0)

/-- `fscale` (R173): a × 2^k, rounded once. -/
def scaleBy (t : Ty) (a : Nat) (k : Int) (mode : Rnd) (sat : Bool) (rho : Nat) : Nat × FpFlags :=
  match decode t a with
  | .nan s => (t.cnan, if s then FpFlags.nv else 0)
  | .inf n => roundTo t (.inf n) mode sat rho
  | .fin n m e => roundTo t (.fin n m (if m = 0 then e else e + k)) mode sat rho

/-! ### The wide accumulator (R88-R90) -/

/-- The greatest value of W (R89 step 2); the least is −2^255. -/
def wideMax : Int := 2 ^ 255 - 1

@[inherit_doc wideMax] def wideMin : Int := -(2 ^ 255 : Int)

/-- `accumulate(W, x, E)` (R89): the new W and the flags. -/
def accumulate (w : Int) (x : Exact) (anchor : Int) : Int × FpFlags :=
  match x with
  | .nan _ => (w, FpFlags.nv)
  | _ =>
    if w = wideMax || w = wideMin then (w, 0)
    else match x with
      | .fin n m e =>
        let (r, nx) := roundAt .rne n m e (anchor - 200) 0
        let v := w + (if n then -(r : Int) else r)
        let f : FpFlags := if nx then FpFlags.nx else 0
        if wideMax ≤ v then (wideMax, f ||| FpFlags.xov)
        else if v ≤ wideMin then (wideMin, f ||| FpFlags.xov)
        else (v, f)
      | .inf n => (if n then wideMin else wideMax, FpFlags.xov)
      | .nan _ => (w, FpFlags.nv)

/-- The sum of two wide accumulators: a saturated one is an infinity of its sign, and the left one stays (R89, R90, log 69). -/
def wideAdd (x y : Int) : Int :=
  if x = wideMax || x = wideMin then x
  else if y = wideMax || y = wideMin then y
  else max wideMin (min wideMax (x + y))

/-- The exact value of a wide accumulator; a saturated one is an infinity of its sign (R90). -/
def wideValue (w anchor : Int) : Exact :=
  if w = wideMax then .inf false else if w = wideMin then .inf true else .fin (w < 0) w.natAbs (anchor - 200)

/-- W converted to a type (R90). -/
def wideTo (t : Ty) (w anchor : Int) (mode : Rnd) (sat : Bool) (rho : Nat) : Nat × FpFlags :=
  if t.isInt then roundToInt t (wideValue w anchor) mode rho else roundTo t (wideValue w anchor) mode sat rho

/-! ### Inline constants (R26) -/

/-- A constant in a slot of a type (R26 Table 3), as the slot's bits. -/
def constBits (i : BitVec 5) (t : Ty) : Nat :=
  match constVal i with
  | .int x => truncInt x t.width
  | .frac n m k => (roundTo t (.fin n m (-(k : Int))) .rne false 0).1
  | .inf n => (roundTo t (.inf n) .rne false 0).1

end Sys2Proof
end

