-- ==== Sys2Proof/Machine/Sparse.lean ====
section
/-! DEFINITION. Sparse maps as sorted lists of pairs, in one canonical form, and sorted lists of keys. -/

namespace Sys2Proof

/-- The value listed for a key. -/
def smFind {α : Type} (m : SMap α) (k : Nat) : Option α :=
  match m with
  | [] => none
  | (j, x) :: rest => if j = k then some x else smFind rest k

/-- The value of a key, `d` when it is not listed. -/
def smGet {α : Type} (d : α) (m : SMap α) (k : Nat) : α := (smFind m k).getD d

/-- List a value for a key, in key order. -/
def smSet {α : Type} (m : SMap α) (k : Nat) (x : α) : SMap α :=
  match m with
  | [] => [(k, x)]
  | (j, y) :: rest =>
    if k < j then (k, x) :: (j, y) :: rest
    else if j = k then (k, x) :: rest
    else (j, y) :: smSet rest k x

/-- Unlist a key. -/
def smErase {α : Type} (m : SMap α) (k : Nat) : SMap α := m.filter fun p => p.1 != k

/-- Write a value to a map whose unlisted keys read `d`: a value equal to `d` is not listed. -/
def smPut {α : Type} [DecidableEq α] (d : α) (m : SMap α) (k : Nat) (x : α) : SMap α :=
  if x = d then smErase m k else smSet m k x

/-- Change the value listed for a key, if it is listed. -/
def smModify {α : Type} (m : SMap α) (k : Nat) (f : α → α) : SMap α :=
  m.map fun p => if p.1 = k then (p.1, f p.2) else p

/-- The canonical form: keys strictly rising, no value equal to the default `d`. -/
abbrev smWf {α : Type} (d : α) (m : SMap α) : Prop :=
  m.Pairwise (fun a b => a.1 < b.1) ∧ ∀ c ∈ m, c.2 ≠ d

/-- Insert a key into a sorted list without repeats. -/
def keyAdd (l : List Nat) (k : Nat) : List Nat :=
  match l with
  | [] => [k]
  | j :: rest => if k < j then k :: j :: rest else if j = k then j :: rest else j :: keyAdd rest k

/-- Remove a key. -/
def keyDel (l : List Nat) (k : Nat) : List Nat := l.filter (· != k)

/-- Add every key of the second list. -/
def keyUnion (l : List Nat) (ks : List Nat) : List Nat := ks.foldl keyAdd l

end Sys2Proof
end

