-- ==== Sys2Proof/Config.lean ====
section
/-! DEFINITION. What MVS-1 fixes (R7 Table 1), the sizes of one core's resources (Table 5 of the virtual device),
and the free values: opaque constants that no proof can evaluate. -/

namespace Sys2Proof.Config

/-- Logical cores of MVS-1 (R7). -/
def cores : Nat := 192
/-- Logical memory channels (R7). -/
def channels : Nat := 512
/-- Group slots of a core (R17 Table 3). -/
def groupSlots : Nat := 64
/-- Allocation units of 1 KiB in a core's main register file (R126). -/
def windowUnits : Nat := 256
/-- Bytes of a core's scratchpad: 2 MiB (R17 Table 3). -/
def spadBytes : Nat := 2097152
/-- Spawn bins of a core (R148). -/
def spawnBins : Nat := 16
/-- Entries of a core's pending-launch queue (R114). -/
def pendingEntries : Nat := 4
/-- Entries of the SFU queue (R179). -/
def sfuEntries : Nat := 32
/-- Handler windows of a core (R355). -/
def handlerWindows : Nat := 16
/-- Cycles from a trap to the earliest issue of the handler's first instruction (R354). -/
def entryCycles : Nat := 8
/-- Entries of an engine's operation queue (R195) and of its owner queue (R193). -/
def engineEntries : Nat := 16
/-- Monitors of one L2 slice (R280). -/
def monitors : Nat := 4096
/-- L2 slices of the device: 256 (R10 Table 2). -/
def slices : Nat := 256
/-- Entries of a slice's buffer for early `aord` arrivals (R277). -/
def aordEntries : Nat := 64
/-- Open loops one wave former holds (R303). -/
def formerLoops : Nat := 8
/-- Exchanges one Brock holds (R349). -/
def brockExchanges : Nat := 64
/-- Windows one master may hold (R221). -/
def masterWindows : Nat := 64
/-- Launch queues of a context (R102), and copy queues of one engine (R233). -/
def queuesPerOwner : Nat := 64
/-- Entries of the corrected-error journal (R386). -/
def journalEntries : Nat := 1048576
/-- Master ids of the runtime, of the firmware and of the page walker (R216, R221), beyond the 12-bit ids of contexts; see
log 68. -/
def runtimeId : Nat := 4096
@[inherit_doc runtimeId] def firmwareId : Nat := 4097
@[inherit_doc runtimeId] def walkerId : Nat := 4098
/-- Tag registers of a core (R370). -/
def tagRegisters : Nat := 32
/-- Bytes of the early-arrival buffer of a port (R338). -/
def earlyBytes : Nat := 262144
/-- The power ceiling that the fuses hold, in watts (R391). -/
def powerCeiling : Nat := 2600

/-- FREE VALUE. Cycles that pass at one pick of the scheduler, for the n-th free draw: the manual promises no
elapsed time (R9). See log 4. -/
opaque cyclesPassed : Nat → Nat

/-- FREE VALUE. Which of the translations that are permitted an access uses, while a cached one and the table differ
(R218). See log 9. -/
opaque translationChoice : Nat → Nat

/-- FREE VALUE. A value that the manual does not state, for the n-th free draw. Each use is named in a log entry. -/
opaque freeValue : Nat → BitVec 64

/-- FREE VALUE. The byte captured for an address of a kernel's text that no page maps at the launch, for a value of the
free counter. See log 13. -/
opaque freeText : Nat → Nat → BitVec 8

/-- FREE VALUE. The bytes that a swap or a save writes, whose layout belongs to the machine (R135, R364), for a value of the
free counter. See log 19. -/
opaque areaBytes : Nat → List (BitVec 8)

end Sys2Proof.Config
end

