-- ==== Sys2Proof/Machine/State.lean ====
section
/-! DEFINITION. The state of the machine as plain data: everything the manual names, grouped by its holder, and the
state right after reset. What an unlisted key of a sparse map holds is said where the map is read (Machine/Ops.lean). -/

namespace Sys2Proof.Machine

/-- Why the model stops with a fault. -/
inductive Fault where
  /-- An instruction is executed while no group is current: raised by every instruction's meaning. No run of `step`
  reaches it, because a step executes an instruction only for the group that it picked. Safe. -/
  | noGroup
  deriving DecidableEq, Repr

/-- Why the model refuses. -/
inductive Refusal where
  /-- The instruction has no meaning yet: raised by the dispatcher alone. Safe. -/
  | notModelled (mnemonic : String)
  deriving DecidableEq, Repr

/-- Trap causes (R352 Table 1). -/
inductive Cause where
  | illop | illpair | align | addr | xlmiss | xlrsvd | xlperm | access | role | regempty | orphan | fpexc | xovf
  | nondet | watch | copyfault | handle | overwr | aordtkt | mxown | mxmismatch | mxshape | claimovf | rlstate
  | rlmismatch | rxalias | rxbody | rxfault | skstate | peelfail | collhung | trap | brk
  deriving DecidableEq, Repr

/-- A trap as raised (R352, R360): what the trap registers receive. `lanes` lists bit L for lane L; `after` is where `eret`
returns from a trap in a relaxation body, the instruction after that region's `rxend` (R327, R359). -/
structure Trap where
  cause : Cause
  pc : DWord
  addr : DWord
  lanes : DWord
  level : Nat
  info : BitVec 16
  resume : Bool
  body : Bool
  after : DWord
  deriving DecidableEq, Repr

/-- The roles (R130 Table 1). -/
inductive Role where
  | all | copy | matrix | vector
  deriving DecidableEq, Repr

/-- A fibre (R138): its lane, PC, FIBID and spawn count, and whether it is held at a `join` (R155) or at the `rxend` of
a region (R325). -/
structure Fibre where
  lane : Nat
  pc : DWord
  fibid : Word
  sc : Word
  held : Bool
  deriving DecidableEq, Repr

/-- What is fixed for a group when it is admitted (R120, R129, R133, R149): its identity registers, its role's budgets
and what its kernel gives. `core` is a core key: 192 × partition + logical core. `t` is the team-local index. -/
structure Ident where
  ctx : Nat
  grid : Nat
  team : Nat
  teamCore : Nat
  core : Nat
  t : Nat
  role : Role
  ridx : Nat
  rcnt : Nat
  width : Nat
  grpid : Word
  taskidx : DWord
  seed : DWord
  bin : Bool
  det : Bool
  vBud : Nat
  oBud : Nat
  sBud : Nat
  nbar : Nat
  cores : Nat
  share : Nat
  secLo : Nat
  textLo : Nat
  textLen : Nat
  trapAt : Option Nat
  deriving DecidableEq, Repr

/-- One lane waiting in `fget` (R286): the cell, KEEP, and the value once it was served. -/
structure FutLane where
  lane : Nat
  pa : Nat
  keep : Bool
  got : Option DWord
  deriving DecidableEq, Repr

/-- What a wait keeps that has marked its destination empty at issue (R146, R380): the producer of its destination, the
registers that its last-use hints empty when it commits, and those of its destination that were empty before. -/
structure Due where
  prod : Nat
  lu : List Nat
  was : List Nat
  deriving DecidableEq, Repr

/-- A wait on a word (R279, R350): the location, its width in bytes and its memory type, the condition and the value, the
expiry, whether a monitor is held, the value of the write that hit, the value the group resumes with, and whether it is
a `skpeel`, which still reads its list then. -/
structure WordWait where
  pa : Nat
  bytes : Nat
  mt : Nat
  cond : Nat
  val : DWord
  deadline : Option Nat
  monitored : Bool
  hit : Option DWord
  woke : Option DWord
  peel : Bool
  deriving DecidableEq, Repr

/-- What a group that stands at an uncommitted instruction waits for (R134, R279-R287, R193, R276, R298-R301, R323). -/
inductive Wait where
  /-- Parked, and tried again when it may be eligible: presence (R227) and `bwait`; `woke` keeps a wake that came while
  the group was swapped out (R135). -/
  | retry (woke : Bool)
  /-- `launch` at a full pending-launch queue (R113). -/
  | launch (woke : Bool) (due : Due)
  /-- `waitb`: the barrier, the phase awaited, and whether that phase's flip woke it. -/
  | barrier (bar : Nat) (ph : Bool) (woke : Bool)
  /-- `waitc` and `skpeel`. -/
  | word (x : WordWait) (due : Due)
  /-- `qpush`, registered as a pusher with its order. -/
  | push (obj : Nat) (order : Nat) (monitored : Bool) (woke : Bool)
  /-- `qpop`, registered as a popper with its order, the item handed to it, and whether it tries its loop again. -/
  | pop (obj : Nat) (order : Nat) (monitored : Bool) (item : Option DWord) (again : Bool) (due : Due)
  /-- `fget`, registered with its order. -/
  | future (lanes : List FutLane) (order : Nat) (monitored : Bool) (due : Due)
  /-- `aord`, issued and not committed; not parked. -/
  | ticket (op : Nat)
  /-- `macq` in the owner queue; not parked. -/
  | engine
  /-- `rlbeg`, `rwave` or `rlend` that has arrived, with its word; not parked. -/
  | loop (op : XOp) (w : XWord)
  /-- `rxbeg`, `rxcmt` or `rxabort` that has arrived, with its word; not parked. -/
  | region (op : XOp) (w : XWord)
  deriving DecidableEq, Repr

/-- The destination that a wait has marked empty. -/
def Wait.due : Wait → Option Due
  | .launch _ d | .word _ d | .pop _ _ _ _ _ d | .future _ _ _ d => some d
  | _ => none

/-- A wait in which the instruction is tried again whenever it may be eligible. -/
def Wait.retries : Wait → Bool
  | .retry _ | .launch _ _ => true
  | _ => false

/-- A parked wait has been woken (R135). -/
def Wait.woken : Wait → Bool
  | .retry b | .launch b _ | .barrier _ _ b | .push _ _ _ b => b
  | .word x _ => x.woke.isSome
  | .pop _ _ _ item again _ => item.isSome || again
  | .future l _ _ _ => l.all (·.got.isSome)
  | _ => true

/-- A handler in progress (R354, R355): the handler batch's lanes and the saved enables. -/
structure Handler where
  lanes : List Nat
  enables : BitVec 6
  deriving DecidableEq, Repr

/-- A debug halt (R366, R367, R373): the instructions left in the program buffer, the trap of a buffered instruction, and
whether the debugger resumes at the next instruction (`brk`). -/
structure Halt where
  buffer : List IWord96
  report : Option Trap
  skip : Bool
  deriving DecidableEq, Repr

/-- Where a group stands: in its slot, swapped out (R135), or saved with its context (R137, R364). -/
inductive Place where
  | slot | swapped | saved
  deriving DecidableEq, Repr

/-- The trap registers (R360 Table 2); `after` is kept beside them for `eret` (R359), and no instruction reads it. -/
structure TrapRegs where
  cause : Word
  pc : DWord
  addr : DWord
  lanes : DWord
  level : Word
  after : DWord
  deriving DecidableEq, Repr

/-- The status registers of the units that a group holds (R302, R321, R351, R368). -/
structure StatRegs where
  rxstat : DWord
  rxres : Word
  rxpass : Word
  rlstat : DWord
  skstat : DWord
  dbgdata : DWord
  deriving DecidableEq, Repr

/-- A group (R17, R129). `regs` holds every v, s, o, h and handler-window register under one key (Machine/Ops.lean);
`empty` lists the keys whose full/empty bit is empty. -/
structure Group where
  id : Ident
  fibres : List Fibre
  regs : SMap Word
  empty : List Nat
  fpmode : Word
  lc : Word
  bintmo : Word
  swaptmo : Word
  lqfull : BitVec 12
  monfull : BitVec 12
  stat : StatRegs
  trap : TrapRegs
  handler : Option Handler
  pending : Option Trap
  wait : Option Wait
  parkedAt : Nat
  age : Nat
  notBefore : Nat
  haltReq : Bool
  halt : Option Halt
  place : Place
  reserved : Bool
  issued : Bool
  ended : Bool
  deriving DecidableEq, Repr

/-- A role entry of a kernel descriptor (R62 Table 5). -/
structure RoleEntry where
  role : Role
  o : Nat
  groups : Nat
  v : Nat
  s : Nat
  deriving DecidableEq, Repr

/-- A ring entry of a kernel descriptor (R62 Table 6). -/
structure RingEntry where
  sg : Nat
  first : Nat
  count : Nat
  min : Nat
  max : Nat
  deriving DecidableEq, Repr

/-- A relaxation region of a kernel: its body's bounds as addresses (R65). -/
structure RegionEntry where
  lo : Nat
  hi : Nat
  deriving DecidableEq, Repr

/-- A claim set (R65): how many claims, and which of them are write claims. -/
structure ClaimSet where
  count : Nat
  kinds : BitVec 8
  deriving DecidableEq, Repr

/-- A set class (R342). -/
structure SetClass where
  log2n : Nat
  k0 : Word
  k1 : Word
  deriving DecidableEq, Repr

/-- A safe point (R64): the address of its instruction, with its ordinal. -/
structure SafePoint where
  pc : Nat
  ordinal : Nat
  deriving DecidableEq, Repr

/-- A kernel as its descriptor and its image give it (R62, R65, R71, R342). Its text starts at `textLo`, its ENTRY, and has
`textLen` bytes; `secLo` is where the text section starts. These and `trapAt` are addresses. -/
structure Kernel where
  addr : Nat
  index : Nat
  secLo : Nat
  textLo : Nat
  textLen : Nat
  trapAt : Option Nat
  width : Nat
  det : Bool
  threads : Nat
  cores : Nat
  nbar : Nat
  spad : Nat
  roles : List RoleEntry
  rings : List RingEntry
  regions : List RegionEntry
  claims : List ClaimSet
  classes : List SetClass
  safepts : List SafePoint
  deriving DecidableEq, Repr

/-- A launch record (R105 Table 4). -/
structure LaunchRec where
  kdesc : DWord
  args : DWord
  gx : Word
  gy : BitVec 16
  gz : BitVec 16
  seed : DWord
  succ : DWord
  coll : DWord
  bx : Word
  by_ : BitVec 16
  bz : BitVec 16
  flags : BitVec 16
  prio : Byte
  deriving DecidableEq, Repr

/-- A collective descriptor (R334 Table 1). -/
structure CollDesc where
  kind : Nat
  rop : Nat
  ety : Ty
  tbc : Nat
  root : Nat
  src : DWord
  dst : DWord
  count : Nat
  event : DWord
  timeout : Nat
  anchor : Int
  deriving DecidableEq, Repr

/-- An attached collective at this rank (R335, R336, R338-R340). `id` orders it among the engine operations, from when it
contributes; `src` holds the
bytes of SRC read so far and `srcLines` their lines; `vals` is this position's value once contributed; `taken` the messages
taken from children (`none` for a child flushed as absent); `early` the messages that wait in the buffers of their ports;
`gathered` the contributions for allgather; `result` what comes down; `dst` the lines of DST that are taken and not
written, each with its frame's memory type and its bytes; `last` when it last progressed. -/
structure Coll where
  id : Option Nat
  desc : CollDesc
  started : Bool
  src : List Byte
  srcLines : List Nat
  vals : Option (List Int)
  taken : List (Nat × Option (List Int))
  early : List (Nat × RankMsg)
  gathered : List (Nat × List Int)
  result : Option (List Int)
  dst : Option (List (Nat × Nat × List (Nat × Byte)))
  finished : Bool
  failed : Bool
  since : Nat
  last : Nat
  deriving DecidableEq, Repr

/-- A grid: a launch record that was taken (R105-R119) with its descriptor and text as captured (R21, R71). -/
structure Grid where
  ctx : Nat
  serial : Word
  recaddr : DWord
  source : BitVec 16
  origin : DWord
  record : LaunchRec
  kernel : Kernel
  text : List Byte
  det : Bool
  order : Nat
  admitted : List Nat
  homes : SMap Nat
  started : Bool
  groups : Nat
  trapped : Bool
  collFail : Bool
  coll : Option Coll
  deriving DecidableEq, Repr

/-- A scratchpad share (R121, R227): its bytes, its absent lines, the pending writers of each line, faulted lines. -/
structure Share where
  bytes : List Host.Cell
  absent : List Nat
  writers : SMap Nat
  faulted : List Nat
  deriving DecidableEq, Repr

/-- A barrier (R281). -/
structure Barrier where
  count : Nat
  phase : Bool
  deriving DecidableEq, Repr

/-- A ring cursor (R247). -/
structure Cursor where
  idx : Nat
  phase : Bool
  lap : Nat
  deriving DecidableEq, Repr

/-- A stage ring on one team core (R247). -/
structure Ring where
  entry : RingEntry
  p : Cursor
  c : Cursor
  depth : Nat
  deriving DecidableEq, Repr

/-- A claim (R292). -/
structure Claim where
  granule : Nat
  write : Bool
  deriving DecidableEq, Repr

/-- A slot of a loop or a region: a group and a lane (R290, R306). -/
structure Slot where
  gid : Nat
  lane : Nat
  deriving DecidableEq, Repr

/-- The open loop of one role (R290-R303). `items` lists the item of each slot and `claims` those that each slot posted;
`deferred` the pending items below `next`, ascending; items from `next` to N − 1 are pending too. The three counts are the
former's (R302). -/
structure Loop where
  n : Nat
  w : Nat
  cset : Nat
  slots : List Slot
  items : List (Option Nat)
  claims : List (List Claim)
  deferred : List Nat
  next : Nat
  waves : Nat
  false_ : Nat
  defer : Nat
  deriving DecidableEq, Repr

/-- The region descriptor (R307 Table 1). `buf` is the buffer's team core and offset. -/
structure RegionDesc where
  t : Nat
  limit : Nat
  stall : Nat
  m : Nat
  dense : Bool
  tol : Bool
  guess : Nat
  sps : Nat
  tolAbs : Word
  tolRel : Word
  bufCore : Nat
  bufOfs : Nat
  deriving DecidableEq, Repr

/-- A store that a step recorded (R314). -/
structure RecStore where
  va : DWord
  pa : Nat
  mt : Nat
  scope : Scope
  bytes : List Byte
  gid : Nat
  deriving DecidableEq, Repr

/-- One step's evaluation in the current pass (R311, R314, R315, R318). -/
structure StepEval where
  f : List (Option Word)
  j : List (Option Word)
  stores : List RecStore
  flags : BitVec 6
  fault : Option Trap
  deriving DecidableEq, Repr

/-- The registers of a participant at the commit of `rxbeg` (R310). -/
structure Snap where
  gid : Nat
  regs : SMap Word
  deriving DecidableEq, Repr

/-- The state of a region (R306). -/
inductive RegionSt where
  | idle | opened | pending
  deriving DecidableEq, Repr

/-- What the last completed pass left for one step (R320, R326). -/
structure StepLast where
  state : List Word
  stores : List RecStore
  flags : BitVec 6
  deriving DecidableEq, Repr

/-- A region (R306-R328). `sPrev` is s^(k−1) and `settled` σ^(k−1), by step from 1, `evals` the steps evaluated in the pass,
`prevBytes` the physical bytes that the steps of pass k − 1 wrote, each with its step, `heldLines` and `heldSpad` the
global lines and the lines of team cores' shares that the body has read, `rHist` the R_k, newest first, `last` what the
last completed pass left. `lo` and `hi` bound the body. `performed` says that an `rxcmt` has performed its steps and waits for
their writes. -/
structure Region where
  st : RegionSt
  lo : Nat
  hi : Nat
  desc : RegionDesc
  parts : List Nat
  slots : List Slot
  snaps : List Snap
  pass : Nat
  round : Nat
  s0 : List Word
  sPrev : List (List Word)
  settled : List Bool
  evals : SMap StepEval
  prevBytes : List (Nat × Nat)
  heldLines : List Nat
  heldSpad : List (Nat × Nat)
  rHist : List Word
  last : List StepLast
  performed : Bool
  deriving DecidableEq, Repr

/-- An admitted team (R121, R127, R129). `broken` lists the groups whose loop closed under them and that have not issued its
`rlend` yet (R301). -/
structure Team where
  grid : Nat
  n : Nat
  ctx : Nat
  cores : List Nat
  shareSize : Nat
  shares : List Share
  barriers : SMap Barrier
  rings : List (List Ring)
  loops : SMap Loop
  broken : List Nat
  region : Option Region
  deriving DecidableEq, Repr

/-- Handle states (R242). -/
inductive HState where
  | free | filling | full | draining | faulted
  deriving DecidableEq, Repr

/-- What a bound handle names (R241): its team, the team core whose share holds the range, base and length. -/
structure Binding where
  grid : Nat
  team : Nat
  shareCore : Nat
  ofs : Nat
  len : Nat
  state : HState
  deriving DecidableEq, Repr

/-- A handle name of a context on a logical core (R127): the team that reserves it for a ring, and its binding. -/
structure HandleEntry where
  ctx : Nat
  core : Nat
  k : Nat
  reservedFor : Option (Nat × Nat)
  bound : Option Binding
  deriving DecidableEq, Repr

/-- A fibre in a spawn bin (R148). -/
structure BinFibre where
  fibid : Word
  args : List Word
  deriving DecidableEq, Repr

/-- A spawn bin (R148, R149): its key, the spawning group's identity, its expiry and its fibres in order. -/
structure Bin where
  ctx : Nat
  team : Nat
  grid : Nat
  entry : DWord
  ident : Ident
  swaptmo : Word
  deadline : Nat
  opened : Nat
  closed : Bool
  out : Bool
  fibres : List BinFibre
  deriving DecidableEq, Repr

/-- An entry of a pending-launch queue (R113, R114): the record's bytes and serial, and the parent's GRPID and LC. -/
structure PendLaunch where
  ctx : Nat
  record : List Byte
  serial : Word
  recaddr : DWord
  grpid : Word
  lc : Word
  deriving DecidableEq, Repr

/-- An entry of the SFU queue (R179): the group, the results by register key, the flags of the whole instruction,
whether it is its last entry and whether the group's enables hold it, and the time it started. -/
structure SfuEntry where
  gid : Nat
  prod : Nat
  writes : List (Nat × Word)
  flags : BitVec 6
  last : Bool
  hold : Bool
  started : Option Nat
  trap : Option Trap
  deriving DecidableEq, Repr

/-- A scratchpad place: a team core of a team, and an offset. -/
structure SpadLoc where
  grid : Nat
  team : Nat
  core : Nat
  ofs : Nat
  deriving DecidableEq, Repr

/-- A place that an engine or a copy reads or writes: a scratchpad offset, or a global address. -/
inductive Loc where
  | spad (l : SpadLoc)
  | glob (va : Nat)
  deriving DecidableEq, Repr

/-- An engine operation (R195, R205, R207-R209). -/
inductive EngKind where
  | mzero (d n : Nat)
  | mcopy (d a n : Nat)
  | mfill (d n : Nat) (src : Loc)
  | mma (d : Nat) (ta tb : Ty) (k : Nat) (a b sa sb : SpadLoc)
  | mld (ts td : Ty) (rnd : Rnd) (sat : Bool) (lay : Nat) (tr : Bool) (sm : Nat) (scl : Bool) (tns : Nat) (cnt : Word)
      (rows cols pitch dpitch : Nat) (src : Loc) (dst : SpadLoc) (sSrc sDst smooth : SpadLoc)
  | mdrainMem (a n : Nat) (f64 : Bool) (ty : Ty) (rnd : Rnd) (sat : Bool) (scope : Scope) (tns : Nat) (cnt : Word)
      (dst : Loc) (pitch : Nat) (row col : Word)
  | mdrainReg (a : Nat) (ty : Ty) (rnd : Rnd) (sat : Bool) (tns : Nat) (cnt : Word) (row col : Word) (dReg : Nat)
      (lanes : List Nat) (prod : Nat)
  | mdrainPeer (d a n : Nat) (f64 : Bool) (rnd : Rnd) (sat : Bool) (tns : Nat) (cnt : Word) (peer : Nat)
  | peerAdd (d n : Nat) (f64 : Bool) (rnd : Rnd) (sat : Bool) (tns : Nat) (cnt : Word) (vals : List DWord)
  deriving DecidableEq, Repr

/-- An entry of an engine's queue: the group, team and context that entered it with the instruction's address and lanes,
the ownership it belongs to, the physical lines it holds as sources and destinations, what it will write to each
destination line (known once it runs), the scratchpad lines it reads and writes as pairs of team core and line, and the
frames and memory types of the pages it touches. `sent` marks a peer drain whose add has left. -/
structure EngOp where
  id : Nat
  gid : Nat
  grid : Nat
  team : Nat
  ctx : Nat
  own : DWord
  act : List Nat
  epoch : Nat
  kind : EngKind
  running : Bool
  srcLines : List Nat
  dstLines : List Nat
  dst : List (Nat × List (Nat × Byte))
  spadSrc : List (Nat × Nat)
  spadDst : List (Nat × Nat)
  pages : List (Nat × Nat × Nat)
  sent : Bool
  flags : BitVec 6
  deriving DecidableEq, Repr

/-- A convergence register (R202, R203): its count, the arrivals of the current round and the operation recorded. `closing` is the
group whose arrival would complete the round and found the queue full, with the address of its `mma`. -/
structure Conv where
  n : Nat
  count : Nat
  arrived : List Nat
  op : Option (BitVec 8 × Word × List Word)
  closing : Option (Nat × DWord)
  deriving DecidableEq, Repr

/-- An `mstat` with WAIT = 1 in flight (R210): its producer's register, and the operations it waits for. -/
structure EngStat where
  gid : Nat
  prod : Nat
  key : Nat
  ops : List Nat
  clr : Bool
  deriving DecidableEq, Repr

/-- A matrix engine (R188-R210). `slices` holds element (i, c) of slice a at 4096a + 64i + c. `epoch` counts the
ownerships; `zeroAfter` lists the operations after whose end the slices are zeroed (R194). -/
structure Engine where
  owner : Option Nat
  ownerQ : List Nat
  ops : List EngOp
  conv : SMap Conv
  flags : BitVec 5
  lastCtx : Option Nat
  zeroAfter : List Nat
  epoch : Nat
  stats : List EngStat
  slices : SMap Word
  deriving DecidableEq, Repr

/-- An issued instruction that the scheduler tagged (R369): its context, kernel, address and active lanes, and the last safe point
at or before it. -/
structure Tagged where
  ctx : Nat
  kernel : Nat
  pc : Nat
  lanes : Nat
  safept : Option SafePoint
  deriving DecidableEq, Repr

/-- A tag register (R370): a sampled line, and the distinct lines that the core has accessed since. -/
structure ReuseTag where
  line : Nat
  seen : List Nat
  deriving DecidableEq, Repr

/-- A core (R17, Table 5 of the virtual device). `tagIn` counts, for each profiled context, the issues until the next tag, and
`tagged` lists the instructions that were tagged and are not recorded yet (R369); `reuse` holds the tag registers in use
(R370). -/
structure Core where
  bins : List Bin
  pq : List PendLaunch
  sfu : List SfuEntry
  engine : Engine
  tagIn : SMap Nat
  tagged : List Tagged
  reuse : List ReuseTag
  deriving DecidableEq, Repr

/-- A registered launch or copy queue (R102, R233): its number, header and what was read at registration. -/
structure Queue where
  num : Nat
  cluster : Nat
  copy : Bool
  header : Nat
  ring : DWord
  log2 : Nat
  faulted : Bool
  deriving DecidableEq, Repr

/-- A token-bucket class (R250). -/
structure Bucket where
  cls : Nat
  collective : Bool
  rate : Nat
  burst : Nat
  tokens : Nat
  deriving DecidableEq, Repr

/-- A loaded image (R70, R72): its base, its kernels, the frames it received and its access windows, with the targets (by code)
at which they stand. `withdrawn` says that its descriptors are no longer registered. -/
structure Image where
  id : Nat
  base : Nat
  frames : Nat
  size : Nat
  kernels : List Kernel
  windows : List Window
  held : List Nat
  withdrawn : Bool
  deriving DecidableEq, Repr

/-- The rank of a context in its domain (R333). -/
structure Domain where
  rank : Nat
  gx : Nat
  gy : Nat
  gz : Nat
  deriving DecidableEq, Repr

/-- Whether a context runs, was stopped for pre-emption (R363), is saved (R364), or waits for engines to come back to it. -/
inductive RunSt where
  | running | stopped | saved | restoring
  deriving DecidableEq, Repr

/-- What a context save takes from a core (R364): the engine when the context owns it (R198), bins and pending launches. -/
structure CoreSave where
  core : Nat
  engine : Option Engine
  bins : List Bin
  pq : List PendLaunch
  deriving DecidableEq, Repr

/-- A context. `flushed` lists the children that its collectives flushed and that have sent nothing yet: the grid, the child's
position and the event word (R339). `tables` lists the frames that the loader made into tables below its root, as addresses and
sizes (R70, R215). -/
structure Context where
  part : Nat
  srKey : DWord
  root : Nat
  twc : SMap Word
  swaptmo : Word
  swapRoom : Nat
  swapArea : Area
  saveArea : Area
  watchdog : Nat
  cstat : Word
  flushed : List (Nat × Nat × DWord)
  resSlots : Nat
  resKib : Nat
  queues : List Queue
  completion : Option Queue
  images : List Image
  tables : List (Nat × Nat)
  buckets : List Bucket
  domain : Option Domain
  watch : SMap Watchpoint
  debugger : Option Bool
  profile : Option Nat
  samples : List (List Byte)
  run : RunSt
  saved : List CoreSave
  savedAt : Nat
  deriving DecidableEq, Repr

/-- A long-latency producer in flight (R146): the group, and each destination register key with its value once the
producer has it. `window` marks the producers of the handler (R356). -/
structure Producer where
  id : Nat
  gid : Nat
  writes : List (Nat × Option Word)
  deriving DecidableEq, Repr

/-- A T_c write (R256): the core, the context, the groups that issued or observed it, and its bytes within one line. `ord` is
the next id at its issue: an engine operation of a smaller id was issued before it (R260). -/
structure TcWrite where
  core : Nat
  ctx : Nat
  gids : List Nat
  pa : Nat
  bytes : List Byte
  ord : Nat
  deriving DecidableEq, Repr

/-- What a queued access does (R258, R261): a load into registers of a producer, a store, an atomic, an `fadd` by `red` to a
line that a format window anchors, which joins U_l when it performs (R275; log 70), or the entry of a key, with its check, into
a cell of a sketch (R345). -/
inductive AccKind where
  | load
  | store (bytes : List Byte)
  | rmw (aop : Nat) (b : DWord) (d : DWord)
  | red (aop : Nat) (b : DWord) (anchor : Int)
  | cell (σ : Word) (key : DWord) (chk : DWord)
  deriving DecidableEq, Repr

/-- An access in Q_ch or H: who issued it, what it does, and where its value goes: a producer and its register keys,
lowest word first. `ord` is as in a T_c write; `body` marks a load of a relaxation body (R313). -/
structure Access where
  gid : Nat
  core : Nat
  ctx : Nat
  pa : Nat
  bytes : Nat
  kind : AccKind
  prod : Nat
  keys : List Nat
  ord : Nat
  body : Bool
  deriving DecidableEq, Repr

/-- A `red` in flight (R259). -/
structure RedInFlight where
  gid : Nat
  ctx : Nat
  core : Nat
  aop : Nat
  pa : Nat
  bytes : Nat
  b : DWord
  anchor : Option Int
  ord : Nat
  deriving DecidableEq, Repr

/-- The partial of one logical core for one element of a line (R259, R275): a word of its width, or a wide accumulator; `ctxs` are
the contexts whose `red`s it holds. -/
structure Partial where
  core : Nat
  ctxs : List Nat
  pa : Nat
  bytes : Nat
  aop : Nat
  anchor : Option Int
  val : Int
  deriving DecidableEq, Repr

/-- A cached translation (R217, R218, R222): the context, the pages from `va` for `bytes`, the frame, MT, the entry's rights
and address, which of the pages had D set (the one page, or those of a merged run), and the context's windows at the targets,
as they stood at the walk. -/
structure Tlb where
  ctx : Nat
  va : Nat
  pa : Nat
  bytes : Nat
  mt : Nat
  w : Bool
  x : Bool
  level : Nat
  entry : Nat
  deleg : Bool
  dirty : List Nat
  win : SMap (List Window)
  deriving DecidableEq, Repr

/-- A non-leaf entry in a walk cache (R218): the context, the level, the first of the addresses that are walked through it,
the next table's address, and whether that table is read as the context. -/
structure Node where
  ctx : Nat
  level : Nat
  va : Nat
  next : Nat
  deleg : Bool
  deriving DecidableEq, Repr

/-- The parts of the abstract machine besides M (R252), and the translation caches. -/
structure Order where
  tc : List TcWrite
  qch : SMap (List Access)
  reds : List RedInFlight
  partials : List Partial
  h : List Access
  tlb : List Tlb
  nodes : List Node
  deriving DecidableEq, Repr

/-- A lane of an outstanding `aord` (R276-R278). -/
inductive TicketSt where
  | sent | held | retry (at_ : Nat) | done | refused
  deriving DecidableEq, Repr

@[inherit_doc TicketSt] structure TicketLane where
  lane : Nat
  keys : List Nat
  pa : Nat
  ticket : Word
  b : DWord
  value : DWord
  st : TicketSt
  deriving DecidableEq, Repr

/-- An outstanding `aord`: its batch's lanes go on when it commits. -/
structure Ticket where
  id : Nat
  gid : Nat
  grid : Nat
  ctx : Nat
  aop : Nat
  bytes : Nat
  once : Bool
  own : DWord
  batch : List Nat
  act : List Nat
  lanes : List TicketLane
  deriving DecidableEq, Repr

/-- A packet (R235 Table 2), or what `tcopy` hands over (R337). -/
structure Packet where
  opc : Nat
  flags : Nat
  tbc : Nat
  dk : Nat
  dcore : Nat
  sk : Nat
  score : Nat
  dst : DWord
  src : DWord
  shape : DWord
  comp : DWord
  org : DWord
  dir : Nat
  deriving DecidableEq, Repr

/-- A shape record (R236 Table 3, R337 Table 3). -/
structure Shape where
  base : DWord
  esz : Nat
  rank : Nat
  ext : List Nat
  stride : List Int
  box : List Nat
  cx : Nat
  cy : Nat
  cz : Nat
  rep : Nat
  rop : Nat
  rtype : Nat
  deriving DecidableEq, Repr

/-- A copy that was taken (R235-R243). `srcRead` holds the source bytes read so far, by virtual address, or by offset in
the handle's range; `srcLines` the physical lines of a global source, as the tables stood at the take; `dstMap` where each byte of a global destination goes, by physical address, with its offset in the
dense side, `dstMt` the memory type of each destination line; `landed` the destination lines that have landed; `dstLines` the physical lines still taken. `grid` is the grid
of the group that committed the packet. -/
structure Copy where
  id : Nat
  ctx : Nat
  grid : Option Nat
  cluster : Nat
  queue : Nat
  slot : Nat
  packet : Packet
  shape : Option Shape
  srcHandle : Option HandleEntry
  dstHandle : Option HandleEntry
  srcLines : List Nat
  srcRead : List (Nat × Byte)
  srcDone : Bool
  landed : List Nat
  dstMap : List (Nat × Nat)
  dstMt : SMap Nat
  dstLines : List Nat
  deriving DecidableEq, Repr

/-- A committed `cpq` packet until it is taken: the grid of its group (R117), the handles that it names, as core keys and names
(R241), and which of them moved at the commit (R242). -/
structure CpqMove where
  ctx : Nat
  header : Nat
  n : Nat
  grid : Nat
  names : List (Nat × Nat)
  dst : Bool
  src : Bool
  deriving DecidableEq, Repr

/-- A `cpq` packet that the copy port has not published (R251): its queue's header, its slot's number and address. -/
structure PortPacket where
  core : Nat
  ctx : Nat
  gid : Nat
  grid : Nat
  scope : Scope
  header : Nat
  n : Nat
  slot : DWord
  packet : List Byte
  deriving DecidableEq, Repr

/-- A packet at a collective engine (R337): from `tcopy` or from a copy queue, whose number it keeps. -/
structure CollPacket where
  id : Nat
  ctx : Nat
  queue : Option Nat
  grid : Option Nat
  packet : Packet
  origin : List Int
  handle : Option HandleEntry
  deriving DecidableEq, Repr

/-- An exchange held by a die's Brock (R346-R349): `va` and `pa` place its record, `n` is the next round's fold. `bad` says
that the record breaks its table. -/
structure Exchange where
  id : Nat
  ctx : Nat
  grid : Nat
  die : Nat
  va : DWord
  pa : Nat
  cls : SetClass
  localBase : DWord
  remoteBase : DWord
  peer : Nat
  n : Nat
  grow : Nat
  maxr : Nat
  tbc : Nat
  diff : DWord
  dcap : Nat
  comp : DWord
  rounds : Nat
  bad : Bool
  deriving DecidableEq, Repr

/-- The work that the units other than the cores' pipes have in hand. `early` lists the messages that wait in the ports' buffers for
a collective whose record is not taken yet, with the id that its grid will have (R338). -/
structure Work where
  producers : List Producer
  tickets : List Ticket
  handles : List HandleEntry
  copies : List Copy
  ports : List PortPacket
  moved : List CpqMove
  packets : List CollPacket
  exchanges : List Exchange
  early : List (Nat × PortMsg)
  deriving DecidableEq, Repr

/-- The open entry of the journal (R387). -/
structure OpenEntry where
  time : Nat
  unit : BitVec 16
  kind : BitVec 16
  synd : BitVec 16
  count : Nat
  loc : DWord
  deriving DecidableEq, Repr

/-- The journal (R386-R390): JSTAT.NEXT, JSTAT.LOST, the chain value of the next entry and the open entry. -/
structure Journal where
  next : Nat
  lost : Nat
  chain : List Byte
  opened : Option OpenEntry
  deriving DecidableEq, Repr

/-- The kind of an access (R216, R221). -/
inductive Kind where
  | read | write | both | fetch
  deriving DecidableEq, Repr

/-- An entry of a target's refusal log (R222). -/
structure Refused where
  target : Target
  master : Nat
  pa : Nat
  kind : Kind
  deriving DecidableEq, Repr

/-- A reuse histogram of a context's kernel on a die (R370). -/
structure Histogram where
  die : Nat
  ctx : Nat
  kdesc : Nat
  buckets : List Nat
  deriving DecidableEq, Repr

/-- The device. `inReset` and `strap` are the reset line and the provisioning strap (R391); `access` holds a master's windows
at each target (R221); `poison` lists the 32-byte words of M that hold an uncorrectable error and `doomed` the contexts
that an access of theirs has met one (R389); `loader` is the loader's last answer (R70 Table 12), 0 when it placed the
image. -/
structure Device where
  powered : Bool
  inReset : Bool
  strap : Bool
  clk : Nat
  fullClock : Bool
  bias : List Nat
  prov : Provision
  access : SMap (List Window)
  refusals : List Refused
  fmt : SMap (List DWord)
  partitions : List (List Nat)
  partOf : SMap Nat
  journal : Journal
  histograms : List Histogram
  poison : List Nat
  doomed : List Nat
  loader : Nat
  deriving DecidableEq, Repr

/-- The model's own schedule (log 1): events that happen next, the groups picked in this cycle, the current group, the
counter of free values and of ids. -/
structure Sched where
  agenda : List Instr
  picks : List Nat
  cur : Option Nat
  rotate : Nat
  fresh : Nat
  nextId : Nat
  deriving DecidableEq, Repr

/-- The machine. -/
structure State where
  mem : List Host.Cell
  order : Order
  groups : SMap Group
  grids : SMap Grid
  teams : List Team
  cores : SMap Core
  ctxs : SMap Context
  work : Work
  dev : Device
  sched : Sched
  deriving DecidableEq, Repr

/-- An engine at reset (R188, R192-R202). -/
def Engine.reset : Engine := ⟨none, [], [], [], 0, none, [], 0, [], []⟩

/-- A core at reset. -/
def Core.reset : Core := ⟨[], [], [], Engine.reset, [], [], []⟩

/-- The first 16 bytes of SHA-256 of the empty message, to which entry 0 chains (R386). -/
def chain0 : List Byte :=
  [0xe3, 0xb0, 0xc4, 0x42, 0x98, 0xfc, 0x1c, 0x14, 0x9a, 0xfb, 0xf4, 0xc8, 0x99, 0x6f, 0xb9, 0x24]

/-- The device right after power-on: page bias device (R100), format windows 0 (R224), the journal empty (R386, R390),
CLK 0 (R372); the rest as logs 3 to 8 say. -/
def State.reset : State where
  mem := []
  order := ⟨[], [], [], [], [], [], []⟩
  groups := []
  grids := []
  teams := []
  cores := []
  ctxs := []
  work := ⟨[], [], [], [], [], [], [], [], []⟩
  dev := {
    powered := true, inReset := false, strap := false, clk := 0, fullClock := true, bias := []
    prov := ⟨[], [], [], Config.powerCeiling⟩
    access := [], refusals := [], fmt := [], partitions := [[0, 1, 2, 3, 4, 5, 6, 7]], partOf := []
    journal := ⟨0, 0, chain0, none⟩, histograms := [], poison := [], doomed := [], loader := 0 }
  sched := ⟨[], [], none, 0, 0, 0⟩

end Sys2Proof.Machine
end

