-- ==== Sys2Proof/Machine/Ops.lean ====
section
/-! DEFINITION. The named operations over groups and registers: the register file with its full/empty bits, batches and
guards, the checks that every instruction shares (R40, R147), what a commit does, and taking a trap (R352-R360). -/

namespace Sys2Proof.Machine

/-! ### Lists of lanes -/

/-- Bit L for every listed lane L. -/
def laneMask (l : List Nat) : DWord := l.foldl (fun a i => a ||| (1#64 <<< i)) 0

/-- The lowest of some numbers, `d` when there is none. -/
def lowest (d : Nat) (l : List Nat) : Nat :=
  match l with
  | [] => d
  | x :: rest => rest.foldl min x

/-! ### Groups and their holders -/

/-- The group with an id. -/
def State.group (s : State) (gid : Nat) : Option Group := smFind s.groups gid

/-- Put a group. -/
def State.setGroup (s : State) (gid : Nat) (g : Group) : State := { s with groups := smSet s.groups gid g }

/-- Change a group. -/
def State.modGroup (s : State) (gid : Nat) (f : Group → Group) : State := { s with groups := smModify s.groups gid f }

/-- The core with a key; one that is not listed is as at reset. -/
def State.core (s : State) (k : Nat) : Core := smGet Core.reset s.cores k

/-- Change a core. -/
def State.modCore (s : State) (k : Nat) (f : Core → Core) : State :=
  { s with cores := smSet s.cores k (f (s.core k)) }

/-- The grid with an id. -/
def State.grid (s : State) (k : Nat) : Option Grid := smFind s.grids k

/-- Change a grid. -/
def State.modGrid (s : State) (k : Nat) (f : Grid → Grid) : State := { s with grids := smModify s.grids k f }

/-- The context with a number. -/
def State.ctx (s : State) (k : Nat) : Option Context := smFind s.ctxs k

/-- Change a context. -/
def State.modCtx (s : State) (k : Nat) (f : Context → Context) : State := { s with ctxs := smModify s.ctxs k f }

/-- A context runs: it is neither stopped nor saved, and no access of it has met an uncorrectable error, which kills it
(R389). -/
def State.running (s : State) (ctx : Nat) : Bool :=
  match s.ctx ctx with | some c => c.run = .running && !s.dev.doomed.contains ctx | none => false

/-- The team of a grid with a linear task index. -/
def State.team (s : State) (grid n : Nat) : Option Team := s.teams.find? fun t => t.grid == grid && t.n == n

/-- Change a team. -/
def State.modTeam (s : State) (grid n : Nat) (f : Team → Team) : State :=
  { s with teams := s.teams.map fun t => if t.grid == grid && t.n == n then f t else t }

/-- The next id or age, and the state that has used it. -/
def State.newId (s : State) : Nat × State :=
  (s.sched.nextId, { s with sched := { s.sched with nextId := s.sched.nextId + 1 } })

/-- The logical core of a core key (R8). -/
def logical (core : Nat) : Nat := core % Config.cores

/-- The dies of a partition, every die when it has none (R10, R11). -/
def State.diesOf (s : State) (part : Nat) : List Nat :=
  match s.dev.partitions.getD part [] with
  | [] => List.range 8
  | l => l

/-- The die that carries a core (R11): the 24 logical clusters are spread evenly over the partition's dies. -/
def State.dieOf (s : State) (core : Nat) : Nat :=
  let dies := s.diesOf (core / Config.cores)
  dies.getD (logical core * dies.length / Config.cores) 0

/-! ### Registers -/

/-- The key of a register: its file (v, s, o, h, window v, window s), its lane and its index. -/
def regKey (file lane idx : Nat) : Nat := file * 65536 + lane * 256 + idx

/-- The key of the j-th register from an operand's, for a lane. In the handler, v0-v15 and s0-s15 are the handler
window (R355). A constant and an a operand have no register; their key is never read. -/
def Group.key (g : Group) (x : Operand) (lane j : Nat) : Nat :=
  let w := fun (i : Nat) => g.handler.isSome && i < 16
  match x with
  | .v i => regKey (if w (i.toNat + j) then 4 else 0) lane (i.toNat + j)
  | .s i => regKey (if w (i.toNat + j) then 5 else 1) 0 (i.toNat + j)
  | .o i => regKey 2 lane (i.toNat + j)
  | .h i => regKey 3 lane (i.toNat + j)
  | .k i => regKey 6 lane (i.toNat + j)
  | .a i => regKey 7 lane (i.toNat + j)

/-- The value of a register; every register reads zero until it is written (R25, R129). -/
def Group.reg (g : Group) (key : Nat) : Word := smGet 0 g.regs key

/-- The full/empty bit of a register (R17, R146); h registers are never listed (R25). -/
def Group.isFull (g : Group) (key : Nat) : Bool := !g.empty.contains key

/-- Write a register and mark it full (R41, `wr`). -/
def Group.put (g : Group) (key : Nat) (x : Word) : Group :=
  { g with regs := smPut 0 g.regs key x, empty := keyDel g.empty key }

/-- Write registers. -/
def Group.puts (g : Group) (l : List (Nat × Word)) : Group := l.foldl (fun g p => g.put p.1 p.2) g

/-- Mark registers empty (`setempty`). -/
def Group.setEmpty (g : Group) (keys : List Nat) : Group := { g with empty := keyUnion g.empty keys }

/-- Mark registers full (`setfull`). -/
def Group.setFull (g : Group) (keys : List Nat) : Group := { g with empty := g.empty.filter fun k => !keys.contains k }

/-- The lanes that name distinct registers of an operand: one for class s, the given lanes otherwise. -/
def regLanes (x : Operand) (lanes : List Nat) : List Nat := if x.isS then [0] else lanes

/-- The keys of n registers from an operand's over some lanes. -/
def Group.keys (g : Group) (x : Operand) (n : Nat) (lanes : List Nat) : List Nat :=
  (regLanes x lanes).flatMap fun l => (List.range n).map fun j => g.key x l j

/-- The n registers named lie within the role's budget, or in the handler window (R17, R355). -/
def Group.within (g : Group) (x : Operand) (n : Nat) : Bool :=
  let win := fun (i : Nat) => g.handler.isSome && i < 16
  (List.range n).all fun j =>
    match x with
    | .v i => decide (i.toNat + j < g.id.vBud) || win (i.toNat + j)
    | .s i => decide (i.toNat + j < g.id.sBud) || win (i.toNat + j)
    | .o i => decide (i.toNat + j < g.id.oBud)
    | _ => true

/-- The value of n consecutive registers, lowest bits first (R24, R228). -/
def Group.bits (g : Group) (x : Operand) (n lane : Nat) : Nat :=
  (List.range n).foldr (fun j acc => (g.reg (g.key x lane j)).toNat + 2 ^ 32 * acc) 0

/-- The words of a value over n consecutive registers. -/
def Group.split (g : Group) (x : Operand) (n lane : Nat) (val : Nat) : List (Nat × Word) :=
  (List.range n).map fun j => (g.key x lane j, BitVec.ofNat 32 (val / 2 ^ (32 * j)))

/-! ### Batches and guards -/

/-- The fibres that the slot's batches hold: in the handler, only those of the handler batch (R354). -/
def Group.live (g : Group) : List Fibre :=
  match g.handler with
  | some h => g.fibres.filter fun f => h.lanes.contains f.lane
  | none => g.fibres

/-- The PC of the current batch: the smallest among the batches not held (R142). -/
def Group.pc (g : Group) : Option DWord :=
  (g.live.filter (!·.held)).foldl
    (fun a f => match a with
      | none => some f.pc
      | some p => if f.pc < p then some f.pc else some p) none

/-- The lanes of the current batch, ascending (R141). -/
def Group.batch (g : Group) (pc : DWord) : List Nat :=
  (g.live.filter fun f => !f.held && f.pc == pc).map (·.lane)

/-- The guard register's operand. -/
def guardReg (gd : Guard) : Operand := if gd.gc then .v gd.greg else .s gd.greg

/-- active(B): the lanes of the batch that pass the guard (R27). -/
def Group.active (g : Group) (gd : Guard) (batch : List Nat) : List Nat :=
  if gd.ge then batch.filter fun l => (g.reg (g.key (guardReg gd) l 0)).getLsbD gd.gbit.toNat != gd.gn else batch

/-- The guard can be read: within the budget and full in every lane of the batch. -/
def Group.guardFull (g : Group) (gd : Guard) (batch : List Nat) : Bool :=
  !gd.ge || (g.within (guardReg gd) 1 && (g.keys (guardReg gd) 1 batch).all g.isFull)

/-! ### Ports, sources and the shared checks -/

/-- Ports (R34). -/
inductive Port where
  | v0 | v1 | mp | mxp | cpp | ctl
  deriving DecidableEq, Repr

/-- Ports each role may issue to (R130 Table 1). -/
def Role.may (r : Role) (p : Port) : Bool :=
  match r, p with
  | .all, _ => true
  | .copy, .mp | .copy, .cpp | .copy, .ctl => true
  | .matrix, .mxp | .matrix, .ctl => true
  | .vector, .v0 | .vector, .v1 | .vector, .mp | .vector, .ctl => true
  | _, _ => false

/-- A source of an instruction: how many registers it names, its TE and LU hints. -/
structure Src where
  x : Operand
  n : Nat
  te : Bool
  lu : Bool
  deriving DecidableEq, Repr

/-- What the shared checks need to know of an instruction: its guard and hints, its ports, the sources in the order of
R147, the destinations with the registers each names, whether MXOWN is checked (R192) and against the owner alone
(R194), whether it may stand in a
relaxation body (R312), whether its active lanes go elsewhere than the next instruction, whether it may resume a wait, and
its own dynamic ILLOP and NONDET conditions. -/
structure Front where
  guard : Guard
  hints : Hints
  ports : List Port
  srcs : List Src := []
  dsts : List (Operand × Nat) := []
  mx : Bool := false
  mxSole : Bool := false
  body : Bool := true
  moves : Bool := false
  resumes : Bool := false
  illop : Group → Bool := fun _ => false
  nondet : Ident → Bool := fun _ => false

/-- An instruction that passed the shared checks: its group, address, batch and active lanes. -/
structure Ctx where
  gid : Nat
  g : Group
  own : DWord
  batch : List Nat
  act : List Nat
  deriving DecidableEq, Repr

/-- A trap at an instruction, with the fields that most causes leave at zero (R360). -/
def Trap.mk' (cause : Cause) (own : DWord) (lanes : List Nat) (addr : DWord := 0) (level : Nat := 7) : Trap :=
  ⟨cause, own, addr, laneMask lanes, level, 0, false, false, 0⟩

/-- A trap of the instruction in hand. -/
def Ctx.trap (c : Ctx) (cause : Cause) (lanes : List Nat) (addr : DWord := 0) (level : Nat := 7) : Trap :=
  Trap.mk' cause c.own lanes addr level

/-- Two keys name one register of a group, whatever their lanes. -/
def sameReg (a b : Nat) : Bool := a / 65536 == b / 65536 && a % 256 == b % 256

/-- A long-latency producer of the group is in flight for a register, in any lane (R146): any producer, or an entry of the
core's SFU queue (R179). -/
def State.inFlight (s : State) (gid core key : Nat) : Bool :=
  s.work.producers.any (fun p => p.gid == gid && p.writes.any (sameReg ·.1 key)) ||
  (s.core core).sfu.any (fun e => e.gid == gid && e.writes.any (sameReg ·.1 key))

/-- The group's SFU work holds it back, because an enable was set when an `sfu` issued (R179). -/
def State.sfuHolds (s : State) (gid core : Nat) : Bool := (s.core core).sfu.any fun e => e.gid == gid && e.hold

/-- The region of the group's team, while it is OPEN and the group takes part (R306). -/
def State.bodyOf (s : State) (gid : Nat) (g : Group) : Option Region :=
  match s.team g.id.grid g.id.team with
  | some t =>
    match t.region with
    | some r => if r.st == .opened && r.parts.contains gid then some r else none
    | none => none
  | none => none

/-- The readiness of some register keys (R146). -/
inductive Ready where
  | ready | blocking | orphaned
  deriving DecidableEq, Repr

/-- Readiness by R146: an empty bit of a register with no producer in flight is orphaned. -/
def State.readyOf (s : State) (gid : Nat) (g : Group) (keys : List Nat) : Ready :=
  let e := keys.filter fun k => !g.isFull k
  if e.isEmpty then .ready
  else if e.all fun k => s.inFlight gid g.id.core k then .blocking
  else .orphaned

/-- The outcome of the shared checks. -/
inductive Entry where
  | noGroup
  | stall
  | trap (gid : Nat) (t : Trap)
  | go (c : Ctx)
  deriving DecidableEq, Repr

/-- The lanes whose bit is empty; every given lane for an s register (R147). -/
def Group.emptyLanes (g : Group) (x : Operand) (j : Nat) (lanes : List Nat) : List Nat :=
  if x.isS then lanes else lanes.filter fun l => !g.isFull (g.key x l j)

/-- R147 for the sources, over the lanes of active(B): REGEMPTY, then ORPHAN, then blocking. The first register that fails names its
lanes alone (log 98). -/
def State.readySrcs (s : State) (gid : Nat) (g : Group) (own : DWord) (act : List Nat) (srcs : List Src) : Option Entry :=
  let regs := srcs.flatMap fun x => (List.range x.n).map fun j => (x, j)
  let st := fun (p : Src × Nat) =>
    if p.1.x.hasBit && !act.isEmpty then s.readyOf gid g ((regLanes p.1.x act).map fun l => g.key p.1.x l p.2) else .ready
  match regs.find? fun p => p.1.te && st p != .ready with
  | some p => some (.trap gid (Trap.mk' .regempty own (g.emptyLanes p.1.x p.2 act)))
  | none =>
    match regs.find? fun p => st p == .orphaned with
    | some p => some (.trap gid (Trap.mk' .orphan own (g.emptyLanes p.1.x p.2 act)))
    | none => if regs.any fun p => st p == .blocking then some .stall else none

/-- Lanes that would fall through out of a relaxation body (R312). -/
def State.fallsOut (s : State) (gid : Nat) (g : Group) (own : DWord) (lanes : List Nat) : List Nat :=
  match s.bodyOf gid g with
  | some r => if own.toNat + 12 = r.hi then lanes else []
  | none => []

/-- The group's team owns the engine of its core (R192), or the group itself does (R194). -/
def State.ownsEngine (s : State) (gid : Nat) (g : Group) (sole : Bool) : Bool :=
  match (s.core g.id.core).engine.owner with
  | none => false
  | some o => o == gid || !sole && (match s.group o with
    | some og => og.id.grid == g.id.grid && og.id.team == g.id.team
    | none => false)

/-- Every register that an instruction names: its sources, its destinations and its guard. -/
def Front.named (f : Front) : List (Operand × Nat) :=
  (f.srcs.map fun x => (x.x, x.n)) ++ f.dsts ++ (if f.guard.ge then [((guardReg f.guard), 1)] else [])

/-- R147 for the guard, over the whole batch: ORPHAN, then blocking. -/
def State.guardCheck (s : State) (gid : Nat) (g : Group) (own : DWord) (gd : Guard) (batch : List Nat) : Option Entry :=
  match s.readyOf gid g (if gd.ge then g.keys (guardReg gd) 1 batch else []) with
  | .orphaned => some (.trap gid (Trap.mk' .orphan own (g.emptyLanes (guardReg gd) 0 batch)))
  | .blocking => some .stall
  | .ready => none

/-- A destination register with a producer in flight, whatever the lanes (R144), or SFU work that holds the group back
(R179). -/
def State.dstBusy (s : State) (gid : Nat) (g : Group) (f : Front) : Bool :=
  ((f.dsts.flatMap fun p => if p.1.hasBit then g.keys p.1 p.2 [0] else []).any fun k => s.inFlight gid g.id.core k) ||
  s.sfuHolds gid g.id.core

/-- The group stands in a wait whose instruction has issued and marked its destination empty: its sources were read at issue
(R146). -/
def Group.inDue (g : Group) : Bool := (g.wait.bind Wait.due).isSome

/-- The checks that every instruction shares, in the order of R40: a wait that goes on, the dynamic part of ILLOP (R17), ROLE
(R131), MXOWN (R192), the guard and the sources (R147), and a busy destination (R144), unless it issued before and waits. With no lane in active(B) the
instruction itself raises nothing further (R27, R28). Else NONDET (R353), then RXBODY (R312), which a fall-through out of
the body raises too. -/
def State.checks (s : State) (f : Front) (gid : Nat) (g : Group) (own : DWord) : List (Option Entry) :=
  let batch := g.batch own
  let act := g.active f.guard batch
  let act0 := if g.guardFull f.guard batch then act else batch
  let fail := fun (bad : Bool) (c : Cause) (lanes : List Nat) => if bad then some (Entry.trap gid (Trap.mk' c own lanes)) else none
  let out := s.fallsOut gid g own (if f.moves then batch.filter fun l => !act.contains l else batch)
  [ if g.wait.any (!·.retries) && !f.resumes then some .stall else none,
    fail (!(f.named.all fun p => g.within p.1 p.2) || f.illop g) .illop act0,
    fail (!(f.ports.all g.id.role.may)) .role act0,
    fail (f.mx && !s.ownsEngine gid g f.mxSole) .mxown act0,
    if g.inDue then none else s.guardCheck gid g own f.guard batch,
    if g.inDue then none else s.readySrcs gid g own act f.srcs,
    if !g.inDue && s.dstBusy gid g f then some .stall else none,
    fail (!act.isEmpty && f.nondet g.id) .nondet act,
    fail (!act.isEmpty && (s.bodyOf gid g).isSome && (!f.body || f.dsts.any fun p => p.1.isS)) .rxbody act,
    fail (!out.isEmpty) .rxbody out ]

/-- The shared checks of the current group's instruction: the first that fails decides. -/
def State.front (s : State) (f : Front) : Entry :=
  match s.sched.cur with
  | none => .noGroup
  | some gid =>
    match s.group gid with
    | none => .noGroup
    | some g =>
      match g.pc with
      | none => .stall
      | some own =>
        match (s.checks f gid g own).findSome? id with
        | some e => e
        | none => .go ⟨gid, g, own, g.batch own, g.active f.guard (g.batch own)⟩

/-! ### Commit -/

/-- The address of the `rxend` of an open region that the group takes part in (R325). -/
def State.rxendOf (s : State) (gid : Nat) (g : Group) : Option DWord :=
  (s.bodyOf gid g).map fun r => BitVec.ofNat 64 (r.hi - 12)

/-- One release from `join` (R155, R141): when every batch stands at one PC, its held lanes go on together; when every batch
is held and they are at two or more PCs, the batch at the smallest goes on. Lanes at a region's `rxend` are not released
here (R325). -/
def Group.unjoin (g : Group) (rxend : Option DWord) : Group :=
  let fs := g.live
  match fs.filter (·.held) with
  | [] => g
  | h :: hs =>
    let p := hs.foldl (fun a f => if f.pc < a then f.pc else a) h.pc
    let all := fs.all fun f => f.pc == p
    let stuck := fs.all (·.held)
    if (all || stuck) && rxend != some p then
      { g with fibres := g.fibres.map fun f =>
          if f.pc == p && fs.any (·.lane == f.lane) then { f with pc := p + 12, held := false } else f }
    else g

/-- Release from `join` (R155): a batch that goes on to the `join` at which every other one is held meets it there, and they go
on together. -/
def Group.settle (g : Group) (rxend : Option DWord) : Group := (g.unjoin rxend).unjoin rxend

/-- Move the lanes of a batch. -/
def Group.move (g : Group) (lanes : List Nat) (pc : Nat → DWord) : Group :=
  { g with fibres := g.fibres.map fun f => if lanes.contains f.lane then { f with pc := pc f.lane } else f }

/-- The batch goes on. A buffered instruction leaves the PCs and is taken from the program buffer (R367). -/
def Group.goOn (g : Group) (batch : List Nat) (pc : Nat → DWord) (rxend : Option DWord) : Group :=
  match g.halt with
  | some h => { g with halt := some { h with buffer := h.buffer.drop 1 } }
  | none => (g.move batch pc).settle rxend

/-- Last-use hints (R29): the register becomes empty, unless the instruction also writes it. -/
def Group.lastUse (g : Group) (act : List Nat) (f : Front) : Group :=
  let w := f.dsts.flatMap fun p => g.keys p.1 p.2 act
  let ks := (f.srcs.filter fun x => x.lu && x.x.hasBit).flatMap fun x => g.keys x.x x.n act
  if act.isEmpty then g else g.setEmpty (ks.filter fun k => !w.contains k)

/-- The group's part of a commit: its PCs (`pc`, by lane of the batch), its last-use hints and its wait. -/
def Group.commit (g : Group) (c : Ctx) (f : Front) (pc : Nat → DWord) (rxend : Option DWord) : Group :=
  { (g.lastUse c.act f) with wait := none, issued := true }.goOn c.batch pc rxend

/-- The batch moves to the next instruction. -/
def Ctx.nextPc (c : Ctx) : Nat → DWord := fun _ => c.own + 12

/-- The group becomes the youngest of its core, when its instruction carries YLD (R29, R145). -/
def State.yieldIf (s : State) (y : Bool) (gid : Nat) : State :=
  if y then
    let (n, s) := s.newId
    s.modGroup gid fun g => { g with age := n }
  else s

/-- A wait whose instruction had issued before it parked: its YLD has had its effect (R29). -/
def Wait.stands : Wait → Bool
  | .launch _ _ | .barrier _ _ _ | .word _ _ | .push _ _ _ _ | .pop _ _ _ _ _ _ | .future _ _ _ _ => true
  | _ => false

/-- YLD acts now: it acts once, when the instruction issues (R29). -/
def Ctx.yields (c : Ctx) (f : Front) : Bool := f.hints.yld && !(c.g.wait.any (·.stands))

/-- Commit an instruction whose batch goes where `pc` says. YLD makes the group the youngest of its core (R29, R145). -/
def State.commitTo (s : State) (c : Ctx) (f : Front) (pc : Nat → DWord) : State :=
  match s.group c.gid with
  | none => s
  | some g =>
    let g := g.commit c f pc (s.rxendOf c.gid g)
    if c.yields f then
      let (n, s) := s.newId
      s.setGroup c.gid { g with age := n }
    else s.setGroup c.gid g

/-- Commit an instruction whose batch goes on at the next instruction. -/
def State.commit (s : State) (c : Ctx) (f : Front) : State := s.commitTo c f c.nextPc

/-! ### The end of a group (R157, R194, R301, R306) -/

/-- A context that is being restored waits for the engine of a core: it comes before the owner queue (R198). -/
def State.engineAwaited (s : State) (core : Nat) : Bool :=
  s.ctxs.any fun p => p.2.run == .restoring && p.2.saved.any fun x => x.core == core && x.engine.isSome

/-- The next owner of an engine (R193, R194): the head of the owner queue, whose `macq` commits. The sticky flags clear,
and the slices are zeroed when the context changes, after the operations already queued. -/
def State.engineGrant (s : State) (core : Nat) : State :=
  let e := (s.core core).engine
  match (if s.engineAwaited core then [] else e.ownerQ) with
  | [] => s.modCore core fun c => { c with engine := { c.engine with owner := none } }
  | gid :: rest =>
    match s.group gid with
    | none => s.modCore core fun c => { c with engine := { c.engine with owner := none, ownerQ := rest } }
    | some g =>
      let change := match e.lastCtx with | some x => x != g.id.ctx | none => false
      let zeroNow := change && e.ops.isEmpty
      let e' : Engine := { e with
        owner := some gid, ownerQ := rest, flags := 0, lastCtx := some g.id.ctx, epoch := e.epoch + 1
        zeroAfter := e.zeroAfter ++ (if change then (e.ops.getLast?.map (·.id)).toList else [])
        slices := if zeroNow then [] else e.slices }
      let s := s.modCore core fun c => { c with engine := e' }
      match g.wait, g.pc with
      | some .engine, some own =>
        s.setGroup gid ({ g with wait := none, issued := true }.goOn (g.batch own) (fun _ => own + 12) none)
      | _, _ => s

/-- The owner releases the engine (R194): every convergence register becomes undeclared. -/
def State.engineRelease (s : State) (core : Nat) : State :=
  (s.modCore core fun c => { c with engine := { c.engine with owner := none, conv := [] } }).engineGrant core

/-- The role's code (R130). -/
def Role.code : Role → Nat
  | .all => 0 | .copy => 1 | .matrix => 2 | .vector => 3

/-- The groups of a team's role that have not ended (R290, R306). -/
def State.roleGroups (s : State) (grid team : Nat) (r : Role) : List (Nat × Group) :=
  s.groups.filter fun p =>
    p.2.id.grid == grid && p.2.id.team == team && p.2.id.role == r && !p.2.id.bin && !p.2.ended

/-- A group that waited in an instruction commits it: its batch goes on, its wait ends. YLD makes it the youngest (R29). -/
def State.resume (s : State) (gid : Nat) : State :=
  match s.group gid with
  | none => s
  | some g =>
    match g.pc with
    | none => s
    | some own =>
      let yld := match g.wait with
        | some (.loop _ w) | some (.region _ w) => w.hints.yld
        | _ => false
      let g := { g with wait := none, issued := true }.goOn (g.batch own) (fun _ => own + 12) (s.rxendOf gid g)
      (s.setGroup gid g).yieldIf yld gid

/-- Every fibre of the listed lanes ends (R157). -/
def Group.endLanes (g : Group) (lanes : List Nat) : Group :=
  { g with fibres := g.fibres.filter fun f => !lanes.contains f.lane }

/-- RLSTAT.OPEN (R302). -/
def setOpen (r : DWord) (b : Bool) : DWord := (r &&& 0x7FFF_FFFF_FFFF_FFFF#64) ||| (if b then 1#64 <<< 63 else 0)

/-- A group stands arrived in one of the loop instructions. -/
def Group.inLoop (g : Group) (op : XOp) : Bool := match g.wait with | some (.loop o _) => o == op | _ => false

/-- A participant ends while its loop is open (R301): the loop closes. A waiting `rlend` commits; every other participant
still has to issue its `rlend`, and a waiting `rwave` is tried again, and finds its loop closed. -/
def State.breakLoop (s : State) (grid team : Nat) (r : Role) (gid : Nat) : State :=
  match (s.team grid team).bind fun t => smFind t.loops r.code with
  | none => s
  | some l =>
    if l.slots.any (·.gid == gid) then
      let parts := (s.roleGroups grid team r).filter fun p => l.slots.any (·.gid == p.1)
      let ended := (parts.filter fun p => p.2.inLoop .rlend).map (·.1)
      let left := (parts.filter fun p => !p.2.inLoop .rlend).map (·.1)
      let s := s.modTeam grid team fun t => { t with loops := smErase t.loops r.code, broken := t.broken ++ left }
      let s := (parts.map (·.1)).foldl (fun s p => s.modGroup p fun g =>
        { g with
          stat := { g.stat with rlstat := setOpen g.stat.rlstat false }
          wait := if g.inLoop .rwave then none else g.wait }) s
      ended.foldl (fun s p => s.resume p) s
    else s

/-- Every engine operation, those of saved contexts too (R198). -/
def State.engineOps (s : State) : List EngOp :=
  (s.cores.flatMap fun c => c.2.engine.ops) ++
  s.ctxs.flatMap fun p => p.2.saved.flatMap fun x => match x.engine with | some e => e.ops | none => []

/-- Every spawn bin, those of saved contexts too (R149). -/
def State.allBins (s : State) : List Bin :=
  (s.cores.flatMap fun c => c.2.bins) ++ s.ctxs.flatMap fun p => p.2.saved.flatMap fun x => x.bins

/-- Teams whose resources return to the pools (R127): the last group has ended, no bin of the team holds a fibre, no
copy or packet that was committed names a handle of the team (R241), and no engine operation that its groups entered is
left. Their handles become unbound. -/
def State.reap (s : State) : State :=
  let names := fun (t : Team) (h : Option HandleEntry) => match h.bind (·.bound) with
    | some b => b.grid == t.grid && b.team == t.n
    | none => false
  let busy := fun (t : Team) =>
    s.groups.any (fun p => p.2.id.grid == t.grid && p.2.id.team == t.n && !p.2.ended) ||
    s.allBins.any (fun b => b.grid == t.grid && b.team == t.n) ||
    s.engineOps.any (fun o => o.grid == t.grid && o.team == t.n) ||
    s.work.copies.any (fun c => names t c.srcHandle || names t c.dstHandle) ||
    s.work.packets.any (fun x => names t x.handle) ||
    s.work.handles.any (fun h => names t (some h) && s.work.moved.any fun m => m.names.contains (h.core, h.k) && m.ctx == h.ctx)
  let gone := s.teams.filter fun t => !busy t
  let isGone := fun (g n : Nat) => gone.any fun t => t.grid == g && t.n == n
  let free := fun (h : HandleEntry) =>
    let h := match h.bound with | some b => if isGone b.grid b.team then { h with bound := none } else h | none => h
    match h.reservedFor with | some (g, n) => if isGone g n then { h with reservedFor := none } else h | none => h
  if gone.isEmpty then s else
  { s with
    teams := s.teams.filter busy
    work := { s.work with
      handles := (s.work.handles.map free).filter fun h => h.bound.isSome || h.reservedFor.isSome } }

/-- A group that holds no fibre ends (R157): its engine and its place in owner queues are given up (R194), its loop and
its region lose a participant, and it leaves once no producer of it is in flight. -/
def State.endGroup (s : State) (gid : Nat) : State :=
  match s.group gid with
  | none => s
  | some g =>
    let k := g.id.core
    let s := s.setGroup gid { g with fibres := [], ended := true, wait := none, handler := none, pending := none, halt := none }
    let s := s.modCore k fun c => { c with engine := { c.engine with ownerQ := c.engine.ownerQ.filter (· != gid) } }
    let s := if (s.core k).engine.owner == some gid then s.engineRelease k else s
    let s := s.breakLoop g.id.grid g.id.team g.id.role gid
    let live := s.work.producers.any (·.gid == gid) || (s.core k).sfu.any (·.gid == gid)
    let s := if live then s else { s with groups := smErase s.groups gid }
    s.reap

/-- End the fibres of some lanes of a group, and the group with its last fibre. -/
def State.endFibres (s : State) (gid : Nat) (lanes : List Nat) : State :=
  match s.group gid with
  | none => s
  | some g =>
    let g' := (g.endLanes lanes).settle (s.rxendOf gid g)
    if g'.fibres.isEmpty then s.endGroup gid else s.setGroup gid g'

/-! ### Regions closing (R320, R327) -/

/-- A field of a status register. -/
def setField (r : DWord) (lo width val : Nat) : DWord :=
  let mask := BitVec.ofNat 64 (2 ^ width - 1) <<< lo
  (r &&& ~~~mask) ||| ((BitVec.ofNat 64 val <<< lo) &&& mask)

/-- RXSTAT.STATE codes (R321 Table 3). -/
def RegionSt.code : RegionSt → Nat
  | .opened => 1 | .pending => 2 | _ => 0

/-- What is in flight to the registers of some groups is discarded. -/
def State.dropInFlight (s : State) (gids : List Nat) : State :=
  { s with
    work := { s.work with producers := s.work.producers.filter fun p => !gids.contains p.gid }
    cores := s.cores.map fun c => (c.1, { c.2 with sfu := c.2.sfu.filter fun e => !gids.contains e.gid }) }

/-- A v, o or h register, or a v register of the handler window: what a region's snapshot holds (R310, R355). -/
def inSnap (key : Nat) : Bool := [0, 2, 3, 4].contains (key / 65536)

/-- The v, o and h registers of a snapshot, full (R310, R320). -/
def Group.restoreSnap (g : Group) (sn : Snap) : Group :=
  { g with
    regs := sn.regs.foldl (fun m p => smSet m p.1 p.2) (g.regs.filter fun p => !inSnap p.1)
    empty := g.empty.filter fun k => !inSnap k }

/-- Each participant of a region goes on at the instruction after `rxend`, with the v, o and h registers it held at the
commit of `rxbeg` (R320), and with the status given; nothing in flight from the body survives. -/
def State.leaveRegion (s : State) (r : Region) (stat : StatRegs → StatRegs) : State :=
  r.snaps.foldl (fun s sn =>
    s.modGroup sn.gid fun g =>
      { (g.restoreSnap sn) with
        fibres := g.fibres.map fun f => { f with pc := BitVec.ofNat 64 r.hi, held := false }
        wait := none
        stat := stat g.stat }) (s.dropInFlight r.parts)

/-- The region closes with OUTCOME FAULT and becomes PENDING (R327); P as given. -/
def State.faultRegion (s : State) (g : Group) (r : Region) (p : Option Nat) : State :=
  let s := s.leaveRegion r fun st =>
    let x := setField (setField st.rxstat 0 3 4) 3 2 RegionSt.pending.code
    { st with rxstat := match p with | some n => setField x 32 17 n | none => x }
  s.modTeam g.id.grid g.id.team fun t =>
    { t with region := some { r with st := .pending, heldLines := [], heldSpad := [] } }

/-! ### Taking a trap (R352-R360) -/

/-- Cause codes (R352 Table 1). -/
def Cause.code : Cause → Nat
  | .illop => 0x01 | .illpair => 0x02 | .align => 0x03 | .addr => 0x04 | .xlmiss => 0x05 | .xlrsvd => 0x06
  | .xlperm => 0x07 | .access => 0x08 | .role => 0x09 | .regempty => 0x0A | .orphan => 0x0B | .fpexc => 0x0C
  | .xovf => 0x0D | .nondet => 0x0E | .watch => 0x0F | .copyfault => 0x10 | .handle => 0x11 | .overwr => 0x12
  | .aordtkt => 0x13 | .mxown => 0x14 | .mxmismatch => 0x15 | .mxshape => 0x16 | .claimovf => 0x17 | .rlstate => 0x18
  | .rlmismatch => 0x19 | .rxalias => 0x1A | .rxbody => 0x1B | .rxfault => 0x1C | .skstate => 0x1D | .peelfail => 0x1E
  | .collhung => 0x1F | .trap => 0x20 | .brk => 0x21

/-- The trap registers that a trap writes (R354 step 1, R360 Table 2). -/
def Trap.regs (t : Trap) : TrapRegs where
  cause := BitVec.ofNat 32 (t.cause.code + (if t.resume then 2 ^ 8 else 0) + (if t.body then 2 ^ 9 else 0) + t.info.toNat * 2 ^ 16)
  pc := t.pc
  addr := t.addr
  lanes := t.lanes
  level := BitVec.ofNat 32 t.level
  after := t.after

/-- The enables of FPMODE, bits [21:16] (R81). -/
def fpEnables (r : Word) : BitVec 6 := r.extractLsb' 16 6

/-- FPMODE with other enables. -/
def setEnables (r : Word) (e : BitVec 6) : Word := (r &&& 0xFFC0_FFFF#32) ||| (e.setWidth 32 <<< 16)

/-- The handler batch: the batch that trapped (R354 step 4). -/
def Group.trapBatch (g : Group) (pc : DWord) (body : Bool) : List Nat :=
  let at_ := (g.fibres.filter fun f => !f.held && f.pc == pc).map (·.lane)
  if body || at_.isEmpty then (match g.pc with | some p => g.batch p | none => g.fibres.map (·.lane)) else at_

/-- The group's part of trap entry (R354, R355): the trap registers, a zero and full handler window, the enables saved
and cleared, and the trapping batch at the handler. -/
def Group.enter (g : Group) (t : Trap) (entry : Nat) : Group :=
  let lanes := g.trapBatch t.pc t.body
  { g with
    trap := t.regs
    handler := some ⟨lanes, fpEnables g.fpmode⟩
    fpmode := setEnables g.fpmode 0
    regs := g.regs.filter fun p => p.1 / 65536 != 4 && p.1 / 65536 != 5
    empty := g.empty.filter fun k => k / 65536 != 4 && k / 65536 != 5
    fibres := g.fibres.map fun f => if lanes.contains f.lane then { f with pc := BitVec.ofNat 64 entry, held := false } else f
    wait := none
    pending := none }

/-- Handler windows taken on a core (R355). -/
def State.windowsUsed (s : State) (core : Nat) : Nat :=
  (s.groups.filter fun p => p.2.id.core == core && p.2.handler.isSome && p.2.place != .saved).length

/-- Enter the handler of a pending trap, if a window is free (R354, R355); else the trap waits. -/
def State.enterHandler (s : State) (gid : Nat) : State :=
  match s.group gid with
  | none => s
  | some g =>
    match g.pending, g.id.trapAt with
    | some t, some entry =>
      if s.windowsUsed g.id.core < Config.handlerWindows then s.setGroup gid (g.enter t entry) else s
    | _, _ => s

/-- A debugger attached with halt-on-trap (R357). -/
def State.haltsOnTrap (s : State) (ctx : Nat) : Bool :=
  match s.ctx ctx with
  | some c => c.debugger == some true
  | none => false

/-- A trap takes an instruction back that has issued and waits: its destination is full again with its old value (R113). -/
def State.cancelWait (s : State) (gid : Nat) : State :=
  match (s.group gid).bind fun g => g.wait.bind Wait.due with
  | none => s
  | some d =>
    let keys := (s.work.producers.filter (·.id == d.prod)).flatMap fun p => p.writes.map (·.1)
    State.modGroup { s with work := { s.work with producers := s.work.producers.filter (·.id != d.prod) } } gid fun g =>
      g.setFull (keys.filter fun k => !d.was.contains k)

/-- TAKING A TRAP (R352-R357), the one operation that every trap goes through. A buffered instruction's trap stops the
buffer and is reported (R367). A trap in a relaxation body first closes the region (R327). A trap with no handler, or in
the handler, ends every fibre and marks the grid TRAPPED, or halts the group under a debugger (R357). Any other waits for
a handler window and enters the handler. -/
def State.raise (s : State) (gid : Nat) (t : Trap) : State :=
  match s.group gid with
  | none => s
  | some g =>
    let s := s.cancelWait gid
    match g.halt with
    | some h => s.modGroup gid fun g => { g with wait := none, halt := some ⟨[], some t, h.skip⟩ }
    | none =>
      let (s, t) := match s.bodyOf gid g with
        | some r => (s.faultRegion g r none, { t with body := true, resume := false, after := BitVec.ofNat 64 r.hi })
        | none => (s, t)
      let s := s.modGroup gid fun g => { g with issued := true, wait := none }
      if g.handler.isSome || g.id.trapAt.isNone then
        if s.haltsOnTrap g.id.ctx then s.modGroup gid fun g => { g with halt := some ⟨[], some t, false⟩ }
        else (s.modGrid g.id.grid fun gr => { gr with trapped := true }).endFibres gid (g.fibres.map (·.lane))
      else (s.modGroup gid fun g =>
        { g with pending := some t, notBefore := max g.notBefore (s.dev.clk + Config.entryCycles) }).enterHandler gid

/-! ### Held faults of a relaxation body (R318) -/

/-- The slot of a lane in a region. -/
def Region.slotOf (r : Region) (gid lane : Nat) : Option Nat := r.slots.findIdx? fun x => x.gid == gid && x.lane == lane

/-- The step that a lane holds in the current round (R310). -/
def Region.stepOf (r : Region) (gid lane : Nat) : Option Nat :=
  match r.slotOf gid lane with
  | some q => if r.round * r.slots.length + q + 1 ≤ r.desc.t then some (r.round * r.slots.length + q + 1) else none
  | none => none

/-- A step before its body ran (R311). -/
def StepEval.start (d : RegionDesc) : StepEval :=
  ⟨List.replicate d.m none, List.replicate (if d.dense then d.m * d.m else d.m) none, [], 0, none⟩

/-- Change the evaluation of a lane's step. -/
def Region.modStep (r : Region) (gid lane : Nat) (f : StepEval → StepEval) : Region :=
  match r.stepOf gid lane with
  | some t => { r with evals := smSet r.evals t (f (smGet (StepEval.start r.desc) r.evals t)) }
  | none => r

/-- Change the region of a group's team. -/
def State.modRegion (s : State) (g : Group) (f : Region → Region) : State :=
  s.modTeam g.id.grid g.id.team fun t => { t with region := t.region.map f }

/-- An instruction fails in the body for one step (R318): the step's first failure is held, and the lane does not run
the rest of the body; it stands at the `rxend`. -/
def State.holdFault (s : State) (c : Ctx) (lane : Nat) (t : Trap) : State :=
  let s := s.modRegion c.g fun r => r.modStep c.gid lane fun e =>
    { e with fault := match e.fault with | some x => some x | none => some { t with lanes := laneMask [lane] } }
  match s.group c.gid with
  | none => s
  | some g =>
    match s.rxendOf c.gid g with
    | none => s
    | some p =>
      let stop := fun (f : Fibre) => if f.lane = lane then { f with pc := p, held := true } else f
      s.setGroup c.gid (Group.settle { g with fibres := g.fibres.map stop } (some p))

/-! ### What an instruction answers -/

/-- The outcome of an attempt at an instruction: it took effect; it issued and waits uncommitted; it is not eligible, with
the state that the attempt leaves; a trap of the group; or no group. -/
inductive Act where
  | done (s : State)
  | park (s : State)
  | wait (s : State)
  | trap (gid : Nat) (t : Trap) (s : State)
  | noGroup

/-- The step that an attempt answers: every trap is taken. -/
def finish (a : Act) : Host.Outcome State Fault Refusal :=
  match a with
  | .done s => .next s
  | .park s => .next s
  | .wait s => .next s
  | .trap gid t s => .next (s.raise gid t)
  | .noGroup => .fault .noGroup

/-- Run the shared checks, then the instruction's own effect. With no active lane an instruction commits nothing and its
batch goes on (R28). -/
def State.issue (s : State) (f : Front) (k : Ctx → Act) : Act :=
  match s.front f with
  | .noGroup => .noGroup
  | .stall => .wait s
  | .trap gid t => .trap gid t s
  | .go c => if c.act.isEmpty then .done (s.commit c f) else k c

/-- The instruction has taken effect and issued, and its batch stands at it: its hints apply (R29). -/
def State.standAt (s : State) (c : Ctx) (f : Front) : State :=
  (s.modGroup c.gid fun g => { (g.lastUse c.act f) with wait := none, issued := true }).yieldIf f.hints.yld c.gid

/-- An instruction that waits for a line; when its access met an uncorrectable error, that is noted (R389). -/
def State.waitFrom (s s' : State) : Act := if s'.dev.doomed = s.dev.doomed then .wait s' else .park s'

/-- A trap after commit (R352): the instruction has taken effect; the batch stands at it, and RESUME is 1. -/
def State.afterCommit (s : State) (c : Ctx) (f : Front) (t : Trap) : Act :=
  .trap c.gid { t with resume := true } (s.standAt c f)

/-- The group parks in its instruction (R134): its park time starts when it was not parked. -/
def State.park (s : State) (gid : Nat) (w : Wait) : State :=
  s.modGroup gid fun g =>
    { g with wait := some w, issued := true, parkedAt := if g.wait.any (!·.woken) then g.parkedAt else s.dev.clk }

/-- The group parks, or stays parked in the same wait. -/
def State.parkIn (s : State) (gid : Nat) (w : Wait) : Act :=
  if (s.group gid).bind (·.wait) = some w then .wait s else .park (s.park gid w)

/-- The instruction issues and parks (R134); YLD acts (R29). -/
def State.parkAt (s : State) (c : Ctx) (f : Front) (w : Wait) : State := (s.park c.gid w).yieldIf (c.yields f) c.gid

/-- The group waits in its instruction without parking. -/
def State.hold (s : State) (gid : Nat) (w : Wait) : State :=
  s.modGroup gid fun g => { g with wait := some w, issued := true }

/-- The group waits without parking, or stays in the same wait. -/
def State.holdIn (s : State) (gid : Nat) (w : Wait) : Act :=
  if (s.group gid).bind (·.wait) = some w then .wait s else .park (s.hold gid w)

/-- The instruction issues and waits without parking; YLD acts (R29). -/
def State.holdAt (s : State) (c : Ctx) (f : Front) (w : Wait) : State := (s.hold c.gid w).yieldIf (c.yields f) c.gid

/-- A wait that parks (R134). -/
def Wait.parks : Wait → Bool
  | .ticket _ | .engine | .loop _ _ | .region _ _ => false
  | _ => true

/-! ### Long-latency producers (R146) -/

/-- A name for a result that no register receives: the value of a lane whose destination, an s register, a higher lane of the same
instruction writes too (R273). -/
def spareKey (lane j : Nat) : Nat := 65536 * (16 + 2 * lane + j) + 256 * 255

/-- A key names a register. -/
def isReg (key : Nat) : Bool := key < 65536 * 16

/-- A new producer: the registers become empty, with the values it has so far. -/
def State.produce (s : State) (gid : Nat) (writes : List (Nat × Option Word)) : Nat × State :=
  let (id, s) := s.newId
  let s := s.modGroup gid fun g => g.setEmpty ((writes.map (·.1)).filter isReg)
  (id, { s with work := { s.work with producers := s.work.producers ++ [⟨id, gid, writes⟩] } })

/-- A producer receives values for some of its registers. -/
def State.fill (s : State) (prod : Nat) (vals : List (Nat × Word)) : State :=
  { s with work := { s.work with producers := s.work.producers.map fun p =>
      if p.id = prod then
        { p with writes := p.writes.map fun w =>
            match vals.find? (fun v => v.1 == w.1) with | some v => (w.1, some v.2) | none => w }
      else p } }

/-- A producer may write back: it has every value. -/
def Producer.complete (p : Producer) : Bool := p.writes.all (·.2.isSome)

/-- A register belongs to a fibre of the group: the results due to the registers of an ended fibre are discarded (R157). An s
register belongs to the group. -/
def Group.holdsKey (g : Group) (key : Nat) : Bool :=
  key / 65536 == 1 || key / 65536 == 5 || g.fibres.any fun f => f.lane == key / 256 % 256

/-- Results written back to the registers whose fibres the group still holds. -/
def Group.receive (g : Group) (l : List (Nat × Word)) : Group := g.puts (l.filter fun p => g.holdsKey p.1)

/-- A producer writes back (R146, R356): its registers receive their values and are full. The results of a group that
ended are discarded, and the group leaves with its last producer (R157). -/
def State.writeBack (s : State) (prod : Nat) : State :=
  match s.work.producers.find? (fun p => p.id == prod) with
  | none => s
  | some p =>
    if p.complete then
      let s := { s with work := { s.work with producers := s.work.producers.filter (·.id != prod) } }
      match s.group p.gid with
      | none => s
      | some g =>
        if g.ended then
          let live := s.work.producers.any (·.gid == p.gid) || (s.core g.id.core).sfu.any (·.gid == p.gid)
          (if live then s else { s with groups := smErase s.groups p.gid }).reap
        else s.setGroup p.gid (g.receive (p.writes.map fun w => (w.1, w.2.getD 0)))
    else s

/-- The words that a wait has received for its destination (R279, R284, R286). -/
def Wait.words : Wait → Option (List Word)
  | .word x _ => if x.peel then none else x.woke.map fun v => [loWord v, hiWord v]
  | .pop _ _ _ item _ _ => item.map fun v => [loWord v, hiWord v]
  | .future l _ _ _ =>
    if l.all (·.got.isSome) then some (l.flatMap fun x => [loWord (x.got.getD 0), hiWord (x.got.getD 0)]) else none
  | _ => none

/-- A producer receives the words of its registers, in their order. -/
def State.pay (s : State) (prod : Nat) (words : List Word) : State :=
  { s with work := { s.work with producers := s.work.producers.map fun p =>
      if p.id = prod then { p with writes := p.writes.zipIdx.map fun x => (x.1.1, words[x.2]?.or x.1.2) } else p } }

/-- A value that comes for a group out of its slot is written into its saved registers, and its instruction commits there
(R287, R380). -/
def State.commitSaved (s : State) (gid : Nat) : State :=
  match s.group gid with
  | none => s
  | some g =>
    match g.wait.bind Wait.due, g.wait.bind Wait.words with
    | some d, some words =>
      if g.place == .slot then s
      else (((s.pay d.prod words).writeBack d.prod).modGroup gid fun g => g.setEmpty d.lu).resume gid
    | _, _ => s

/-- The destination of an instruction that issues and waits becomes empty (R146): its producer, with what the instruction
keeps for its commit. -/
def State.owe (s : State) (c : Ctx) (f : Front) (keys : List Nat) : Due × State :=
  let lu := (c.g.lastUse c.act f).empty.filter fun k => !c.g.empty.contains k
  let (prod, s) := s.produce c.gid (keys.map fun k => (k, none))
  (⟨prod, lu, keys.filter fun k => !c.g.isFull k⟩, s)

/-- The producer of a wait gets its words, and the instruction commits. -/
def State.commitDue (s : State) (c : Ctx) (f : Front) (d : Due) (words : List Word) : State := (s.pay d.prod words).commit c f

end Sys2Proof.Machine
end

