-- ==== Sys2Proof/Machine/Flags.lean ====
section
/-! DEFINITION. FPMODE (R81): the rounding mode in force, the sticky flags with their enables, and the traps FPEXC and
XOVF; the flags of a relaxation body (R311); and the draws of stochastic rounding for a group's instructions (R96). -/

namespace Sys2Proof.Machine

/-- The lanes for which an instruction acts: the lowest active lane stands for a group that executes once. -/
def Ctx.lanesOf (c : Ctx) (once : Bool) : List Nat := if once then c.act.take 1 else c.act

/-- DRND (R81): codes 0 to 5; a `wrsr` never stores another. -/
def Group.drnd (g : Group) : Rnd := (Rnd.ofCode (g.fpmode.toNat % 8)).getD .rne

/-- The rounding mode of an instruction (R78): `dyn` takes FPMODE.DRND. -/
def Group.rounding (g : Group) (r : Rnd) : Rnd := if r = .dyn then (if g.drnd = .dyn then .rne else g.drnd) else r

/-- FPMODE with flags ORed in (R81). -/
def orFlags (r : Word) (f : FpFlags) : Word := r ||| (f.setWidth 32 <<< 8)

/-- What a `wrsr` stores in FPMODE (R81 Table 5): DRND 6 and 7 store 0, reserved bits stay zero. -/
def fpStore (x : Word) : Word :=
  let d := x.toNat % 8
  (x &&& 0x003F_3F00#32) ||| (if d < 6 then BitVec.ofNat 32 d else 0)

/-- Every flag that some lane raised. -/
def allFlags (fl : List (Nat × FpFlags)) : FpFlags := fl.foldl (fun a p => a ||| p.2) 0

/-- The trap that the flags of an instruction raise (R81, R89, R353): FPEXC when an IEEE flag is enabled, else XOVF; with
the lanes that raised an enabled flag. -/
def flagTrap (en : BitVec 6) (fl : List (Nat × FpFlags)) : Option (Cause × List Nat) :=
  let raised := allFlags fl &&& en
  let lanes := (fl.filter fun p => p.2 &&& en != 0).map (·.1)
  if raised &&& 31 != 0 then some (.fpexc, lanes)
  else if raised != 0 then some (.xovf, lanes)
  else none

/-- The flags join FPMODE (R81), or, in a relaxation body, the steps of their lanes (R311). -/
def State.collectFlags (s : State) (c : Ctx) (fl : List (Nat × FpFlags)) : State :=
  if allFlags fl = 0 then s
  else if (s.bodyOf c.gid c.g).isSome then
    fl.foldl (fun s p => s.modRegion c.g fun r => r.modStep c.gid p.1 fun e => { e with flags := e.flags ||| p.2 }) s
  else s.modGroup c.gid fun g => { g with fpmode := orFlags g.fpmode (allFlags fl) }

/-- The lanes whose step fails by an enabled flag in a relaxation body hold their own fault (R318). -/
def State.holdFlags (s : State) (c : Ctx) (en : BitVec 6) (fl : List (Nat × FpFlags)) : State :=
  fl.foldl (fun s p => match flagTrap en [p] with
    | some (cause, _) => s.holdFault c p.1 (c.trap cause [p.1])
    | none => s) s

/-- Commit an instruction with results and flags (R81): with no enabled flag raised the results are written; else no lane
writes, the flags are updated, and the trap is raised. In a relaxation body the failing lanes' steps hold it (R318), and
the others go on. -/
def State.commitFlags (s : State) (c : Ctx) (f : Front) (once : Bool) (writes : List (Nat × Word))
    (fl : List (Nat × FpFlags)) : Act :=
  let s := s.collectFlags c fl
  match flagTrap (fpEnables c.g.fpmode) fl with
  | none => .done ((s.modGroup c.gid fun g => g.puts writes).commit c f)
  | some (cause, lanes) =>
    if (s.bodyOf c.gid c.g).isSome then .done (s.holdFlags c (fpEnables c.g.fpmode) fl)
    else .trap c.gid (c.trap cause (if once then c.act else lanes)) s

/-- The SR key and a tensor write counter of a group's context (R96, R97). -/
def State.srKey (s : State) (ctx : Nat) : DWord := match s.ctx ctx with | some c => c.srKey | none => 0

@[inherit_doc State.srKey] def State.twc (s : State) (ctx t : Nat) : Word :=
  match s.ctx ctx with | some c => smGet 0 c.twc t | none => 0

/-- The instruction's index in its text section (R19, R96). -/
def Ctx.index (c : Ctx) : Word := BitVec.ofNat 32 ((c.own.toNat - c.g.id.secLo) / 12)

/-- The FIBID of a lane. -/
def Group.fibid (g : Group) (lane : Nat) : Word :=
  match g.fibres.find? fun f => f.lane == lane with | some f => f.fibid | none => 0

/-- The draw of a per-lane instruction (R96). -/
def State.laneDraw (s : State) (c : Ctx) (lane : Nat) : Nat :=
  drawBits (s.srKey c.g.id.ctx) (c.g.fibid lane) c.index 0xFFFF_FFFF (s.twc c.g.id.ctx 255)

/-- The draw of a uniform instruction (R96). -/
def State.onceDraw (s : State) (c : Ctx) : Nat :=
  drawBits (s.srKey c.g.id.ctx) c.g.id.grpid c.index 0xFFFF_FFFE (s.twc c.g.id.ctx 255)

/-- The draw of a combining step of `scan` or `lred` at level l and position p (R96, R185). -/
def State.stepDraw (s : State) (c : Ctx) (l p : Nat) : Nat :=
  drawBits (s.srKey c.g.id.ctx) (c.g.fibid (lowest 0 c.act)) c.index (BitVec.ofNat 32 (0xFFFD_0000 + 8 * p + l))
    (s.twc c.g.id.ctx 255)

end Sys2Proof.Machine
end

