-- ==== Sys2Proof/Machine/Operands.lean ====
section
/-! DEFINITION. The operand forms: `rd` and `wr` of the pseudocode (R41) for every class and type, address formation
(R213), and the sources and destinations that the shared checks see. -/

namespace Sys2Proof.Machine

/-- `rd(F, L, t)`: the bits of an operand read as type t in a lane (R24, R26, R73). -/
def Group.rd (g : Group) (x : Operand) (lane : Nat) (t : Ty) : Nat :=
  match x with
  | .k i => constBits i t
  | _ => g.bits x t.regs lane % 2 ^ t.width

/-- `rd` as a word. -/
def Group.rdWord (g : Group) (x : Operand) (lane : Nat) : Word := BitVec.ofNat 32 (g.rd x lane .n32)

/-- `rd` as a 64-bit value. -/
def Group.rdDWord (g : Group) (x : Operand) (lane : Nat) : DWord := BitVec.ofNat 64 (g.rd x lane .n64)

/-- A value of type t as the register or pair holds it (R73): i8 and i16 sign-extended, other narrow types
zero-extended; a moved l6 keeps the bits it has (log 81). -/
def extend (t : Ty) (bits : Nat) : Nat :=
  if t = .i8 || t = .i16 then truncInt (t.intOf bits) 32 else bits % 2 ^ t.width

/-- `wr(F, L, x, t)`: the registers that a value of type t is written to. -/
def Group.wr (g : Group) (x : Operand) (lane : Nat) (t : Ty) (bits : Nat) : List (Nat × Word) :=
  g.split x t.regs lane (extend t bits)

/-- A source of a type, with its hints. -/
def srcOf (x : Operand) (t : Ty) (te lu : Bool) : Src := ⟨x, t.regs, te, lu⟩

/-- The 20-bit OFFSET, sign-extended (R32, R213). -/
def memOffset (w : MWord) : Int := sextNat w.off.toNat 20

/-- The global or constant address of a lane (R213 Table 1): trunc(rd(A, L, n64) + sext(OFFSET, 20), 64). -/
def Group.globalAddr (g : Group) (w : MWord) (lane : Nat) : DWord :=
  BitVec.ofInt 64 ((g.rd w.a lane .n64 : Nat) + memOffset w)

/-- The scratchpad word of a lane (R213 Table 1): trunc(rd(A, L, n32) + sext(OFFSET, 20), 32). -/
def Group.spadWord (g : Group) (w : MWord) (lane : Nat) : Word :=
  BitVec.ofInt 32 ((g.rd w.a lane .n32 : Nat) + memOffset w)

/-- Canonical (R212): bits [63:57] all equal bit 56. -/
def canonical (a : DWord) : Bool := (a >>> 56).toNat = 0 || (a >>> 56).toNat = 255

end Sys2Proof.Machine
end

