-- ==== Sys2Proof/Machine/Memory.lean ====
section
/-! DEFINITION. Memory and its order: the bytes of M with the format windows (R212, R224, R225), the access tables
(R221, R222), the moves of the abstract machine (R252-R261), translation (R215-R219), and the four paths of an access
(R223, R254). -/

namespace Sys2Proof.Machine

/-! ### Bytes -/

/-- What a byte of memory that is not listed reads as (log 3). -/
def memDefault : Byte := 0

/-- One byte of a sparse memory. -/
def memByte (m : List Host.Cell) (a : Nat) : Byte := smGet memDefault m a

/-- Bytes of a sparse memory, lowest address first. -/
def memBytes (m : List Host.Cell) (a n : Nat) : List Byte := (List.range n).map fun i => memByte m (a + i)

/-- Write one byte. -/
def memPut (m : List Host.Cell) (a : Nat) (x : Byte) : List Host.Cell := smPut memDefault m a x

/-- Write bytes, lowest address first. -/
def memPuts (m : List Host.Cell) (a : Nat) : List Byte → List Host.Cell
  | [] => m
  | x :: rest => memPuts (memPut m a x) (a + 1) rest

/-- The canonical form of memory: addresses strictly rising, no entry equal to what an unlisted address reads as. -/
abbrev Memory.wf (m : List Host.Cell) : Prop := smWf memDefault m

/-- The value of bytes, little-endian (R4). -/
def leVal : List Byte → Nat
  | [] => 0
  | b :: rest => b.toNat + 256 * leVal rest

/-- The n bytes of a value, little-endian (R4). -/
def leOf : Nat → Nat → List Byte
  | 0, _ => []
  | n + 1, x => BitVec.ofNat 8 x :: leOf n (x / 256)

/-- The 128-byte line of an address. -/
def lineOf (a : Nat) : Nat := a / 128

/-- The lines that n bytes at a touch. -/
def linesOf (a n : Nat) : List Nat := (List.range (lineOf (a + n - 1) + 1 - lineOf a)).map (lineOf a + ·)

/-! ### Format windows (R224, R225) -/

/-- A format window's fields (R224 Table 5). -/
structure FmtWindow where
  nbase : Nat
  nsize : Nat
  sbase : Nat
  xbase : Nat
  fmt : Nat
  exp : Bool
  e : Int
  deriving DecidableEq, Repr

/-- The fields of the five words of a format-window register. -/
def FmtWindow.ofWords (w : List DWord) : FmtWindow :=
  let f := fun (i hi lo : Nat) => (w.getD i 0).toNat / 2 ^ lo % 2 ^ (hi + 1 - lo)
  ⟨f 0 51 21 * 2 ^ 21, f 1 51 21 * 2 ^ 21, f 2 51 12 * 2 ^ 12, f 3 50 21 * 2 ^ 21, f 4 2 0, f 4 3 3 = 1, sextNat (f 4 26 16) 11⟩

/-- The enabled windows: NSIZE not 0, FMT at most 4, and EXP = 1 for FMT 4 (R224). -/
def State.fmtWindows (s : State) : List FmtWindow :=
  (s.dev.fmt.map fun p => FmtWindow.ofWords p.2).filter fun w => w.nsize != 0 && w.fmt ≤ 4 && (w.fmt != 4 || w.exp)

/-- The anchor of the window that holds a line (R224). -/
def State.anchorOf (s : State) (pa : Nat) : Option Int :=
  (s.fmtWindows.find? fun w => w.nbase ≤ pa && pa < w.nbase + w.nsize).map (·.e)

/-- Bytes of a narrow element, of an expanded element, and their types (R225). -/
def FmtWindow.narrow (w : FmtWindow) : Ty := match w.fmt with | 1 => .e4m3 | 2 => .e5m2 | 3 => .l6 | _ => .bf16

@[inherit_doc FmtWindow.narrow] def FmtWindow.wide (w : FmtWindow) : Ty := if w.exp then .f32 else .bf16

/-- Whether a physical address lies in the alias ranges (R212). -/
def isAlias (pa : Nat) : Bool := 2 ^ 51 ≤ pa

/-- Element n of a window, expanded (R225). -/
def FmtWindow.expand (w : FmtWindow) (m : List Host.Cell) (n : Nat) : Nat :=
  let eb := w.narrow.width / 8
  let el := decode w.narrow (leVal (memBytes m (w.nbase + n * eb) eb))
  if w.fmt = 4 then (roundTo .f32 el .rne false 0).1
  else
    let sc := decode .bf16 (leVal (memBytes m (w.sbase + 2 * (n / 32)) 2))
    (roundTo w.wide (mulEx el sc).1 .rne false 0).1

/-- The format window whose alias range holds an address (R225). -/
def State.aliasWindow (s : State) (pa : Nat) : Option FmtWindow :=
  s.fmtWindows.find? fun w =>
    w.fmt != 0 && 2 ^ 51 + w.xbase ≤ pa && pa < 2 ^ 51 + w.xbase + w.nsize / (w.narrow.width / 8) * (w.wide.width / 8)

/-- The bytes of M that a byte of the alias ranges is made from (R225): its narrow element and that element's scale. -/
def State.aliasSources (s : State) (pa : Nat) : List (Nat × Nat) :=
  match s.aliasWindow pa with
  | some w =>
    let n := (pa - (2 ^ 51 + w.xbase)) / (w.wide.width / 8)
    let eb := w.narrow.width / 8
    (w.nbase + n * eb, eb) :: if w.fmt = 4 then [] else [(w.sbase + 2 * (n / 32), 2)]
  | none => []

/-- One byte of memory as an access reads it: in the alias ranges, a byte of the expanded element (R225). -/
def State.readByte (s : State) (pa : Nat) : Byte :=
  if isAlias pa then
    match s.aliasWindow pa with
    | some w =>
      let o := pa - (2 ^ 51 + w.xbase)
      let x := w.wide.width / 8
      BitVec.ofNat 8 (w.expand s.mem (o / x) / 256 ^ (o % x))
    | none => 0
  else memByte s.mem pa

/-- Bytes as an access reads them from M. -/
def State.readBytes (s : State) (pa n : Nat) : List Byte := (List.range n).map fun i => s.readByte (pa + i)

/-! ### Monitors (R279, R280) -/

/-- The unsigned comparisons of `waitc` (R270). -/
def condU (c : Nat) (a b : Nat) : Bool :=
  match c with
  | 0 => a = b | 1 => a ≠ b | 2 => a < b | 3 => a ≤ b | 4 => b < a | _ => b ≤ a

/-- A write of n bytes at pa has performed in M: every monitor that watches one of them, and whose comparison is now
true, keeps the value of that moment (R279). -/
def State.hitMonitors (s : State) (pa n : Nat) : State :=
  let hit := fun (g : Group) =>
    match g.wait with
    | some (.word x d) =>
      if x.monitored && x.hit.isNone && x.pa < pa + n && pa < x.pa + x.bytes then
        let m := leVal (s.readBytes x.pa x.bytes)
        if condU x.cond m x.val.toNat then { g with wait := some (.word { x with hit := some (BitVec.ofNat 64 m) } d) } else g
      else g
    | _ => g
  if s.groups.any fun p => match p.2.wait with | some (.word x _) => x.monitored && x.hit.isNone | _ => false then
    { s with groups := s.groups.map fun p => (p.1, hit p.2) }
  else s

/-- The words with an uncorrectable error that a write of n bytes at pa does not cover whole (R389; log 71). -/
def State.cleared (s : State) (pa n : Nat) : Device :=
  { s.dev with poison := s.dev.poison.filter fun w => !(pa ≤ 32 * w && 32 * w + 32 ≤ pa + n) }

/-- A write performs in M (R253), and wakes the monitors that it makes true. -/
def State.writeM (s : State) (pa : Nat) (bytes : List Byte) : State :=
  State.hitMonitors { s with mem := memPuts s.mem pa bytes, dev := s.cleared pa bytes.length } pa bytes.length

/-- Bytes of a line enter M as one move (R238, R260): then the monitors see them. -/
def State.writeEach (s : State) (l : List (Nat × Byte)) : State :=
  let whole := fun (w : Nat) => (List.range 32).all fun i => l.any (·.1 == 32 * w + i)
  let s := { s with
    mem := l.foldl (fun m p => memPut m p.1 p.2) s.mem
    dev := { s.dev with poison := s.dev.poison.filter (!whole ·) } }
  l.foldl (fun s p => s.hitMonitors p.1 1) s

/-! ### Atomic operations (R271 Table 2) -/

/-- The new value of an atomic of n bytes: m the old value, b the operand, d the compare value. Codes 12 and 13 are the
floating minimum and maximum of the collectives (R334 Table 2). -/
def aopNew (aop n m b d : Nat) : Nat :=
  let w := 8 * n
  let sg := fun (x : Nat) => sextNat x w
  match aop with
  | 0 => (m + b) % 2 ^ w
  | 1 => if sg b < sg m then b else m
  | 2 => if sg m < sg b then b else m
  | 3 => Nat.land m b
  | 4 => Nat.lor m b
  | 5 => Nat.xor m b
  | 6 => b
  | 7 => if m = d then b else m
  | 8 => if b ≤ m then 0 else (m + 1) % 2 ^ w
  | 9 => min m b
  | 10 => max m b
  | 12 => (minMax (if n = 8 then .f64 else .f32) false m b).1
  | 13 => (minMax (if n = 8 then .f64 else .f32) true m b).1
  | _ =>
    let t : Ty := if n = 8 then .f64 else .f32
    (roundTo t (addEx (decode t m) (decode t b) .rne).1 .rne false 0).1

/-! ### Access tables (R221, R222, R388) -/

/-- The physical base of the journal (R386; log 7). -/
def journalBase : Nat := 0x7F_FC00_0000

/-- The journal's frames (R386): 64 MiB. -/
def inJournal (pa n : Nat) : Bool := pa < journalBase + 64 * Config.journalEntries && journalBase < pa + n

/-- The access writes. -/
def Kind.writes : Kind → Bool
  | .write | .both => true
  | _ => false

/-- The access reads. -/
def Kind.reads : Kind → Bool
  | .write => false
  | _ => true

/-- Where the windows of a master at a target stand (R221). -/
def targetCode : Target → Nat
  | .slice => 0 | .hbm => 1 | .port => 2 | .engine => 3

/-- Every kind of target. -/
def targetKinds : List Target := [.slice, .hbm, .port, .engine]

/-- The key of a master's row in the tables of a kind of target. -/
def tableKey (master : Nat) (t : Target) : Nat := 4 * master + targetCode t

/-- A window grants an access (R221): it holds it wholly, with the rights that its kind needs; a fetch reads. -/
def windowGrants (w : Window) (pa n : Nat) (k : Kind) : Bool :=
  w.lo ≤ pa && pa + n ≤ w.hi && (!k.reads || w.read) && (!k.writes || w.write)

/-- An access that the windows of a table accept. No master writes the journal, which the runtime and the firmware read
(R388), and none writes an alias range (R225). -/
def grantedBy (tab : SMap (List Window)) (t : Target) (master pa n : Nat) (k : Kind) : Bool :=
  ((smGet [] tab (tableKey master t)).any (windowGrants · pa n k) ||
    (!k.writes && inJournal pa n && (master == Config.runtimeId || master == Config.firmwareId))) &&
  !(k.writes && (inJournal pa n || isAlias pa))

/-- A target accepts an access of a master (R221). -/
def State.allowed (s : State) (t : Target) (master pa n : Nat) (k : Kind) : Bool := grantedBy s.dev.access t master pa n k

/-- The rows of a master in every target's table, as a cached translation holds them (R222). -/
def State.rightsOf (s : State) (master : Nat) : SMap (List Window) := s.dev.access.filter fun p => p.1 / 4 == master

/-- A refusal is logged (R222). -/
def State.refuse (s : State) (t : Target) (master pa : Nat) (k : Kind) : State :=
  { s with dev := { s.dev with refusals := s.dev.refusals ++ [⟨t, master, pa, k⟩] } }

/-! ### Uncorrectable errors in M (R389) -/

/-- Some of n bytes of M at pa lie in a word that holds an uncorrectable error. -/
def State.poisonedRaw (s : State) (pa n : Nat) : Bool := s.dev.poison.any fun w => 32 * w < pa + n && pa < 32 * w + 32

/-- An access to n bytes at pa would deliver a value that carries an uncorrectable error: in the alias ranges, the bytes of M that
the value is made from decide. -/
def State.poisoned (s : State) (pa n : Nat) : Bool :=
  if isAlias pa then (List.range n).any fun i => (s.aliasSources (pa + i)).any fun r => s.poisonedRaw r.1 r.2
  else s.poisonedRaw pa n

/-- An access of a context has met an uncorrectable error: the machine kills the context before the value is delivered. -/
def State.doom (s : State) (ctx : Nat) : State := { s with dev := { s.dev with doomed := keyAdd s.dev.doomed ctx } }

/-- A state that takes nothing of another but the contexts that have met an error and the refusals that were logged. -/
def State.doomsOf (s s' : State) : State :=
  { s with dev := { s.dev with doomed := s'.dev.doomed, refusals := s'.dev.refusals } }

/-- What a queued access does, as a kind of access. -/
def AccKind.kind : AccKind → Kind
  | .load => .read
  | .store _ => .write
  | .rmw _ _ _ | .red _ _ _ | .cell _ _ _ => .both

/-! ### The moves (R255-R261) -/

/-- A T_c write moves into M, unless its target refuses it by now (R222, R256). -/
def State.landWrite (s : State) (w : TcWrite) : State :=
  if s.allowed .slice w.ctx w.pa w.bytes.length .write then s.writeM w.pa w.bytes else s.refuse .slice w.ctx w.pa .write

/-- Every write of a line held in any T_c moves into M, oldest first (R257). -/
def State.drainLine (s : State) (line : Nat) : State :=
  let mine := s.order.tc.filter fun w => lineOf w.pa == line
  let s := { s with order := { s.order with tc := s.order.tc.filter fun w => lineOf w.pa != line } }
  mine.foldl (fun s w => s.landWrite w) s

/-- The partials of a line in ascending logical core (R259), keeping the order of arrival within a core. -/
def sortPartials (l : List Partial) : List Partial :=
  l.foldr (fun p acc =>
    let rec ins : List Partial → List Partial
      | [] => [p]
      | q :: rest => if p.core ≤ q.core then p :: q :: rest else q :: ins rest
    ins acc) []

/-- The merge of one element from its partials, in ascending logical core (R275): each step combines exactly, or by the
wide rule at the anchor, written back rounded once. -/
def mergeValue (n m : Nat) (ps : List Partial) : Nat :=
  match ps with
  | [] => m
  | p :: _ =>
    match p.anchor with
    | some e =>
      let t : Ty := if n = 8 then .f64 else .f32
      let x := decode t m
      if x.isNan then t.cnan
      else
        let w := ps.foldl (fun w q => wideAdd w q.val) (accumulate 0 x e).1
        (wideTo t w e .rne false 0).1
    | none => ps.foldl (fun m q => aopNew q.aop n m q.val.toNat 0) m

/-- The merge of U_l (R259, R275): T_c writes of the line first, then every element in one move. A partial whose element carries
an uncorrectable error is not added: its contexts are killed (R389). -/
def State.mergeLine (s : State) (line : Nat) : State :=
  let mine := sortPartials (s.order.partials.filter fun p => lineOf p.pa == line)
  if mine.isEmpty then s
  else
    let s := s.drainLine line
    let s := { s with order := { s.order with partials := s.order.partials.filter fun p => lineOf p.pa != line } }
    let s := (mine.filter fun p => s.poisonedRaw p.pa p.bytes).foldl (fun s p => p.ctxs.foldl State.doom s) s
    let elems := mine.foldl (fun acc p => if acc.any (fun q => q.1 == p.pa) then acc else acc ++ [(p.pa, p.bytes)]) []
    s.writeEach ((elems.filter fun e => !s.poisonedRaw e.1 e.2).flatMap fun e =>
      let b := leOf e.2 (mergeValue e.2 (leVal (s.readBytes e.1 e.2)) (mine.filter (·.pa == e.1)))
      (List.range e.2).map fun i => (e.1 + i, b.getD i 0))

/-- What comes before an access to a line performs in M: its T_c writes move in, its U_l merges (R257, R259). -/
def State.settleLine (s : State) (line : Nat) : State := (s.drainLine line).mergeLine line

/-- The same for every line that n bytes touch; an alias line also settles the narrow line it is derived from (R225). -/
def State.settle (s : State) (pa n : Nat) : State :=
  let lines := if isAlias pa then
      (s.fmtWindows.filter fun w => 2 ^ 51 + w.xbase ≤ pa).flatMap fun w =>
        let o := (pa - (2 ^ 51 + w.xbase)) / (w.wide.width / 8)
        [lineOf (w.nbase + o * (w.narrow.width / 8)), lineOf (w.sbase + 2 * (o / 32))]
    else linesOf pa n
  lines.foldl (fun s l => s.settleLine l) s

/-- A read performs in M (R255). -/
def State.performRead (s : State) (pa n : Nat) : Nat × State :=
  let s := s.settle pa n
  (leVal (s.readBytes pa n), s)

/-- A write performs in M (R255). -/
def State.performWrite (s : State) (pa : Nat) (bytes : List Byte) : State := (s.settle pa bytes.length).writeM pa bytes

/-- An atomic performs in M as one move (R255): its old value, and the state. -/
def State.performRmw (s : State) (aop pa n b d : Nat) : Nat × State :=
  let (m, s) := s.performRead pa n
  (m, s.writeM pa (leOf n (aopNew aop n m b d)))

/-- A `red` that its target refuses by now is discarded (R222). -/
def State.redRefused (s : State) (r : RedInFlight) : Bool := !s.allowed .slice r.ctx r.pa r.bytes .both

/-- A `red` joins the partial of its logical core in U_l (R259); a partial of another operation or width in a byte it
touches first causes the merge (R274). -/
def State.accumulateRed (s : State) (r : RedInFlight) : State :=
  let clash := s.order.partials.any fun p =>
    p.pa < r.pa + r.bytes && r.pa < p.pa + p.bytes && !(p.pa == r.pa && p.bytes == r.bytes && p.aop == r.aop && p.anchor == r.anchor)
  let s := if clash then s.mergeLine (lineOf r.pa) else s
  let t : Ty := if r.bytes = 8 then .f64 else .f32
  let start : Partial := ⟨r.core, [r.ctx], r.pa, r.bytes, r.aop, r.anchor, match r.anchor with
    | some e => (accumulate 0 (decode t r.b.toNat) e).1
    | none => r.b.toNat⟩
  let join := fun (p : Partial) => { p with
    ctxs := keyAdd p.ctxs r.ctx
    val := match r.anchor with
      | some e => (accumulate p.val (decode t r.b.toNat) e).1
      | none => (aopNew r.aop r.bytes p.val.toNat r.b.toNat 0 : Nat) }
  let same := fun (p : Partial) => p.core == r.core && p.pa == r.pa
  if s.order.partials.any same then
    { s with order := { s.order with partials := s.order.partials.map fun p => if same p then join p else p } }
  else { s with order := { s.order with partials := s.order.partials ++ [start] } }

/-- The lines that a body's load reads are held from then on (R313). -/
def State.holdFor (s : State) (gid : Nat) (lines : List Nat) : State :=
  match s.group gid with
  | some g => s.modRegion g fun r => if r.st == .opened then { r with heldLines := keyUnion r.heldLines lines } else r
  | none => s

/-- One move on a cell of a sketch (R343, R345): COUNT rises by σ, a key and its check are entered in KEYSUM and CHECK; the reserved
bytes are not written. -/
def State.cellMove (s : State) (σ : Word) (key chk : DWord) (pa : Nat) : State :=
  let s := s.settle pa 32
  let at_ := fun (o n x : Nat) => (leOf n x).zipIdx.map fun p => (pa + o + p.2, p.1)
  let d := fun (o : Nat) => BitVec.ofNat 64 (leVal (s.readBytes (pa + o) 8))
  s.writeEach (at_ 0 4 (BitVec.ofNat 32 (leVal (s.readBytes pa 4)) + σ).toNat ++ at_ 8 8 (d 8 ^^^ key).toNat ++
    at_ 16 8 (d 16 ^^^ chk).toNat)

/-- A queued access performs in M (R258, R261): a load or an atomic gives its value to its producer. One that its target
refuses by now is not performed: a write is discarded and a read delivers zero (R222). -/
def State.performAccess (s : State) (t : Target) (a : Access) : State :=
  let give := fun (s : State) (v : Nat) =>
    s.fill a.prod ((List.range a.keys.length).map fun i => (a.keys.getD i 0, BitVec.ofNat 32 (v / 2 ^ (32 * i))))
  if !s.allowed t a.ctx a.pa a.bytes a.kind.kind then give (s.refuse t a.ctx a.pa a.kind.kind) 0
  else if a.body then let (v, s) := (s.holdFor a.gid (linesOf a.pa a.bytes)).performRead a.pa a.bytes; give s v
  else match a.kind with
  | .load => let (v, s) := s.performRead a.pa a.bytes; give s v
  | .store b => s.performWrite a.pa b
  | .rmw aop b d => let (v, s) := s.performRmw aop a.pa a.bytes b.toNat d.toNat; give s v
  | .cell σ k x => s.cellMove σ k x a.pa
  | .red aop b e => s.accumulateRed ⟨a.gid, a.ctx, logical a.core, aop, a.pa, a.bytes, b, some e, a.ord⟩

/-! ### Lines that engines and copies hold (R196, R238, R260, R313, R335) -/

/-- The global lines that an engine operation, a copy or a collective holds: its order among them, the group that issued it,
its sources, its destinations, and whether it has read its sources. -/
structure Hold where
  id : Nat
  gid : Option Nat
  src : List Nat
  dst : List Nat
  read : Bool
  deriving DecidableEq, Repr

/-- An operation has read its sources: one that fills slices reads them when it ends. -/
def EngOp.hasRead (o : EngOp) : Bool :=
  o.running && (match o.kind with | .mfill _ _ _ => false | _ => true)

/-- Every hold. A finished collective holds nothing. -/
def State.holds (s : State) : List Hold :=
  (s.engineOps.map fun o => ⟨o.id, some o.gid, o.srcLines, o.dstLines, o.hasRead⟩) ++
  (s.work.copies.map fun c => ⟨c.id, none, c.srcLines, c.dstLines, c.srcDone⟩) ++
  s.grids.filterMap fun p => match p.2.coll with
    | some c => if c.finished then none else c.id.map fun i => ⟨i, none, c.srcLines, ((c.dst.getD []).map (·.1)), true⟩
    | none => none

/-- Who makes an access: a group's access of a time of issue, the unit of an operation, a copy or a collective with its id,
or any other agent, now. -/
inductive Agent where
  | group (gid ord : Nat)
  | unit (id : Nat)
  | other
  deriving DecidableEq, Repr

/-- A hold came before what an agent does: an operation, a copy or a collective waits for those before it alone. -/
def Agent.after (a : Agent) (h : Hold) : Bool :=
  match a with
  | .group _ ord => h.id < ord
  | .unit id => h.id < id
  | .other => true

/-- A line that was taken and is not completed (R260): no access to it performs but those of a unit that came before. -/
def State.takenFor (s : State) (a : Agent) (line : Nat) : Bool :=
  s.holds.any fun h => h.dst.contains line && (match a with | .unit _ => a.after h | _ => true)

/-- A line whose writes wait: a source of an unfinished operation that was issued before the write (R196, R260). -/
def State.heldFor (s : State) (a : Agent) (line : Nat) : Bool := s.holds.any fun h => h.src.contains line && a.after h

/-- A group's own later access to a line that an unfinished operation of its own is still to read (R196). -/
def State.ownSource (s : State) (a : Agent) (line : Nat) : Bool :=
  match a with
  | .group gid _ => s.holds.any fun h => h.gid == some gid && !h.read && h.src.contains line && a.after h
  | _ => false

/-- A line that the body of an open region has read: writes of agents that do not take part in it wait (R313). -/
def State.regionHeld (s : State) (a : Agent) (line : Nat) : Bool :=
  s.teams.any fun t => match t.region with
    | some r => r.st == .opened && r.heldLines.contains line &&
        (match a with | .group gid _ => !r.parts.contains gid | _ => true)
    | none => false

/-- An agent's access to n bytes at pa must wait (R196, R238, R260, R313). -/
def State.blockedFor (s : State) (a : Agent) (pa n : Nat) (write : Bool) : Bool :=
  (linesOf pa n).any fun l => s.takenFor a l || s.ownSource a l || (write && (s.heldFor a l || s.regionHeld a l))

/-- The access of an agent that is no group and no engine's unit must wait. -/
def State.blocked (s : State) (pa n : Nat) (write : Bool) : Bool := s.blockedFor .other pa n write

/-- A group that issues an access now. -/
def State.nowBy (s : State) (gid : Nat) : Agent := .group gid s.sched.nextId

/-! ### Translation (R215-R219) -/

/-- A page-table entry's fields (R215 Table 2). -/
structure Pte where
  v : Bool
  l : Bool
  c : Bool
  w : Bool
  x : Bool
  k : Bool
  a : Bool
  d : Bool
  mt : Nat
  pa : Nat
  del : Bool
  rsvd : Bool
  deriving DecidableEq, Repr

/-- The fields of an entry read at a level, with rsvd(e, lvl) (R216). -/
def Pte.of (e : Nat) (lvl : Nat) : Pte :=
  let b := fun (i : Nat) => e / 2 ^ i % 2 = 1
  let f := fun (hi lo : Nat) => e / 2 ^ lo % 2 ^ (hi + 1 - lo)
  let l := b 1
  let pa := f 51 12 * 4096
  ⟨b 0, l, b 2, b 3, b 4, b 5, b 6, b 7, f 9 8, pa, b 63,
    f 11 10 != 0 || f 58 52 != 0 || (lvl == 0 && !l) || (2 ≤ lvl && l) || (b 63 && (l || lvl != 2)) ||
    (!l && f 9 2 != 0) || (l && lvl == 1 && f 20 12 != 0)⟩

/-- What a translation answers; `blocked` says that an entry cannot be read yet. -/
inductive Walk where
  | ok (s : State) (t : Tlb)
  | fault (s : State) (cause : Cause) (level : Nat)
  | blocked (s : State)
  deriving Repr

/-- What the read of one entry answers. -/
inductive EntryRead where
  | ok (raw : Nat) (s : State)
  | refused (s : State)
  | blocked (s : State)

/-- One entry read by the walker as one device-scope read of M, made as the walker or as the context, and checked by the
target as that master's (R216, R221). -/
def State.readEntry (s : State) (ctx pa : Nat) (asCtx : Bool) : EntryRead :=
  let master := if asCtx then ctx else Config.walkerId
  if s.blocked pa 8 false then .blocked s
  else if !s.allowed .slice master pa 8 .read then .refused (s.refuse .slice master pa .read)
  else if s.poisoned pa 8 then .blocked (s.doom ctx)
  else let (raw, s) := s.performRead pa 8; .ok raw s

/-- What the entries of a merged run share: bits [11:2] but A and D, and [63:52] (R217). -/
def runKey (e : Nat) : Nat := e / 4 % 16 + e / 256 % 16 * 16 + e / 4503599627370496 * 256

/-- A valid leaf with C = 1 that the walk does not refuse. -/
def runLeaf (lvl e : Nat) : Bool :=
  let p := Pte.of e lvl
  p.v && p.l && p.c && !p.rsvd

/-- The entries of a leaf's aligned run (R217). -/
def State.runEntries (s : State) (entryPa : Nat) : List Nat :=
  (List.range 16).map fun i => leVal (s.readBytes (entryPa / 128 * 128 + 8 * i) 8)

/-- The run of a leaf with C = 1 is merged (R217): every entry of the aligned run agrees and the frames follow. -/
def State.mergedRun (s : State) (entryPa : Nat) (lvl : Nat) : Bool :=
  let es := s.runEntries entryPa
  let step := if lvl = 0 then 4096 else 2097152
  let e0 := es.getD 0 0
  let p0 := (Pte.of e0 lvl).pa
  es.all (fun e => runLeaf lvl e && runKey e == runKey e0) && p0 % (16 * step) == 0 &&
    (es.map fun e => (Pte.of e lvl).pa) == (List.range 16).map fun i => p0 + i * step

/-- The entry whose A and D bits are set (R216). -/
def markedEntry (e : Pte) (raw : Nat) (k : Kind) : Nat := raw + (if e.a then 0 else 64) + (if k.writes && !e.d then 128 else 0)

/-- A translation is cached (R218); one of an entry's earlier values stays too, until a `tlbinv` removes it. -/
def State.cacheTlb (s : State) (t : Tlb) : State :=
  if s.order.tlb.contains t then s else { s with order := { s.order with tlb := s.order.tlb ++ [t] } }

/-- A non-leaf entry is cached (R218). -/
def State.cacheNode (s : State) (n : Node) : State :=
  if s.order.nodes.contains n then s else { s with order := { s.order with nodes := s.order.nodes ++ [n] } }

/-- The translation that a leaf gives (R216, R217), once its A and D bits are set. -/
def State.leafTlb (s : State) (ctx va : Nat) (k : Kind) (lvl ea : Nat) (asCtx : Bool) (e : Pte) : Tlb :=
  let size := 2 ^ (12 + 9 * lvl)
  let pa := e.pa / size * size + va % size
  let run := e.c && s.mergedRun ea lvl
  let span := if run then 16 * size else size
  let dirty := if run then (List.range 16).filter fun i => (Pte.of ((s.runEntries ea).getD i 0) lvl).d
    else if e.d || k.writes then [0] else []
  ⟨ctx, va / span * span, pa / span * span, span, e.mt, e.w, e.x, lvl, ea, asCtx, dirty, s.rightsOf ctx⟩

/-- Host memory (R254): the ranges that provisioning gives (log 6). -/
def State.hostMem (s : State) (pa : Nat) : Bool := s.dev.prov.hostRanges.any fun r => r.1 ≤ pa && pa < r.2

/-- The page is in host bias (R100). -/
def State.hostBias (s : State) (pa : Nat) : Bool := s.dev.bias.contains (pa / 4096)

/-- The paths of an access (R254 Table 2). -/
inductive Path where
  | m | tc | qch | h
  deriving DecidableEq, Repr

/-- The path of a global or constant access (R254 Table 2). -/
def State.pathOf (s : State) (sp : Space) (pa mt : Nat) (sc : Scope) : Path :=
  if sp == .const then .m
  else if mt == 3 || s.hostBias pa || s.hostMem pa then .h
  else match mt with
    | 1 => .qch
    | 2 => .m
    | _ => if sc == .team then .tc else .m

/-- The target that an access on a path reaches (R221, log 68): a fabric port for H, an HBM controller for Q_ch and for
an uncached page, else an L2 slice group. -/
def targetOf (p : Path) (mt : Nat) : Target :=
  match p with
  | .h => .port
  | .qch => .hbm
  | _ => if mt == 2 then .hbm else .slice

/-- The target of a device-scope access to a frame through an entry of a memory type. -/
def State.targetAt (s : State) (pa mt : Nat) : Target := targetOf (s.pathOf .global pa mt .device) mt

/-- A leaf of a walk (R216): its permissions, the rights of the context where a delegated table gave it, its A and D bits,
and the translation. A page whose MT the access may not have raises XLPERM before it raises ACCESS (R223, R232). The bits are
set by an atomic made as the walk's master, which the target checks for both rights (R221); a refused one raises ACCESS as a
refused read of the table does (log 86). -/
def State.walkLeaf (s : State) (ctx va : Nat) (k : Kind) (mt0 : Bool) (lvl ea : Nat) (asCtx : Bool) (raw : Nat) : Walk :=
  let e := Pte.of raw lvl
  let size := 2 ^ (12 + 9 * lvl)
  let pa := e.pa / size * size + va % size
  let tg := s.targetAt pa e.mt
  if e.k || (k.writes && !e.w) || (k == .fetch && !e.x) then .fault s .xlperm lvl
  else if asCtx && !s.allowed tg ctx pa 1 k then
    if mt0 && e.mt != 0 then .fault s .xlperm lvl else .fault (s.refuse tg ctx pa k) .access lvl
  else if !e.a || (k.writes && !e.d) then
    let master := if asCtx then ctx else Config.walkerId
    if s.blocked ea 8 true then .blocked s
    else if !s.allowed .slice master ea 8 .both then .fault (s.refuse .slice master ea .both) .access lvl
    else
      let s := s.performWrite ea (leOf 8 (markedEntry e raw k))
      let t := s.leafTlb ctx va k lvl ea asCtx e
      .ok (s.cacheTlb t) t
  else
    let t := s.leafTlb ctx va k lvl ea asCtx e
    .ok (s.cacheTlb t) t

/-- The walk from a level (R216): `t` is the table's address and `asCtx` whether it is read as the context. -/
def State.walkFrom (s : State) (ctx va : Nat) (k : Kind) (mt0 : Bool) : Nat → Nat → Bool → Walk
  | lvl, t, asCtx =>
    let ea := t + 8 * (va / 2 ^ (12 + 9 * lvl) % 512)
    match s.readEntry ctx ea asCtx with
    | .refused s => .fault s .access lvl
    | .blocked s => .blocked s
    | .ok raw s =>
      let e := Pte.of raw lvl
      if !e.v then .fault s .xlmiss lvl
      else if e.rsvd then .fault s .xlrsvd lvl
      else if e.l then s.walkLeaf ctx va k mt0 lvl ea asCtx raw
      else
        match lvl with
        | 0 => .fault s .xlrsvd 0
        | n + 1 =>
          let deleg := asCtx || (lvl == 2 && e.del)
          let size := 2 ^ (12 + 9 * lvl)
          (s.cacheNode ⟨ctx, lvl, va / size * size, e.pa, deleg⟩).walkFrom ctx va k mt0 n e.pa deleg
  termination_by structural lvl => lvl

/-- The physical address of a translation. -/
def Tlb.addr (t : Tlb) (va : Nat) : Nat := t.pa + va % t.bytes

/-- The next free value's index. -/
def State.draw (s : State) : Nat × State := (s.sched.fresh, { s with sched := { s.sched with fresh := s.sched.fresh + 1 } })

/-- Two translations serve an access alike. -/
def Tlb.agrees (t u : Tlb) (va : Nat) : Bool :=
  t.addr va == u.addr va && t.mt == u.mt && t.w == u.w && t.x == u.x && t.win == u.win

/-- The page of a translation that an address lies in: 0, or its number in a merged run. -/
def Tlb.page (t : Tlb) (va : Nat) : Nat := (va - t.va) / 2 ^ (12 + 9 * t.level)

/-- The entry of a translation, as it stands now, has its A bit clear, or its D bit for a write: a walk would set it (R216). -/
def State.unmarked (s : State) (t : Tlb) (k : Kind) : Bool :=
  let e := Pte.of (leVal ((s.settle t.entry 8).readBytes t.entry 8)) t.level
  !e.a || (k.writes && !e.d)

/-- The cached translations that an access may use in place of what the tables give now (R218): those that differ from it, and
those that leave unmarked an entry that a walk would mark. A write does not use one whose entry had D = 0. -/
def State.cachedLeaves (s : State) (ctx va : Nat) (k : Kind) (now : Walk) : List Tlb :=
  s.order.tlb.filter fun t => t.ctx == ctx && t.va ≤ va && va < t.va + t.bytes &&
    (!k.writes || t.dirty.contains (t.page va) || !t.w) &&
    !(match now with | .ok _ u => t.agrees u va && !s.unmarked u k | _ => false)

/-- The cached non-leaf entries through which a walk may go, that lie on none of the tables' present paths (R218). -/
def State.cachedNodes (s : State) (ctx va : Nat) (path : List Node) : List Node :=
  s.order.nodes.filter fun n => n.ctx == ctx && n.va ≤ va && va < n.va + 2 ^ (12 + 9 * n.level) && !path.contains n

/-- The state of a walk's answer. -/
def Walk.state : Walk → State
  | .ok s _ | .fault s _ _ | .blocked s => s

/-- A walk's answer with its state changed. -/
def Walk.map (f : State → State) : Walk → Walk
  | .ok s t => .ok (f s) t
  | .fault s c l => .fault (f s) c l
  | .blocked s => .blocked (f s)

/-- Non-leaf entries that a walk has cached before are kept beside those of the present one. -/
def State.keepNodes (s : State) (old : List Node) : State :=
  { s with order := { s.order with nodes := old ++ s.order.nodes.filter fun n => !old.contains n } }

/-- A walk from the root of a context's tables, which gathers the non-leaf entries on its way. -/
def State.walkRoot (s : State) (ctx va : Nat) (k : Kind) (mt0 : Bool) : Walk :=
  let root := match s.ctx ctx with | some c => c.root | none => 0
  State.walkFrom { s with order := { s.order with nodes := [] } } ctx va k mt0 4 root false

/-- An access that goes by a cached translation (R216, R218). -/
def State.useLeaf (s : State) (k : Kind) (t : Tlb) : Walk :=
  if (k.writes && !t.w) || (k == .fetch && !t.x) then .fault s .xlperm t.level else .ok s t

/-- Translation of a canonical address for a context (R216, R218). While a cached entry stands that the tables no longer
give, the access uses it or the tables: which of them is a free value (log 9). -/
def State.translate (s : State) (ctx va : Nat) (k : Kind) (mt0 : Bool) : Walk :=
  let va := va % 2 ^ 57
  let now := s.walkRoot ctx va k mt0
  let old := s.order.nodes
  let leaves := s.cachedLeaves ctx va k now
  let nodes := s.cachedNodes ctx va now.state.order.nodes
  if leaves.isEmpty && nodes.isEmpty then now.map (·.keepNodes old)
  else
    let (n, s) := s.draw
    let i := Config.translationChoice n % (leaves.length + nodes.length + 1)
    match leaves[i]?, nodes[i - leaves.length]? with
    | some t, _ => s.useLeaf k t
    | none, some nd => s.walkFrom ctx va k mt0 (nd.level - 1) nd.next nd.deleg
    | none, none => (s.walkRoot ctx va k mt0).map (·.keepNodes old)

/-- Translation and the rights of the access itself (R222, Table 7 steps 3 and 4), as the cached translation holds them: a
fetch and a constant load need MT 00 (R223). -/
def State.access (s : State) (ctx va n : Nat) (k : Kind) (mt0 : Bool) : Walk :=
  match s.translate ctx va k mt0 with
  | .ok s t =>
    let pa := t.addr (va % 2 ^ 57)
    let tg := s.targetAt pa t.mt
    if mt0 && t.mt != 0 then .fault s .xlperm t.level
    else if !grantedBy t.win tg ctx pa n k then .fault (s.refuse tg ctx pa k) .access 5
    else .ok s t
  | w => w

/-! ### Paths (R100, R223, R254) -/

/-- A device access through MT 11 flips a device-bias page first (R100); a host access to one does too. -/
def State.flip (s : State) (pa : Nat) : State :=
  { s with dev := { s.dev with bias := keyAdd s.dev.bias (pa / 4096) } }

/-- The channel of a line (R258). -/
def channelOf (pa : Nat) : Nat := pa / 128 % Config.channels

/-- The T_c writes of other cores to a line move into M (R256). -/
def State.drainOthers (s : State) (core line : Nat) : State :=
  let mine := s.order.tc.filter fun w => lineOf w.pa == line && w.core != core
  let s := { s with order := { s.order with tc := s.order.tc.filter fun w => !(lineOf w.pa == line && w.core != core) } }
  mine.foldl (fun s w => s.landWrite w) s

/-- The newest value of a byte in a core's T_c, or M's (R256). -/
def State.tcByte (s : State) (core pa : Nat) : Byte :=
  (s.order.tc.filter fun w => w.core == core).foldl (fun x w =>
    if w.pa ≤ pa && pa < w.pa + w.bytes.length then w.bytes.getD (pa - w.pa) x else x) (s.readByte pa)

/-- A team-scope read by a group (R256): U_l merges first if it holds partials; the group observes the T_c writes that
its value comes from (R264). -/
def State.tcRead (s : State) (gid core pa n : Nat) : Nat × State :=
  let s := s.mergeLine (lineOf pa)
  let v := leVal ((List.range n).map fun i => s.tcByte core (pa + i))
  let seen := fun (w : TcWrite) => w.core == core && w.pa < pa + n && pa < w.pa + w.bytes.length && !w.gids.contains gid
  (v, { s with order := { s.order with tc := s.order.tc.map fun w => if seen w then { w with gids := w.gids ++ [gid] } else w } })

/-- A team-scope write (R256): other cores' writes of the line move into M, U_l merges, then it joins T_c. -/
def State.tcWrite (s : State) (gid core ctx pa : Nat) (bytes : List Byte) : State :=
  let s := (s.drainOthers core (lineOf pa)).mergeLine (lineOf pa)
  { s with order := { s.order with tc := s.order.tc ++ [⟨core, ctx, [gid], pa, bytes, s.sched.nextId⟩] } }

/-- An access is appended to its channel's queue (R258). -/
def State.qchAppend (s : State) (a : Access) : State :=
  let ch := channelOf a.pa
  { s with order := { s.order with qch := smSet s.order.qch ch (smGet [] s.order.qch ch ++ [a]) } }

/-- An access enters H (R261). -/
def State.hAppend (s : State) (a : Access) : State := { s with order := { s.order with h := s.order.h ++ [a] } }

/-! ### Fences (R263 Table 4) -/

/-- What the rel part of a fence of a scope waits for has happened for a group. -/
def State.released (s : State) (gid : Nat) (sc : Scope) : Bool :=
  !(s.order.tc.any fun w => w.gids.contains gid) &&
  (sc == .team || sc == .cluster ||
    (!(s.order.qch.any fun q => q.2.any (·.gid == gid)) && !(s.order.reds.any (·.gid == gid)) &&
      (sc == .device || !(s.order.h.any (·.gid == gid)))))

/-- A queued access is a load. -/
def Access.isLoad (a : Access) : Bool := match a.kind with | .load => true | _ => false

/-- What the acq part of a fence of a scope waits for has happened for a group. -/
def State.acquired (s : State) (gid : Nat) (sc : Scope) : Bool :=
  sc == .team || sc == .cluster ||
  (!(s.order.qch.any fun q => q.2.any fun a => a.gid == gid && a.isLoad) &&
    (sc == .device || !(s.order.h.any fun a => a.gid == gid && a.isLoad)))

/-! ### Scratchpad (R121, R227) -/

/-- A share of a team. -/
def State.share (s : State) (grid team core : Nat) : Option Share :=
  match s.team grid team with | some t => t.shares[core]? | none => none

/-- Change a share of a team. -/
def State.modShare (s : State) (grid team core : Nat) (f : Share → Share) : State :=
  s.modTeam grid team fun t => { t with shares := t.shares.modify core f }

/-- Bytes of a share. -/
def State.spadRead (s : State) (grid team core ofs n : Nat) : List Byte :=
  match s.share grid team core with | some sh => memBytes sh.bytes ofs n | none => List.replicate n 0

/-- Write bytes of a share. -/
def State.spadWrite (s : State) (grid team core ofs : Nat) (b : List Byte) : State :=
  s.modShare grid team core fun sh => { sh with bytes := memPuts sh.bytes ofs b }

/-- The state of the lines that an access touches (R227), in the order in which it decides. -/
inductive Presence where
  | present | faulted | orphan | pending
  deriving DecidableEq, Repr

@[inherit_doc Presence] def Share.presence (sh : Share) (lines : List Nat) : Presence :=
  let absent := lines.filter sh.absent.contains
  if absent.any sh.faulted.contains then .faulted
  else if absent.any fun l => smGet 0 sh.writers l = 0 then .orphan
  else if absent.isEmpty then .present else .pending

/-- A destination line of a copy or an engine operation: absent, with one more pending writer (R227, R243, R196). -/
def Share.claim (sh : Share) (lines : List Nat) : Share :=
  { sh with
    absent := keyUnion sh.absent lines
    writers := lines.foldl (fun m l => smPut 0 m l (smGet 0 m l + 1)) sh.writers }

/-- Data lands in lines: present, with one pending writer less. -/
def Share.land (sh : Share) (lines : List Nat) : Share :=
  { sh with
    absent := sh.absent.filter fun l => !lines.contains l
    writers := lines.foldl (fun m l => smPut 0 m l (smGet 0 m l - 1)) sh.writers }

/-- Lines that a faulted copy leaves (R227): marked faulted while absent, with one pending writer less. -/
def Share.fault (sh : Share) (lines : List Nat) : Share :=
  { sh with
    faulted := keyUnion sh.faulted (lines.filter sh.absent.contains)
    writers := lines.foldl (fun m l => smPut 0 m l (smGet 0 m l - 1)) sh.writers }

/-- An engine operation of a team that has the scratchpad lines of a team core as sources (R196). -/
def EngOp.holds (o : EngOp) (grid team core : Nat) (lines : List Nat) : Bool :=
  o.grid == grid && o.team == team && o.spadSrc.any fun p => p.1 == core && lines.contains p.2

/-- A DRAINING handle whose copy has not read the lines yet (R243). -/
def HandleEntry.holds (h : HandleEntry) (grid team core : Nat) (lines : List Nat) : Bool :=
  match h.bound with
  | some b => b.grid == grid && b.team == team && b.shareCore == core && b.state == .draining &&
      lines.any fun l => b.ofs / 128 ≤ l && l ≤ (b.ofs + b.len - 1) / 128
  | none => false

/-- A store to a scratchpad line waits: the line is a source of an unfinished engine operation (R196) or of a DRAINING
handle's copy (R243), or a line that a region's body has read (R313). -/
def State.spadHeld (s : State) (grid team core : Nat) (lines : List Nat) : Bool :=
  s.engineOps.any (fun o => o.holds grid team core lines) ||
  s.work.handles.any (fun h => h.holds grid team core lines) ||
  match s.team grid team with
  | some t =>
    (match t.region with
     | some r => r.st == .opened && r.heldSpad.any fun p => p.1 == core && lines.contains p.2
     | none => false)
  | none => false

end Sys2Proof.Machine
end

