-- ==== Sys2Proof/Machine/Fetch.lean ====
section
/-! DEFINITION. Fetching a group's next instruction (R20, R21, R40 steps 1 to 3, R159, R232): from the text that its
grid's launch captured, after the translation of the fetch address, or from a program buffer (R367). -/

namespace Sys2Proof.Machine

/-- What a fetch answers: no instruction to fetch, an uncorrectable error on the way (R389), a trap, or an instruction. -/
inductive Fetched where
  | stall
  | error (s : State)
  | trap (t : Trap) (s : State)
  | run (i : Instr) (s : State)

/-- The address is an instruction start of the group's kernel, whose text runs from ENTRY for LENGTH instructions (R20,
R62). -/
def Ident.isStart (id : Ident) (pc : Nat) : Bool :=
  id.textLo ≤ pc && pc + 12 ≤ id.textLo + id.textLen && (pc - id.textLo) % 12 == 0

/-- The word at an address of the captured text (R19, R21). -/
def Grid.wordAt (g : Grid) (lo pc : Nat) : IWord96 := BitVec.ofNat 96 (leNat ((g.text.drop (pc - lo)).take 12))

/-- The guard field of a word (R22, R36). -/
def guardOf (w : IWord96) : Guard :=
  if w.extractLsb' 93 3 = 5 then Guard.ofBits (w.extractLsb' 17 16) else Guard.ofBits (w.extractLsb' 39 16)

/-- The lanes that a decode trap names (R360): those of active(B), or the batch while the guard cannot be read. -/
def Group.decodeLanes (g : Group) (gd : Guard) (batch : List Nat) : List Nat :=
  if g.guardFull gd batch then g.active gd batch else batch

/-- A paired word names a register outside the group's budget, which is ILLOP and so comes before ILLPAIR (R17, R40). -/
def Group.pairBeyond (g : Group) (w : PWord) : Bool :=
  let half := fun (h : PHalf) => [(h.d, h.ty.regs), (h.a, h.ty.regs)] ++ (if h.op.unary then [] else [(h.b, h.bRegs)])
  !((half w.h0 ++ half w.h1).all fun p => g.within (.v p.1) p.2) || (w.guard.ge && !g.within (guardReg w.guard) 1)

/-- R40 steps 2 and 3 on a word; `buffered` instructions may not be control instructions, `trap`, `eret` or `brk`
(R367). -/
def Group.decodeAt (g : Group) (own : DWord) (w : IWord96) (buffered : Bool) (s : State) : Fetched :=
  let bad := fun (c : Cause) => Fetched.trap (Trap.mk' c own (g.decodeLanes (guardOf w) (g.batch own))) s
  match decodeWord w with
  | .illop => bad .illop
  | .illpair pw => bad (if g.pairBeyond pw then .illop else .illpair)
  | .ok i =>
    let barred := buffered && (match i.view with
      | some (.c _ _) => true
      | some (.y .trap _) | some (.y .eret _) | some (.y .brk _) => true
      | _ => false)
    if barred then bad .illop else .run i s

/-- Fetch for a group: ALIGN off the kernel's text (R20, R159), then the walk of the fetch address as kind fetch (R232),
then decode. -/
def State.fetch (s : State) (gid : Nat) : Fetched :=
  match s.group gid with
  | none => .stall
  | some g =>
    match g.pc with
    | none => .stall
    | some own =>
      match g.halt with
      | some h => match h.buffer with
        | [] => .stall
        | w :: _ => g.decodeAt own w true s
      | none =>
        if !g.id.isStart own.toNat then .trap (Trap.mk' .align own (g.batch own) own) s
        else if !canonical own then .trap (Trap.mk' .addr own (g.batch own) own) s
        else match s.access g.id.ctx own.toNat 1 .fetch true with
          | .blocked s' => if s'.dev.doomed = s.dev.doomed then .stall else .error s'
          | .fault s c level => .trap (Trap.mk' c own (g.batch own) own level) s
          | .ok s _ =>
            match s.grid g.id.grid with
            | none => .stall
            | some gr => g.decodeAt own (gr.wordAt g.id.textLo own.toNat) false s

end Sys2Proof.Machine
end

