-- ==== Sys2Proof/Machine/Room.lean ====
section
/-! DEFINITION. The slots, the register-file units and the swap area that a context finds free on a core (R110, R125, R126,
R135). -/

namespace Sys2Proof.Machine

/-- Allocation units of a v window (R126). -/
def windowOf (v width : Nat) : Nat := ceilDiv v 16 * (width / 16)

/-- A group's window in units. -/
def Group.window (g : Group) : Nat := windowOf g.id.vBud g.id.width

/-- The groups that hold a slot or units of a core: one that ended holds its units while a producer is in flight (R157). -/
def State.onCore (s : State) (core : Nat) : List Group :=
  (s.groups.filter fun p => p.2.id.core == core && p.2.place == .slot).map (·.2)

/-- The reserved slots of a context that its groups use on a core (R110). -/
def State.reservedUsed (s : State) (core ctx : Nat) : Nat :=
  ((s.onCore core).filter fun g => g.id.ctx == ctx && g.reserved && !g.ended).length

/-- Slots of a core that are not free to a context: those in use, and those that other contexts' reservations hold. -/
def State.slotsTaken (s : State) (core ctx : Nat) : Nat :=
  ((s.onCore core).filter (!·.ended)).length +
  (s.ctxs.filter fun p => p.1 != ctx && p.2.part == core / Config.cores).foldl
    (fun a p => a + (p.2.resSlots - s.reservedUsed core p.1)) 0

/-- Units of a core that are not free to a context. A reserved window of another context stays whole. -/
def State.unitsTaken (s : State) (core ctx : Nat) : Nat :=
  (s.onCore core).foldl (fun a g =>
    a + if g.id.ctx != ctx && g.reserved && !g.ended then
      max g.window (match s.ctx g.id.ctx with | some c => c.resKib | none => 0) else g.window) 0 +
  (s.ctxs.filter fun p => p.1 != ctx && p.2.part == core / Config.cores).foldl
    (fun a p => a + (p.2.resSlots - s.reservedUsed core p.1) * p.2.resKib) 0

/-- A core has slots and units free to a context for groups with these windows. -/
def State.slotsFree (s : State) (core ctx : Nat) (windows : List Nat) : Bool :=
  s.slotsTaken core ctx + windows.length ≤ Config.groupSlots &&
  s.unitsTaken core ctx + windows.foldl (· + ·) 0 ≤ Config.windowUnits

/-- The groups and bins of a context that are in its swap area. -/
def State.swapUsed (s : State) (ctx : Nat) : Nat :=
  (s.groups.filter fun p => p.2.id.ctx == ctx && p.2.place == .swapped).length +
  s.cores.foldl (fun a k => a + (k.2.bins.filter fun b => b.ctx == ctx && b.out).length) 0

/-- A swap area has room for n more groups or bins (R134, R149). -/
def State.swapRoomFor (s : State) (ctx n : Nat) : Bool :=
  match s.ctx ctx with
  | some c => s.swapUsed ctx + n ≤ c.swapRoom
  | none => false

@[inherit_doc State.swapRoomFor] def State.swapRoom (s : State) (ctx : Nat) : Bool := s.swapRoomFor ctx 1

/-- The window of a bin's group in units. -/
def Bin.window (b : Bin) : Nat := windowOf b.ident.vBud b.ident.width

/-- Closed bins free at once (R149): in their order, each finds a slot and units, or room in its swap area; `windows` are
the windows of those that found a slot, and `out` the contexts of those that went to a swap area. -/
def State.binsLeave (s : State) (core : Nat) : List Bin → List Nat → List Nat → Bool
  | [], _, _ => true
  | b :: rest, windows, out =>
    if s.slotsFree core b.ctx (b.window :: windows) then s.binsLeave core rest (b.window :: windows) out
    else s.swapRoomFor b.ctx (out.count b.ctx + 1) && s.binsLeave core rest windows (b.ctx :: out)

end Sys2Proof.Machine
end

