-- ==== Sys2Proof/Machine/Access.lean ====
section
/-! DEFINITION. The accesses of a memory instruction: the elements of its lanes (R213, R229, R230), the checks of Table 7
in their order (R232, R353, R361, R362), with the held faults of a relaxation body (R309, R313, R318), and an element's
access on its path (R229, R254). -/

namespace Sys2Proof.Machine

/-- One element of an access: its lane and the register offset of its datum; its size; the address that ALIGN names, and
whether it fails ALIGN; in the scratchpad spaces the team core and the offset; and the address or word that TRAPADDR
names. -/
structure Elem where
  lane : Nat
  row : Nat
  bytes : Nat
  base : Int
  misaligned : Bool
  va : DWord
  spad : Option (Nat × Int)
  name : DWord
  inCore : Bool
  deriving DecidableEq, Repr

end Sys2Proof.Machine

namespace Sys2Proof
open Machine

/-- Bytes of one element (R228, R230). -/
def Width.elemBytes (w : Width) : Nat := w.bits / 8

end Sys2Proof

namespace Sys2Proof.Machine

/-- The elements of a lane (R213 Table 1, R230); the pitch is read from B in a tile form. -/
def Group.elemsOf (g : Group) (w : MWord) (lane : Nat) : List Elem :=
  let n := Width.elemBytes w.width
  let pitchBad := w.width.tile && g.rd w.b lane .n32 % n != 0
  let off := fun (b : Int) => pitchBad || b % (n : Int) != 0
  let row := fun (r : Nat) => if w.width.tile then
      (((16 * (lane / 16) + r) * g.rd w.b lane .n32 + lane % 16 * n : Nat) : Int) else 0
  (List.range (if w.width.tile then 16 else 1)).map fun r =>
    match w.space with
    | .global | .const =>
      let b := g.globalAddr w lane
      let a := BitVec.ofInt 64 (b.toNat + row r)
      ⟨lane, r, n, b.toNat, off b.toNat, a, none, a, true⟩
    | .spad =>
      let b := g.spadWord w lane
      ⟨lane, r, n, b.toNat, off b.toNat, 0, some (g.id.t % g.id.cores, b.toNat + row r), b.setWidth 64, true⟩
    | .rspad =>
      let a := g.rd w.a lane .n32
      let o : Int := (a % 2 ^ 21 : Nat) + memOffset w
      ⟨lane, r, n, o, off o, 0, some (a / 2 ^ 21 % 4, o + row r), BitVec.ofNat 64 a, decide (a < 2 ^ 23)⟩

/-- The elements of an instruction's lanes, in the order in which they perform (R229, R230). -/
def Ctx.elems (c : Ctx) (w : MWord) (once : Bool) : List Elem := (c.lanesOf once).flatMap (c.g.elemsOf w)

/-- One object of some bytes and alignment for each lane, at a global address (R107, R276, R279, R283, R285). -/
def Ctx.objects (c : Ctx) (w : MWord) (once : Bool) (bytes align : Nat) : List Elem :=
  (c.lanesOf once).map fun l =>
    let a := c.g.globalAddr w l
    ⟨l, 0, bytes, a.toNat, a.toNat % align != 0, a, none, a, true⟩

/-- An element that fails a check. -/
structure Fail where
  lane : Nat
  cause : Cause
  addr : DWord
  level : Nat
  deriving DecidableEq, Repr

/-- An element that passed the checks of its address: a place in a share, or a frame with its path. -/
inductive Reach where
  | spad (core ofs : Nat)
  | glob (pa : Nat) (mt : Nat) (path : Path)
  deriving DecidableEq, Repr

@[inherit_doc Reach] structure Hit where
  e : Elem
  reach : Reach
  deriving DecidableEq, Repr

/-- The lanes that a failing check names, and the lowest such lane's failure (R232): for a failure of the walk, the lanes
whose walk failed at its level. -/
def failTrap (c : Ctx) (once : Bool) (fails : List Fail) : Option Trap :=
  match fails with
  | [] => none
  | f :: fs =>
    let f0 := fs.foldl (fun a x => if x.lane < a.lane then x else a) f
    let same := fails.filter fun x => f0.cause == .access || x.level == f0.level
    some (c.trap f0.cause (if once then c.act else same.map (·.lane)) f0.addr f0.level)

/-- The failures that a relaxation body holds (R318). -/
def Cause.held : Cause → Bool
  | .align | .addr | .xlmiss | .xlrsvd | .xlperm | .access | .copyfault | .fpexc | .xovf | .rxalias | .rxfault => true
  | _ => false

/-- What a failing check does: a trap, or in a relaxation body the failing lanes' steps hold it (R318) and the others go
on. -/
def State.failAct (s : State) (c : Ctx) (once : Bool) (fails : List Fail) : Option Act :=
  match failTrap c once fails with
  | none => none
  | some t =>
    if (s.bodyOf c.gid c.g).isSome && fails.all fun f => f.cause.held then
      let first := fails.foldl (fun acc f => if acc.any (fun (x : Fail) => x.lane == f.lane) then acc else acc ++ [f]) []
      some (.done (first.foldl (fun s f => s.holdFault c f.lane (c.trap f.cause [f.lane] f.addr f.level)) s))
    else some (.trap c.gid t s)

/-- Step 1 of Table 7. -/
def alignFails (els : List Elem) : List Fail :=
  (els.filter fun e => e.misaligned).map fun e => ⟨e.lane, .align, BitVec.ofInt 64 e.base, 7⟩

/-- Step 2 of Table 7 (R212, R213): a non-canonical address, or a place outside the team's shares. -/
def addrFails (share cores : Nat) (els : List Elem) : List Fail :=
  (els.filter fun e => match e.spad with
    | none => !canonical e.va
    | some (j, o) => !(e.inCore && j < cores && 0 ≤ o && o + e.bytes ≤ share)).map fun e => ⟨e.lane, .addr, e.name, 7⟩

/-- The elements resolved so far. -/
structure Walked where
  s : State
  hits : List Hit
  fails : List Fail
  blocked : Bool

/-- A lane before has flipped the bias of the page (R100, R254). -/
def Walked.flipped (acc : Walked) (pa : Nat) : Bool :=
  acc.hits.any fun h => match h.reach with | .glob p 3 _ => p / 4096 == pa / 4096 | _ => false

/-- Steps 3 and 4 for one element (R216, R222, R223). Its path takes the bias as the lanes before it leave it. -/
def Walked.elem (c : Ctx) (sp : Space) (sc : Scope) (mt0 : Bool) (k : Kind) (acc : Walked) (e : Elem) : Walked :=
  match e.spad with
  | some (j, o) => { acc with hits := acc.hits ++ [⟨e, .spad j o.toNat⟩] }
  | none =>
    match acc.s.access c.g.id.ctx e.va.toNat e.bytes k mt0 with
    | .ok s t =>
      let pa := t.addr (e.va.toNat % 2 ^ 57)
      let path := if acc.flipped pa && sp != .const then .h else s.pathOf sp pa t.mt sc
      { acc with s := s, hits := acc.hits ++ [⟨e, .glob pa t.mt path⟩] }
    | .fault s cause level => { acc with s := s, fails := acc.fails ++ [⟨e.lane, cause, e.va, level⟩] }
    | .blocked s => { acc with s := s, blocked := true }

/-- Steps 3 and 4 for every element. -/
def State.walkElems (s : State) (c : Ctx) (sp : Space) (sc : Scope) (mt0 : Bool) (k : Kind) (els : List Elem) : Walked :=
  els.foldl (Walked.elem c sp sc mt0 k) ⟨s, [], [], false⟩

/-- The failures of steps 3 and 4: a failed walk comes before a refusal (Table 7). -/
def walkFails (fails : List Fail) : List Fail :=
  let walks := fails.filter fun f => f.cause != .access
  if walks.isEmpty then fails else walks

/-- The presence of a hit's lines in its share (R227). -/
def State.presenceOf (s : State) (c : Ctx) (h : Hit) : Presence :=
  match h.reach with
  | .spad j o => match s.share c.g.id.grid c.g.id.team j with
    | some sh => sh.presence (linesOf o h.e.bytes)
    | none => .present
  | _ => .present

/-- Step 5 (R227): COPYFAULT, then ORPHAN. -/
def State.presenceFails (s : State) (c : Ctx) (hits : List Hit) : List Fail :=
  let bad := hits.filter fun h => s.presenceOf c h == .faulted
  if bad.isEmpty then (hits.filter fun h => s.presenceOf c h == .orphan).map fun h => ⟨h.e.lane, .orphan, h.e.name, 7⟩
  else bad.map fun h => ⟨h.e.lane, .copyfault, h.e.name, 7⟩

/-! ### Relaxation buffers (R308, R309, R313) -/

/-- J of a region (R308): entries of a step's Jacobian. -/
def RegionDesc.jac (d : RegionDesc) : Nat := if d.dense then d.m * d.m else d.m

/-- A1, A2 and A3 (R308): the bytes of the state area, of the work area and of the store buffer. -/
def RegionDesc.stateBytes (d : RegionDesc) : Nat := 128 * ceilDiv (4 * d.m * (d.t + 1)) 128

@[inherit_doc RegionDesc.stateBytes] def RegionDesc.workBytes (d : RegionDesc) : Nat :=
  128 * ceilDiv (d.t * (16 + 4 * (3 * d.m + d.jac))) 128

@[inherit_doc RegionDesc.stateBytes] def RegionDesc.storeBytes (d : RegionDesc) : Nat := 128 * ceilDiv (32 * d.sps * d.t) 128

/-- The bytes of the buffer that a group may not touch (R309): all of it while the region is OPEN, the work area and the
store buffer while it is PENDING. -/
def Region.closed (r : Region) : Option (Nat × Nat) :=
  let d := r.desc
  let hi := d.bufOfs + d.stateBytes + d.workBytes + d.storeBytes
  match r.st with
  | .opened => some (d.bufOfs, hi)
  | .pending => some (d.bufOfs + d.stateBytes, hi)
  | _ => none

/-- Step 6 (R309): an access that touches the team's relaxation buffer. -/
def State.bufferFails (s : State) (c : Ctx) (hits : List Hit) : List Fail :=
  match s.team c.g.id.grid c.g.id.team with
  | none => []
  | some t =>
    match t.region with
    | none => []
    | some r =>
      match r.closed with
      | none => []
      | some (lo, hi) =>
        (hits.filter fun h => match h.reach with
          | .spad j o => j == r.desc.bufCore && o < hi && lo < o + h.e.bytes
          | _ => false).map fun h => ⟨h.e.lane, .rxalias, h.e.name, 7⟩

/-- R313: a body load of step t reads a byte that a step before t wrote in the last pass, or that step t wrote. -/
def State.aliasFails (s : State) (c : Ctx) (hits : List Hit) : List Fail :=
  match s.bodyOf c.gid c.g with
  | none => []
  | some r =>
    (hits.filter fun h => match h.reach, r.stepOf c.gid h.e.lane with
      | .glob pa _ _, some t =>
        r.prevBytes.any (fun p => pa ≤ p.1 && p.1 < pa + h.e.bytes && p.2 < t) ||
        (smGet (StepEval.start r.desc) r.evals t).stores.any fun x => x.pa < pa + h.e.bytes && pa < x.pa + x.bytes.length
      | _, _ => false).map fun h => ⟨h.e.lane, .rxalias, h.e.va, 7⟩

/-- The lines that a body load reads are held (R313): those that it reads at its issue; a load in Q_ch or in H holds its line
when it performs. -/
def State.holdLines (s : State) (c : Ctx) (hits : List Hit) : State :=
  if (s.bodyOf c.gid c.g).isNone then s
  else s.modRegion c.g fun r => hits.foldl (fun r h => match h.reach with
    | .glob pa _ .m | .glob pa _ .tc => { r with heldLines := keyUnion r.heldLines (linesOf pa h.e.bytes) }
    | .glob _ _ _ => r
    | .spad j o =>
      { r with heldSpad := r.heldSpad ++ ((linesOf o h.e.bytes).map fun l => (j, l)).filter fun p => !r.heldSpad.contains p }) r

/-! ### Watchpoints (R361, R362) -/

/-- An access hits a watchpoint. -/
def watchHit (x : Watchpoint) (id : Ident) (k : Kind) (h : Hit) : Bool :=
  ((k.reads && x.read) || (k.writes && x.write)) &&
  match x.space, h.reach with
  | .global, .glob _ _ _ => x.base < h.e.va.toNat + h.e.bytes && h.e.va.toNat < x.base + x.size
  | .share g t j, .spad j' o => g == id.grid && t == id.team && j == j' && x.base < o + h.e.bytes && o < x.base + x.size
  | _, _ => false

/-- The lanes that hit a watchpoint of the context. -/
def State.watchFails (s : State) (c : Ctx) (k : Kind) (hits : List Hit) : List Fail :=
  match s.ctx c.g.id.ctx with
  | none => []
  | some x => (hits.filter fun h => x.watch.any fun p => watchHit p.2 c.g.id k h).map fun h => ⟨h.e.lane, .watch, h.e.name, 7⟩

/-! ### The checks in order -/

/-- What the checks answer. -/
inductive Resolved where
  | act (a : Act)
  | ok (s : State) (hits : List Hit)

/-- What a memory instruction adds to the checks: whether it executes once, its kind, whether NONDET applies to what it
reaches, whether a page must have MT 00 (R223, R276, R283, R285), whether it is a load of a relaxation body, whether
watchpoints see it, and whether it performs nothing now (R314), so that it waits for no line. -/
structure Checks where
  once : Bool
  kind : Kind
  nondet : State → List Hit → Bool := fun _ _ => false
  mt0 : Bool := false
  bodyLoad : Bool := false
  watched : Bool := true
  record : Bool := false

/-- The accesses that would perform in M at once are blocked by an engine, a copy or a region (R196, R243, R260, R313). -/
def State.stalled (s : State) (c : Ctx) (k : Kind) (hits : List Hit) : Bool :=
  hits.any fun h => match h.reach with
    | .spad j o => k.writes && s.spadHeld c.g.id.grid c.g.id.team j (linesOf o h.e.bytes)
    | .glob pa _ p => (p == .m || p == .tc) && s.blockedFor (s.nowBy c.gid) pa h.e.bytes k.writes

/-- The accesses that would perform in M at once, and deliver a value that carries an uncorrectable error (R389). -/
def State.meetsError (s : State) (k : Kind) (hits : List Hit) : Bool :=
  k.reads && hits.any fun h => match h.reach with
    | .glob pa _ p => (p == .m || p == .tc) && s.poisoned pa h.e.bytes
    | _ => false

/-- The checks of Table 7 in their order, NONDET between steps 4 and 5 (R353), then WATCH; then the waits. -/
def State.resolve (s : State) (c : Ctx) (sp : Space) (sc : Scope) (els : List Elem) (k : Checks) : Resolved :=
  let x0 := s
  match s.failAct c k.once (alignFails els) with
  | some a => .act a
  | none =>
    let share := match s.team c.g.id.grid c.g.id.team with | some t => t.shareSize | none => 0
    match s.failAct c k.once (addrFails share c.g.id.cores els) with
    | some a => .act a
    | none =>
      let x := s.walkElems c sp sc k.mt0 k.kind els
      let s := x.s
      match s.failAct c k.once (walkFails x.fails) with
      | some a => .act a
      | none =>
        if x.blocked then .act (x0.waitFrom s)
        else if k.nondet s x.hits then .act (.trap c.gid (c.trap .nondet c.act) s)
        else match s.failAct c k.once (s.presenceFails c x.hits) with
          | some a => .act a
          | none =>
            if x.hits.any fun h => s.presenceOf c h == .pending then .act (s.parkIn c.gid (.retry false))
            else match s.failAct c k.once (s.bufferFails c x.hits) with
            | some a => .act a
            | none =>
              match s.failAct c k.once (if k.bodyLoad then s.aliasFails c x.hits else []) with
              | some a => .act a
              | none =>
                match s.failAct c k.once (if k.watched then s.watchFails c k.kind x.hits else []) with
                | some a => .act a
                | none =>
                  if !k.record && s.stalled c k.kind x.hits then .act (.wait s)
                  else if !k.record && s.meetsError k.kind x.hits then .act (.park (s.doom c.g.id.ctx))
                  else .ok (if k.bodyLoad then s.holdLines c x.hits else s) x.hits

/-! ### An element's access on its path (R229, R254, R271) -/

/-- The words of a value for some register keys, lowest first. -/
def wordsFor (keys : List Nat) (v : Nat) : List (Nat × Word) :=
  (List.range keys.length).map fun i => (keys.getD i 0, BitVec.ofNat 32 (v / 2 ^ (32 * i)))

/-- A team-scope atomic (R256, R267): it reads the newest write of its core's T_c, or M, and appends its own write. -/
def State.tcRmw (s : State) (gid core ctx aop pa n b d : Nat) : Nat × State :=
  let s := (s.drainOthers core (lineOf pa)).mergeLine (lineOf pa)
  let (m, s) := s.tcRead gid core pa n
  (m, s.tcWrite gid core ctx pa (leOf n (aopNew aop n m b d)))

/-- The bucket of d lines in between (R370). -/
def reuseBucket (d : Nat) : Nat := min 15 (Nat.log2 (d + 1))

/-- A group's access to a line, as the tag registers of its core see it (R370): a sampled line that is accessed again counts
in the histogram of its kernel and die, and frees its tag; every other tag counts the line. -/
def State.noteLine (s : State) (id : Ident) (line : Nat) : State :=
  let tags := (s.core id.core).reuse
  if tags.isEmpty then s
  else
    let kd := match s.grid id.grid with | some gr => gr.record.kdesc.toNat | none => 0
    let die := s.dieOf id.core
    let s := s.modCore id.core fun c => { c with
      reuse := (c.reuse.filter (·.line != line)).map fun t => { t with seen := keyAdd t.seen line } }
    match tags.find? (·.line == line) with
    | none => s
    | some t =>
      let mine := fun (h : Histogram) => h.die == die && h.ctx == id.ctx && h.kdesc == kd
      let h := (s.dev.histograms.find? mine).getD ⟨die, id.ctx, kd, List.replicate 16 0⟩
      { s with dev := { s.dev with histograms := s.dev.histograms.filter (fun x => !mine x) ++
        [{ h with buckets := h.buckets.modify (reuseBucket t.seen.length) (· + 1) }] } }

/-- One element's access: on paths M and T_c and in the scratchpad it performs now, and gives its value to the producer;
on Q_ch and H it is queued (R258, R261), and an MT 11 page in device bias flips first (R100). A request that its target
refuses by now is not performed: a write is discarded and a read delivers zero (R222). -/
def State.perform (s : State) (c : Ctx) (h : Hit) (k : AccKind) (prod : Nat) (keys : List Nat) : State :=
  let g := c.g
  let give := fun (s : State) (v : Nat) => if keys.isEmpty then s else s.fill prod (wordsFor keys v)
  let core := g.id.core
  let body := k == .load && (s.bodyOf c.gid c.g).isSome
  let now := fun (pa mt : Nat) (f : State → State) =>
    let s := s.noteLine g.id (lineOf pa)
    let tg := s.targetAt pa mt
    if s.allowed tg g.id.ctx pa h.e.bytes k.kind then f s else give (s.refuse tg g.id.ctx pa k.kind) 0
  match h.reach with
  | .spad j o =>
    let rd := leVal (s.spadRead g.id.grid g.id.team j o h.e.bytes)
    match k with
    | .load => give s rd
    | .store b => s.spadWrite g.id.grid g.id.team j o b
    | .rmw aop b d =>
      give (s.spadWrite g.id.grid g.id.team j o (leOf h.e.bytes (aopNew aop h.e.bytes rd b.toNat d.toNat))) rd
    | .red aop b _ => s.spadWrite g.id.grid g.id.team j o (leOf h.e.bytes (aopNew aop h.e.bytes rd b.toNat 0))
    | .cell _ _ _ => s
  | .glob pa mt .m =>
    now pa mt fun s => match k with
      | .load => let (v, s) := s.performRead pa h.e.bytes; give s v
      | .store b => s.performWrite pa b
      | .rmw aop b d => let (v, s) := s.performRmw aop pa h.e.bytes b.toNat d.toNat; give s v
      | .red aop b _ => (s.performRmw aop pa h.e.bytes b.toNat 0).2
      | .cell σ k x => s.cellMove σ k x pa
  | .glob pa mt .tc =>
    now pa mt fun s => match k with
      | .load => let (v, s) := s.tcRead c.gid g.id.core pa h.e.bytes; give s v
      | .store b => s.tcWrite c.gid g.id.core g.id.ctx pa b
      | .rmw aop b d => let (v, s) := s.tcRmw c.gid g.id.core g.id.ctx aop pa h.e.bytes b.toNat d.toNat; give s v
      | .red aop b _ => (s.tcRmw c.gid g.id.core g.id.ctx aop pa h.e.bytes b.toNat 0).2
      | .cell σ k x => s.cellMove σ k x pa
  | .glob pa _ .qch =>
    (s.noteLine g.id (lineOf pa)).qchAppend ⟨c.gid, core, g.id.ctx, pa, h.e.bytes, k, prod, keys, s.sched.nextId, body⟩
  | .glob pa mt .h =>
    let s := s.noteLine g.id (lineOf pa)
    (if mt == 3 then s.flip pa else s).hAppend ⟨c.gid, core, g.id.ctx, pa, h.e.bytes, k, prod, keys, s.sched.nextId, body⟩

end Sys2Proof.Machine
end

