-- ==== Sys2Proof/Machine/Mem.lean ====
section
/-! DEFINITION. The shared checks of format 2, and the memory instructions `ld`, `st`, `ldt`, `pref` and `wb`
(R228-R231). -/

namespace Sys2Proof
open Machine

/-- The port (R34 Table 11). A uniform `ld` still issues to MP, as line (8) of the summed-area program says: only a uniform
instruction of formats 0 and 1 issues to CTL. -/
def MOp.port (op : MOp) : Port :=
  match op with
  | .cpq => .cpp
  | .waitc | .qpush | .qpop | .fset | .fget | .claim | .launch => .ctl
  | _ => .mp

/-- Registers of A (R213). -/
def MWord.aRegs (w : MWord) : Nat := match w.space with | .global | .const => 2 | _ => 1

/-- Registers of B that are sources (R228, R251, R270, R279). -/
def MOp.bRegs (op : MOp) (w : MWord) : Nat :=
  match op with
  | .st => if w.width.tile then 1 else 0
  | .ldt => 1
  | .atom | .red | .aord | .qpush => w.width.regs
  | .waitc => 4
  | .fset => 2
  | .cpq => 16
  | _ => 0

/-- Registers of D that are sources (R228, R270, R276, R322): of `aord`, the ticket's alone. -/
def MOp.dSrc (op : MOp) (w : MWord) : Nat :=
  match op with
  | .st | .rxst => w.width.regs
  | .atom => if w.aop = 7 then w.width.regs else 0
  | .aord => 1
  | _ => 0

/-- Registers of D that are written. -/
def MOp.dDst (op : MOp) (w : MWord) : Nat :=
  match op with
  | .ld | .ldt | .atom | .aord | .qpop => w.width.regs
  | .waitc | .fget => 2
  | .fset | .launch => 1
  | .cpq => if w.d = .zero then 0 else 2
  | _ => 0

/-- Whether the instruction may stand in a relaxation body (R312, R313, R314). -/
def MOp.inBody : MOp → Bool
  | .ld | .ldt | .pref | .rxst => true
  | _ => false

/-- TEA of `fset` and TEC of the atomics are redefined (R271, R285). -/
def MOp.tea (op : MOp) (w : MWord) : Bool := op != .fset && w.hints.tea

/-- What the shared checks see of a format-2 word: A, B, then a D that is read (R228, R270). -/
def MOp.front (op : MOp) (w : MWord) (illop : Group → Bool := fun _ => false) (nondet : Ident → Bool := fun _ => false)
    (resumes : Bool := false) : Front where
  guard := w.guard
  hints := w.hints
  ports := [op.port]
  srcs :=
    [⟨w.a, w.aRegs, op.tea w, w.hints.lua⟩] ++
    (if op.bRegs w = 0 then [] else [⟨w.b, op.bRegs w, w.hints.teb, w.hints.lub⟩]) ++
    (if op.dSrc w = 0 then [] else [⟨w.d, op.dSrc w, false, false⟩])
  dsts := if op.dDst w = 0 then [] else [(w.d, op.dDst w)]
  body := op.inBody
  resumes := resumes
  illop := illop
  nondet := nondet

end Sys2Proof

namespace Sys2Proof.Machine

/-- The registers of a hit's datum in D (R228, R230), lowest first. -/
def Ctx.datumKeys (c : Ctx) (w : MWord) (h : Hit) : List Nat :=
  if w.width.tile then [c.g.key w.d h.e.lane h.e.row]
  else (List.range w.width.regs).map fun j => c.g.key w.d h.e.lane j

/-- The datum that a lane stores (R229, R230): the low bits of D. -/
def Ctx.datum (c : Ctx) (w : MWord) (h : Hit) : Nat :=
  (match w.width with
   | .tl32 | .tl16 | .tl8 => (c.g.reg (c.g.key w.d h.e.lane h.e.row)).toNat
   | .w64 => c.g.rd w.d h.e.lane .n64
   | .w128 => c.g.bits w.d 4 h.e.lane
   | _ => c.g.rd w.d h.e.lane .n32) % 2 ^ (8 * h.e.bytes)

/-- `ld` and `ldt` (R229, R230): D is empty until write-back; each element loads in order. -/
def actLoad (op : MOp) (w : MWord) (s : State) : Act :=
  let f := op.front w
  s.issue f fun c =>
    match s.resolve c w.space w.scope (c.elems w (op.uniform w))
        { once := op.uniform w, kind := .read, mt0 := w.space = .const, bodyLoad := true } with
    | .act a => a
    | .ok s hits =>
      let (prod, s) := s.produce c.gid ((hits.flatMap (c.datumKeys w)).map fun k => (k, none))
      .done ((hits.foldl (fun s h => s.perform c h .load prod (c.datumKeys w h)) s).commit c f)

/-- `st` (R229, R230): each element stores in order. -/
def actStore (w : MWord) (s : State) : Act :=
  let f := MOp.front .st w
  s.issue f fun c =>
    match s.resolve c w.space w.scope (c.elems w (MOp.uniform .st w)) { once := MOp.uniform .st w, kind := .write } with
    | .act a => a
    | .ok s hits =>
      .done ((hits.foldl (fun s h => s.perform c h (.store (leOf h.e.bytes (c.datum w h))) 0 []) s).commit c f)

/-- The frame that a `pref` of an element reaches, with its path, if it would not fault (R231). -/
def State.prefHit (s : State) (c : Ctx) (w : MWord) (e : Elem) : Option Hit :=
  if !canonical e.va then none
  else match s.access c.g.id.ctx e.va.toNat e.bytes .read (w.space = .const) with
    | .ok _ t =>
      let pa := t.addr (e.va.toNat % 2 ^ 57)
      some ⟨e, .glob pa t.mt (s.pathOf w.space pa t.mt w.scope)⟩
    | _ => none

/-- `pref` (R231): it changes timing only, and never faults; a lane that hits a watchpoint raises WATCH (R361, R362), and in
a relaxation body its lines are held (R313). -/
def actPref (w : MWord) (s : State) : Act :=
  let f := MOp.front .pref w
  s.issue f fun c =>
    let hits := (c.elems w w.a.isS).filterMap (s.prefHit c w)
    match s.failAct c w.a.isS (s.watchFails c .read hits) with
    | some a => a
    | none => .done ((s.holdLines c hits).commit c f)

/-- `wb` (R231): the checks of Table 7 for a read; it changes no value. -/
def actWb (w : MWord) (s : State) : Act :=
  let f := MOp.front .wb w
  s.issue f fun c =>
    match s.resolve c w.space w.scope (c.elems w w.a.isS) { once := w.a.isS, kind := .read } with
    | .act a => a
    | .ok s _ => .done (s.commit c f)

/-! ### The meanings, one for each instruction and event -/

/-- `LD` (R229). -/
def execLd (w : MWord) (s : State) : Host.Outcome State Fault Refusal := finish (actLoad .ld w s)

/-- `ST` (R229, R230). -/
def execSt (w : MWord) (s : State) : Host.Outcome State Fault Refusal := finish (actStore w s)

/-- `LDT` (R230). -/
def execLdt (w : MWord) (s : State) : Host.Outcome State Fault Refusal := finish (actLoad .ldt w s)

/-- `PREF` (R231). -/
def execPref (w : MWord) (s : State) : Host.Outcome State Fault Refusal := finish (actPref w s)

/-- `WB` (R231). -/
def execWb (w : MWord) (s : State) : Host.Outcome State Fault Refusal := finish (actWb w s)

end Sys2Proof.Machine
end

