-- ==== Sys2Proof/Machine/Sync.lean ====
section
/-! DEFINITION. Synchronising through memory (R270-R287): atomics, commutative updates, ordered atomics, waits on a word,
queues and futures; barriers (R281, R282) and the fence (R262-R266). -/

namespace Sys2Proof.Machine

/-! ### atom and red (R272-R275) -/

/-- The operand b of an atomic in a lane (R26, R271). -/
def Ctx.atomB (c : Ctx) (w : MWord) (lane : Nat) : DWord := BitVec.ofNat 64 (c.g.rd w.b lane w.atomTy)

/-- The compare value of `cas`, read at issue from D (R273). -/
def Ctx.atomD (c : Ctx) (w : MWord) (lane : Nat) : DWord :=
  if w.aop = 7 then BitVec.ofNat 64 (c.g.bits w.d w.width.regs lane) else 0

/-- The names of the registers that an atomic's old value goes to: where D is one s register for every lane, the last lane's value
remains in it (R273; log 87). -/
def Ctx.oldKeys (c : Ctx) (w : MWord) (hits : List Hit) (h : Hit) : List Nat :=
  if w.d.isS && hits.any (fun x => h.e.lane < x.e.lane) then (List.range w.width.regs).map (spareKey h.e.lane)
  else c.datumKeys w h

/-- `atom` (R273): each lane's old value goes to D. -/
def actAtom (w : MWord) (s : State) : Act :=
  let f := MOp.front .atom w
  s.issue f fun c =>
    let once := MOp.uniform .atom w
    match s.resolve c w.space w.scope (c.elems w once)
        { once := once, kind := .both, nondet := fun _ _ => c.g.id.det } with
    | .act a => a
    | .ok s hits =>
      let (prod, s) := s.produce c.gid ((hits.flatMap (c.oldKeys w hits)).map fun k => (k, none))
      .done ((hits.foldl (fun s h =>
        s.perform c h (.rmw w.aop (c.atomB w h.e.lane) (c.atomD w h.e.lane)) prod (c.oldKeys w hits h)) s).commit c f)

/-- A `red` whose floating add is not exact in deterministic mode (R275). -/
def State.redNondet (s : State) (w : MWord) (id : Ident) (hits : List Hit) : Bool :=
  w.aop = 11 && id.det && hits.any fun h => match h.reach with
    | .glob pa mt _ => mt != 0 || (s.anchorOf pa).isNone
    | _ => true

/-- One lane of a `red` (R274): in flight in F to an MT 00 line of a device-bias page, else its own path. On H an `fadd` to an MT
00 line that a window holds keeps the window's anchor, so that the wide rule adds it in host bias too (R9, R15, R275; log
70). -/
def State.redLane (s : State) (c : Ctx) (w : MWord) (h : Hit) : State :=
  let b := c.atomB w h.e.lane
  match h.reach with
  | .glob pa 0 p =>
    let e := if w.aop = 11 then s.anchorOf pa else none
    if p == .h then s.perform c h (match e with | some e => .red w.aop b e | none => .rmw w.aop b 0) 0 []
    else
      let s := s.noteLine c.g.id (lineOf pa)
      let r : RedInFlight := ⟨c.gid, c.g.id.ctx, logical c.g.id.core, w.aop, pa, h.e.bytes, b, e, s.sched.nextId⟩
      { s with order := { s.order with reds := s.order.reds ++ [r] } }
  | _ => s.perform c h (.rmw w.aop b 0) 0 []

/-- `red` (R274): it writes no register. -/
def actRed (w : MWord) (s : State) : Act :=
  let f := MOp.front .red w
  s.issue f fun c =>
    let once := MOp.uniform .red w
    match s.resolve c w.space w.scope (c.elems w once)
        { once := once, kind := .both, nondet := fun s hits => s.redNondet w c.g.id hits } with
    | .act a => a
    | .ok s hits => .done ((hits.foldl (fun s h => s.redLane c w h) s).commit c f)

/-! ### Instructions that act in M themselves -/

/-- An access that performs in M as one move at its issue waits for the older entries of its path: those of its channel's queue
(R258), and those of its core for its lines in H (R261). -/
def State.behind (s : State) (core pa n mt : Nat) : Bool :=
  match s.pathOf .global pa mt .device with
  | .qch => !(smGet [] s.order.qch (channelOf pa)).isEmpty
  | .h => s.order.h.any fun a => a.core == core && (linesOf a.pa a.bytes).any (linesOf pa n).contains
  | _ => false

/-- An access of a group now, to n bytes at pa through an entry of a memory type, must wait. -/
def State.notYet (s : State) (gid core pa n mt : Nat) (write : Bool) : Bool :=
  s.blockedFor (s.nowBy gid) pa n write || s.behind core pa n mt

/-- The physical address and the memory type of a hit. -/
def Hit.pa (h : Hit) : Nat := match h.reach with | .glob pa _ _ => pa | .spad _ o => o

@[inherit_doc Hit.pa] def Hit.mt (h : Hit) : Nat := match h.reach with | .glob _ mt _ => mt | .spad _ _ => 0

/-- The page of a hit flips to host bias, when the access goes through MT 11 (R100). -/
def State.flipHit (s : State) (h : Hit) : State := match h.reach with | .glob pa 3 _ => s.flip pa | _ => s

/-- The checks of an instruction that reads or changes its location in M as one move at its issue, whatever its path (R107,
R279, R283-R286, R345, R350): those of `resolve`; then the target's (R222), which raises ACCESS before the commit; then it
waits for what stands in its way, and its page flips (R100). -/
def State.resolveNow (s : State) (c : Ctx) (sp : Space) (sc : Scope) (els : List Elem) (k : Checks) : Resolved :=
  match s.resolve c sp sc els k with
  | .act a => .act a
  | .ok s hits =>
    let no := hits.filter fun h => !s.allowed (s.targetAt h.pa h.mt) c.g.id.ctx h.pa h.e.bytes k.kind
    let s := no.foldl (fun s h => s.refuse (s.targetAt h.pa h.mt) c.g.id.ctx h.pa k.kind) s
    match s.failAct c k.once (no.map fun h => ⟨h.e.lane, .access, h.e.va, 5⟩) with
    | some a => .act a
    | none =>
      if hits.any fun h => s.notYet c.gid c.g.id.core h.pa h.e.bytes h.mt k.kind.writes then .act (.wait s)
      else if k.kind.reads && hits.any fun h => s.poisoned h.pa h.e.bytes then .act (.park (s.doom c.g.id.ctx))
      else .ok (hits.foldl (fun s h => (s.flipHit h).noteLine c.g.id (lineOf h.pa)) s) hits

/-! ### Ordered atomics (R276-R278) -/

/-- The partition of a context (R10). -/
def State.partOf (s : State) (ctx : Nat) : Nat := match s.ctx ctx with | some c => c.part | none => 0

/-- The L2 slice of an address, one of those of the context's partition (R11; log 15): 32 on each die. -/
def State.sliceOf (s : State) (ctx pa : Nat) : Nat :=
  let dies := s.diesOf (s.partOf ctx)
  let per := Config.slices / 8
  let i := pa / 128 % (dies.length * per)
  dies.getD (i / per) 0 * per + i % per

/-- `aord` (R276): after a release, each lane's arrival is sent; the group waits, not parked, until every lane has performed
or been refused. -/
def actAord (w : MWord) (s : State) : Act :=
  let f := MOp.front .aord w
  s.issue f fun c =>
    let once := MOp.uniform .aord w
    match s.resolve c w.space w.scope (c.objects w once 16 16) { once := once, kind := .both, mt0 := true } with
    | .act a => a
    | .ok s hits =>
      if !s.released c.gid .device then .wait s
      else
        let s := hits.foldl (fun s h => s.noteLine c.g.id (lineOf h.pa)) s
        let (id, s) := s.newId
        let lanes := hits.map fun h =>
          let keys := (List.range w.width.regs).map fun j => c.g.key w.d h.e.lane j
          (⟨h.e.lane, keys, h.pa, c.g.rdWord w.d h.e.lane, c.atomB w h.e.lane, 0, .sent⟩ : TicketLane)
        let t : Ticket := ⟨id, c.gid, c.g.id.grid, c.g.id.ctx, w.aop, w.width.bits / 8, once, c.own, c.batch, c.act, lanes⟩
        let s := { s with work := { s.work with tickets := s.work.tickets ++ [t] } }
        .done ((s.modGroup c.gid fun g =>
          { ((g.lastUse c.act f).setEmpty (lanes.flatMap (·.keys))) with wait := some (.ticket id), issued := true }).yieldIf
            f.hints.yld c.gid)

/-- A lane of an outstanding `aord` is over. -/
def TicketSt.ended : TicketSt → Bool
  | .done | .refused => true
  | _ => false

/-- Change one lane of an outstanding `aord`. -/
def State.modLane (s : State) (op lane : Nat) (f : TicketLane → TicketLane) : State :=
  { s with work := { s.work with tickets := s.work.tickets.map fun t =>
      if t.id == op then { t with lanes := t.lanes.map fun l => if l.lane == lane then f l else l } else t } }

/-- When every lane has performed or been refused, the `aord` commits after an acquire of device scope (R276), or raises AORDTKT after commit (R277): the
lanes that performed have the old values, the refused ones their tickets. -/
def State.aordFinish (s : State) (op : Nat) : State :=
  match s.work.tickets.find? fun t => t.id == op with
  | none => s
  | some t =>
    if !(t.lanes.all fun l => l.st.ended) || !s.acquired t.gid .device then s
    else
      let s := { s with work := { s.work with tickets := s.work.tickets.filter fun x => x.id != op } }
      match s.group t.gid with
      | none => s
      | some g =>
        let done := (t.lanes.filter fun l => l.st == .done).flatMap fun l => wordsFor l.keys l.value.toNat
        let g := { (g.puts done).setFull ((t.lanes.filter fun l => l.st == .refused).flatMap (·.keys)) with wait := none }
        let bad := (t.lanes.filter fun l => l.st == .refused).map (·.lane)
        if bad.isEmpty then
          s.setGroup t.gid (g.goOn t.batch (fun _ => t.own + 12) (s.rxendOf t.gid g))
        else
          (s.setGroup t.gid g).raise t.gid
            { Trap.mk' .aordtkt t.own (if t.once then t.act else bad) with resume := true }

/-- One arrival performs at its cell (R276): VALUE and NEXT change in one move. -/
def State.aordPerform (s : State) (t : Ticket) (l : TicketLane) : State :=
  let (m, s) := s.performRead (l.pa + 8) t.bytes
  let s := s.performWrite (l.pa + 8) (leOf t.bytes (aopNew t.aop t.bytes m l.b.toNat 0))
  let s := s.performWrite l.pa (leOf 4 (l.ticket + 1).toNat)
  s.modLane t.id l.lane fun l => { l with value := BitVec.ofNat 64 m, st := .done }

/-- The held arrival at a cell with a ticket. -/
def State.heldAt (s : State) (pa : Nat) (next : Word) : Option (Ticket × TicketLane) :=
  s.work.tickets.findSome? fun t =>
    (t.lanes.find? fun l => l.st == .held && l.pa == pa && l.ticket == next).map fun l => (t, l)

/-- Held arrivals of a cell perform while one has the new NEXT (R276). -/
def State.aordCascade (s : State) (pa : Nat) : Nat → State
  | 0 => s
  | n + 1 =>
    let next := BitVec.ofNat 32 (leVal (s.readBytes pa 4))
    match s.heldAt pa next with
    | none => s
    | some (t, l) => ((s.aordPerform t l).aordFinish t.id).aordCascade pa n

/-- Held arrivals, over every cell of a slice. -/
def State.heldCount (s : State) (slice : Nat) : Nat :=
  (s.work.tickets.flatMap fun t => t.lanes.filter fun l => l.st == .held && s.sliceOf t.ctx l.pa == slice).length

/-- An arrival cannot be made yet: something older stands in its way (R258, R260, R261). -/
def State.aordWaits (s : State) (t : Ticket) (l : TicketLane) : Bool :=
  s.blockedFor (.group t.gid t.id) l.pa 16 true ||
  (match s.group t.gid with | some g => s.behind g.id.core l.pa 16 0 | none => false)

/-- AORD_ARRIVAL (R277 Table): an arrival reaches its cell's slice. One that the target refuses by now is not performed, and
delivers zero (R222); one that would read an uncorrectable error ends its context (R389). -/
def aordArrive (op lane : Nat) (s : State) : State :=
  match s.work.tickets.find? fun t => t.id == op with
  | none => s
  | some t =>
    match t.lanes.find? fun l => l.lane == lane && l.st == .sent with
    | none => s.aordFinish op
    | some l =>
      if s.aordWaits t l || !s.running t.ctx then s
      else if !s.allowed (s.targetAt l.pa 0) t.ctx l.pa 16 .both then
        ((s.refuse (s.targetAt l.pa 0) t.ctx l.pa .both).modLane op lane fun l => { l with st := .done }).aordFinish op
      else if s.poisoned l.pa 16 then s.doom t.ctx
      else
        let s := s.settle l.pa 16
        let next := BitVec.ofNat 32 (leVal (s.readBytes l.pa 4))
        let d := (l.ticket - next).toNat
        let slice := s.sliceOf t.ctx l.pa
        if d = 0 then
          let s := (s.aordPerform t l).aordFinish op
          s.aordCascade l.pa (s.work.tickets.flatMap (·.lanes)).length
        else if 2 ^ 31 ≤ d || (s.heldAt l.pa l.ticket).isSome then
          (s.modLane op lane fun l => { l with st := .refused }).aordFinish op
        else if s.heldCount slice < Config.aordEntries then s.modLane op lane fun l => { l with st := .held }
        else s.modLane op lane fun l => { l with st := .retry (s.dev.clk + 256) }

/-- AORD_RETRY (R277): an arrival refused by a full buffer is sent again 256 cycles later. -/
def aordAgain (op lane : Nat) (s : State) : State :=
  s.modLane op lane fun l => match l.st with
    | .retry t => if t ≤ s.dev.clk then { l with st := .sent } else l
    | _ => l

/-! ### Waiting on a word (R279, R280) -/

/-- Where a wait holds its monitors (R280). -/
def Wait.monitors : Wait → List Nat
  | .word x _ => if x.monitored && x.woke.isNone then [x.pa] else []
  | .push obj _ mon woke => if mon && !woke then [obj] else []
  | .pop obj _ mon item _ _ => if mon && item.isNone then [obj] else []
  | .future l _ mon _ => if mon then (l.filter (·.got.isNone)).map (·.pa) else []
  | _ => []

/-- A wait of a context finds a monitor free at the slice of its location (R280). -/
def State.monitorFree (s : State) (ctx pa : Nat) : Bool :=
  let slice := s.sliceOf ctx pa
  (s.groups.filter fun p => match p.2.wait with
    | some w => w.monitors.any fun x => s.sliceOf p.2.id.ctx x == slice
    | none => false).length < Config.monitors

/-- A `waitc` may hold a monitor on a line only where its page has MT 00 and is in device bias (R280). -/
def State.watchable (s : State) (pa mt : Nat) : Bool := mt == 0 && !s.hostBias pa

/-- A count that stops at 4,095 (R115). -/
def countUp (x : BitVec 12) : BitVec 12 := if x = 4095 then x else x + 1

/-- The value goes to D's pair, a long-latency destination (R146). -/
def State.giveWords (s : State) (c : Ctx) (x : Operand) (n : Nat) (v : Nat) : State :=
  (s.produce c.gid ((c.g.split x n 0 v).map fun p => (p.1, some p.2))).2

/-- The words of a value for a destination, lowest first. -/
def halves (v : DWord) : List Word := [loWord v, hiWord v]

/-- A group waits on a word: D becomes empty (R146), and it parks, with a monitor where one is to be had (R280). MONFULL counts
the `waitc`s that find none (R115). -/
def State.parkWord (s : State) (c : Ctx) (f : Front) (keys : List Nat) (x : WordWait) : Act :=
  let direct := s.watchable x.pa x.mt
  let free := s.monitorFree c.g.id.ctx x.pa
  let s := if direct && !free && !x.peel then s.modGroup c.gid fun g => { g with monfull := countUp g.monfull } else s
  let (d, s) := s.owe c f keys
  .park (s.parkAt c f (.word { x with monitored := direct && free } d))

/-- `waitc` (R279, R280). -/
def actWaitc (w : MWord) (s : State) : Act :=
  let f := MOp.front .waitc w (resumes := true)
  s.issue f fun c =>
    match c.g.wait with
    | some (.word x d) =>
      match x.woke with
      | some v => if s.acquired c.gid w.scope then .done (s.commitDue c f d (halves v)) else .wait s
      | none => .wait s
    | _ =>
      let n := w.width.bits / 8
      let tmo := (c.g.reg (c.g.key w.b 0 2)).toNat
      match s.resolveNow c w.space w.scope (c.objects w true n n)
          { once := true, kind := .read, nondet := fun _ _ => tmo != 0 && c.g.id.det } with
      | .act a => a
      | .ok s hits =>
        match hits with
        | [] => .wait s
        | h :: _ =>
          let v := c.g.rd w.b 0 (if n = 8 then .n64 else .n32)
          let (m, s) := s.performRead h.pa n
          let deadline := if tmo = 0 then none else some (s.dev.clk + tmo)
          let x : WordWait := ⟨h.pa, n, h.mt, w.opx.toNat, BitVec.ofNat 64 v, deadline, false, none, none, false⟩
          let keys := c.g.keys w.d 2 [0]
          if condU w.opx.toNat m v then
            if s.acquired c.gid w.scope then .done ((s.giveWords c w.d 2 m).commit c f)
            else
              let (d, s) := s.owe c f keys
              .park (s.holdAt c f (.word { x with woke := some (BitVec.ofNat 64 m) } d))
          else s.parkWord c f keys x

/-- MONITOR_WAKE (R279): the group resumes with the value of the write that woke it; out of its slot, it commits (R287). -/
def wakeMonitor (gid : Nat) (s : State) : State :=
  (s.modGroup gid fun g => match g.wait with
    | some (.word x d) =>
      if x.monitored && x.hit.isSome && x.woke.isNone then { g with wait := some (.word { x with monitored := false, woke := x.hit } d) } else g
    | _ => g).commitSaved gid

/-- A wait whose target refuses its read by now gives up what it holds, and its instruction is tried again, which raises ACCESS
(R222). -/
def State.waitAgain (s : State) (gid : Nat) : State :=
  (s.cancelWait gid).modGroup gid fun g => { g with wait := some (.retry true) }

/-- What a read that a wait makes gives: nothing while it must wait, or when it is refused or meets an error. -/
inductive ReRead where
  | no (s : State)
  | ok (m : Nat) (s : State)

@[inherit_doc ReRead] def State.reRead (s : State) (gid : Nat) (g : Group) (pa n mt : Nat) : ReRead :=
  if !s.running g.id.ctx || s.notYet gid g.id.core pa n mt false then .no s
  else if !s.allowed (s.targetAt pa mt) g.id.ctx pa n .read then
    .no ((s.refuse (s.targetAt pa mt) g.id.ctx pa .read).waitAgain gid)
  else if s.poisoned pa n then .no (s.doom g.id.ctx)
  else let (m, s) := (if mt == 3 then s.flip pa else s).performRead pa n; .ok m s

/-- WAITC_TIMEOUT (R279): the timeout has expired with the comparison still false; the value read at expiry is kept. -/
def expireWait (gid : Nat) (s : State) : State :=
  match s.group gid with
  | none => s
  | some g =>
    match g.wait with
    | some (.word x d) =>
      if x.hit.isSome || x.woke.isSome || !(x.deadline.any (· ≤ s.dev.clk)) then s
      else match s.reRead gid g x.pa x.bytes x.mt with
        | .no s => s
        | .ok m s =>
          (s.modGroup gid fun g =>
            { g with wait := some (.word { x with monitored := false, woke := some (BitVec.ofNat 64 m) } d) }).commitSaved gid
    | _ => s

/-! ### Queues (R283, R284) -/

/-- A queue object as it stands in M (R283 Table 5). -/
structure QueueObj where
  head : Nat
  tail : Nat
  ring : Nat
  log2 : Nat
  deriving DecidableEq, Repr

/-- Read a queue object. -/
def State.queueObj (s : State) (pa : Nat) : QueueObj :=
  let f := fun (o : Nat) => leVal (s.readBytes (pa + o) 8)
  ⟨f 0, f 8, f 16, (s.readByte (pa + 24)).toNat⟩

/-- TAIL − HEAD. -/
def QueueObj.count (q : QueueObj) : Nat := (q.tail + (2 ^ 64 - q.head)) % 2 ^ 64

/-- The object's checks (R283): ADDR names the object. -/
def QueueObj.ok (q : QueueObj) (n : Nat) : Bool := 1 ≤ q.log2 && q.log2 ≤ 24 && q.ring % n == 0

/-- The oldest group that waits at a queue object, as a popper or as a pusher, with its order. -/
def State.oldest (s : State) (pick : Wait → Option Nat) : Option Nat :=
  ((s.groups.filterMap fun p => (p.2.wait.bind pick).map fun o => (o, p.1)).foldl
    (fun (a : Option (Nat × Nat)) x => match a with | some y => if x.1 < y.1 then some x else a | none => some x) none).map (·.2)

/-- The oldest waiting popper of an object. -/
def State.oldestPopper (s : State) (obj : Nat) : Option Nat :=
  s.oldest fun w => match w with | .pop o n true none false _ => if o = obj then some n else none | _ => none

/-- The oldest waiting pusher of an object. -/
def State.oldestPusher (s : State) (obj : Nat) : Option Nat :=
  s.oldest fun w => match w with | .push o n true false => if o = obj then some n else none | _ => none

/-- Hand an item to a waiting popper (R284); out of its slot, it commits (R287). -/
def State.handTo (s : State) (gid : Nat) (v : DWord) : State :=
  (s.modGroup gid fun g => match g.wait with
    | some (.pop o n _ none _ d) => { g with wait := some (.pop o n false (some v) false d) }
    | _ => g).commitSaved gid

/-- Wake a waiting pusher, which repeats its loop. -/
def State.wakePusher (s : State) (obj : Nat) : State :=
  match s.oldestPusher obj with
  | none => s
  | some gid => s.modGroup gid fun g => match g.wait with
    | some (.push o n _ _) => { g with wait := some (.push o n false true) }
    | _ => g

/-- The element of a queue with an index, after the walk of its address (R284). -/
def State.queueElem (s : State) (c : Ctx) (q : QueueObj) (idx n : Nat) (k : Kind) : Resolved :=
  let a := BitVec.ofNat 64 (q.ring + idx % 2 ^ q.log2 * n)
  s.resolveNow c .global .device [⟨lowest 0 c.act, 0, n, a.toNat, a.toNat % n != 0, a, none, a, true⟩] { once := true, kind := k }

/-- `qpush` (R284). -/
def actQpush (w : MWord) (s : State) : Act :=
  let f := MOp.front .qpush w (resumes := true)
  s.issue f fun c =>
    let n := w.width.bits / 8
    match c.g.wait with
    | some (.push _ _ _ false) => .wait s
    | _ =>
      match s.resolveNow c w.space w.scope (c.objects w true 64 64)
          { once := true, kind := .both, mt0 := true, nondet := fun _ _ => c.g.id.det } with
      | .act a => a
      | .ok s hits =>
        match hits with
        | [] => .wait s
        | h :: _ =>
          let pa := h.pa
          let s := s.settle pa 64
          let q := s.queueObj pa
          if !q.ok n then .trap c.gid (c.trap .addr c.act h.e.va) s
          else if !s.released c.gid .device then .wait s
          else
            let v := c.g.rd w.b 0 (if n = 8 then .n64 else .n32)
            match (if q.tail = q.head then s.oldestPopper pa else none) with
            | some p => .done ((s.handTo p (BitVec.ofNat 64 v)).commit c f)
            | none =>
              if q.count < 2 ^ q.log2 then
                match s.queueElem c q q.tail n .write with
                | .act a => a
                | .ok s el =>
                  let ea := match el with | e :: _ => e.pa | [] => 0
                  let s := s.performWrite ea (leOf n v)
                  .done ((s.performWrite (pa + 8) (leOf 8 ((q.tail + 1) % 2 ^ 64))).commit c f)
              else
                let (id, s) := s.newId
                .park (s.parkAt c f (.push pa id (s.monitorFree c.g.id.ctx pa) false))

/-- `qpop` with an item (R284): it commits after an acquire of device scope, and waits for that with its item in hand. -/
def State.popDone (s : State) (c : Ctx) (f : Front) (w : MWord) (pa : Nat) (m : Nat) : Act :=
  let v := BitVec.ofNat 64 m
  match c.g.wait.bind Wait.due with
  | some d =>
    if s.acquired c.gid .device then .done (s.commitDue c f d (halves v))
    else .park (s.holdAt c f (.pop pa 0 false (some v) false d))
  | none =>
    if s.acquired c.gid .device then .done ((s.giveWords c w.d w.width.regs m).commit c f)
    else
      let (d, s) := s.owe c f (c.g.keys w.d w.width.regs [0])
      .park (s.holdAt c f (.pop pa 0 false (some v) false d))

/-- `qpop` (R284). -/
def actQpop (w : MWord) (s : State) : Act :=
  let f := MOp.front .qpop w (resumes := true)
  s.issue f fun c =>
    let n := w.width.bits / 8
    match c.g.wait with
    | some (.pop _ _ _ (some v) _ d) => if s.acquired c.gid .device then .done (s.commitDue c f d (halves v)) else .wait s
    | some (.pop _ _ _ none false _) => .wait s
    | _ =>
      match s.resolveNow c w.space w.scope (c.objects w true 64 64)
          { once := true, kind := .both, mt0 := true, nondet := fun _ _ => c.g.id.det } with
      | .act a => a
      | .ok s hits =>
        match hits with
        | [] => .wait s
        | h :: _ =>
          let pa := h.pa
          let s := s.settle pa 64
          let q := s.queueObj pa
          if !q.ok n then .trap c.gid (c.trap .addr c.act h.e.va) s
          else if 0 < q.count then
            match s.queueElem c q q.head n .read with
            | .act a => a
            | .ok s el =>
              let ea := match el with | e :: _ => e.pa | [] => 0
              let (m, s) := s.performRead ea n
              ((s.performWrite pa (leOf 8 ((q.head + 1) % 2 ^ 64))).wakePusher pa).popDone c f w pa m
          else
            let (id, s) := s.newId
            let (d, s) := match c.g.wait.bind Wait.due with
              | some d => (d, s)
              | none => s.owe c f (c.g.keys w.d w.width.regs [0])
            .park (s.parkAt c f (.pop pa id (s.monitorFree c.g.id.ctx pa) none false d))

/-! ### Futures (R285, R286) -/

/-- Serve one waiting lane of a group with a value; whether it took the cell's fullness with it (KEEP = 0). -/
def serveLane (l : List FutLane) (pa : Nat) (v : DWord) : List FutLane × Option Bool :=
  match l with
  | [] => ([], none)
  | x :: rest =>
    if x.pa = pa && x.got.isNone then ({ x with got := some v } :: rest, some x.keep)
    else let (r, k) := serveLane rest pa v; (x :: r, k)

/-- The oldest group with a lane that waits at a cell. -/
def State.oldestFget (s : State) (pa : Nat) : Option Nat :=
  s.oldest fun w => match w with
    | .future l n true _ => if l.any fun x => x.pa = pa && x.got.isNone then some n else none
    | _ => none

/-- Serve waiting `fget`s, oldest first (R285): each KEEP = 1 receives VALUE; the first with KEEP = 0 receives it and ends the
service. The answer says whether the cell stays full. -/
def State.serveFgets (s : State) (pa : Nat) (v : DWord) : Nat → Bool × State
  | 0 => (true, s)
  | n + 1 =>
    match s.oldestFget pa with
    | none => (true, s)
    | some gid =>
      match s.group gid with
      | none => (true, s)
      | some g =>
        match g.wait with
        | some (.future l o m d) =>
          let (l', k) := serveLane l pa v
          let s := (s.setGroup gid { g with wait := some (.future l' o m d) }).commitSaved gid
          if k = some false then (false, s) else s.serveFgets pa v n
        | _ => (true, s)

/-- The lanes that wait in `fget`, over the machine. -/
def State.fgetLanes (s : State) : Nat :=
  (s.groups.map fun p => match p.2.wait with | some (.future l _ _ _) => l.length | _ => 0).foldl (· + ·) 0

/-- The bytes of a cell that an `fset` fills (R285): VALUE, and STATE as the service leaves it. -/
def cellBytes (pa : Nat) (v : DWord) (full : Bool) : List (Nat × Byte) :=
  let b := leOf 8 v.toNat ++ leOf 4 (if full then 1 else 0)
  (List.range 12).map fun i => (pa + i, b.getD i 0)

/-- One lane of `fset` (R285), as one move at the cell: its status. -/
def State.fsetLane (s : State) (pa : Nat) (v : DWord) : Nat × State :=
  let (st, s) := s.performRead (pa + 8) 4
  if st = 0 then
    let (full, s) := s.serveFgets pa v s.fgetLanes
    (0, s.writeEach (cellBytes pa v full))
  else (1, s)

/-- `fset` (R285). OVW lies in the TEA position. -/
def actFset (w : MWord) (s : State) : Act :=
  let f := MOp.front .fset w
  s.issue f fun c =>
    let once := MOp.uniform .fset w
    match s.resolveNow c w.space w.scope (c.objects w once 16 16) { once := once, kind := .both, mt0 := true } with
    | .act a => a
    | .ok s hits =>
      if !s.released c.gid w.scope then .wait s
      else
        let r := hits.foldl (fun (a : List (Nat × Nat) × State) h =>
          let (st, s) := a.2.fsetLane h.pa (c.g.rdDWord w.b h.e.lane)
          (a.1 ++ [(h.e.lane, st)], s)) ([], s)
        let writes := r.1.flatMap fun p => c.g.wr w.d p.1 .n32 p.2
        let s := (r.2.produce c.gid (writes.map fun p => (p.1, some p.2))).2
        let bad := (r.1.filter fun p => p.2 == 1).map (·.1)
        if w.hints.tea && !bad.isEmpty then s.afterCommit c f (c.trap .overwr (if once then c.act else bad))
        else .done (s.commit c f)

/-- One lane's attempt at its cell (R286). -/
def State.fgetLane (s : State) (x : FutLane) : FutLane × State :=
  if x.got.isSome then (x, s)
  else
    let (st, s) := s.performRead (x.pa + 8) 4
    if st = 0 then (x, s)
    else
      let (v, s) := s.performRead x.pa 8
      ({ x with got := some (BitVec.ofNat 64 v) }, if x.keep then s else s.performWrite (x.pa + 8) (leOf 4 0))

/-- Every lane's attempt, in order. -/
def State.fgetAll (s : State) (l : List FutLane) : List FutLane × State :=
  l.foldl (fun (a : List FutLane × State) x => let (y, s) := a.2.fgetLane x; (a.1 ++ [y], s)) ([], s)

/-- The words that served lanes receive, in the order of D's registers. -/
def futWords (l : List FutLane) : List Word := l.flatMap fun x => halves (x.got.getD 0)

/-- `fget` (R286): D is empty from issue; it commits when every lane has its value, after an acquire. -/
def actFget (w : MWord) (s : State) : Act :=
  let f := MOp.front .fget w (resumes := true)
  s.issue f fun c =>
    match c.g.wait with
    | some (.future l _ _ d) =>
      if l.all (·.got.isSome) && s.acquired c.gid w.scope then .done (s.commitDue c f d (futWords l)) else .wait s
    | _ =>
      let once := MOp.uniform .fget w
      match s.resolveNow c w.space w.scope (c.objects w once 16 16) { once := once, kind := .both, mt0 := true } with
      | .act a => a
      | .ok s hits =>
        let (l, s) := s.fgetAll (hits.map fun h => ⟨h.e.lane, h.pa, w.opx.getLsbD 0, none⟩)
        let mon := l.all fun x => x.got.isSome || s.monitorFree c.g.id.ctx x.pa
        let (id, s) := s.newId
        let (d, s) := s.owe c f (l.flatMap fun x => (List.range 2).map fun j => c.g.key w.d x.lane j)
        if l.all (·.got.isSome) then
          if s.acquired c.gid w.scope then .done (s.commitDue c f d (futWords l))
          else .park (s.holdAt c f (.future l id mon d))
        else .park (s.parkAt c f (.future l id mon d))

/-- WAIT_REREAD (R280): a wait that holds no monitor reads its location again, and takes a monitor when one is free. A queue's
wait goes on in its loop when it finds an item or room. A cell that its target refuses by now delivers zero (R222). -/
def rereadWait (gid : Nat) (s : State) : State :=
  match s.group gid with
  | none => s
  | some g =>
    let free := fun (s : State) (pa : Nat) => s.monitorFree g.id.ctx pa
    match g.wait with
    | some (.word x d) =>
      if x.monitored || x.woke.isSome then s
      else match s.reRead gid g x.pa x.bytes x.mt with
        | .no s => s
        | .ok m s =>
          if condU x.cond m x.val.toNat then
            (s.modGroup gid fun g => { g with wait := some (.word { x with woke := some (BitVec.ofNat 64 m) } d) }).commitSaved gid
          else s.modGroup gid fun g => { g with wait := some (.word { x with monitored := s.watchable x.pa x.mt && free s x.pa } d) }
    | some (.push o n false false) =>
      match s.reRead gid g o 64 0 with
      | .no s => s
      | .ok _ s =>
        let q := s.queueObj o
        s.modGroup gid fun g => { g with wait := some (.push o n (free s o) (q.count < 2 ^ q.log2)) }
    | some (.pop o n false none false d) =>
      match s.reRead gid g o 64 0 with
      | .no s => s
      | .ok _ s => s.modGroup gid fun g => { g with wait := some (.pop o n (free s o) none (0 < (s.queueObj o).count) d) }
    | some (.future l o false d) =>
      if !s.running g.id.ctx || l.any (fun x => x.got.isNone && s.notYet gid g.id.core x.pa 16 0 true) then s
      else
        let no := fun (x : FutLane) => x.got.isNone && !s.allowed (s.targetAt x.pa 0) g.id.ctx x.pa 16 .both
        if l.any fun x => x.got.isNone && s.poisoned x.pa 16 then s.doom g.id.ctx
        else
          let (l, s) := (l.filter no).foldl (fun s x => s.refuse (s.targetAt x.pa 0) g.id.ctx x.pa .both) s |>.fgetAll
            (l.map fun x => if no x then { x with got := some 0 } else x)
          let mon := l.all fun x => x.got.isSome || free s x.pa
          (s.modGroup gid fun g => { g with wait := some (.future l o mon d) }).commitSaved gid
    | _ => s

/-! ### Barriers (R281, R282) -/

/-- What the shared checks see of a format-4 word: A, then nothing else (R150, R282). -/
def ctlFront (w : XWord) (aRegs : Nat := 0) (dst : List (Operand × Nat) := []) (illop : Group → Bool := fun _ => false)
    (resumes : Bool := false) (body : Bool := true) (moves : Bool := false) : Front where
  guard := w.guard
  hints := w.hints
  ports := [.ctl]
  srcs := if aRegs = 0 then [] else [⟨w.a, aRegs, w.hints.tea, w.hints.lua⟩]
  dsts := dst
  body := body
  moves := moves
  resumes := resumes
  illop := illop

/-- A scope by its code (R32). -/
def scopeOf (n : Nat) : Scope := match n with | 0 => .team | 1 => .cluster | 2 => .device | _ => .system

/-- THREADS of a group's kernel, the TARGET of its barriers (R281). -/
def State.threads (s : State) (id : Ident) : Nat := match s.grid id.grid with | some g => g.kernel.threads | none => 0

/-- One event at a barrier (R282): n arrivals, and the phases that they complete. -/
def Barrier.arrive (b : Barrier) (target n : Nat) : Barrier × Nat :=
  let flips := (b.count + n) / max 1 target
  (⟨(b.count + n) % max 1 target, b.phase != (flips % 2 = 1)⟩, flips)

/-- Flips wake the `waitb`s that wait for a phase that came (R282). -/
def State.wakeBarrier (s : State) (id : Ident) (bar : Nat) (ph : Bool) : State :=
  { s with groups := s.groups.map fun p =>
      if p.2.id.grid == id.grid && p.2.id.team == id.team then
        (p.1, match p.2.wait with
          | some (.barrier b q false) => if b == bar && q == ph then { p.2 with wait := some (.barrier b q true) } else p.2
          | _ => p.2)
      else p }

/-- A barrier of a group's team. -/
def State.barrier (s : State) (id : Ident) (bar : Nat) : Barrier :=
  match s.team id.grid id.team with | some t => smGet ⟨0, false⟩ t.barriers bar | none => ⟨0, false⟩

/-- `arrive` (R282). -/
def actArrive (w : XWord) (s : State) : Act :=
  let f := ctlFront w (illop := fun g => g.id.nbar ≤ w.f 17 12) (body := false)
  s.issue f fun c =>
    if !s.released c.gid (scopeOf (w.f 19 18)) then .wait s
    else
      let bar := w.f 17 12
      let (b, flips) := (s.barrier c.g.id bar).arrive (s.threads c.g.id) (w.f 11 0 * c.act.length)
      let s := s.modTeam c.g.id.grid c.g.id.team fun t => { t with barriers := smSet t.barriers bar b }
      let s := if flips = 0 then s else s.wakeBarrier c.g.id bar b.phase
      let s := if flips < 2 then s else s.wakeBarrier c.g.id bar (!b.phase)
      .done (s.commit c f)

/-- `waitb` (R282). -/
def actWaitb (w : XWord) (s : State) : Act :=
  let f := ctlFront w (illop := fun g => g.id.nbar ≤ w.f 17 12) (resumes := true) (body := false)
  s.issue f fun c =>
    let bar := w.f 17 12
    let ph : Bool := w.f 20 20 = 1
    let woke := match c.g.wait with | some (.barrier _ _ b) => b | _ => false
    let stands := fun (w : Wait) => c.g.wait == some w
    if woke || (s.barrier c.g.id bar).phase == ph then
      if s.acquired c.gid (scopeOf (w.f 19 18)) then .done (s.commit c f)
      else if stands (.barrier bar ph true) then .wait s
      else .park (s.holdAt c f (.barrier bar ph true))
    else if stands (.barrier bar ph false) then .wait s
    else .park (s.parkAt c f (.barrier bar ph false))

/-- `fence` (R262, R263): it commits when what Table 4 waits for has happened. -/
def actFence (w : XWord) (s : State) : Act :=
  let f := ctlFront w (body := false)
  s.issue f fun c =>
    let sc := scopeOf (w.f 1 0)
    let o := w.f 3 2
    if (o = 0 || s.released c.gid sc) && (o = 1 || s.acquired c.gid sc) then .done (s.commit c f) else .wait s

/-! ### The meanings, one for each instruction and event -/

/-- `ATOM` (R273). -/
def execAtom (w : MWord) (s : State) : Host.Outcome State Fault Refusal := finish (actAtom w s)

/-- `RED` (R274, R275). -/
def execRed (w : MWord) (s : State) : Host.Outcome State Fault Refusal := finish (actRed w s)

/-- `AORD` (R276-R278). -/
def execAord (w : MWord) (s : State) : Host.Outcome State Fault Refusal := finish (actAord w s)

/-- `WAITC` (R279). -/
def execWaitc (w : MWord) (s : State) : Host.Outcome State Fault Refusal := finish (actWaitc w s)

/-- `QPUSH` (R284). -/
def execQpush (w : MWord) (s : State) : Host.Outcome State Fault Refusal := finish (actQpush w s)

/-- `QPOP` (R284). -/
def execQpop (w : MWord) (s : State) : Host.Outcome State Fault Refusal := finish (actQpop w s)

/-- `FSET` (R285). -/
def execFset (w : MWord) (s : State) : Host.Outcome State Fault Refusal := finish (actFset w s)

/-- `FGET` (R286). -/
def execFget (w : MWord) (s : State) : Host.Outcome State Fault Refusal := finish (actFget w s)

/-- `ARRIVE` (R282). -/
def execArrive (w : XWord) (s : State) : Host.Outcome State Fault Refusal := finish (actArrive w s)

/-- `WAITB` (R282). -/
def execWaitb (w : XWord) (s : State) : Host.Outcome State Fault Refusal := finish (actWaitb w s)

/-- `FENCE` (R262, R263). -/
def execFence (w : XWord) (s : State) : Host.Outcome State Fault Refusal := finish (actFence w s)

/-- AORD_ARRIVAL (R276, R277). -/
def execAordArrival (op : Nat) (lane : Nat) (s : State) : Host.Outcome State Fault Refusal :=
  .next (aordArrive op lane s)

/-- AORD_RETRY (R277). -/
def execAordRetry (op : Nat) (lane : Nat) (s : State) : Host.Outcome State Fault Refusal :=
  .next (aordAgain op lane s)

/-- MONITOR_WAKE (R279). -/
def execMonitorWake (group : Nat) (s : State) : Host.Outcome State Fault Refusal :=
  .next (wakeMonitor group s)

/-- WAITC_TIMEOUT (R279). -/
def execWaitcTimeout (group : Nat) (s : State) : Host.Outcome State Fault Refusal :=
  .next (expireWait group s)

/-- WAIT_REREAD (R280). -/
def execWaitReread (group : Nat) (s : State) : Host.Outcome State Fault Refusal :=
  .next (rereadWait group s)

end Sys2Proof.Machine
end

