-- ==== Sys2Proof/Machine/Control.lean ====
section
/-! DEFINITION. Control flow (R150-R159): branches, calls, `join`, `spawn` with its bins (R138, R139, R148), `fend` and
`yield`. -/

namespace Sys2Proof.Machine

/-! ### Targets -/

/-- A target offset in instructions, relative to the instruction's own address (R33, R151). -/
def Ctx.target (c : Ctx) (off : Nat) : Int := c.own.toNat + 12 * sextNat off 24

/-- The PC of a target that is an instruction start. -/
def pcOf (t : Int) : DWord := BitVec.ofInt 64 t

/-- The targets that a transfer may not take: ALIGN off the instruction starts of the kernel's text (R20), below address 0 and
past the last one too, since a target is not cut to 64 bits (R41, R151, R153); then RXBODY outside the body of an open
region (R312). -/
def State.badTargets (s : State) (c : Ctx) (ts : List (Nat × Int)) : Option Trap :=
  match ts.filter fun p => p.2 < 0 || !c.g.id.isStart p.2.toNat with
  | p :: rest => some (c.trap .align ((p :: rest).map (·.1)) (pcOf p.2))
  | [] =>
    match s.bodyOf c.gid c.g with
    | some r => if ts.any fun p => p.2 < r.lo || r.hi ≤ p.2 then some (c.trap .rxbody c.act) else none
    | none => none

/-- The batch's lanes after a transfer of the active lanes: the others fall through (R28, R151). -/
def Ctx.branch (c : Ctx) (t : Nat → DWord) : Nat → DWord := fun l => if c.act.contains l then t l else c.own + 12

/-! ### The instructions -/

/-- `nop` (R151). -/
def actNop (w : XWord) (s : State) : Act :=
  let f := ctlFront w
  s.issue f fun c => .done (s.commit c f)

/-- `bra` (R151): the active lanes move; the others fall through. -/
def actBra (w : XWord) (s : State) : Act :=
  let f := ctlFront w (moves := true)
  s.issue f fun c =>
    let t := c.target (w.f 23 0)
    match s.badTargets c (c.act.map fun l => (l, t)) with
    | some tr => .trap c.gid tr s
    | none => .done (s.commitTo c f (c.branch fun _ => pcOf t))

/-- `brs` (R152): its guard is uniform, so the whole batch moves. -/
def actBrs (w : XWord) (s : State) : Act :=
  let f := ctlFront w (moves := true)
  s.issue f fun c =>
    let t := c.target (w.f 23 0)
    match s.badTargets c (c.act.map fun l => (l, t)) with
    | some tr => .trap c.gid tr s
    | none => .done (s.commitTo c f fun _ => pcOf t)

/-- `jmp` (R153): a target for each lane, from A. -/
def actJmp (w : XWord) (s : State) : Act :=
  let f := ctlFront w (moves := true) (aRegs := 2)
  s.issue f fun c =>
    let t := fun (l : Nat) => (c.g.rd w.a l .n64 : Int) + 12 * sextNat (w.f 23 0) 24
    match s.badTargets c (c.act.map fun l => (l, t l)) with
    | some tr => .trap c.gid tr s
    | none => .done (s.commitTo c f (c.branch fun l => pcOf (t l)))

/-- `ret` (R153). -/
def actRet (w : XWord) (s : State) : Act :=
  let f := ctlFront w (moves := true) (aRegs := 2)
  s.issue f fun c =>
    let t := fun (l : Nat) => c.g.rdDWord w.a l
    match s.badTargets c (c.act.map fun l => (l, (t l).toNat)) with
    | some tr => .trap c.gid tr s
    | none => .done (s.commitTo c f (c.branch t))

/-- `call` (R154): D receives the address of the next instruction, in the active lanes. -/
def actCall (w : XWord) (s : State) : Act :=
  let f := ctlFront w (moves := true) (dst := [(w.d, 2)])
  s.issue f fun c =>
    let t := c.target (w.f 23 0)
    match s.badTargets c (c.act.map fun l => (l, t)) with
    | some tr => .trap c.gid tr s
    | none =>
      let writes := (regLanes w.d c.act).flatMap fun l => c.g.wr w.d l .n64 (c.own + 12).toNat
      .done ((s.modGroup c.gid fun g => g.puts writes).commitTo c f (c.branch fun _ => pcOf t))

/-- Hold some lanes (R155, R325). -/
def Group.holdLanes (g : Group) (lanes : List Nat) : Group :=
  { g with fibres := g.fibres.map fun f => if lanes.contains f.lane then { f with held := true } else f }

/-- `join` (R155): the active lanes are held at it; the others go on. -/
def actJoin (w : XWord) (s : State) : Act :=
  let f := ctlFront w
  s.issue f fun c =>
    .done ((s.modGroup c.gid fun g => g.holdLanes c.act).commitTo c f (c.branch fun _ => c.own))

/-- `fend` (R157): the fibres of the active lanes end. -/
def actFend (w : XWord) (s : State) : Act :=
  let f := ctlFront w (body := false)
  s.issue f fun c => .done ((s.commitTo c f (c.branch fun _ => c.own)).endFibres c.gid c.act)

/-- `yield` (R158): the group becomes the youngest, and is not eligible for n cycles. -/
def actYield (w : XWord) (s : State) : Act :=
  let f := ctlFront w
  s.issue f fun c =>
    let (n, s) := s.newId
    .done ((s.modGroup c.gid fun g => { g with age := n, notBefore := s.dev.clk + w.f 15 0 + 1 }).commit c f)

/-! ### spawn (R148, R156) -/

/-- The FIBID of a spawned fibre (R139). -/
def spawnFibid (seed : DWord) (fibid sc : Word) : Word :=
  0x8000_0000#32 ||| ((kcg (loWord seed) (hiWord seed) fibid sc 0 0x4649_4252).x0 &&& 0x7FFF_FFFF#32)

/-- A bin of a key (R148). -/
def Bin.hasKey (b : Bin) (id : Ident) (entry : DWord) : Bool :=
  b.ctx == id.ctx && b.grid == id.grid && b.team == id.team && b.ident.role == id.role && b.entry == entry && !b.out

/-- A bin is closed, or its timer has expired, which closes it (R148). -/
def Bin.shut (b : Bin) (clk : Nat) : Bool := b.closed || b.deadline ≤ clk

/-- What a `spawn` takes for a new bin: the core's identity and time, the bin's expiry and its order. -/
structure SpawnAt where
  core : Nat
  id : Ident
  entry : DWord
  swaptmo : Word
  deadline : Nat
  order : Nat
  deriving DecidableEq, Repr

/-- Place one fibre into the bins of a core. A key that an open bin holds takes it, and a bin that reaches WIDTH closes. Else
it needs a new bin; `none` while a closed bin stays occupied (R149), or 16 are in use (R148). -/
def State.placeFibre (s : State) (p : SpawnAt) (bins : List Bin) (x : BinFibre) : Option (List Bin) :=
  let clk := s.dev.clk
  match bins.findIdx? fun b => b.hasKey p.id p.entry && !b.shut clk with
  | some i => some (bins.modify i fun b =>
      { b with fibres := b.fibres ++ [x], closed := decide (p.id.width ≤ b.fibres.length + 1) })
  | none =>
    let here := bins.filter fun b => !b.out
    if s.binsLeave p.core (here.filter (·.shut clk)) [] [] && (here.filter fun b => !b.shut clk).length < Config.spawnBins then
      some (bins ++ [⟨p.id.ctx, p.id.team, p.id.grid, p.entry, p.id, p.swaptmo, p.deadline, p.order, decide (p.id.width ≤ 1),
        false, [x]⟩])
    else none

/-- Place fibres in order, all or none (R156). -/
def State.placeFibres (s : State) (p : SpawnAt) : List Bin → List BinFibre → Option (List Bin)
  | bins, [] => some bins
  | bins, x :: rest =>
    match s.placeFibre p bins x with
    | some bins => s.placeFibres p bins rest
    | none => none

/-- The bin opened first closes, when a key that none of them holds needs one and all 16 are open (R148). -/
def closeOldest (p : SpawnAt) (bins : List Bin) (clk : Nat) : Option (List Bin) :=
  let used := bins.filter fun b => !b.out
  if used.length < Config.spawnBins || used.any (fun b => b.shut clk || b.hasKey p.id p.entry) then none
  else
    let first := lowest 0 (used.map (·.opened))
    some (bins.map fun b => if !b.out && b.opened == first then { b with closed := true } else b)

/-- The new fibre of a lane (R139, R156): its FIBID and its arguments. -/
def Ctx.spawnOne (c : Ctx) (w : XWord) (lane : Nat) : BinFibre :=
  let sc := match c.g.fibres.find? fun f => f.lane == lane with | some f => f.sc | none => 0
  ⟨spawnFibid c.g.id.seed (c.g.fibid lane) sc, (List.range (w.f 27 24)).map fun j => c.g.reg (c.g.key w.a lane j)⟩

/-- The spawn counts of some lanes rise (R156). -/
def Group.countSpawns (g : Group) (lanes : List Nat) : Group :=
  { g with fibres := g.fibres.map fun x => if lanes.contains x.lane then { x with sc := x.sc + 1 } else x }

/-- `spawn` (R156). -/
def actSpawn (w : XWord) (s : State) : Act :=
  let n := w.f 27 24
  let f := { ctlFront w (aRegs := n) (body := false) with illop := fun g => n != 0 && g.id.vBud ≤ n }
  s.issue f fun c =>
    let t := c.target (w.f 23 0)
    match s.badTargets c (c.act.map fun l => (l, t)) with
    | some tr => .trap c.gid tr s
    | none =>
      let k := c.g.id.core
      let (order, s) := s.newId
      let bins := (s.core k).bins
      let p : SpawnAt := ⟨k, c.g.id, pcOf t, c.g.swaptmo, s.dev.clk + c.g.bintmo.toNat, order⟩
      match s.placeFibres p bins (c.act.map (c.spawnOne w)) with
      | some bins =>
        let s := s.modCore k fun x => { x with bins := bins }
        .done ((s.modGroup c.gid fun g => g.countSpawns c.act).commit c f)
      | none =>
        match closeOldest p bins s.dev.clk with
        | some bins => .park (s.modCore k fun x => { x with bins := bins })
        | none => .wait s

/-! ### The meanings, one for each instruction and event -/

/-- `NOP` (R151). -/
def execNop (w : XWord) (s : State) : Host.Outcome State Fault Refusal := finish (actNop w s)

/-- `BRA` (R151). -/
def execBra (w : XWord) (s : State) : Host.Outcome State Fault Refusal := finish (actBra w s)

/-- `BRS` (R152). -/
def execBrs (w : XWord) (s : State) : Host.Outcome State Fault Refusal := finish (actBrs w s)

/-- `JMP` (R153). -/
def execJmp (w : XWord) (s : State) : Host.Outcome State Fault Refusal := finish (actJmp w s)

/-- `CALL` (R154). -/
def execCall (w : XWord) (s : State) : Host.Outcome State Fault Refusal := finish (actCall w s)

/-- `RET` (R153). -/
def execRet (w : XWord) (s : State) : Host.Outcome State Fault Refusal := finish (actRet w s)

/-- `JOIN` (R155). -/
def execJoin (w : XWord) (s : State) : Host.Outcome State Fault Refusal := finish (actJoin w s)

/-- `SPAWN` (R156). -/
def execSpawn (w : XWord) (s : State) : Host.Outcome State Fault Refusal := finish (actSpawn w s)

/-- `FEND` (R157). -/
def execFend (w : XWord) (s : State) : Host.Outcome State Fault Refusal := finish (actFend w s)

/-- `YIELD` (R158). -/
def execYield (w : XWord) (s : State) : Host.Outcome State Fault Refusal := finish (actYield w s)

end Sys2Proof.Machine
end

