-- ==== Sys2Proof/Machine/System.lean ====
section
/-! DEFINITION. The special registers (R18, R133, R140, R371, R372) with `rdsr` and `wrsr`, `trap` and `brk` (R373),
`eret` (R359), `twc` (R374) and `tlbinv` (R220). -/

namespace Sys2Proof.Machine

/-! ### Special registers -/

/-- ROLE (R133 Table 2). -/
def Ident.roleWord (id : Ident) : Nat := id.role.code + id.ridx * 2 ^ 8 + id.rcnt * 2 ^ 16

/-- SRDEPTH (R249): DEPTH − 1 of each ring declared on the issuing core. -/
def State.srdepth (s : State) (id : Ident) : Nat :=
  match s.team id.grid id.team with
  | some t => (t.rings.getD (id.t % id.cores) []).foldl (fun a r => a + (r.depth - 1) * 2 ^ (4 * r.entry.sg)) 0
  | none => 0

/-- The value that `rdsr` reads (R371), for a lane. -/
def State.sregValue (s : State) (g : Group) (r : SReg) (lane : Nat) : Nat :=
  match r with
  | .laneid => lane
  | .fibid => (g.fibid lane).toNat
  | .grpid => g.id.grpid.toNat
  | .teamid => g.id.team
  | .taskidx => g.id.taskidx.toNat
  | .role => g.id.roleWord
  | .width => g.id.width
  | .seed => g.id.seed.toNat
  | .ctxid => g.id.ctx
  | .clk => s.dev.clk
  | .bintmo => g.bintmo.toNat
  | .swaptmo => g.swaptmo.toNat
  | .fpmode => g.fpmode.toNat
  | .srdepth => s.srdepth g.id
  | .rxstat => g.stat.rxstat.toNat
  | .rxres => g.stat.rxres.toNat
  | .rxpass => g.stat.rxpass.toNat
  | .rlstat => g.stat.rlstat.toNat
  | .skstat => g.stat.skstat.toNat
  | .cstat => match s.ctx g.id.ctx with | some c => c.cstat.toNat | none => 0
  | .lqstat => (s.core g.id.core).pq.length + g.lqfull.toNat * 2 ^ 8 + g.monfull.toNat * 2 ^ 20
  | .trapcause => g.trap.cause.toNat
  | .trappc => g.trap.pc.toNat
  | .trapaddr => g.trap.addr.toNat
  | .traplanes => g.trap.lanes.toNat
  | .traplevel => g.trap.level.toNat
  | .dbgdata => g.stat.dbgdata.toNat

end Sys2Proof.Machine

namespace Sys2Proof
open Machine

/-- Registers whose value depends on timing (R15 Table 4, R371). -/
def SReg.timed : SReg → Bool
  | .clk | .srdepth | .lqstat | .cstat => true
  | _ => false

/-- The type a special register is read and written as. -/
def SReg.ty (r : SReg) : Ty := if r.wide then .n64 else .n32

/-- The register that M names (R35 Table 12). -/
def XWord.sreg (w : XWord) : SReg := (SReg.ofCode (w.m.toNat % 256)).getD .laneid

end Sys2Proof

namespace Sys2Proof.Machine

/-- What the shared checks see of `rdsr`. -/
def rdsrFront (w : XWord) : Front where
  guard := w.guard
  hints := w.hints
  ports := [.ctl]
  dsts := [(w.d, w.sreg.ty.regs)]
  nondet := fun id => id.det && (w.sreg.timed || (w.sreg = .laneid && id.bin))

/-- `rdsr` (R371). -/
def actRdsr (w : XWord) (s : State) : Act :=
  let f := rdsrFront w
  s.issue f fun c =>
    let writes := (regLanes w.d c.act).flatMap fun l => c.g.wr w.d l w.sreg.ty (s.sregValue c.g w.sreg l)
    .done ((s.modGroup c.gid fun g => g.puts writes).commit c f)

end Sys2Proof.Machine

namespace Sys2Proof
open Machine

/-- A register that may be written only in the handler (R360). -/
def SReg.handlerOnly : SReg → Bool
  | .trapcause | .trappc => true
  | _ => false

end Sys2Proof

namespace Sys2Proof.Machine

/-- What a `wrsr` stores in a group's register, field by field (R81, R115, R140, R133, R302, R360, R368). -/
def Group.writeSreg (g : Group) (r : SReg) (x : DWord) : Group :=
  let w := loWord x
  match r with
  | .bintmo => { g with bintmo := if w &&& 0xFFFF = 0 then 1 else w &&& 0xFFFF }
  | .swaptmo => { g with swaptmo := w }
  | .fpmode => { g with fpmode := fpStore w }
  | .rlstat => { g with stat := { g.stat with rlstat :=
      (x &&& 0x7FFF_FFFF_FFFF_FFFF#64) ||| (g.stat.rlstat &&& 0x8000_0000_0000_0000#64) } }
  | .lqstat => { g with lqfull := w.extractLsb' 8 12, monfull := w.extractLsb' 20 12 }
  | .trapcause => { g with trap := { g.trap with cause := (g.trap.cause &&& 0xFFFF_FEFF#32) ||| (w &&& 0x100#32) } }
  | .trappc => { g with trap := { g.trap with pc := x } }
  | .dbgdata => { g with stat := { g.stat with dbgdata := x } }
  | _ => g

/-- What the shared checks see of `wrsr`. -/
def wrsrFront (w : XWord) : Front :=
  { ctlFront w (aRegs := w.sreg.ty.regs) (body := false) with
    illop := fun g => w.sreg.handlerOnly && g.handler.isNone }

/-- `wrsr` (R371). CSTAT is the context's (R341). -/
def actWrsr (w : XWord) (s : State) : Act :=
  let f := wrsrFront w
  s.issue f fun c =>
    let x := BitVec.ofNat 64 (c.g.rd w.a 0 w.sreg.ty)
    let s := if w.sreg = .cstat then s.modCtx c.g.id.ctx fun k => { k with cstat := loWord x } else s
    .done ((s.modGroup c.gid fun g => g.writeSreg w.sreg x).commit c f)

/-! ### trap, brk and eret -/

/-- The trap of `trap` or `brk`, with INFO = M[15:0] (R373). -/
def Ctx.codeTrap (c : Ctx) (cause : Cause) (w : XWord) : Trap :=
  { c.trap cause c.act with info := BitVec.ofNat 16 (w.f 15 0) }

/-- `trap` (R373): TRAP, after commit. -/
def actTrap (w : XWord) (s : State) : Act :=
  let f := ctlFront w (body := false)
  s.issue f fun c => s.afterCommit c f (c.codeTrap .trap w)

/-- A debugger is attached to a context (R366). -/
def State.debugged (s : State) (ctx : Nat) : Bool := match s.ctx ctx with | some c => c.debugger.isSome | none => false

/-- `brk` (R373): under a debugger the group halts at it, to resume at the next instruction; else BRK, after commit. -/
def actBrk (w : XWord) (s : State) : Act :=
  let f := ctlFront w (body := false)
  s.issue f fun c =>
    if s.debugged c.g.id.ctx then
      .done ((s.standAt c f).modGroup c.gid fun g => { g with halt := some ⟨[], none, true⟩ })
    else s.afterCommit c f (c.codeTrap .brk w)

/-- Where `eret` returns (R359): after the `rxend` of the region that the trap closed when BODY is set (R327), else TRAPPC, or
the instruction after it with RESUME or SKIP. -/
def Group.eretTarget (g : Group) (skip : Bool) : DWord :=
  if g.trap.cause.getLsbD 9 then g.trap.after
  else if g.trap.cause.getLsbD 8 || skip then g.trap.pc + 12 else g.trap.pc

/-- The group's part of the return (R355, R359): the window is freed, the enables are restored, the handler batch goes on
at t, and the held batches are released. -/
def Group.leave (g : Group) (h : Handler) (t : DWord) : Group :=
  { g with
    handler := none
    fpmode := setEnables g.fpmode h.enables
    regs := g.regs.filter fun p => p.1 / 65536 != 4 && p.1 / 65536 != 5
    empty := g.empty.filter fun k => k / 65536 != 4 && k / 65536 != 5
    fibres := g.fibres.map fun f => if h.lanes.contains f.lane then { f with pc := t, held := false } else f
    wait := none
    issued := true }

/-- What the handler's instructions still have in flight goes on, but its results have no register left: the window is freed
with the handler (R355, R356). -/
def State.freeWindow (s : State) (gid core : Nat) : State :=
  let keep := fun (k : Nat) => k / 65536 != 4 && k / 65536 != 5
  let s := { s with work := { s.work with producers := s.work.producers.map fun (p : Producer) =>
    if p.gid == gid then { p with writes := p.writes.filter fun w => keep w.1 } else p } }
  if (s.core core).sfu.any (·.gid == gid) then
    s.modCore core fun k => { k with sfu := k.sfu.map fun (e : SfuEntry) =>
      if e.gid == gid then { e with writes := e.writes.filter fun w => keep w.1 } else e }
  else s

/-- RETURN FROM A TRAP (R359): `eret`. A target off the kernel's instruction starts raises ALIGN, one outside the body of an
open region RXBODY (R312). -/
def actEret (w : XWord) (s : State) : Act :=
  let f := ctlFront w (illop := fun g => g.handler.isNone)
  s.issue f fun c =>
    match c.g.handler with
    | none => .trap c.gid (c.trap .illop c.act) s
    | some h =>
      let t := c.g.eretTarget (w.f 0 0 = 1)
      match s.badTargets c (c.act.map fun l => (l, t.toNat)) with
      | some tr => .trap c.gid tr s
      | none =>
        .done (((s.freeWindow c.gid c.g.id.core).modGroup c.gid fun g =>
          (g.leave h t).settle (s.rxendOf c.gid g)).yieldIf w.hints.yld c.gid)

/-! ### twc (R374) -/

/-- The new value of a tensor write counter. -/
def twcNext (op : Nat) (old x : Word) : Word :=
  match op with
  | 0 => old
  | 1 => old + 1
  | 2 => x
  | _ => if x ≤ old then x else old

/-- What the shared checks see of `twc`. -/
def twcFront (w : XWord) : Front :=
  ctlFront w (aRegs := if 2 ≤ w.f 9 8 then 1 else 0) (dst := if w.d = .zero then [] else [(w.d, 1)]) (body := false)

/-- `twc` (R374). -/
def actTwc (w : XWord) (s : State) : Act :=
  let f := twcFront w
  s.issue f fun c =>
    let k := c.g.id.ctx
    let old := s.twc k (w.f 7 0)
    let s := s.modCtx k fun x =>
      { x with twc := smPut 0 x.twc (w.f 7 0) (twcNext (w.f 9 8) old (c.g.rdWord w.a 0)) }
    let writes := if w.d = .zero then [] else c.g.wr w.d 0 .n32 old.toNat
    .done ((s.modGroup c.gid fun g => g.puts writes).commit c f)

/-! ### tlbinv (R220) -/

/-- The 57-bit range that a `tlbinv` names: every address for n = 0, else n pages cut to canonical addresses. -/
def tlbRange (v : DWord) (n : Nat) : Nat × Nat :=
  if n = 0 then (0, 2 ^ 57)
  else
    let lo := v.toNat % 2 ^ 57 / 4096 * 4096
    (lo, min (lo + 4096 * n) (if lo < 2 ^ 56 then 2 ^ 56 else 2 ^ 57))

/-- A cached translation of a context that translates an address of a range; a merged run wholly. -/
def Tlb.covered (t : Tlb) (ctx lo hi : Nat) : Bool := t.ctx == ctx && t.va < hi && lo < t.va + t.bytes

/-- A cached non-leaf entry of a context through which an address of a range is walked. -/
def Node.covered (n : Node) (ctx lo hi : Nat) : Bool := n.ctx == ctx && n.va < hi && lo < n.va + 2 ^ (12 + 9 * n.level)

/-- The physical address that a wait reads again (R280, R286); a `skpeel` reads its record once more after its wake (R350). -/
def Wait.readsAt : Wait → List Nat
  | .word x _ => if x.woke.isNone || x.peel then [x.pa] else []
  | .push obj _ _ false | .pop obj _ _ none false _ => [obj]
  | .future lanes _ _ _ => (lanes.filter (·.got.isNone)).map (·.pa)
  | _ => []

/-- An access of the context that may have been translated by a removed entry has neither performed nor been refused: any
entry of T_c, Q_ch, F or H, and an ordered atomic, an engine operation, a copy, a collective, an exchange, a packet of a
copy port or a wait that reads again, with a line in a removed frame. -/
def State.usesEntries (s : State) (ctx : Nat) (gone : List Tlb) : Bool :=
  let inside := fun (pa : Nat) => gone.any fun t => t.pa ≤ pa && pa < t.pa + t.bytes
  !gone.isEmpty &&
  (s.order.tc.any (fun w => w.ctx == ctx) || (s.order.qch.any fun q => q.2.any fun a => a.ctx == ctx) ||
   s.order.reds.any (fun r => r.ctx == ctx) || s.order.h.any (fun a => a.ctx == ctx) ||
   s.work.tickets.any (fun t => t.ctx == ctx && t.lanes.any fun l => !l.st.ended && inside l.pa) ||
   s.cores.any (fun k => k.2.engine.ops.any fun o => o.ctx == ctx && (o.srcLines ++ o.dstLines).any fun l => inside (128 * l)) ||
   s.work.copies.any (fun c => c.ctx == ctx && c.dstLines.any fun l => inside (128 * l)) ||
   s.work.exchanges.any (fun x => x.ctx == ctx && inside x.pa) ||
   s.work.ports.any (fun p => p.ctx == ctx && inside p.header) ||
   s.grids.any (fun p => p.2.ctx == ctx && match p.2.coll with
     | some c => (c.dst.getD []).any fun l => inside (128 * l.1)
     | none => false) ||
   s.groups.any fun p => p.2.id.ctx == ctx && match p.2.wait with | some w => w.readsAt.any inside | none => false)

/-- What the shared checks see of `tlbinv`. -/
def tlbinvFront (w : XWord) : Front :=
  { ctlFront w (body := false) with srcs := [⟨w.a, 2, w.hints.tea, w.hints.lua⟩, ⟨w.b, 1, w.hints.teb, w.hints.lub⟩] }

/-- `tlbinv` (R220). -/
def actTlbinv (w : XWord) (s : State) : Act :=
  let f := tlbinvFront w
  s.issue f fun c =>
    let v := c.g.rdDWord w.a 0
    if !canonical v then .trap c.gid (c.trap .addr c.act v) s
    else if !s.released c.gid .device then .wait s
    else
      let (lo, hi) := tlbRange v (c.g.rd w.b 0 .n32)
      let gone := s.order.tlb.filter fun t => t.covered c.g.id.ctx lo hi
      if s.usesEntries c.g.id.ctx gone then .wait s
      else .done ({ s with order := { s.order with
        tlb := s.order.tlb.filter fun t => !t.covered c.g.id.ctx lo hi
        nodes := s.order.nodes.filter fun n => !n.covered c.g.id.ctx lo hi } }.commit c f)

/-! ### The meanings, one for each instruction and event -/

/-- `RDSR` (R371). -/
def execRdsr (w : XWord) (s : State) : Host.Outcome State Fault Refusal := finish (actRdsr w s)

/-- `WRSR` (R371). -/
def execWrsr (w : XWord) (s : State) : Host.Outcome State Fault Refusal := finish (actWrsr w s)

/-- `TRAP` (R373). -/
def execTrap (w : XWord) (s : State) : Host.Outcome State Fault Refusal := finish (actTrap w s)

/-- `ERET` (R359). -/
def execEret (w : XWord) (s : State) : Host.Outcome State Fault Refusal := finish (actEret w s)

/-- `BRK` (R373). -/
def execBrk (w : XWord) (s : State) : Host.Outcome State Fault Refusal := finish (actBrk w s)

/-- `TWC` (R374). -/
def execTwc (w : XWord) (s : State) : Host.Outcome State Fault Refusal := finish (actTwc w s)

/-- `TLBINV` (R220). -/
def execTlbinv (w : XWord) (s : State) : Host.Outcome State Fault Refusal := finish (actTlbinv w s)

end Sys2Proof.Machine
end

