-- ==== Sys2Proof/Machine/Moves.lean ====
section
/-! DEFINITION. The free moves of the memory order (R256-R261), the host's accesses and the bias table (R99, R100), and
the accesses that the device scheduler and the engines make for a context (R216, R221, R238). -/

namespace Sys2Proof.Machine

/-! ### Accesses that a unit makes for a context -/

/-- The device runs: it has power and is not held in reset (R391). -/
def State.awake (s : State) : Bool := s.dev.powered && !s.dev.inReset

/-- What a unit's access answers; `blocked` says that it must wait, and then its state keeps only the contexts that have met an
error (R389) and the refusals. -/
inductive UnitRes where
  | ok (s : State) (bytes : List Byte)
  | fault (s : State) (cause : Cause) (level : Nat)
  | blocked (s : State)

/-- What an attempt at a move answers: it is made, or held back. -/
inductive Try where
  | made (s : State)
  | held (s : State)

/-- The state after an attempt: a move that is held back leaves all as it was, but the contexts that have met an error and the
refusals. -/
def Try.after (t : Try) (s : State) : State :=
  match t with
  | .made s' => s'
  | .held s' => s.doomsOf s'

/-- One attempt after another. -/
def Try.next (t : Try) (f : State → Try) : Try :=
  match t with
  | .made s => f s
  | .held s => .held s

/-- The translation of a unit's access, made with the context's table and master id (R216, R221). -/
def State.unitWalk (s : State) (ctx : Nat) (va : DWord) (n : Nat) (k : Kind) : Walk :=
  if canonical va then s.access ctx va.toNat n k false else .fault s .addr 7

/-- A unit's access to a memory-side line waits for the accesses in its channel's queue (R223, R258), unless the first of them
waits for a line that the same unit holds (log 72). -/
def State.barred (s : State) (a : Agent) (pa mt : Nat) : Bool :=
  match s.pathOf .global pa mt .device, smGet [] s.order.qch (channelOf pa) with
  | .qch, x :: _ => !(match a with
      | .unit id => s.holds.any fun h => h.id == id && (linesOf x.pa x.bytes).any fun l => h.dst.contains l || h.src.contains l
      | _ => false)
  | _, _ => false

/-- An access of a unit, as one move in M (R255): it reads n bytes, then writes what `f` makes of them. The target checks it as
the context's (R221, R222); a page reached through MT 11 flips (R100). -/
def State.unitAccess (s : State) (a : Agent) (ctx : Nat) (va : DWord) (n : Nat) (k : Kind) (f : List Byte → Option (List Byte)) :
    UnitRes :=
  match s.unitWalk ctx va n k with
  | .blocked s => .blocked s
  | .fault s c l => .fault s c l
  | .ok s' t =>
    let pa := t.addr (va.toNat % 2 ^ 57)
    let tg := s'.targetAt pa t.mt
    if s'.blockedFor a pa n k.writes || s'.barred a pa t.mt then .blocked s
    else if !s'.allowed tg ctx pa n k then .fault (s'.refuse tg ctx pa k) .access 5
    else if k.reads && s'.poisoned pa n then .blocked (s.doom ctx)
    else
      let s := (if t.mt == 3 then s'.flip pa else s').settle pa n
      let b := s.readBytes pa n
      match f b with
      | some x => .ok (s.writeM pa x) b
      | none => .ok s b

/-- A unit's read. -/
def State.unitRead (s : State) (a : Agent) (ctx : Nat) (va : DWord) (n : Nat) : UnitRes :=
  s.unitAccess a ctx va n .read fun _ => none

/-- A unit's write. -/
def State.unitWrite (s : State) (a : Agent) (ctx : Nat) (va : DWord) (x : List Byte) : UnitRes :=
  s.unitAccess a ctx va x.length .write fun _ => some x

/-- A unit's device-scope atomic add on 8 bytes, which must be aligned. -/
def State.unitAdd (s : State) (a : Agent) (ctx : Nat) (va : DWord) (x : Nat) : UnitRes :=
  if va.toNat % 8 != 0 then .fault s .align 7
  else s.unitAccess a ctx va 8 .both fun b => some (leOf 8 ((leVal b + x) % 2 ^ 64))

/-- A 64-bit field at a physical address, as a unit reads it. -/
def State.phys8 (s : State) (pa : Nat) : Nat := leVal (s.readBytes pa 8)

/-- A move of the unit that serves a queue, on the queue's 64-byte header, made for a context and under its id (R102, R221, R233): it
waits while the header's line is held; its target checks it, and logs what it refuses (R222), and then `no` follows; a header that
carries an uncorrectable error ends the context (R389); what comes before in the paths of the line performs (R257), and `f`
follows. -/
def State.onHeader (s : State) (ctx header : Nat) (no f : State → Try) : Try :=
  let tg := s.targetAt header 0
  if s.blocked header 64 true then .held s
  else if !s.allowed tg ctx header 64 .both then no (s.refuse tg ctx header .both)
  else if s.poisoned header 64 then .held (s.doom ctx)
  else f (s.settle header 64)

/-! ### The moves (R256-R261) -/

/-- A T_c write must wait for a line that is taken (R260), or that the body of an open region has read, unless a participant made
the write (R313). -/
def State.tcWaits (s : State) (w : TcWrite) : Bool :=
  let maker := match w.gids with | g :: _ => Agent.group g w.ord | [] => .other
  (linesOf w.pa w.bytes.length).any fun l => s.takenFor .other l || s.regionHeld maker l

/-- TC_DRAIN (R256): the oldest write of a line moves from a core's T_c into M. -/
def tcMove (core line : Nat) (s : State) : State :=
  match s.order.tc.findIdx? fun w => w.core == core && lineOf w.pa == line with
  | none => s
  | some i =>
    match s.order.tc[i]? with
    | none => s
    | some w =>
      if s.tcWaits w then s
      else State.landWrite { s with order := { s.order with tc := s.order.tc.eraseIdx i } } w

/-- A queued access must wait for a line (R196, R260, R313). -/
def State.accessWaits (s : State) (a : Access) : Bool := s.blockedFor (.group a.gid a.ord) a.pa a.bytes a.kind.kind.writes

/-- A queued access would deliver a value that carries an uncorrectable error (R389). -/
def State.accessBad (s : State) (a : Access) : Bool := a.kind.kind.reads && s.poisoned a.pa a.bytes

/-- A `red` in flight must wait for its line. -/
def State.redWaits (s : State) (r : RedInFlight) : Bool := s.blockedFor (.group r.gid r.ord) r.pa r.bytes true

/-- A `red` in flight joins the partial of its core, unless its target refuses it by now (R222). -/
def State.performRed (s : State) (r : RedInFlight) : State :=
  if s.redRefused r then s.refuse .slice r.ctx r.pa .both else s.accumulateRed r

/-- QCH_PERFORM (R258): the head of a channel's queue performs in M. -/
def qchMove (ch : Nat) (s : State) : State :=
  match smGet [] s.order.qch ch with
  | [] => s
  | a :: rest =>
    if s.accessWaits a then s
    else if s.accessBad a then s.doom a.ctx
    else State.performAccess { s with order := { s.order with qch := smPut [] s.order.qch ch rest } } .hbm a

/-- RED_ACCUMULATE (R259): a `red` in flight joins the partial of its logical core, unless its target refuses it by now
(R222). -/
def redMove (i : Nat) (s : State) : State :=
  match s.order.reds[i]? with
  | none => s
  | some r =>
    if s.redWaits r then s
    else State.performRed { s with order := { s.order with reds := s.order.reds.eraseIdx i } } r

/-- H_PERFORM (R261): an entry of H with no older entry of its core for its line performs in M. -/
def hMove (i : Nat) (s : State) : State :=
  match s.order.h[i]? with
  | none => s
  | some a =>
    if (s.order.h.take i).any (fun b => b.core == a.core && lineOf b.pa == lineOf a.pa) || s.accessWaits a then s
    else if s.accessBad a then s.doom a.ctx
    else State.performAccess { s with order := { s.order with h := s.order.h.eraseIdx i } } .port a

/-! ### Emptying a context's paths (R117, R268) -/

/-- The entries of H that stand in a context's way: its own, and those of the same core for the same line (R261). -/
def State.hostPathOf (s : State) (ctx : Nat) : List Access :=
  s.order.h.filter fun a => s.order.h.any fun b => b.ctx == ctx && b.core == a.core && lineOf b.pa == lineOf a.pa

/-- A line on which nothing moves while some context does not run: one that an operation of its own holds (R198), or that the body
of its region has read (R313). -/
def State.frozen (s : State) (line : Nat) : Bool :=
  (s.engineOps.any fun o => !s.running o.ctx && (o.srcLines.contains line || o.dstLines.contains line)) ||
  s.teams.any fun t => !s.running t.ctx && match t.region with | some r => r.st == .opened && r.heldLines.contains line | none => false

/-- An access on one of a context's paths must wait for a line; in a channel's queue, one before the context's last one
too. One that waits for a `frozen` line is `left` in its path (log 92), and does not count. -/
def State.ctxBlocked (s : State) (ctx : Nat) (left : Bool) : Bool :=
  let counts := fun (pa n : Nat) => !(left && (linesOf pa n).any s.frozen)
  s.order.tc.any (fun w => w.ctx == ctx && s.tcWaits w && counts w.pa w.bytes.length) ||
  (s.order.qch.any fun q => q.2.any (·.ctx == ctx) && q.2.any fun a => s.accessWaits a && counts a.pa a.bytes) ||
  s.order.reds.any (fun r => r.ctx == ctx && s.redWaits r && counts r.pa r.bytes) ||
  (s.hostPathOf ctx).any fun a => s.accessWaits a && counts a.pa a.bytes

/-- A context's queued access would deliver a value that carries an uncorrectable error (R389). -/
def State.ctxBad (s : State) (ctx : Nat) : Bool :=
  (s.order.qch.any fun q => q.2.any fun a => a.ctx == ctx && s.accessBad a) ||
  (s.hostPathOf ctx).any s.accessBad

/-- Perform a channel's queue until it holds no access of a context. -/
def State.flushChannel (s : State) (ctx ch : Nat) : Nat → State
  | 0 => s
  | n + 1 => if (smGet [] s.order.qch ch).any (·.ctx == ctx) then (qchMove ch s).flushChannel ctx ch n else s

/-- Perform entries of H in their order, each when it may be performed. -/
def State.flushHost : List Access → State → State
  | [], s => s
  | a :: rest, s => State.flushHost rest (match s.order.h.idxOf? a with | some i => hMove i s | none => s)

/-- The moves that empty a context's T_c writes, Q_ch entries, reds in flight and H entries, unless one must wait. At a save, one
that must wait for a `frozen` line is `left` where it is. -/
def State.flushCtx (s : State) (ctx : Nat) (left : Bool := false) : Try :=
  if s.ctxBlocked ctx left then .held s
  else if s.ctxBad ctx then .held (s.doom ctx)
  else
    let s := (s.order.tc.filter fun w => w.ctx == ctx && !s.tcWaits w).foldl (fun s w => s.drainLine (lineOf w.pa)) s
    let s := s.order.qch.foldl (fun s q => s.flushChannel ctx q.1 q.2.length) s
    let mine := fun (r : RedInFlight) => r.ctx == ctx && !s.redWaits r
    let s' := { s with order := { s.order with reds := s.order.reds.filter (!mine ·) } }
    let s := (s.order.reds.filter mine).foldl (fun s r => s.performRed r) s'
    .made (State.flushHost (s.hostPathOf ctx) s)

/-! ### The host (R99-R101) -/

/-- What a host access does. -/
def hostKind : HostOp → Kind
  | .load => .read
  | .store => .write
  | .amo _ => .both

/-- A host access to n bytes at pa is granted: host memory, or what the port's master id may reach (R99, R221); none writes the
journal (R388). -/
def State.hostMay (s : State) (master pa n : Nat) (k : Kind) : Bool :=
  (s.hostMem pa || s.allowed .port master pa n k) && !(k.writes && inJournal pa n)

/-- HOST_ACCESS (R99-R101, R257): a load, a store or a locked read-modify-write of an operation of R271, on a port with the
host personality, under the port's master id (log 68); a device-bias page flips to host bias. A refused access is logged
(R222). -/
def hostMove (r : HostReq) (s : State) : State :=
  match s.dev.prov.ports.find? fun p => p.1 == r.port with
  | none => s
  | some (_, master) =>
    let k := hostKind r.op
    let cut := fun (x : DWord) => x.toNat % 2 ^ (8 * r.bytes)
    if !([1, 2, 4, 8].contains r.bytes) || r.pa % r.bytes != 0 || 2 ^ 51 ≤ r.pa || s.blocked r.pa r.bytes k.writes then s
    else if !s.hostMay master r.pa r.bytes k then
      s.refuse .port master r.pa k
    else
      let s := if s.hostMem r.pa then s else s.flip r.pa
      match r.op with
      | .load => (s.performRead r.pa r.bytes).2
      | .store => s.performWrite r.pa (leOf r.bytes r.value.toNat)
      | .amo aop => (s.performRmw aop r.pa r.bytes (cut r.value) (cut r.cmp)).2

/-- BIAS_SET_REQUEST (R100): the page returns to device bias. -/
def biasMove (frame : Nat) (s : State) : State :=
  { s with dev := { s.dev with bias := keyDel s.dev.bias frame } }

/-! ### The meanings, one for each instruction and event -/

/-- TC_DRAIN (R256). -/
def execTcDrain (core : Nat) (line : Nat) (s : State) : Host.Outcome State Fault Refusal :=
  .next (tcMove core line s)

/-- QCH_PERFORM (R258). -/
def execQchPerform (channel : Nat) (s : State) : Host.Outcome State Fault Refusal :=
  .next (qchMove channel s)

/-- RED_ACCUMULATE (R259). -/
def execRedAccumulate (index : Nat) (s : State) : Host.Outcome State Fault Refusal :=
  .next (redMove index s)

/-- H_PERFORM (R261). -/
def execHPerform (index : Nat) (s : State) : Host.Outcome State Fault Refusal :=
  .next (hMove index s)

/-- HOST_ACCESS (R99, R100). -/
def execHostAccess (req : HostReq) (s : State) : Host.Outcome State Fault Refusal :=
  .next (hostMove req s)

/-- BIAS_SET_REQUEST (R100). -/
def execBiasSetRequest (frame : Nat) (s : State) : Host.Outcome State Fault Refusal :=
  .next (biasMove frame s)

end Sys2Proof.Machine
end

