-- ==== Sys2Proof/Machine/Launch.lean ====
section
/-! DEFINITION. Launching (R99-R118): `launch` and the pending-launch queues, launch queues and their takes, the checks of
a launch record, the retirement of a grid and completion records. -/

namespace Sys2Proof.Machine

/-! ### Records (R105 Table 4, R334 Table 1) -/

/-- A field of some bytes, little-endian. -/
def leField (b : List Byte) (o n : Nat) : Nat := leVal ((b.drop o).take n)

/-- The fields of a launch record (R105 Table 4). -/
def LaunchRec.ofBytes (b : List Byte) : LaunchRec :=
  let d := fun (o : Nat) => BitVec.ofNat 64 (leField b o 8)
  { kdesc := d 0, args := d 8, gx := BitVec.ofNat 32 (leField b 0x10 4), gy := BitVec.ofNat 16 (leField b 0x14 2)
    gz := BitVec.ofNat 16 (leField b 0x16 2), seed := d 0x18, succ := d 0x20, coll := d 0x28
    bx := BitVec.ofNat 32 (leField b 0x30 4), by_ := BitVec.ofNat 16 (leField b 0x34 2)
    bz := BitVec.ofNat 16 (leField b 0x36 2), flags := BitVec.ofNat 16 (leField b 0x38 2)
    prio := BitVec.ofNat 8 (leField b 0x3A 1) }

/-- CLASS of a record. -/
def LaunchRec.cls (r : LaunchRec) : Nat := r.flags.toNat / 4 % 4

/-- Groups (teams) of a record (R106). -/
def LaunchRec.total (r : LaunchRec) : Nat := r.gx.toNat * r.gy.toNat * r.gz.toNat

/-- Steps 1 to 3 of R107: BADREC. -/
def badRec (b : List Byte) (r : LaunchRec) : Bool :=
  (b.drop 0x3B).any (· != 0) || 16 ≤ r.flags.toNat || r.cls = 3 || r.succ.toNat % 8 != 0 || r.coll.toNat % 64 != 0 ||
  2 ^ 32 < r.bx.toNat + r.gx.toNat || 65536 < r.by_.toNat + r.gy.toNat || 65536 < r.bz.toNat + r.gz.toNat ||
  2 ^ 32 ≤ r.total

/-- The fields of a collective descriptor (R334 Table 1), when its element type is one of codes 0 to 5. -/
def CollDesc.ofBytes (b : List Byte) : Option CollDesc :=
  match Ty.ofCode (leField b 2 1) with
  | none => none
  | some t =>
    let d := fun (o : Nat) => BitVec.ofNat 64 (leField b o 8)
    some { kind := leField b 0 1, rop := leField b 1 1, ety := t, tbc := leField b 3 1, root := leField b 4 2, src := d 8
           dst := d 0x10, count := leField b 0x18 8, event := d 0x20, timeout := leField b 0x28 4
           anchor := sextNat (leField b 0x2C 2 % 2048) 11 }

/-- A reduce operator accepts a type (R334 Table 2). -/
def ropOk (rop : Nat) (t : Ty) : Bool :=
  if rop = 0 || (3 ≤ rop && rop ≤ 5) || rop = 9 || rop = 10 then t.isInt
  else if rop = 1 || rop = 2 then true
  else (rop = 11 || rop = 12) && t.isFloat

/-- The checks of R334 Table 1. -/
def CollDesc.ok (d : CollDesc) (b : List Byte) (ranks : Nat) : Bool :=
  let e := d.ety.width / 8
  1 ≤ d.kind && d.kind ≤ 4 && leField b 2 1 ≤ 5 && d.tbc ≤ 7 &&
  (if d.kind ≤ 2 then ropOk d.rop d.ety else d.rop = 0) &&
  (if d.kind = 2 || d.kind = 3 then d.root < ranks else d.root = 0) &&
  leField b 6 2 = 0 && d.src.toNat % e = 0 && 1 ≤ d.count && d.count ≤ 2 ^ 32 &&
  d.event.toNat % 8 = 0 && leField b 0x2C 2 < 2048 && (b.drop 0x2E).all (· = 0)

/-! ### Completion records (R118) -/

/-- Completion statuses (R118 Table 8). -/
inductive Status where
  | ok | badKdesc | badRec | trapped | collFail | succFault | qFault
  deriving DecidableEq, Repr

@[inherit_doc Status] def Status.code : Status → Nat
  | .ok => 0 | .badKdesc => 1 | .badRec => 2 | .trapped => 3 | .collFail => 4 | .succFault => 5 | .qFault => 6

/-- A completion record (R118 Table 8). -/
structure Completion where
  recaddr : DWord
  serial : Word
  status : Status
  source : BitVec 16
  origin : DWord
  groups : Nat
  deriving DecidableEq, Repr

/-- Its 32 bytes. -/
def Completion.bytes (c : Completion) : List Byte :=
  leOf 8 c.recaddr.toNat ++ leOf 4 c.serial.toNat ++ leOf 2 c.status.code ++ leOf 2 c.source.toNat ++ leOf 8 c.origin.toNat ++
  leOf 4 c.groups ++ leOf 4 0

/-- COMPLETION_APPEND (R118): the record goes into slot WRITE, or OVERFLOW counts it. It waits while a line of the queue is
held. A record whose slot cannot be written, or whose header the target refuses, is lost, and WRITE stays (log 88). -/
def State.complete (s : State) (ctx : Nat) (c : Completion) : Try :=
  match (s.ctx ctx).bind (·.completion) with
  | none => .made s
  | some q =>
    s.onHeader ctx q.header .made fun s =>
      let w := s.phys8 (q.header + 8)
      if (w + 2 ^ 64 - s.phys8 (q.header + 16)) % 2 ^ 64 = 2 ^ q.log2 then
        .made (s.performWrite (q.header + 0x28) (leOf 8 ((s.phys8 (q.header + 0x28) + 1) % 2 ^ 64)))
      else
        match s.unitWrite .other ctx (q.ring + BitVec.ofNat 64 (32 * (w % 2 ^ q.log2))) c.bytes with
        | .ok s _ => .made (s.performWrite (q.header + 8) (leOf 8 ((w + 1) % 2 ^ 64)))
        | .fault s _ _ => .made s
        | .blocked s => .held s

/-- The decrement of SUCC (R117 step 2), then what follows, which is told whether it faulted. It waits while its line is
held. -/
def State.decSucc (s : State) (ctx : Nat) (succ : DWord) (k : Bool → State → Try) : Try :=
  if succ = 0 then k false s
  else match s.unitAdd .other ctx succ (2 ^ 64 - 1) with
    | .ok s _ => k false s
    | .fault s _ _ => k true s
    | .blocked s => .held s

/-- Steps 2 and 3 of R117, with the order of statuses of R118. -/
def State.retireWith (s : State) (ctx : Nat) (succ : DWord) (c : Completion) : Try :=
  s.decSucc ctx succ fun bad s => s.complete ctx (if bad && c.status = .ok then { c with status := .succFault } else c)

/-! ### Taking a record (R104, R107, R108, R114) -/

/-- A record that was taken, with where it came from. -/
structure Taken where
  ctx : Nat
  bytes : List Byte
  serial : Word
  recaddr : DWord
  source : BitVec 16
  origin : DWord
  deriving DecidableEq, Repr

/-- The kernel that a context registered under an address (R71). -/
def Context.kernel (c : Context) (addr : DWord) : Option Kernel :=
  c.images.findSome? fun i => if i.withdrawn then none else i.kernels.find? fun k => BitVec.ofNat 64 k.addr = addr

/-- What the capture of some text answers. -/
inductive TextRead where
  | ok (s : State) (b : List Byte)
  | blocked (s : State)

/-- The text of a kernel at the take (R21), page by page (log 13): what comes before it in the paths of its lines performs, and
it waits for lines that are held. The walk leaves no mark. -/
def State.captureText (s : State) (ctx lo : Nat) : Nat → Nat → TextRead
  | 0, _ => .ok s []
  | _ + 1, 0 => .ok s []
  | fuel + 1, n + 1 =>
    let m := min (n + 1) (4096 - lo % 4096)
    let rest := fun (s : State) (b : List Byte) => match s.captureText ctx (lo + m) fuel (n + 1 - m) with
      | .ok s b' => TextRead.ok s (b ++ b')
      | .blocked s => .blocked s
    match s.walkRoot ctx (lo % 2 ^ 57) .read false with
    | .blocked s' => .blocked s'
    | .fault _ _ _ => rest s ((List.range m).map fun i => Config.freeText s.sched.fresh (lo + i))
    | .ok _ t =>
      let pa := t.addr (lo % 2 ^ 57)
      if s.blocked pa m false then .blocked s
      else if s.poisoned pa m then .blocked (s.doom ctx)
      else
        let s := s.settle pa m
        rest s (s.readBytes pa m)

/-- What the reading of a record's collective descriptor answers (R107 step 5). -/
inductive CollRead where
  | absent
  | bad (s : State)
  | ok (d : CollDesc) (s : State)
  | blocked (s : State)

@[inherit_doc CollRead] def State.readColl (s : State) (ctx : Nat) (coll : DWord) : CollRead :=
  if coll = 0 then .absent
  else match (s.ctx ctx).bind (·.domain) with
    | none => .bad s
    | some d =>
      match s.unitRead .other ctx coll 64 with
      | .ok s b =>
        match CollDesc.ofBytes b with
        | some x => if x.ok b (d.gx * d.gy * d.gz) then .ok x s else .bad s
        | none => .bad s
      | .fault s _ _ => .bad s
      | .blocked s => .blocked s

/-- A collective before it starts. -/
def Coll.start (d : CollDesc) : Coll :=
  { id := none, desc := d, started := false, src := [], srcLines := [], vals := none, taken := [], early := [], gathered := []
    result := none, dst := none, finished := false, failed := false, since := 0, last := 0 }

/-- The messages that came for a collective before its record was taken (R338). -/
def State.earlyFor (s : State) (id : Nat) : List (Nat × RankMsg) :=
  (s.work.early.filter (·.1 == id)).map fun x => (x.2.port, x.2.msg)

/-- A record that passed every check is released to placement: a new grid, with its descriptor and text as captured (R21,
R71) and its effective mode (R14). -/
def State.release (s : State) (t : Taken) (k : Kernel) (coll : Option CollDesc) : Try :=
  let r := LaunchRec.ofBytes t.bytes
  match s.captureText t.ctx k.textLo (k.textLen / 4096 + 2) k.textLen with
  | .blocked s => .held s
  | .ok s text =>
    let (id, s) := s.newId
    let g : Grid :=
      { ctx := t.ctx, serial := t.serial, recaddr := t.recaddr, source := t.source, origin := t.origin, record := r
        kernel := k, text := text, det := k.det || r.flags.getLsbD 0, order := id, admitted := [], homes := []
        started := false, groups := 0, trapped := false, collFail := false
        coll := coll.map fun d => { Coll.start d with early := s.earlyFor id } }
    .made { s with grids := smSet s.grids id g, work := { s.work with early := s.work.early.filter (·.1 != id) } }

/-- LAUNCH_RECORD_CHECK (R107): a failing record retires at once; else its grid is released to placement. It waits
while a line that the take needs is held. -/
def State.take (s : State) (t : Taken) : Try :=
  let r := LaunchRec.ofBytes t.bytes
  let done := fun (s : State) (st : Status) => s.retireWith t.ctx r.succ ⟨t.recaddr, t.serial, st, t.source, t.origin, 0⟩
  if badRec t.bytes r then done s .badRec
  else match (s.ctx t.ctx).bind (·.kernel r.kdesc) with
    | none => done s .badKdesc
    | some k =>
      match s.readColl t.ctx r.coll with
      | .blocked s => .held s
      | .bad s => done s .collFail
      | .absent => if r.total = 0 then done s .ok else s.release t k none
      | .ok d s => if r.total = 0 then done s .ok else s.release t k (some d)

/-! ### Which record is taken next (R104, R109) -/

/-- A head ready to be taken: its rank (CLASS, PRIO, host queues first, queue number or core), and where it stands. -/
structure Head where
  rank : List Nat
  ctx : Nat
  queue : Option Nat
  core : Nat
  deriving DecidableEq, Repr

/-- Lexicographic order. -/
def lexLt : List Nat → List Nat → Bool
  | [], [] => false
  | [], _ :: _ => true
  | _ :: _, [] => false
  | a :: as, b :: bs => a < b || (a = b && lexLt as bs)

/-- The rank of a record (R109): smaller is taken first. -/
def headRank (b : List Byte) (pending : Nat) (n : Nat) : List Nat :=
  let r := LaunchRec.ofBytes b
  [65536 - (r.cls * 256 + r.prio.toNat), pending, n]

/-- The entries of a queue that are published and not taken, as its header stands in M. -/
def State.queueCount (s : State) (q : Queue) : Nat := (s.phys8 (q.header + 8) + 2 ^ 64 - s.phys8 (q.header + 16)) % 2 ^ 64

/-- The same, once the accesses before have performed on its header (R257). -/
def State.settledCount (s : State) (q : Queue) : Nat := (s.settle q.header 64).queueCount q

/-- The address of slot n of a queue whose slots have 64 bytes (R102). -/
def Queue.slot (q : Queue) (n : Nat) : DWord := q.ring + BitVec.ofNat 64 (64 * (n % 2 ^ q.log2))

/-- The heads of the launch queues. A slot whose read fails, or whose header the target refuses, is never taken (log 73). -/
def State.queueHeads (s : State) : List Head :=
  s.ctxs.flatMap fun p =>
    if p.2.run != .running then []
    else (p.2.queues.filter fun q => !q.copy && !q.faulted).filterMap fun q =>
      let s := s.settle q.header 64
      if s.allowed (s.targetAt q.header 0) p.1 q.header 64 .both && 0 < s.queueCount q && s.queueCount q ≤ 2 ^ q.log2 then
        match s.unitRead .other p.1 (q.slot (s.phys8 (q.header + 16))) 64 with
        | .ok _ b => some ⟨headRank b 0 q.num, p.1, some q.num, 0⟩
        | _ => none
      else none

/-- The heads of the pending-launch queues. -/
def State.pendingHeads (s : State) : List Head :=
  s.cores.filterMap fun p => match p.2.pq with
    | [] => none
    | x :: _ => if s.running x.ctx then some ⟨headRank x.record 1 p.1, x.ctx, none, p.1⟩ else none

/-- The head with the smallest rank; of two equal ones, which can only be of two contexts or of two partitions, the first
listed (log 89). -/
def bestHead : List Head → Option Head
  | [] => none
  | h :: rest => some (rest.foldl (fun a x => if lexLt x.rank a.rank then x else a) h)

/-- The record that the scheduler takes next. -/
def State.nextHead (s : State) : Option Head := bestHead (s.queueHeads ++ s.pendingHeads)

/-- Change a queue of a context. -/
def State.modQueue (s : State) (ctx num : Nat) (copy : Bool) (f : Queue → Queue) : State :=
  s.modCtx ctx fun c => { c with queues := c.queues.map fun q => if q.num == num && q.copy == copy then f q else q }

/-- A registered queue. -/
def State.queue (s : State) (ctx num : Nat) (copy : Bool) : Option Queue :=
  (s.ctx ctx).bind fun c => c.queues.find? fun q => q.num == num && q.copy == copy

/-- The fault of an overfull queue (R104): nothing more is taken from it, and one completion record says QFAULT. -/
def State.queueFault (s : State) (ctx : Nat) (q : Queue) : Try :=
  (s.modQueue ctx q.num q.copy fun q => { q with faulted := true }).complete ctx
    ⟨0, 0, .qFault, BitVec.ofNat 16 q.num, BitVec.ofNat 64 (s.phys8 (q.header + 16)), 0⟩

/-- LAUNCH_QUEUE_TAKE (R104, R107-R109). -/
def takeQueue (ctx num : Nat) (s0 : State) : State :=
  match s0.queue ctx num false with
  | none => s0
  | some q =>
    if q.faulted || !s0.running ctx then s0
    else (s0.onHeader ctx q.header .held fun s =>
      if 2 ^ q.log2 < s.queueCount q then s.queueFault ctx q
      else if (s.nextHead.map fun h => (h.ctx, h.queue)) != some (ctx, some num) then .held s0
      else
        let n := s.phys8 (q.header + 16)
        match s.unitRead .other ctx (q.slot n) 64 with
        | .ok s b =>
          (s.performWrite (q.header + 16) (leOf 8 ((n + 1) % 2 ^ 64))).take
            ⟨ctx, b, BitVec.ofNat 32 n, q.slot n, BitVec.ofNat 16 num, BitVec.ofNat 64 n⟩
        | .fault s _ _ => .held s
        | .blocked s => .held s).after s0

/-- PENDING_LAUNCH_TAKE (R109, R114). -/
def takePending (core : Nat) (s : State) : State :=
  match (s.core core).pq with
  | [] => s
  | x :: rest =>
    if (s.nextHead.map fun h => (h.queue, h.core)) != some (none, core) then s
    else
      ((s.modCore core fun c => { c with pq := rest }).take
        ⟨x.ctx, x.record, x.serial, x.recaddr, 0xFFFF, BitVec.ofNat 64 (x.grpid.toNat + x.lc.toNat * 2 ^ 32)⟩).after s

/-- A host access flips the page of device memory that it reaches (R100). -/
def State.hostFlip (s : State) (pa : Nat) : State := if s.hostMem pa then s else s.flip pa

/-- HOST_APPEND (R103): the five steps of one appender as one move, when nothing stands in their way: on a port with the host
personality, under the port's master id (R99), for a queue of a context whose slot its tables place. -/
def hostPut (port ctx num : Nat) (copy : Bool) (record : List Byte) (s0 : State) : State :=
  match s0.dev.prov.ports.find? (fun p => p.1 == port), s0.queue ctx num copy with
  | some (_, master), some q =>
    let s := s0.settle q.header 64
    let n := s.phys8 q.header
    let full := 2 ^ q.log2 ≤ (n + 2 ^ 64 - s.phys8 (q.header + 16)) % 2 ^ 64
    if record.length != 64 || full || s.phys8 (q.header + 8) != n || !canonical (q.slot n) then s0
    else match s.translate ctx (q.slot n).toNat .read false with
      | .ok s t =>
        let pa := t.addr ((q.slot n).toNat % 2 ^ 57)
        if s.blocked pa 64 true || s.blocked q.header 64 true then s0
        else if !s.hostMay master q.header 64 .both then s0.refuse .port master q.header .both
        else if !s.hostMay master pa 64 .write then s0.refuse .port master pa .write
        else
          let next := leOf 8 ((n + 1) % 2 ^ 64)
          let s := (s.hostFlip q.header).hostFlip pa
          ((s.performWrite q.header next).performWrite pa record).performWrite (q.header + 8) next
      | .fault _ _ _ => s0
      | .blocked s => s0.doomsOf s
  | _, _ => s0

/-! ### launch (R112-R114) -/

/-- `launch` (R113): D is empty from issue, also while it parks at a full queue; a fault of the load gives D back. -/
def actLaunch (w : MWord) (s : State) : Act :=
  let f := MOp.front .launch w (resumes := true)
  s.issue f fun c =>
    let els := c.objects w true 64 64
    match s.failAct c true (addrFails 0 1 els ++ alignFails els) with
    | some a => a
    | none =>
      let due := c.g.wait.bind Wait.due
      if !s.released c.gid .device then .wait s
      else if 4 ≤ (s.core c.g.id.core).pq.length then
        match due with
        | some d => s.parkIn c.gid (.launch false d)
        | none =>
          let s := s.modGroup c.gid fun g => { g with lqfull := countUp g.lqfull }
          let (d, s) := s.owe c f (c.g.keys w.d 1 [0])
          .park (s.parkAt c f (.launch false d))
      else
        match s.resolveNow c .global w.scope els { once := true, kind := .read } with
        | .act a => a
        | .ok s hits =>
          match hits with
          | [] => .wait s
          | h :: _ =>
            let s := s.settle h.pa 64
            let rec_ := s.readBytes h.pa 64
            let ps := match s.grid c.g.id.grid with | some g => g.serial | none => 0
            let serial := (kcg ps c.g.id.grpid c.g.lc 0 0 0x4C4E_4348).x0
            let s := s.modGroup c.gid fun g => { g with lc := g.lc + 1 }
            let s := s.modCore c.g.id.core fun k =>
              { k with pq := k.pq ++ [⟨c.g.id.ctx, rec_, serial, h.e.va, c.g.id.grpid, c.g.lc⟩] }
            match due with
            | some d => .done (s.commitDue c f d [serial])
            | none => .done ((s.giveWords c w.d 1 serial.toNat).commit c f)

/-! ### Retirement (R117) -/

/-- The last group of the grid has ended: every team was admitted, and every group and every bin's fibre has ended. -/
def State.groupsEnded (s : State) (id : Nat) (g : Grid) : Bool :=
  g.admitted.length == g.record.total &&
  !(s.groups.any fun p => p.2.id.grid == id && !p.2.ended) && !(s.allBins.any fun b => b.grid == id && !b.fibres.isEmpty)

/-- The last group has ended, and what acts for the groups is done: matrix engines, arrivals of `aord`s, copy ports, copies,
collective packets and exchanges (R117). -/
def State.groupsOver (s : State) (id : Nat) (g : Grid) : Bool :=
  s.groupsEnded id g && !(s.engineOps.any (·.grid == id)) && !(s.work.tickets.any (·.grid == id)) &&
  !(s.work.ports.any (·.grid == id)) && !(s.work.moved.any (·.grid == id)) && !(s.work.copies.any (·.grid == some id)) &&
  !(s.work.packets.any (·.grid == some id)) && !(s.work.exchanges.any (·.grid == id))

/-- Nothing of the grid is left to run, and its collective has retired (R117). -/
def State.gridOver (s : State) (id : Nat) (g : Grid) : Bool :=
  s.groupsOver id g && (match g.coll with | some c => c.finished || c.failed | none => true)

/-- The status of a grid that ran (R118). -/
def Grid.status (g : Grid) : Status :=
  if g.trapped then .trapped
  else if g.collFail || (match g.coll with | some c => c.failed | none => false) then .collFail
  else .ok

/-- GRID_RETIRE (R117, R118). -/
def retire (id : Nat) (s : State) : State :=
  match s.grid id with
  | none => s
  | some g =>
    if !s.gridOver id g || !s.running g.ctx then s
    else ((s.flushCtx g.ctx).next fun s =>
      State.retireWith { s with grids := smErase s.grids id } g.ctx g.record.succ
        ⟨g.recaddr, g.serial, g.status, g.source, g.origin, g.groups⟩).after s

/-! ### The meanings, one for each instruction and event -/

/-- `LAUNCH` (R113). -/
def execLaunch (w : MWord) (s : State) : Host.Outcome State Fault Refusal := finish (actLaunch w s)

/-- LAUNCH_QUEUE_TAKE (R104, R107-R109). -/
def execLaunchQueueTake (ctx : Nat) (q : Nat) (s : State) : Host.Outcome State Fault Refusal :=
  .next (takeQueue ctx q s)

/-- PENDING_LAUNCH_TAKE (R109, R114). -/
def execPendingLaunchTake (core : Nat) (s : State) : Host.Outcome State Fault Refusal :=
  .next (takePending core s)

/-- HOST_APPEND (R103). -/
def execHostAppend (ctx : Nat) (q : Nat) (copy : Bool) (record : HostRecord) (s : State) :
    Host.Outcome State Fault Refusal :=
  .next (hostPut record.port ctx q copy record.bytes s)

/-- GRID_RETIRE (R117). -/
def execGridRetire (grid : Nat) (s : State) : Host.Outcome State Fault Refusal :=
  .next (retire grid s)

end Sys2Proof.Machine
end

