-- ==== Sys2Proof/Machine/Copies.lean ====
section
/-! DEFINITION. Buffer handles, stage rings and copies (R233-R251): `bwait`, `bset`, `srnext` and `cpq`, the copy ports,
and the copy engines' moves. -/

namespace Sys2Proof.Machine

/-! ### Scratchpad operand words (R190) -/

/-- The place that a scratchpad operand word names for n bytes, in a share of the group's team; `none` is ADDR (R190). -/
def State.spadPlace (s : State) (id : Ident) (word n : Nat) : Option SpadLoc :=
  let j := if word / 2 ^ 23 % 2 = 1 then word / 2 ^ 21 % 4 else id.t % id.cores
  let share := match s.team id.grid id.team with | some t => t.shareSize | none => 0
  if word / 2 ^ 24 != 0 || (word / 2 ^ 23 % 2 = 0 && word / 2 ^ 21 % 4 != 0) || id.cores ≤ j || share < word % 2 ^ 21 + n then none
  else some ⟨id.grid, id.team, j, word % 2 ^ 21⟩

/-- What the shared checks see of a format-3 word: A, then B, each with its registers. -/
def xFront (w : XWord) (ports : List Port := [.ctl]) (aRegs bRegs : Nat := 0) (dst : List (Operand × Nat) := [])
    (mx resumes body : Bool := false) (illop : Group → Bool := fun _ => false) (nondet : Ident → Bool := fun _ => false) :
    Front where
  guard := w.guard
  hints := w.hints
  ports := ports
  srcs := (if aRegs = 0 then [] else [⟨w.a, aRegs, w.hints.tea, w.hints.lua⟩]) ++
    (if bRegs = 0 then [] else [⟨w.b, bRegs, w.hints.teb, w.hints.lub⟩])
  dsts := dst
  mx := mx
  body := body
  resumes := resumes
  illop := illop
  nondet := nondet

/-! ### Handles (R241-R245) -/

/-- The entry of a handle name. -/
def State.handle (s : State) (ctx core k : Nat) : Option HandleEntry :=
  s.work.handles.find? fun h => h.ctx == ctx && h.core == core && h.k == k

/-- Put a handle's binding; a name that is neither bound nor reserved gives its entry back (R127). -/
def State.bindHandle (s : State) (ctx core k : Nat) (b : Option Binding) : State :=
  let old := s.handle ctx core k
  let e : HandleEntry := ⟨ctx, core, k, old.bind (·.reservedFor), b⟩
  let rest := s.work.handles.filter fun h => !(h.ctx == ctx && h.core == core && h.k == k)
  { s with work := { s.work with handles := if b.isNone && e.reservedFor.isNone then rest else rest ++ [e] } }

/-- Change the state of a bound handle. -/
def State.setHandle (s : State) (h : HandleEntry) (st : HState) : State :=
  match s.handle h.ctx h.core h.k with
  | some e => (match e.bound with | some b => s.bindHandle h.ctx h.core h.k (some { b with state := st }) | none => s)
  | none => s

/-- STATE codes (R245 Table 6). -/
def HState.code : HState → Nat
  | .free => 0 | .filling => 1 | .full => 2 | .draining => 3 | .faulted => 4

/-- The handle state word (R245 Table 6). -/
def stateWord (b : Option Binding) : Nat := match b with | some b => b.state.code + 8 | none => 0

/-- The lines of a handle's range. -/
def Binding.lines (b : Binding) : List Nat := linesOf b.ofs b.len

/-- The lines of a handle are claimed for a copy that fills it (R243). -/
def State.claimHandle (s : State) (b : Binding) : State := s.modShare b.grid b.team b.shareCore fun sh => sh.claim b.lines

/-- The core key that a handle operand names (R245); `none` outside the team. -/
def State.handleCore (s : State) (id : Ident) (w : XWord) : Option Nat :=
  match s.team id.grid id.team with
  | some t => t.cores[if w.f 10 10 = 1 then w.f 9 8 else id.t % id.cores]?
  | none => none

/-- The handle that an instruction names (R241): its core, its entry; `none` is HANDLE. `bind` accepts an unbound one. -/
def State.namedHandle (s : State) (id : Ident) (w : XWord) (bind : Bool) : Option (Nat × Option Binding) :=
  match s.handleCore id w with
  | none => none
  | some core =>
    match s.handle id.ctx core (w.f 7 0) with
    | none => if bind then some (core, none) else none
    | some h =>
      if h.reservedFor.isSome && h.reservedFor != some (id.grid, id.team) then none
      else match h.bound with
        | none => if bind then some (core, none) else none
        | some b => if b.grid == id.grid && b.team == id.team then some (core, some b) else none

/-- `bwait` (R246). -/
def actBwait (w : XWord) (s : State) : Act :=
  let f := xFront w (dst := [(w.d, 1)])
  s.issue f fun c =>
    match s.namedHandle c.g.id w false with
    | some (_, some b) =>
      let ok := w.f 20 16 / 2 ^ b.state.code % 2 = 1
      if !ok && b.state != .faulted then s.parkIn c.gid (.retry false)
      else if !ok then .trap c.gid (c.trap .copyfault c.act (BitVec.ofNat 64 (w.f 7 0))) s
      else .done ((s.modGroup c.gid fun g => g.puts (g.wr w.d 0 .n32 (stateWord (some b)))).commit c f)
    | _ => .trap c.gid (c.trap .handle c.act) s

/-- A `bset` event that applies to a bound handle (R242 Table 5). -/
def State.bsetEvent (s : State) (ctx core k op : Nat) (b : Binding) : State :=
  let put := fun (s : State) (st : HState) => s.bindHandle ctx core k (some { b with state := st })
  match op, b.state with
  | 0, .free => put s .full
  | 1, .full => put s .free
  | 2, .faulted =>
    put (s.modShare b.grid b.team b.shareCore fun sh =>
      { sh with absent := sh.absent.filter (!b.lines.contains ·), faulted := sh.faulted.filter (!b.lines.contains ·) }) .free
  | 4, .free => s.bindHandle ctx core k none
  | _, _ => s

/-- The physical core's pool has an entry for a new name (R127, R241). -/
def State.poolFree (s : State) (core : Nat) : Bool := (s.work.handles.filter (·.core == core)).length < 256

/-- `bset` (R246). -/
def actBset (w : XWord) (s : State) : Act :=
  let op := w.f 18 16
  let f := xFront w (aRegs := if op = 3 then 2 else 0) (dst := [(w.d, 1)])
  s.issue f fun c =>
    match s.namedHandle c.g.id w (op = 3) with
    | none => .trap c.gid (c.trap .handle c.act) s
    | some (core, b) =>
      let base := c.g.reg (c.g.key w.a 0 0)
      let len := (c.g.reg (c.g.key w.a 0 1)).toNat
      let place := s.spadPlace c.g.id base.toNat len
      let give := fun (s : State) =>
        Act.done ((s.modGroup c.gid fun g => g.puts (g.wr w.d 0 .n32 (stateWord b))).commit c f)
      if op = 3 && (place.isNone || len % 128 != 0 || len < 128 || 2097152 < len) then
        .trap c.gid (c.trap .addr c.act (base.setWidth 64)) s
      else if !s.released c.gid .cluster then .wait s
      else match op, place, b with
        | 3, some p, none =>
          if (s.handle c.g.id.ctx core (w.f 7 0)).isNone && !s.poolFree core then .wait s
          else give (s.bindHandle c.g.id.ctx core (w.f 7 0) (some ⟨p.grid, p.team, p.core, p.ofs, len, .free⟩))
        | 3, some p, some b =>
          if b.state = .free then
            give (s.bindHandle c.g.id.ctx core (w.f 7 0) (some ⟨p.grid, p.team, p.core, p.ofs, len, .free⟩))
          else give s
        | _, _, some b => give (s.bsetEvent c.g.id.ctx core (w.f 7 0) op b)
        | _, _, none => give s

/-! ### Stage rings (R247, R248) -/

/-- A cursor after an advance. -/
def Cursor.advance (c : Cursor) (count : Nat) : Cursor :=
  if c.idx + 1 = count then ⟨0, !c.phase, c.lap + 1⟩ else { c with idx := c.idx + 1 }

/-- dist (R247). -/
def Ring.dist (r : Ring) : Nat := (r.p.lap * r.entry.count + r.p.idx) - (r.c.lap * r.entry.count + r.c.idx)

/-- An advance of a cursor is eligible. -/
def Ring.may (r : Ring) (consumer : Bool) : Bool := if consumer then 0 < r.dist else r.dist < r.depth

/-- A ring after an advance. -/
def Ring.advance (r : Ring) (consumer : Bool) : Ring :=
  if consumer then { r with c := r.c.advance r.entry.count } else { r with p := r.p.advance r.entry.count }

/-- What `srnext` writes. -/
def Ring.word (r : Ring) (consumer : Bool) : Nat :=
  let c := if consumer then r.c else r.p
  r.entry.first + c.idx + (if c.phase then 2 ^ 8 else 0) + 2 ^ 9 * c.idx

/-- Change a ring of a team. -/
def State.modRing (s : State) (grid team j sg : Nat) (f : Ring → Ring) : State :=
  s.modTeam grid team fun t =>
    { t with rings := t.rings.modify j fun l => l.map fun r => if r.entry.sg == sg then f r else r }

/-- `srnext` (R248). -/
def actSrnext (w : XWord) (s : State) : Act :=
  let f := xFront w (dst := [(w.d, 1)])
  s.issue f fun c =>
    let j := if w.f 7 7 = 1 then w.f 6 5 else c.g.id.t % c.g.id.cores
    let ring := (s.team c.g.id.grid c.g.id.team).bind fun t => (t.rings.getD j []).find? fun r => r.entry.sg == w.f 3 0
    match ring with
    | none => .trap c.gid (c.trap .handle c.act) s
    | some r =>
      let cons := w.f 4 4 = 1
      if w.f 8 8 = 1 && !r.may cons then .wait s
      else
        let r' := if w.f 8 8 = 1 then r.advance cons else r
        let s := s.modRing c.g.id.grid c.g.id.team j (w.f 3 0) fun _ => r'
        .done ((s.modGroup c.gid fun g => g.puts (g.wr w.d 0 .n32 (r'.word cons))).commit c f)

/-- RING_DEPTH_ADJUST (R247): DEPTH takes any value from min to max. -/
def ringDepth (team core sg depth : Nat) (s : State) : State :=
  match s.teams[team]? with
  | none => s
  | some t => s.modRing t.grid t.n core sg fun r =>
      if r.entry.min ≤ depth && depth ≤ r.entry.max then { r with depth := depth } else r

/-! ### Packets and shapes (R235-R237) -/

/-- The fields of a packet (R235 Table 2). -/
def Packet.ofBytes (b : List Byte) : Packet :=
  let d := fun (o : Nat) => BitVec.ofNat 64 (leField b o 8)
  { opc := leField b 0 1, flags := leField b 1 1, tbc := leField b 2 1, dk := leField b 4 1, dcore := leField b 5 1
    sk := leField b 6 1, score := leField b 7 1, dst := d 8, src := d 0x10, shape := d 0x18, comp := d 0x20, org := d 0x28
    dir := leField b 0x30 1 }

/-- FLAGS. -/
def Packet.dsth (p : Packet) : Bool := p.flags % 2 = 1

@[inherit_doc Packet.dsth] def Packet.srch (p : Packet) : Bool := p.flags / 2 % 2 = 1

@[inherit_doc Packet.dsth] def Packet.shp (p : Packet) : Bool := p.flags / 4 % 2 = 1

/-- BADPKT for what the packet holds (R235, R237, R240): reserved fields, OPC, and misaligned addresses or LEN. -/
def packetBad (b : List Byte) (p : Packet) : Bool :=
  !(p.opc = 1 || p.opc = 2) || 8 ≤ p.flags || leField b 3 1 != 0 || 8 ≤ p.tbc || p.comp.toNat % 8 != 0 ||
  (p.opc = 1 && (b.drop 0x30).any (· != 0)) ||
  (p.opc = 2 && ((b.drop 0x31).any (· != 0) || 3 ≤ p.dir || !p.shp || !(if p.dir = 1 then p.dsth && !p.srch else p.srch && !p.dsth))) ||
  (p.dsth && 192 ≤ p.dcore) || (p.srch && 192 ≤ p.score) ||
  (if p.shp then p.shape.toNat % 64 != 0
   else p.org != 0 || (!p.dsth && p.dst.toNat % 16 != 0) || (!p.srch && p.src.toNat % 16 != 0) || p.shape.toNat % 16 != 0 ||
     p.shape.toNat < 16 || 2 ^ 32 < p.shape.toNat)

/-- The fields of a shape record (R236 Table 3, R337 Table 3). -/
def Shape.ofBytes (b : List Byte) : Shape :=
  { base := BitVec.ofNat 64 (leField b 0 8), esz := leField b 8 1, rank := leField b 9 1
    ext := (List.range 5).map fun d => leField b (0x10 + 4 * d) 4
    stride := (List.range 5).map fun d => sextNat (leField b (0x28 + 8 * d) 8) 64
    box := (List.range 5).map fun d => leField b (0x50 + 2 * d) 2
    cx := leField b 0x60 2, cy := leField b 0x62 2, cz := leField b 0x64 2, rep := leField b 0x66 1, rop := leField b 0x67 1
    rtype := leField b 0x68 1 }

/-- BADSHAPE (R236, R240): a field outside Table 3, whatever RANK is, or a nonzero reserved byte; a COPY has no collective
fields. -/
def shapeBad (b : List Byte) (x : Shape) (coll : Bool) : Bool :=
  3 < x.esz || x.rank < 1 || 5 < x.rank || 32767 < x.ext.getD 3 0 || 32767 < x.ext.getD 4 0 ||
  (List.range 5).any (fun d => x.stride.getD d 0 % (2 ^ x.esz : Nat) != 0 || x.box.getD d 0 = 0) ||
  ((b.drop 0x0A).take 6).any (· != 0) || ((b.drop 0x24).take 4).any (· != 0) || ((b.drop 0x5A).take 6).any (· != 0) ||
  (if coll then (b.drop 0x69).any (· != 0) else (b.drop 0x60).any (· != 0))

/-- A box extent: 1 at or above RANK (R237). -/
def Shape.boxAt (x : Shape) (d : Nat) : Nat := if d < x.rank then x.box.getD d 1 else 1

/-- Bytes of the dense side (R237). -/
def Shape.size (x : Shape) : Nat := 2 ^ x.esz * (List.range 5).foldl (fun a d => a * x.boxAt d) 1

/-- The global address of byte i of the dense side (R237); `none` outside the extents. -/
def Shape.va (x : Shape) (o : List Int) (i : Nat) : Option DWord :=
  let e := 2 ^ x.esz
  let pos := (List.range 5).foldl (fun (a : Nat × List Int) d =>
    (a.1 / x.boxAt d, a.2 ++ [(if d < x.rank then o.getD d 0 else 0) + (a.1 % x.boxAt d : Nat)])) (i / e, [])
  let g := fun (d : Nat) => pos.2.getD d 0
  if (List.range x.rank).all fun d => 0 ≤ g d && g d < (x.ext.getD d 0 : Nat) then
    some (BitVec.ofInt 64 (x.base.toNat + (List.range x.rank).foldl (fun a d => a + g d * x.stride.getD d 0) 0 + (i % e : Nat)))
  else none

/-- The origin in a packet (R235): o0 and o1 from DST or SRC, the others from ORG. -/
def Packet.origin (p : Packet) (side : DWord) : List Int :=
  [sextNat (side.toNat % 2 ^ 32) 32, sextNat (side.toNat / 2 ^ 32) 32, sextNat (p.org.toNat % 2 ^ 32) 32,
   sextNat (p.org.toNat / 2 ^ 32 % 2 ^ 16) 16, sextNat (p.org.toNat / 2 ^ 48) 16]

/-- Bytes that a copy moves. -/
def Copy.size (c : Copy) : Nat := match c.shape with | some x => x.size | none => c.packet.shape.toNat

/-- The global address of byte i of the source (R237); `none` for a byte that reads zero. -/
def Copy.srcVa (c : Copy) (i : Nat) : Option DWord :=
  match c.shape with
  | some x => x.va (c.packet.origin c.packet.src) i
  | none => some (c.packet.src + BitVec.ofNat 64 i)

/-- The global address that byte i goes to (R237); `none` for a byte that is not stored. The shape lies on the source unless
the source is a handle. -/
def Copy.dstVa (c : Copy) (i : Nat) : Option DWord :=
  match c.shape with
  | some x => if c.packet.srch then x.va (c.packet.origin c.packet.dst) i else some (c.packet.dst + BitVec.ofNat 64 i)
  | none => some (c.packet.dst + BitVec.ofNat 64 i)

/-- The binding of a copy's handle. -/
def HandleEntry.range (h : Option HandleEntry) : Option Binding := h.bind (·.bound)

/-! ### cpq (R251) -/

/-- The shared checks of `cpq`: TEB and LUB apply to s[B] alone. -/
def cpqFront (w : MWord) : Front :=
  { MOp.front .cpq w with
    srcs := [⟨w.a, 2, w.hints.tea, w.hints.lua⟩, ⟨w.b, 1, w.hints.teb, w.hints.lub⟩,
      ⟨.s (BitVec.ofNat 8 (w.b.idx + 1)), 15, false, false⟩] }

/-- The bytes of the packet in 16 registers. -/
def Ctx.packetBytes (c : Ctx) (w : MWord) : List Byte :=
  (List.range 16).flatMap fun j => leOf 4 (c.g.reg (c.g.key w.b 0 j)).toNat

/-- The handle that a packet names, when it is bound to the group's team (R251). -/
def State.teamHandle (s : State) (id : Ident) (named : Bool) (core k : Nat) : Option HandleEntry :=
  if !named then none
  else match s.handle id.ctx (id.core / Config.cores * Config.cores + core) k with
    | some h => (match h.bound with | some b => if b.grid == id.grid && b.team == id.team then some h else none | none => none)
    | none => none

/-- A handle is in a state, if it is there. -/
def HandleEntry.isIn (h : Option HandleEntry) (st : HState) : Bool :=
  match HandleEntry.range h with | some b => b.state = st | none => true

/-- A packet takes its handles (R242 Table 5, R243). -/
def State.takeHandles (s : State) (dst src : Option HandleEntry) : State :=
  let s := match dst with
    | some h => (match h.bound with | some b => (s.setHandle h .filling).claimHandle b | none => s)
    | none => s
  match src with | some h => s.setHandle h .draining | none => s

/-- A handle on a core; one on another core moves at the take (R251). -/
def HandleEntry.on (h : Option HandleEntry) (core : Nat) : Option HandleEntry := h.filter (·.core == core)

/-- RING and LOG2SIZE of the queue with a header, as they were read at its registration (R233); those in the header, when no
queue of the context has it (log 74). -/
def State.ringOf (s : State) (ctx header : Nat) : Nat × Nat :=
  match (s.ctx ctx).bind fun c => c.queues.find? fun q => q.copy && q.header == header with
  | some q => (q.ring.toNat, q.log2)
  | none => (s.phys8 (header + 0x18), (s.readByte (header + 0x20)).toNat)

/-- `cpq` (R251). The checks of Table 7 come before NONDET (R353), and both before its waits. -/
def actCpq (w : MWord) (s : State) : Act :=
  let f := cpqFront w
  s.issue f fun c =>
    let els := c.objects w true 64 64
    match s.failAct c true (addrFails 0 1 els ++ alignFails els) with
    | some a => a
    | none =>
      match s.resolveNow c .global w.scope els
          { once := true, kind := .both, nondet := fun _ _ => w.d != .zero && c.g.id.det } with
      | .act a => a
      | .ok s' hits =>
        let bytes := c.packetBytes w
        let p := Packet.ofBytes bytes
        let dst := s.teamHandle c.g.id p.dsth p.dcore p.dk
        let src := s.teamHandle c.g.id p.srch p.score p.sk
        if !HandleEntry.isIn dst .free || !HandleEntry.isIn src .full || !s.released c.gid .device then .wait s
        else
          match hits with
          | [] => .wait s
          | h :: _ =>
            let s' := s'.settle h.pa 64
            let n := s'.phys8 h.pa
            let (ring, log2) := s'.ringOf c.g.id.ctx h.pa
            if 2 ^ log2 ≤ (n + 2 ^ 64 - s'.phys8 (h.pa + 16)) % 2 ^ 64 then .wait s
            else
              let s := s'.performWrite h.pa (leOf 8 ((n + 1) % 2 ^ 64))
              let here := fun (x : Option HandleEntry) => HandleEntry.on x c.g.id.core
              let s := s.takeHandles (here dst) (here src)
              let slot := BitVec.ofNat 64 (ring + 64 * (n % 2 ^ log2))
              let port : PortPacket := ⟨c.g.id.core, c.g.id.ctx, c.gid, c.g.id.grid, w.scope, h.pa, n, slot, bytes⟩
              let move : CpqMove := ⟨c.g.id.ctx, h.pa, n, c.g.id.grid, (dst.toList ++ src.toList).map fun x => (x.core, x.k),
                (here dst).isSome, (here src).isSome⟩
              let s := { s with work := { s.work with ports := s.work.ports ++ [port], moved := s.work.moved ++ [move] } }
              let writes := if w.d = .zero then [] else c.g.wr w.d 0 .n64 n
              .done ((s.modGroup c.gid fun g => g.puts writes).commit c f)

/-- A packet leaves its copy port. -/
def State.portDone (s : State) (p : PortPacket) : State :=
  { s with work := { s.work with ports := s.work.ports.filter fun x => !(x.header == p.header && x.n == p.n) } }

/-- CPQ_PUBLISH (R251): the copy port stores a packet whose turn it is, and publishes it; while its context is pre-empted the port
keeps what it holds. A store that fails is discarded (R222; log 74). -/
def publish (core : Nat) (s0 : State) : State :=
  match s0.work.ports.find? fun p =>
      p.core == core && s0.running p.ctx && (s0.settle p.header 64).phys8 (p.header + 8) == p.n with
  | none => s0
  | some p =>
    let done := fun (s : State) => Try.made ((s.performWrite (p.header + 8) (leOf 8 ((p.n + 1) % 2 ^ 64))).portDone p)
    (s0.onHeader p.ctx p.header (fun s => .made (s.portDone p)) fun s =>
      match s.unitWrite .other p.ctx p.slot p.packet with
      | .ok s _ => done s
      | .fault s _ _ => done s
      | .blocked s => .held s).after s0

/-! ### The fault of a copy (R239, R240) -/

/-- Copy fault codes of a refused walk (R240 Table 4): ACCESS, else XLATE. -/
def Cause.copyCode (c : Cause) : Nat := if c = .access then 4 else 3

/-- The add to a completion counter (R239); it waits while its line is held. An add that faults is not made. -/
def State.compAdd (s : State) (ctx : Nat) (comp : DWord) (x : Nat) : Try :=
  if comp = 0 then .made s
  else match s.unitAdd .other ctx comp x with
    | .ok s _ => .made s
    | .fault s _ _ => .made s
    | .blocked s => .held s

/-- The fault fields of a copy queue's header (R233 Table 1). -/
def State.faultFields (s : State) (header slot code : Nat) (addr : DWord) : State :=
  let s := s.settle header 64
  let first := s.readByte (header + 0x22) = 0
  let s := s.performWrite (header + 0x28) (leOf 8 ((s.phys8 (header + 0x28) + 1) % 2 ^ 64))
  if first then
    ((s.performWrite (header + 0x22) (leOf 1 code)).performWrite (header + 0x30) (leOf 8 slot)).performWrite (header + 0x38)
      (leOf 8 addr.toNat)
  else s

/-- A handle that a faulted packet holds (R240): a destination that is FILLING, whose absent lines are marked (R227), or a source that
is DRAINING, becomes FAULTED (R242 Table 5). -/
def State.faultHandle (s : State) (h : Option HandleEntry) (landed : Option (List Nat)) : State :=
  match h with
  | none => s
  | some e =>
    let here := ((s.handle e.ctx e.core e.k).bind (·.bound)).map (·.state)
    match landed, e.bound with
    | some l, some b =>
      if here = some .filling then
        (s.setHandle e .faulted).modShare b.grid b.team b.shareCore fun sh => sh.fault (b.lines.filter (!l.contains ·))
      else s
    | _, _ => if here = some .draining then s.setHandle e .faulted else s

/-- A copy faults (R240): it lets go of its lines; the handles that it holds, the queue's fault fields, then the add of R239. A
source that it has read is no longer held (R242). -/
def State.copyFail (s : State) (c : Copy) (code : Nat) (addr : DWord) : Try :=
  let s := { s with work := { s.work with copies := s.work.copies.filter (·.id != c.id) } }
  let s := (s.faultHandle c.dstHandle (some c.landed)).faultHandle (if c.srcDone then none else c.srcHandle) none
  let fields : Try := match s.queue c.ctx c.queue true with
    | some q => s.onHeader c.ctx q.header .made fun s => .made (s.faultFields q.header c.slot code addr)
    | none => .made s
  fields.next fun s => (s.compAdd c.ctx c.packet.comp (1 + 2 ^ 32)).next fun s => .made s.reap

/-- A fault whose address the manual does not name: FADDR is a free value (log 20). -/
def State.copyFailFree (s : State) (c : Copy) (code : Nat) : Try :=
  let (n, s) := s.draw
  s.copyFail c code (Config.freeValue n)

/-! ### Taking a packet (R234, R235, R242) -/

/-- The destination of a global copy, taken at the take (R238, R260). -/
inductive DstMap where
  | ok (s : State) (l : List (Nat × Nat)) (mts : SMap Nat)
  | fault (s : State) (cause : Cause) (va : DWord)
  | blocked (s : State)

/-- Where byte i of a copy goes, added to what is mapped so far: each physical address with its offset. -/
def DstMap.add (c : Copy) (m : DstMap) (i : Nat) : DstMap :=
  match m, c.dstVa i with
  | .ok s l mts, some va =>
    match s.unitWalk c.ctx va 1 .write with
    | .ok s t =>
      let pa := t.addr (va.toNat % 2 ^ 57)
      .ok s (l ++ [(pa, i)]) (smSet mts (lineOf pa) t.mt)
    | .fault s cause _ => .fault s cause va
    | .blocked s => .blocked s
  | m, _ => m

/-- A line is listed once. -/
def lineSet (l : List (Nat × Nat)) : List Nat := keyUnion [] (l.map fun p => lineOf p.1)

/-- The handle of a packet's side by its name; `none` when the side is global. -/
def State.sideHandle (s : State) (ctx : Nat) (named : Bool) (core k : Nat) : Option (Option HandleEntry) :=
  if !named then some none
  else
    let part := match s.ctx ctx with | some c => c.part | none => 0
    match s.handle ctx (part * Config.cores + core) k with
    | some h => if h.bound.isSome then some (some h) else none
    | none => none

/-- A side does not exceed its handle (R237). -/
def sideFits (h : Option HandleEntry) (n : Nat) : Bool := match HandleEntry.range h with | some b => n ≤ b.len | none => true

/-- The handle of a side that moved at its commit already, which a packet that fails holds (R240). -/
def State.heldSide (s : State) (ctx : Nat) (named moved : Bool) (core k : Nat) : Option HandleEntry :=
  if moved then (s.sideHandle ctx named core k).bind fun x => x else none

/-- A copy of a packet before it starts, with the handles that it holds (R240). -/
def State.copyOf (s : State) (c : Copy) (m : Option CpqMove) : Copy :=
  let p := c.packet
  { c with
    dstHandle := s.heldSide c.ctx p.dsth (m.any (·.dst)) p.dcore p.dk
    srcHandle := s.heldSide c.ctx p.srch (m.any (·.src)) p.score p.sk }

/-- The physical address of a unit's read, without the walk's effects. -/
def State.peekPa (s : State) (ctx va : Nat) : Option Nat :=
  match s.walkRoot ctx (va % 2 ^ 57) .read false with
  | .ok _ t => some (t.addr (va % 2 ^ 57))
  | _ => none

/-- The physical lines of some bytes of a copy's global source. -/
def State.sourceLines (s : State) (c : Copy) (is : List Nat) : List Nat :=
  keyUnion [] (is.filterMap fun i => (c.srcVa i).bind fun va => (s.peekPa c.ctx va.toNat).map lineOf)

/-- A packet becomes a copy (R235, R237, R238, R242): its handles move, unless they moved at the commit, and its global
destination is taken; or its queue waits. -/
def State.startCopy (s : State) (c : Copy) (m : Option CpqMove) : Try :=
  let p := c.packet
  let mDst := m.any (·.dst)
  let mSrc := m.any (·.src)
  let held := s.copyOf c m
  match s.sideHandle c.ctx p.dsth p.dcore p.dk, s.sideHandle c.ctx p.srch p.score p.sk with
  | some dst, some src =>
    if !sideFits dst c.size || !sideFits src c.size then s.copyFailFree held 1
    else if (!mDst && !HandleEntry.isIn dst .free) || (!mSrc && !HandleEntry.isIn src .full) then .held s
    else
      let put := fun (s : State) (c : Copy) =>
        let s := s.takeHandles (if mDst then none else dst) (if mSrc then none else src)
        Try.made { s with work := { s.work with copies := s.work.copies ++ [c] } }
      let c := { c with
        dstHandle := dst, srcHandle := src, srcLines := if src.isSome then [] else s.sourceLines c (List.range c.size) }
      if dst.isSome then put s c
      else match (List.range c.size).foldl (DstMap.add c) (.ok s [] []) with
        | .fault s cause va => s.copyFail held cause.copyCode va
        | .blocked s => .held s
        | .ok s l mts => put s { c with dstMap := l, dstMt := mts, dstLines := lineSet l }
  | _, _ => s.copyFailFree held 1

/-- A collective packet of a copy queue goes to the collective engine (R337), with its handle moved. -/
def State.startColl (s : State) (c : Copy) (m : Option CpqMove) : Try :=
  let p := c.packet
  let get := p.dir = 1
  let done := m.any fun x => if get then x.dst else x.src
  match (if get then s.sideHandle c.ctx p.dsth p.dcore p.dk else s.sideHandle c.ctx p.srch p.score p.sk) with
  | some (some h) =>
    if !done && !HandleEntry.isIn (some h) (if get then .free else .full) then .held s
    else
      let s := if done then s else if get then s.takeHandles (some h) none else s.takeHandles none (some h)
      let x : CollPacket := ⟨c.id, c.ctx, some c.queue, c.grid, p, p.origin (if get then p.src else p.dst), some h⟩
      .made { s with work := { s.work with packets := s.work.packets ++ [x] } }
  | _ => (s.compAdd c.ctx p.comp (1 + 2 ^ 32)).next fun s => .made s.reap

/-- A collective packet that is malformed (R337): its handle is FAULTED and its counter receives the add; no fault field of its
queue is written. -/
def State.collFail (s : State) (c : Copy) : Try :=
  (((s.faultHandle c.dstHandle (some [])).faultHandle c.srcHandle none).compAdd c.ctx c.packet.comp (1 + 2 ^ 32)).next
    fun s => .made s.reap

/-- What a read of several pages answers. -/
inductive LongRead where
  | ok (s : State) (b : List Byte)
  | fault (s : State) (cause : Cause) (level : Nat) (addr : DWord)
  | blocked (s : State)

/-- A unit's read that may cross a page: each page's part at its frame. A failing part names its address. -/
def State.unitReadLong (s : State) (a : Agent) (ctx : Nat) (va : DWord) : Nat → Nat → LongRead
  | 0, _ => .ok s []
  | fuel + 1, n =>
    if n = 0 then .ok s []
    else
      let m := min n (4096 - va.toNat % 4096)
      match s.unitRead a ctx va m with
      | .ok s b =>
        (match s.unitReadLong a ctx (va + BitVec.ofNat 64 m) fuel (n - m) with
         | .ok s b' => .ok s (b ++ b')
         | r => r)
      | .fault s c l => .fault s c l va
      | .blocked s => .blocked s

/-- A packet that was read from its slot (R235, R240): checked, its shape record read, and started. -/
def State.startPacket (s : State) (ctx : Nat) (q : Queue) (n : Nat) (b : List Byte) : Try :=
  let p := Packet.ofBytes b
  let m := s.work.moved.find? fun x => x.header == q.header && x.n == n
  let (id, s) := s.newId
  let s := { s with work := { s.work with moved := s.work.moved.filter fun x => !(x.header == q.header && x.n == n) } }
  let c : Copy := ⟨id, ctx, m.map (·.grid), q.cluster, q.num, n, p, none, none, none, [], [], false, [], [], [], []⟩
  let held := s.copyOf c m
  if p.opc = 2 then (if packetBad b p then s.collFail held else s.startColl c m)
  else if packetBad b p then s.copyFailFree held 1
  else if !p.shp then s.startCopy c m
  else match s.unitReadLong .other ctx p.shape 2 128 with
    | .blocked s => .held s
    | .fault s cause _ _ => s.copyFail held cause.copyCode p.shape
    | .ok s x =>
      if shapeBad x (Shape.ofBytes x) false then s.copyFail held 2 p.shape
      else s.startCopy { c with shape := some (Shape.ofBytes x) } m

/-- COPY_PACKET_TAKE (R234, R235). -/
def takePacket (ctx num : Nat) (s0 : State) : State :=
  match s0.queue ctx num true with
  | none => s0
  | some q =>
    if q.faulted || !s0.running ctx then s0
    else (s0.onHeader ctx q.header .held fun s =>
      if s.queueCount q = 0 then .held s0
      else if 2 ^ q.log2 < s.queueCount q then s.queueFault ctx q
      else
        let n := s.phys8 (q.header + 16)
        match s.unitRead .other ctx (q.slot n) 64 with
        | .ok s b => (s.performWrite (q.header + 16) (leOf 8 ((n + 1) % 2 ^ 64))).startPacket ctx q n b
        | .fault s _ _ => .held s
        | .blocked s => .held s).after s0

/-! ### The transfer (R237, R238, R242, R243) -/

/-- A line that a copy reads or writes. -/
inductive CLine where
  | glob (line : Nat)
  | spad (grid team core line : Nat)
  deriving DecidableEq, Repr

/-- The lines of a binding's range. -/
def Binding.clines (b : Binding) : List CLine := b.lines.map fun l => .spad b.grid b.team b.shareCore l

/-- The destination lines of a copy that have not landed. -/
def Copy.unlanded (c : Copy) : List CLine :=
  match HandleEntry.range c.dstHandle with
  | some b => (b.lines.filter (!c.landed.contains ·)).map fun l => .spad b.grid b.team b.shareCore l
  | none => c.dstLines.map .glob

/-- The lines of some bytes of a copy's source that it may still read. -/
def State.unreadOf (s : State) (c : Copy) (is : List Nat) : List CLine :=
  if c.srcDone then []
  else match HandleEntry.range c.srcHandle with
    | some b => is.map fun i => .spad b.grid b.team b.shareCore (lineOf (b.ofs + i))
    | none => is.filterMap fun i =>
        (c.srcVa i).bind fun va =>
          if c.srcRead.any (·.1 == va.toNat) then none else (s.peekPa c.ctx va.toNat).map fun pa => .glob (lineOf pa)

/-- The source lines of a copy that it may still read. -/
def State.unread (s : State) (c : Copy) : List CLine := s.unreadOf c (List.range c.size)

/-- A collective packet may share bytes of a line with a copy: the lines of its handle, and, since it may reach this rank's memory,
any global one. -/
def CollPacket.meets (x : CollPacket) (l : CLine) : Bool :=
  match l with
  | .glob _ => true
  | l => match HandleEntry.range x.handle with | some b => b.clines.contains l | none => false

/-- The unfinished copies of a copy's queue that were taken before it (R238). -/
def State.before (s : State) (c : Copy) : List Copy :=
  s.work.copies.filter fun x => x.ctx == c.ctx && x.queue == c.queue && x.id < c.id

/-- The unfinished collective packets of a queue that were taken before an id (R238, R337). -/
def State.collsBefore (s : State) (ctx queue id : Nat) : List CollPacket :=
  s.work.packets.filter fun x => x.ctx == ctx && x.queue == some queue && x.id < id

/-- A copy may not read some bytes of its source yet: an earlier packet of its queue is still to write their lines (R238). -/
def State.readsEarly (s : State) (c : Copy) (is : List Nat) : Bool :=
  (s.before c).any (fun x => (s.unreadOf c is).any x.unlanded.contains) ||
  (s.collsBefore c.ctx c.queue c.id).any fun x => (s.unreadOf c is).any x.meets

/-- A copy may not write a line yet: an earlier packet of its queue is still to write or to read it (R238). -/
def State.writesEarly (s : State) (c : Copy) (l : CLine) : Bool :=
  (s.before c).any (fun x => x.unlanded.contains l || (s.unread x).contains l) ||
  (s.collsBefore c.ctx c.queue c.id).any (·.meets l)

/-- Put a copy back. -/
def State.setCopy (s : State) (c : Copy) : State :=
  { s with work := { s.work with copies := s.work.copies.map fun x => if x.id == c.id then c else x } }

/-- Tokens of a class allow a line to move (R250): it holds some, and its rate is not 0; a class that the runtime has not set is
not limited (log 21). -/
def State.tokens (s : State) (ctx cls : Nat) (coll : Bool) : Bool :=
  match (s.ctx ctx).bind fun c => c.buckets.find? fun b => b.cls == cls && b.collective == coll with
  | some b => b.rate != 0 && b.tokens != 0
  | none => true

/-- A line of a class has moved. -/
def State.spend (s : State) (ctx cls : Nat) (coll : Bool) : State :=
  s.modCtx ctx fun c => { c with buckets := c.buckets.map fun b =>
    if b.cls == cls && b.collective == coll then { b with tokens := b.tokens - 128 } else b }

/-- The lines of some bytes have moved. -/
def State.spendFor (s : State) (ctx cls : Nat) (coll : Bool) (n : Nat) : State :=
  (List.range (ceilDiv n 128)).foldl (fun s _ => s.spend ctx cls coll) s

/-- The first of some bytes of the source that is global and not read yet. -/
def Copy.missing (c : Copy) (is : List Nat) : Option DWord :=
  if c.srcHandle.isSome then none
  else is.findSome? fun i => (c.srcVa i).filter fun va => !c.srcRead.any (·.1 == va.toNat)

/-- Byte i of the source, once its line was read. -/
def State.copyByte (s : State) (c : Copy) (i : Nat) : Byte :=
  match HandleEntry.range c.srcHandle with
  | some b =>
    match c.srcRead.find? (·.1 == i) with
    | some x => x.2
    | none => (s.spadRead b.grid b.team b.shareCore (b.ofs + i) 1).getD 0 0
  | none => ((c.srcVa i).bind fun va => (c.srcRead.find? (·.1 == va.toNat)).map (·.2)).getD 0

/-- One source line of a copy is read, as one access (R238): its bytes by virtual address. A read that fails is the copy's fault
(R240). -/
def State.copyReadLine (s : State) (c : Copy) (va : DWord) : Try :=
  let lo := BitVec.ofNat 64 (va.toNat / 128 * 128)
  if !s.tokens c.ctx c.packet.tbc false then .held s
  else match s.unitRead (.unit c.id) c.ctx lo 128 with
    | .ok s b =>
      .made ((s.spend c.ctx c.packet.tbc false).setCopy
        { c with srcRead := c.srcRead ++ (List.range 128).map fun j => (lo.toNat + j, b.getD j 0) })
    | .fault s cause _ => s.copyFail c cause.copyCode va
    | .blocked s => .held s

/-- The bytes that go to a destination line: their addresses or offsets, with their places in the dense side. -/
def Copy.lineBytes (c : Copy) (line : Nat) : List (Nat × Nat) :=
  match HandleEntry.range c.dstHandle with
  | some b => ((List.range 128).map fun j => 128 * line + j).filterMap fun o =>
      if b.ofs ≤ o && o < b.ofs + c.size then some (o, o - b.ofs) else none
  | none => c.dstMap.filter fun p => lineOf p.1 == line

/-- A line of a team core's share that the body of the team's open region has read (R313). -/
def State.regionSpad (s : State) (grid team core line : Nat) : Bool :=
  match (s.team grid team).bind (·.region) with
  | some r => r.st == .opened && r.heldSpad.contains (core, line)
  | none => false

/-- A line of a handle's range receives its bytes while the class holds tokens (R227, R242, R250); the last one makes the handle
FULL. -/
def State.landSpad (s : State) (c : Copy) (b : Binding) (line : Nat) (pairs : List (Nat × Byte)) : Try :=
  if s.regionSpad b.grid b.team b.shareCore line || !s.tokens c.ctx c.packet.tbc false then .held s
  else
    let s := pairs.foldl (fun s p => s.spadWrite b.grid b.team b.shareCore p.1 [p.2]) s
    let s := s.modShare b.grid b.team b.shareCore fun sh => sh.land [line]
    let c := { c with landed := keyAdd c.landed line }
    let s := s.setCopy c
    .made (if c.unlanded.isEmpty then (match c.dstHandle with | some h => s.setHandle h .full | none => s) else s)

/-- A global line receives its bytes, as one write on the path of its memory type (R223, R238); one that its target refuses by
now is the copy's fault (R222, R240). -/
def State.landGlob (s : State) (c : Copy) (line : Nat) (va : DWord) (pairs : List (Nat × Byte)) : Try :=
  let pa := 128 * line
  let mt := smGet 0 c.dstMt line
  let tg := s.targetAt pa mt
  if !s.tokens c.ctx c.packet.tbc false || s.blockedFor (.unit c.id) pa 128 true || s.barred (.unit c.id) pa mt then .held s
  else if !s.allowed tg c.ctx pa 128 .write then (s.refuse tg c.ctx pa .write).copyFail c 4 va
  else
    let s := (s.spend c.ctx c.packet.tbc false).setCopy { c with landed := keyAdd c.landed line, dstLines := keyDel c.dstLines line }
    .made (((if mt == 3 then s.flip pa else s).settleLine line).writeEach pairs)

/-- COPY_LINE_LAND (R227, R237, R238, R242): a destination line receives its bytes, once the source lines that they lie in have
been read: each of these reads is a move of its own. -/
def landLine (id line : Nat) (s : State) : State :=
  match s.work.copies.find? (·.id == id) with
  | none => s
  | some c =>
    let here : CLine := match HandleEntry.range c.dstHandle with | some b => .spad b.grid b.team b.shareCore line | none => .glob line
    let places := c.lineBytes line
    if !c.unlanded.contains here || s.writesEarly c here || s.readsEarly c (places.map (·.2)) then s
    else
      match c.missing (places.map (·.2)) with
      | some va => (s.copyReadLine c va).after s
      | none =>
        let pairs := places.map fun p => (p.1, s.copyByte c p.2)
        match HandleEntry.range c.dstHandle with
        | some b => (s.landSpad c b line pairs).after s
        | none => (s.landGlob c line (((places.head?).bind fun p => c.dstVa p.2).getD 0) pairs).after s

/-- COPY_SOURCE_READ_DONE (R242, R243): the source lines are read one by one; with the last of them a DRAINING handle becomes
FREE. -/
def sourceDone (id : Nat) (s : State) : State :=
  match s.work.copies.find? (·.id == id) with
  | none => s
  | some c =>
    if c.srcDone || s.readsEarly c (List.range c.size) || (c.srcHandle.isSome && !s.tokens c.ctx c.packet.tbc false) then s
    else match c.missing (List.range c.size) with
      | some va => (s.copyReadLine c va).after s
      | none =>
        let read := match c.srcHandle with
          | some _ => (List.range c.size).map fun i => (i, s.copyByte c i)
          | none => c.srcRead
        let s := s.setCopy { c with srcRead := read, srcDone := true }
        match c.srcHandle with | some h => s.setHandle h .free | none => s

/-- COPY_COMPLETE (R239): everything has landed; the completion counter receives 1. -/
def copyDone (id : Nat) (s : State) : State :=
  match s.work.copies.find? (·.id == id) with
  | none => s
  | some c =>
    if !c.srcDone || !c.unlanded.isEmpty then s
    else
      ((State.compAdd { s with work := { s.work with copies := s.work.copies.filter (·.id != id) } } c.ctx c.packet.comp 1).next
        fun s => .made s.reap).after s

/-- COPY_FAULT (R240): a source byte at an address cannot be read, for the reason that a code names. -/
def faultCopy (id code addr : Nat) (s : State) : State :=
  match s.work.copies.find? (·.id == id) with
  | none => s
  | some c =>
    let mine := !c.srcDone && c.srcHandle.isNone && !c.srcRead.any (·.1 == addr) &&
      (List.range c.size).any fun i => c.srcVa i == some (BitVec.ofNat 64 addr)
    if !mine then s
    else match s.unitWalk c.ctx (BitVec.ofNat 64 addr) 1 .read with
      | .fault s' cause _ => if cause.copyCode = code then (s'.copyFail c code (BitVec.ofNat 64 addr)).after s else s
      | _ => s

/-! ### Token buckets (R250) -/

/-- TOKEN_BUCKET_SET (R250): the class keeps what tokens it has, up to the new burst. -/
def bucketSet (ctx cls : Nat) (coll : Bool) (rate burst : Nat) (s : State) : State :=
  if 8 ≤ cls then s
  else s.modCtx ctx fun c =>
    let mine := fun (b : Bucket) => b.cls == cls && b.collective == coll
    let old := match c.buckets.find? mine with | some b => b.tokens | none => 0
    { c with buckets := c.buckets.filter (!mine ·) ++ [⟨cls, coll, rate, burst, min burst old⟩] }

/-- TOKEN_BUCKET_REFILL (R250). -/
def bucketFill (ctx cls : Nat) (coll : Bool) (s : State) : State :=
  s.modCtx ctx fun c => { c with buckets := c.buckets.map fun b =>
    if b.cls == cls && b.collective == coll then { b with tokens := min b.burst (b.tokens + b.rate) } else b }

/-! ### The meanings, one for each instruction and event -/

/-- `BWAIT` (R246). -/
def execBwait (w : XWord) (s : State) : Host.Outcome State Fault Refusal := finish (actBwait w s)

/-- `BSET` (R246). -/
def execBset (w : XWord) (s : State) : Host.Outcome State Fault Refusal := finish (actBset w s)

/-- `SRNEXT` (R248). -/
def execSrnext (w : XWord) (s : State) : Host.Outcome State Fault Refusal := finish (actSrnext w s)

/-- `CPQ` (R251). -/
def execCpq (w : MWord) (s : State) : Host.Outcome State Fault Refusal := finish (actCpq w s)

/-- COPY_PACKET_TAKE (R234, R235). -/
def execCopyPacketTake (ctx : Nat) (q : Nat) (s : State) : Host.Outcome State Fault Refusal :=
  .next (takePacket ctx q s)

/-- COPY_LINE_LAND (R242). -/
def execCopyLineLand (copy : Nat) (line : Nat) (s : State) : Host.Outcome State Fault Refusal :=
  .next (landLine copy line s)

/-- COPY_SOURCE_READ_DONE (R242). -/
def execCopySourceReadDone (copy : Nat) (s : State) : Host.Outcome State Fault Refusal :=
  .next (sourceDone copy s)

/-- COPY_COMPLETE (R239). -/
def execCopyComplete (copy : Nat) (s : State) : Host.Outcome State Fault Refusal :=
  .next (copyDone copy s)

/-- COPY_FAULT (R240). -/
def execCopyFault (copy : Nat) (code : Nat) (addr : Nat) (s : State) : Host.Outcome State Fault Refusal :=
  .next (faultCopy copy code addr s)

/-- CPQ_PUBLISH (R251). -/
def execCpqPublish (core : Nat) (s : State) : Host.Outcome State Fault Refusal :=
  .next (publish core s)

/-- RING_DEPTH_ADJUST (R247). -/
def execRingDepthAdjust (team : Nat) (teamCore : Nat) (ring : Nat) (depth : Nat) (s : State) : Host.Outcome State Fault Refusal :=
  .next (ringDepth team teamCore ring depth s)

/-- TOKEN_BUCKET_SET (R250). -/
def execTokenBucketSet (ctx : Nat) (cls : Nat) (collective : Bool) (rate : Nat) (burst : Nat) (s : State) : Host.Outcome State Fault Refusal :=
  .next (bucketSet ctx cls collective rate burst s)

/-- TOKEN_BUCKET_REFILL (R250). -/
def execTokenBucketRefill (ctx : Nat) (cls : Nat) (collective : Bool) (s : State) : Host.Outcome State Fault Refusal :=
  .next (bucketFill ctx cls collective s)

end Sys2Proof.Machine
end

