-- ==== Sys2Proof/Machine/Vector.lean ====
section
/-! DEFINITION. The vector and uniform instructions that compute one lane's result from that lane's sources (R160-R181):
integer arithmetic, logic, bit fields, comparison, moves, floating point and the wide accumulator, in formats 0 and 1 and
in paired words (R36-R38). -/

namespace Sys2Proof.Machine

/-! ### One lane's result -/

/-- e(a) of `mul24` and `mad24` (R165): the low 24 bits in the type's signedness. -/
def low24 (t : Ty) (a : Nat) : Int := if t.signed then sextNat a 24 else (a % 2 ^ 24 : Nat)

/-- f(a, b, c) of the integer instructions (R165 Table 3), exact. -/
def intExact (op : ROp) (t : Ty) (a b c : Nat) : Int :=
  let x := t.intOf a
  let y := t.intOf b
  match op with
  | .add => x + y
  | .sub => x - y
  | .mul24 => low24 t a * low24 t b
  | .mul32 => x * y
  | .mulhi => x * y / 2 ^ 32
  | .mad24 => low24 t a * low24 t b + t.intOf c
  | .mad32 => x * y + t.intOf c
  | .min => min x y
  | .max => max x y
  | .abs => x.natAbs
  | _ => -x

/-- The bits of a reversed within w (R168). -/
def revBits (w a : Nat) : Nat := (List.range w).foldl (fun acc i => 2 * acc + a / 2 ^ i % 2) 0

/-- The number of 1 bits among the low w (R168). -/
def onesIn (w a : Nat) : Nat := (List.range w).foldl (fun acc i => acc + a / 2 ^ i % 2) 0

/-- Logic and shifts (R168 Table 5) on w bits; s is the shift amount. -/
def logicBits (op : ROp) (w a b s : Nat) : Nat :=
  let m := 2 ^ w
  match op with
  | .and => Nat.land a b
  | .or => Nat.lor a b
  | .xor => Nat.xor a b
  | .not => m - 1 - a % m
  | .andn => Nat.land a (m - 1 - b % m)
  | .shl => if w ≤ s then 0 else a * 2 ^ s % m
  | .shr => if w ≤ s then 0 else a % m / 2 ^ s
  | .sar => truncInt (sextNat a w / 2 ^ (min s w)) w
  | .rotl => (a * 2 ^ (s % w) % m) + a % m / 2 ^ (w - s % w)
  | .popc => onesIn w a
  | .clz => w - bitLen (a % m)
  | _ => revBits w a

/-- `bfx` (R169). -/
def bfxBits (t : Ty) (a b : Nat) : Nat :=
  let p := b % 32
  let n := min (b / 256 % 64) 32
  let f := truncInt (t.intOf a / 2 ^ p) n
  if t.signed then truncInt (sextNat f n) 32 else f

/-- `bfi` (R169). -/
def bfiBits (a b c : Nat) : Nat :=
  let p := b % 32
  let n := min (b / 256 % 64) 32
  let m := (2 ^ n - 1) * 2 ^ p % 2 ^ 32
  Nat.lor (Nat.land c (2 ^ 32 - 1 - m)) (Nat.land (a * 2 ^ p % 2 ^ 32) m)

/-- A word with one bit replaced (R170). -/
def setBit (d bit : Nat) (r : Bool) : Nat := d - d / 2 ^ bit % 2 * 2 ^ bit + (if r then 2 ^ bit else 0)

/-- The sum or product of the floating instructions (R173 Table 7), exact, with its NV. -/
def floatExact (op : ROp) (a b c : Exact) (mode : Rnd) : Exact × FpFlags :=
  match op with
  | .fadd => addEx a b mode
  | .fsub => addEx a b.negate mode
  | .fmul => mulEx a b
  | _ => fmaEx a b c mode

/-- COND and DBIT of `cmp` and `fcmp` (R170). -/
def condOf (x : Nat) : Nat × Nat := (x % 8, x / 8 % 32)

/-- One lane's result as bits of D's type, with its flags (R165-R177): a, b and c are the sources' bits, d the old D of
`cmp` and `fcmp`, `mode` the rounding mode in force and rho the draw. `fclass` raises nothing (log 80). -/
def laneResult (op : ROp) (w : RWord) (mode : Rnd) (a b c d rho : Nat) : Nat × FpFlags :=
  let t := w.ty
  match op with
  | .add | .sub | .mul24 | .mul32 | .mulhi | .mad24 | .mad32 | .min | .max | .abs | .neg =>
    (reduceInt (intExact op t a b c) t w.sat, 0)
  | .addw =>
    let wt := t.widened.getD .i64
    (reduceInt (t.intOf a + wt.intOf b) wt w.sat, 0)
  | .lea => (truncInt (sextNat a 64 + sextNat b 32 * 2 ^ (w.opx.toNat % 8)) 64, 0)
  | .and | .or | .xor | .not | .andn | .popc | .clz | .brev => (logicBits op t.width a b 0, 0)
  | .shl | .shr | .sar | .rotl => (logicBits op t.width a 0 b, 0)
  | .bfx => (bfxBits t a b, 0)
  | .bfi => (bfiBits a b c, 0)
  | .cmp => let (cnd, bit) := condOf w.opx.toNat; (setBit d bit (condInt cnd (t.intOf a) (t.intOf b)), 0)
  | .fcmp => let (cnd, bit) := condOf w.opx.toNat; let (r, f) := condFloat t cnd a b; (setBit d bit r, f)
  | .sel => (if c / 2 ^ (w.opx.toNat % 32) % 2 = 1 then a else b, 0)
  | .mov => (a, 0)
  | .fadd | .fsub | .fmul | .fma =>
    let (x, f) := floatExact op (decode t a) (decode t b) (decode t c) mode
    let (r, g) := roundTo t x mode w.sat rho
    (r, f ||| g)
  | .fscale => scaleBy t a (sextNat b 32) mode w.sat rho
  | .frnd => roundIntegral t a mode rho
  | .fmin => minMax t false a b
  | .fmax => minMax t true a b
  | .fcvt => convert t ((Ty.ofCode w.opx.toNat).getD .i32) a mode w.sat rho
  | .fclass => (2 ^ classOf t a, 0)
  | _ => (0, 0)

/-! ### The shared checks of formats 0 and 1 -/

end Sys2Proof.Machine

namespace Sys2Proof
open Machine

/-- Registers of D, and of the sources A, B and C (R24, R180, R187). -/
def ROp.dRegs (op : ROp) (w : RWord) : Nat :=
  match op with | .xacc => 8 | .kcg => 4 | _ => (op.slotD w).regs

@[inherit_doc ROp.dRegs] def ROp.aRegs (op : ROp) (w : RWord) : Nat :=
  match op with | .xcvt => 8 | .kcg => 4 | _ => (op.slotA w).regs

/-- The port (R34 Table 10). -/
def ROp.port : ROp → Port
  | .add | .sub | .addw | .min | .max | .abs | .neg | .and | .or | .xor | .not | .andn | .shl | .shr | .sar | .rotl
  | .cmp | .sel | .mov | .lea | .fmin | .fmax | .fcmp | .fclass | .shfl | .push | .bcast | .vote => .v1
  | _ => .v0

/-- Whether an instruction may stand in a relaxation body (R312 Table 2). -/
def ROp.inBody (op : ROp) : Bool := !op.crossLane

/-- What the shared checks see of a format-0 word: A, B and C, then D where part of it is kept (R161); NONDET of the
instructions across lanes in a group formed from a bin (R182); `ballot` with n32 in a group of width 64 (R186). -/
def ROp.front (op : ROp) (w : RWord) : Front where
  guard := w.guard
  hints := w.hints
  ports := [if op.uniform w then .ctl else op.port]
  srcs :=
    [⟨w.a, op.aRegs w, w.hints.tea, w.hints.lua⟩] ++
    (if op.unary then [] else [⟨w.b, (op.slotB w).regs, w.hints.teb, w.hints.lub⟩]) ++
    (match w.c with
     | some c => if op = .push then [] else [⟨c, (op.slotC w).regs, w.hints.tec, false⟩]
     | none => []) ++
    (if op.readsD then [⟨w.d, op.dRegs w, false, false⟩] else [])
  dsts := [(w.d, op.dRegs w)] ++ (match w.c with | some c => if op = .push then [(c, 1)] else [] | none => [])
  body := op.inBody
  illop := fun g => op = .vote && w.ty = .n32 && w.opx.toNat % 4 = 2 && g.id.width = 64
  nondet := fun id => op.crossLane && id.bin && id.det

end Sys2Proof

namespace Sys2Proof.Machine

/-- The draw of a lane's instruction, made only under sr (R96). -/
def State.rho (s : State) (c : Ctx) (once : Bool) (mode : Rnd) (lane : Nat) : Nat :=
  if mode = .sr then (if once then s.onceDraw c else s.laneDraw c lane) else 0

/-- The result of one lane of a format-0 instruction: its sources read by their slots (R165-R177). -/
def State.laneBits (s : State) (c : Ctx) (op : ROp) (w : RWord) (lane : Nat) : Nat × FpFlags :=
  let g := c.g
  let mode := g.rounding w.rnd
  laneResult op w mode (g.rd w.a lane (op.slotA w)) (g.rd w.b lane (op.slotB w))
    (match w.c with | some x => g.rd x lane (op.slotC w) | none => 0)
    (if op.readsD then g.rd w.d lane .n32 else 0) (s.rho c (op.uniform w) mode lane)

/-- A format-0 instruction that computes each lane by itself (R165-R177). -/
def actAlu (op : ROp) (w : RWord) (s : State) : Act :=
  s.issue (op.front w) fun c =>
    let res := (c.lanesOf (op.uniform w)).map fun l => (l, s.laneBits c op w l)
    s.commitFlags c (op.front w) (op.uniform w)
      (res.flatMap fun r => c.g.wr w.d r.1 (op.slotD w) r.2.1) (res.map fun r => (r.1, r.2.2))

/-! ### Format 1 (R31) -/

end Sys2Proof.Machine

namespace Sys2Proof
open Machine

/-- The format-0 word whose meaning a format-1 word has: the implied TYPE, and the immediate's fields of `cmp` and the
shifts (R31 Table 8). -/
def IOp.word (op : IOp) (w : ImmWord) : RWord where
  d := w.d
  a := w.a
  b := .zero
  guard := w.guard
  hints := w.hints
  opx := if op = .cmp then BitVec.ofNat 11 (w.imm.toNat / 2 ^ 21 + 8 * (w.imm.toNat / 2 ^ 16 % 32)) else 0
  c := none
  sat := false
  rnd := .rne
  ty := op.ty

/-- The immediate as B's bits (R31 Table 8): `cmp` reads its low 16 bits sign-extended. -/
def IOp.immBits (op : IOp) (w : ImmWord) : Nat :=
  if op = .cmp then truncInt (sextNat w.imm.toNat 16) 32 else w.imm.toNat

/-- What the shared checks see of a format-1 word. -/
def IOp.front (op : IOp) (w : ImmWord) : Front where
  guard := w.guard
  hints := w.hints
  ports := [if op.uniform w then .ctl else op.toR.port]
  srcs :=
    (if op = .mov then [] else [⟨w.a, op.ty.regs, w.hints.tea, w.hints.lua⟩]) ++
    (if op = .cmp then [⟨w.d, 1, false, false⟩] else [])
  dsts := [(w.d, op.toR.dRegs (op.word w))]

end Sys2Proof

namespace Sys2Proof.Machine

/-- The result of one lane of a format-1 instruction; `mov` takes the immediate itself (R172). -/
def Ctx.immLane (c : Ctx) (op : IOp) (w : ImmWord) (lane : Nat) : Nat × FpFlags :=
  let x := op.word w
  if op = .mov then (w.imm.toNat, 0)
  else laneResult op.toR x .rne (c.g.rd w.a lane op.ty) (op.immBits w) 0 (if op = .cmp then c.g.rd w.d lane .n32 else 0) 0

/-- A format-1 instruction. -/
def actImm (op : IOp) (w : ImmWord) (s : State) : Act :=
  s.issue (op.front w) fun c =>
    let res := (c.lanesOf (op.uniform w)).map fun l => (l, c.immLane op w l)
    s.commitFlags c (op.front w) (op.uniform w)
      (res.flatMap fun r => c.g.wr w.d r.1 (op.toR.slotD (op.word w)) r.2.1) (res.map fun r => (r.1, r.2.2))

/-! ### Paired words (R36-R38) -/

end Sys2Proof.Machine

namespace Sys2Proof
open Machine

/-- The format-0 word that a half stands for: every operand of class v, RND rne, SAT 0 (R36). -/
def PHalf.word (h : PHalf) (w : PWord) : RWord where
  d := .v h.d
  a := .v h.a
  b := .v h.b
  guard := w.guard
  hints := w.hints
  opx := 0
  c := none
  sat := false
  rnd := .rne
  ty := h.ty

/-- The sources of a half, in the order A, B. -/
def PHalf.srcs (h : PHalf) (x : Hints) : List Src :=
  [⟨.v h.a, h.ty.regs, x.tea, x.lua⟩] ++ (if h.op.unary then [] else [⟨.v h.b, h.bRegs, x.teb, x.lub⟩])

/-- What the shared checks see of a paired word. Its four sources are checked in the order A0, B0, A1, B1, of which the first that fails
gives TRAPLANES; the manual has an order for A, B and C alone (R40; log 96). -/
def PWord.front (w : PWord) : Front where
  guard := w.guard
  hints := w.hints
  ports := [.v0, .v1]
  srcs := w.h0.srcs w.hints ++ w.h1.srcs w.hints
  dsts := [(.v w.h0.d, w.h0.ty.regs), (.v w.h1.d, w.h1.ty.regs)]

end Sys2Proof

namespace Sys2Proof.Machine

/-- A paired word: both halves read before either writes, over the same lanes; their flags join (R38). -/
def actPair (w : PWord) (s : State) : Act :=
  s.issue w.front fun c =>
    let half := fun (h : PHalf) => c.act.map fun l => (l, s.laneBits c h.op (h.word w) l)
    let r0 := half w.h0
    let r1 := half w.h1
    let wr := fun (h : PHalf) (r : List (Nat × Nat × FpFlags)) =>
      r.flatMap fun x => c.g.wr (.v h.d) x.1 (h.op.slotD (h.word w)) x.2.1
    s.commitFlags c w.front false (wr w.h0 r0 ++ wr w.h1 r1) ((r0 ++ r1).map fun r => (r.1, r.2.2))

/-! ### The wide accumulator (R180, R181) -/

end Sys2Proof.Machine

namespace Sys2Proof
open Machine

/-- The anchor E in OPX (R180). -/
def RWord.anchor (w : RWord) : Int := sextNat w.opx.toNat 11

end Sys2Proof

namespace Sys2Proof.Machine

/-- `xacc` (R180). -/
def actXacc (w : RWord) (s : State) : Act :=
  let once := ROp.uniform .xacc w
  s.issue (ROp.front .xacc w) fun c =>
    let res := (c.lanesOf once).map fun l =>
      let (v, f) := accumulate (sextNat (c.g.bits w.d 8 l) 256) (decode w.ty (c.g.rd w.a l w.ty)) w.anchor
      (l, truncInt v 256, f)
    s.commitFlags c (ROp.front .xacc w) once (res.flatMap fun r => c.g.split w.d 8 r.1 r.2.1) (res.map fun r => (r.1, r.2.2))

/-- `xcvt` (R181). -/
def actXcvt (w : RWord) (s : State) : Act :=
  let once := ROp.uniform .xcvt w
  s.issue (ROp.front .xcvt w) fun c =>
    let mode := c.g.rounding w.rnd
    let res := (c.lanesOf once).map fun l =>
      (l, wideTo w.ty (sextNat (c.g.bits w.a 8 l) 256) w.anchor mode w.sat (s.rho c once mode l))
    s.commitFlags c (ROp.front .xcvt w) once (res.flatMap fun r => c.g.wr w.d r.1 w.ty r.2.1) (res.map fun r => (r.1, r.2.2))

/-! ### The meanings, one for each instruction and event -/

/-- `ADD` (R165). -/
def execAdd (w : RWord) (s : State) : Host.Outcome State Fault Refusal := finish (actAlu .add w s)

/-- `SUB` (R165). -/
def execSub (w : RWord) (s : State) : Host.Outcome State Fault Refusal := finish (actAlu .sub w s)

/-- `ADDW` (R166). -/
def execAddw (w : RWord) (s : State) : Host.Outcome State Fault Refusal := finish (actAlu .addw w s)

/-- `MUL24` (R165). -/
def execMul24 (w : RWord) (s : State) : Host.Outcome State Fault Refusal := finish (actAlu .mul24 w s)

/-- `MUL32` (R165). -/
def execMul32 (w : RWord) (s : State) : Host.Outcome State Fault Refusal := finish (actAlu .mul32 w s)

/-- `MULHI` (R165). -/
def execMulhi (w : RWord) (s : State) : Host.Outcome State Fault Refusal := finish (actAlu .mulhi w s)

/-- `MAD24` (R165). -/
def execMad24 (w : RWord) (s : State) : Host.Outcome State Fault Refusal := finish (actAlu .mad24 w s)

/-- `MAD32` (R165). -/
def execMad32 (w : RWord) (s : State) : Host.Outcome State Fault Refusal := finish (actAlu .mad32 w s)

/-- `MIN` (R165). -/
def execMin (w : RWord) (s : State) : Host.Outcome State Fault Refusal := finish (actAlu .min w s)

/-- `MAX` (R165). -/
def execMax (w : RWord) (s : State) : Host.Outcome State Fault Refusal := finish (actAlu .max w s)

/-- `ABS` (R165). -/
def execAbs (w : RWord) (s : State) : Host.Outcome State Fault Refusal := finish (actAlu .abs w s)

/-- `NEG` (R165). -/
def execNeg (w : RWord) (s : State) : Host.Outcome State Fault Refusal := finish (actAlu .neg w s)

/-- `AND` (R168). -/
def execAnd (w : RWord) (s : State) : Host.Outcome State Fault Refusal := finish (actAlu .and w s)

/-- `OR` (R168). -/
def execOr (w : RWord) (s : State) : Host.Outcome State Fault Refusal := finish (actAlu .or w s)

/-- `XOR` (R168). -/
def execXor (w : RWord) (s : State) : Host.Outcome State Fault Refusal := finish (actAlu .xor w s)

/-- `NOT` (R168). -/
def execNot (w : RWord) (s : State) : Host.Outcome State Fault Refusal := finish (actAlu .not w s)

/-- `ANDN` (R168). -/
def execAndn (w : RWord) (s : State) : Host.Outcome State Fault Refusal := finish (actAlu .andn w s)

/-- `SHL` (R168). -/
def execShl (w : RWord) (s : State) : Host.Outcome State Fault Refusal := finish (actAlu .shl w s)

/-- `SHR` (R168). -/
def execShr (w : RWord) (s : State) : Host.Outcome State Fault Refusal := finish (actAlu .shr w s)

/-- `SAR` (R168). -/
def execSar (w : RWord) (s : State) : Host.Outcome State Fault Refusal := finish (actAlu .sar w s)

/-- `ROTL` (R168). -/
def execRotl (w : RWord) (s : State) : Host.Outcome State Fault Refusal := finish (actAlu .rotl w s)

/-- `POPC` (R168). -/
def execPopc (w : RWord) (s : State) : Host.Outcome State Fault Refusal := finish (actAlu .popc w s)

/-- `CLZ` (R168). -/
def execClz (w : RWord) (s : State) : Host.Outcome State Fault Refusal := finish (actAlu .clz w s)

/-- `BREV` (R168). -/
def execBrev (w : RWord) (s : State) : Host.Outcome State Fault Refusal := finish (actAlu .brev w s)

/-- `BFX` (R169). -/
def execBfx (w : RWord) (s : State) : Host.Outcome State Fault Refusal := finish (actAlu .bfx w s)

/-- `BFI` (R169). -/
def execBfi (w : RWord) (s : State) : Host.Outcome State Fault Refusal := finish (actAlu .bfi w s)

/-- `CMP` (R170). -/
def execCmp (w : RWord) (s : State) : Host.Outcome State Fault Refusal := finish (actAlu .cmp w s)

/-- `SEL` (R171). -/
def execSel (w : RWord) (s : State) : Host.Outcome State Fault Refusal := finish (actAlu .sel w s)

/-- `MOV` (R172). -/
def execMov (w : RWord) (s : State) : Host.Outcome State Fault Refusal := finish (actAlu .mov w s)

/-- `LEA` (R167). -/
def execLea (w : RWord) (s : State) : Host.Outcome State Fault Refusal := finish (actAlu .lea w s)

/-- `FADD` (R173). -/
def execFadd (w : RWord) (s : State) : Host.Outcome State Fault Refusal := finish (actAlu .fadd w s)

/-- `FSUB` (R173). -/
def execFsub (w : RWord) (s : State) : Host.Outcome State Fault Refusal := finish (actAlu .fsub w s)

/-- `FMUL` (R173). -/
def execFmul (w : RWord) (s : State) : Host.Outcome State Fault Refusal := finish (actAlu .fmul w s)

/-- `FMA` (R173). -/
def execFma (w : RWord) (s : State) : Host.Outcome State Fault Refusal := finish (actAlu .fma w s)

/-- `FMIN` (R174). -/
def execFmin (w : RWord) (s : State) : Host.Outcome State Fault Refusal := finish (actAlu .fmin w s)

/-- `FMAX` (R174). -/
def execFmax (w : RWord) (s : State) : Host.Outcome State Fault Refusal := finish (actAlu .fmax w s)

/-- `FCMP` (R175). -/
def execFcmp (w : RWord) (s : State) : Host.Outcome State Fault Refusal := finish (actAlu .fcmp w s)

/-- `FCVT` (R176). -/
def execFcvt (w : RWord) (s : State) : Host.Outcome State Fault Refusal := finish (actAlu .fcvt w s)

/-- `FRND` (R173). -/
def execFrnd (w : RWord) (s : State) : Host.Outcome State Fault Refusal := finish (actAlu .frnd w s)

/-- `FCLASS` (R177). -/
def execFclass (w : RWord) (s : State) : Host.Outcome State Fault Refusal := finish (actAlu .fclass w s)

/-- `FSCALE` (R173). -/
def execFscale (w : RWord) (s : State) : Host.Outcome State Fault Refusal := finish (actAlu .fscale w s)

/-- `ADD_IMM` (R31, R165, format 1). -/
def execAddImm (w : ImmWord) (s : State) : Host.Outcome State Fault Refusal := finish (actImm .add w s)

/-- `SUB_IMM` (R31, R165, format 1). -/
def execSubImm (w : ImmWord) (s : State) : Host.Outcome State Fault Refusal := finish (actImm .sub w s)

/-- `MUL24_IMM` (R31, R165, format 1). -/
def execMul24Imm (w : ImmWord) (s : State) : Host.Outcome State Fault Refusal := finish (actImm .mul24 w s)

/-- `MUL32_IMM` (R31, R165, format 1). -/
def execMul32Imm (w : ImmWord) (s : State) : Host.Outcome State Fault Refusal := finish (actImm .mul32 w s)

/-- `MIN_IMM` (R31, R165, format 1). -/
def execMinImm (w : ImmWord) (s : State) : Host.Outcome State Fault Refusal := finish (actImm .min w s)

/-- `MAX_IMM` (R31, R165, format 1). -/
def execMaxImm (w : ImmWord) (s : State) : Host.Outcome State Fault Refusal := finish (actImm .max w s)

/-- `AND_IMM` (R31, R168, format 1). -/
def execAndImm (w : ImmWord) (s : State) : Host.Outcome State Fault Refusal := finish (actImm .and w s)

/-- `OR_IMM` (R31, R168, format 1). -/
def execOrImm (w : ImmWord) (s : State) : Host.Outcome State Fault Refusal := finish (actImm .or w s)

/-- `XOR_IMM` (R31, R168, format 1). -/
def execXorImm (w : ImmWord) (s : State) : Host.Outcome State Fault Refusal := finish (actImm .xor w s)

/-- `ANDN_IMM` (R31, R168, format 1). -/
def execAndnImm (w : ImmWord) (s : State) : Host.Outcome State Fault Refusal := finish (actImm .andn w s)

/-- `SHL_IMM` (R31, R168, format 1). -/
def execShlImm (w : ImmWord) (s : State) : Host.Outcome State Fault Refusal := finish (actImm .shl w s)

/-- `SHR_IMM` (R31, R168, format 1). -/
def execShrImm (w : ImmWord) (s : State) : Host.Outcome State Fault Refusal := finish (actImm .shr w s)

/-- `SAR_IMM` (R31, R168, format 1). -/
def execSarImm (w : ImmWord) (s : State) : Host.Outcome State Fault Refusal := finish (actImm .sar w s)

/-- `ROTL_IMM` (R31, R168, format 1). -/
def execRotlImm (w : ImmWord) (s : State) : Host.Outcome State Fault Refusal := finish (actImm .rotl w s)

/-- `CMP_IMM` (R31, R170, format 1). -/
def execCmpImm (w : ImmWord) (s : State) : Host.Outcome State Fault Refusal := finish (actImm .cmp w s)

/-- `MOV_IMM` (R31, R172, format 1). -/
def execMovImm (w : ImmWord) (s : State) : Host.Outcome State Fault Refusal := finish (actImm .mov w s)

/-- `LEA_IMM` (R31, R167, format 1). -/
def execLeaImm (w : ImmWord) (s : State) : Host.Outcome State Fault Refusal := finish (actImm .lea w s)

/-- `PAIRED_WORD` (R36-R38). -/
def execPairedWord (w : PWord) (s : State) : Host.Outcome State Fault Refusal := finish (actPair w s)

/-- `XACC` (R180). -/
def execXacc (w : RWord) (s : State) : Host.Outcome State Fault Refusal := finish (actXacc w s)

/-- `XCVT` (R181). -/
def execXcvt (w : RWord) (s : State) : Host.Outcome State Fault Refusal := finish (actXcvt w s)

end Sys2Proof.Machine
end

