-- ==== Sys2Proof/Machine/Sfu.lean ====
section
/-! DEFINITION. The special-function unit (R178, R179): the correctly rounded functions, by exact integer arithmetic and
enclosures refined until one rounding is certain (log 14), and the SFU queue. -/

namespace Sys2Proof.Machine

/-! ### Exact roots and quotients -/

/-- The integer square root, bit by bit from bit k. -/
def isqrtFrom (n : Nat) : Nat → Nat → Nat
  | 0, r => r
  | k + 1, r => if (r + 2 ^ k) * (r + 2 ^ k) ≤ n then isqrtFrom n k (r + 2 ^ k) else isqrtFrom n k r

@[inherit_doc isqrtFrom] def isqrt (n : Nat) : Nat := isqrtFrom n (bitLen n / 2 + 1) 0

/-- A value strictly between q and q + 1 at step 2^e, or q itself: a sticky bit below keeps every rounding the same. -/
def stickyAt (neg : Bool) (q : Nat) (exact : Bool) (e : Int) : Exact :=
  if exact then .fin neg q e else .fin neg (2 * q + 1) (e - 1)

/-- 1/(m × 2^e). -/
def rcpEx (neg : Bool) (m : Nat) (e : Int) : Exact :=
  let k := bitLen m + 64
  stickyAt neg (2 ^ k / m) (2 ^ k % m = 0) (-e - k)

/-- m × 2^e with an even exponent. -/
def evenExp (m : Nat) (e : Int) : Nat × Int := if e % 2 = 0 then (m, e) else (2 * m, e - 1)

/-- √(m × 2^e). -/
def sqrtEx (m : Nat) (e : Int) : Exact :=
  let (m, e) := evenExp m e
  let r := isqrt (m * 2 ^ 128)
  stickyAt false r (r * r = m * 2 ^ 128) (e / 2 - 64)

/-- 1/√(m × 2^e). -/
def rsqEx (m : Nat) (e : Int) : Exact :=
  let (m, e) := evenExp m e
  let k := bitLen m + 80
  let r := isqrt (2 ^ (2 * k) / m)
  stickyAt false r (r * r * m = 2 ^ (2 * k)) (-(e / 2) - k)

/-! ### Series in fixed point: values scaled by 2^p, each within 2^16 units -/

/-- Σ r^i / i!, from the i-th term on. -/
def expSum (p r : Nat) : Nat → Nat → Nat → Nat → Nat
  | 0, _, _, acc => acc
  | n + 1, i, t, acc =>
    let t := t * r / 2 ^ p / i
    if t = 0 then acc else expSum p r n (i + 1) t (acc + t)

/-- e^r for 0 ≤ r < 1. -/
def expFix (p r : Nat) : Nat := expSum p r p 1 (2 ^ p) (2 ^ p)

/-- Σ z^(2i+1) / (2i+1) from a power on, with alternating signs when `alt`. -/
def atanSum (p z2 : Nat) (alt : Bool) : Nat → Nat → Int → Nat → Int → Int
  | 0, _, _, _, acc => acc
  | n + 1, d, sg, t, acc =>
    let t := t * z2 / 2 ^ p
    let sg := if alt then -sg else sg
    if t = 0 then acc else atanSum p z2 alt n (d + 2) sg t (acc + sg * ((t / (d + 2) : Nat) : Int))

/-- atanh z, or arctan z, for small z. -/
def atanFix (p z : Nat) (alt : Bool) : Nat := (atanSum p (z * z / 2 ^ p) alt p 1 1 z z).toNat

/-- ln 2. -/
def ln2Fix (p : Nat) : Nat := 2 * atanFix p (2 ^ p / 3) false

/-- π, by Machin's formula. -/
def piFix (p : Nat) : Nat := 16 * atanFix p (2 ^ p / 5) true - 4 * atanFix p (2 ^ p / 239) true

/-- log2 of x in [1, 2). -/
def log2Fix (p x : Nat) : Nat :=
  let z := (x - 2 ^ p) * 2 ^ p / (x + 2 ^ p)
  2 * atanFix p z false * 2 ^ p / ln2Fix p

/-- Σ of the sine or cosine series from a term on. -/
def trigSum (p r2 : Nat) : Nat → Nat → Int → Nat → Int → Int
  | 0, _, _, _, acc => acc
  | n + 1, i, sg, t, acc =>
    let t := t * r2 / 2 ^ p / (i * (i + 1))
    if t = 0 then acc else trigSum p r2 n (i + 2) (-sg) t (acc - sg * (t : Int))

/-- sin r and cos r for 0 ≤ r < 2. -/
def sinFix (p r : Nat) : Int := trigSum p (r * r / 2 ^ p) p 2 1 r r

@[inherit_doc sinFix] def cosFix (p r : Nat) : Int := trigSum p (r * r / 2 ^ p) p 1 1 (2 ^ p) (2 ^ p : Nat)

/-! ### Enclosures -/

/-- A positive value within 2^24 units of v × 2^e: the value with a sticky bit below its leading 64 bits, if both ends of
the enclosure agree there. -/
def enclosed (neg : Bool) (v : Nat) (e : Int) : Option Exact :=
  let err := 2 ^ 24
  let k := bitLen v - 64
  if v ≤ err then none
  else if (v - err) / 2 ^ k = (v + err) / 2 ^ k then some (.fin neg (2 * (v / 2 ^ k) + 1) (e + k - 1)) else none

/-- A value just below or just above m × 2^e, nearer than any rounding boundary. -/
def justBelow (neg : Bool) (m : Nat) (e : Int) : Exact := .fin neg (2 * (m * 2 ^ 60 - 1) + 1) (e - 61)

/-- m × 2^e scaled by 2^p, rounded down; exact when p covers e. -/
def scaled (p m : Nat) (e : Int) : Nat :=
  if 0 ≤ e + p then m * 2 ^ (e + p).toNat else m / 2 ^ (-(e + p)).toNat

/-- e^a for a = ±m × 2^e with |a| < 2^12: X in [1, 2) scaled by 2^p, and n with e^a = X × 2^n. -/
def expSplit (p : Nat) (neg : Bool) (m : Nat) (e : Int) : Nat × Int :=
  let q := p + 16
  let l := ln2Fix q
  let a : Int := if neg then -(scaled q m e : Int) else (scaled q m e : Int)
  let n := a / (l : Int)
  ((expFix q (a - n * l).toNat) / 2 ^ 16, n)

/-- 2^a for a not an integer and |a| < 2^11. -/
def ex2At (p : Nat) (neg : Bool) (m : Nat) (e : Int) : Option Exact :=
  let a : Int := if neg then -(scaled p m e : Int) else (scaled p m e : Int)
  let n := a / (2 ^ p : Nat)
  let f := (a - n * (2 ^ p : Nat)).toNat
  enclosed false (expFix p (f * ln2Fix p / 2 ^ p)) (n - p)

/-- log2 (m × 2^e) for m not a power of two. -/
def lg2At (p m : Nat) (e : Int) : Option Exact :=
  let b := bitLen m - 1
  let v : Int := (e + b) * (2 ^ p : Nat) + (log2Fix p (m * 2 ^ p / 2 ^ b) : Int)
  enclosed (v < 0) v.natAbs (-p)

/-- sin or cos of a = ±m × 2^e. -/
def trigAt (p : Nat) (cos : Bool) (neg : Bool) (m : Nat) (e : Int) : Option Exact :=
  let q := p + 160
  let half := piFix q / 2
  let a := scaled q m e
  let k := a / half
  let r := (a % half) / 2 ^ 160
  let quad := (k + (if cos then 1 else 0)) % 4
  let v : Int := if quad % 2 = 0 then sinFix p r else cosFix p r
  let sg := (quad ≥ 2) != (neg && !cos)
  enclosed (sg != (v < 0)) v.natAbs (-p)

/-- tanh of m × 2^e > 0. -/
def tanhAt (p : Nat) (neg : Bool) (m : Nat) (e : Int) : Option Exact :=
  let (x, n) := expSplit p true m (e + 1)
  let y := x / 2 ^ (-n).toNat
  enclosed neg ((2 ^ p - y) * 2 ^ p / (2 ^ p + y)) (-p)

/-- 1/(1 + e^−a) of ±m × 2^e: for a < 0, X/(2^−n + X). -/
def sigAt (p : Nat) (neg : Bool) (m : Nat) (e : Int) : Option Exact :=
  let (x, n) := expSplit p true m e
  let d := 2 ^ (p + (-n).toNat) + x
  if neg then enclosed false (x * 2 ^ (p + (-n).toNat) / d) (-(p : Int) + n)
  else enclosed false (2 ^ (p + (-n).toNat) * 2 ^ p / d) (-p)

/-- The first enclosure that decides, over rising precision (log 14). -/
def refine (f : Nat → Option Exact) : Exact :=
  match f 192 with
  | some x => x
  | none => match f 448 with
    | some x => x
    | none => (f 1024).getD (.nan false)

/-- The magnitude is at least 2^k. -/
def atLeast (m : Nat) (e : Int) (k : Int) : Bool := k < (bitLen m : Int) + e

/-- An SFU function at a finite nonzero operand, exact or with a sticky bit (R178). -/
def sfuFin (fn : Nat) (neg : Bool) (m : Nat) (e : Int) : Exact :=
  match fn with
  | 0 => rcpEx neg m e
  | 1 => rsqEx m e
  | 2 => sqrtEx m e
  | 3 =>
    if 0 ≤ e || m % 2 ^ (-e).toNat = 0 then
      let n := if atLeast m e 12 then 4096 else (scaled 0 m e : Int)
      .fin false 1 (if neg then -n else n)
    else if atLeast m e 11 then .fin false 3 (if neg then -4096 else 4096)
    else refine fun p => ex2At p neg m e
  | 4 => if m = 2 ^ (bitLen m - 1) then .ofInt (e + bitLen m - 1) else refine fun p => lg2At p m e
  | 5 => if atLeast m e (-40) then refine fun p => trigAt p false neg m e else justBelow neg m e
  | 6 => if atLeast m e (-40) then refine fun p => trigAt p true neg m e else justBelow false 1 0
  | 7 =>
    if !atLeast m e (-40) then justBelow neg m e
    else if atLeast m e 6 then justBelow neg 1 0
    else refine fun p => tanhAt p neg m e
  | _ =>
    if atLeast m e 11 && neg then .fin false 3 (-4096)
    else if atLeast m e 8 && !neg then justBelow false 1 0
    else if !atLeast m e (-80) then (if neg then justBelow false 1 (-1) else .fin false (2 ^ 61 + 1) (-62))
    else refine fun p => sigAt p neg m e

/-- The reference value of an SFU function, with DZ and NV (R178 Table 9). -/
def sfuValue (fn : Nat) (x : Exact) : Exact × FpFlags :=
  match x with
  | .nan s => (.nan false, if s then FpFlags.nv else 0)
  | .inf neg =>
    match fn with
    | 0 => (.fin neg 0 0, 0)
    | 1 => if neg then (.nan false, FpFlags.nv) else (.fin false 0 0, 0)
    | 2 | 4 => if neg then (.nan false, FpFlags.nv) else (.inf false, 0)
    | 3 => if neg then (.fin false 0 0, 0) else (.inf false, 0)
    | 5 | 6 => (.nan false, FpFlags.nv)
    | 7 => (.fin neg 1 0, 0)
    | _ => if neg then (.fin false 0 0, 0) else (.fin false 1 0, 0)
  | .fin neg m e =>
    if m = 0 then
      match fn with
      | 0 | 1 => (.inf neg, FpFlags.dz)
      | 2 | 5 | 7 => (.fin neg 0 0, 0)
      | 4 => (.inf true, FpFlags.dz)
      | 3 | 6 => (.fin false 1 0, 0)
      | _ => (.fin false 1 (-1), 0)
    else if neg && (fn = 1 || fn = 2 || fn = 4) then (.nan false, FpFlags.nv)
    else (sfuFin fn neg m e, 0)

/-- The result of an SFU function in a type (R178). -/
def sfuBits (fn : Nat) (t : Ty) (a : Nat) (mode : Rnd) (sat : Bool) (rho : Nat) : Nat × FpFlags :=
  let (x, f) := sfuValue fn (decode t a)
  let (b, g) := roundTo t x mode sat rho
  (b, f ||| g)

/-! ### The SFU queue (R179) -/

/-- The lanes of each beat of an instruction (R143). -/
def beatsOf (lanes : List Nat) : Nat → List (List Nat)
  | 0 => []
  | n + 1 => if lanes.isEmpty then [] else lanes.take 16 :: beatsOf (lanes.drop 16) n

/-- One entry for each beat; the flags, and the trap when an enabled flag was raised, go with the last (R81, R179). -/
def sfuEntries (gid id : Nat) (hold : Bool) (flags : BitVec 6) (trap : Option Trap) : List (List (Nat × Word)) → List SfuEntry
  | [] => []
  | [w] => [⟨gid, id, w, flags, true, hold, none, trap⟩]
  | w :: rest => ⟨gid, id, w, 0, false, hold, none, none⟩ :: sfuEntries gid id hold flags trap rest

/-- `sfu` (R178, R179). With an enabled flag raised, no lane writes and the trap comes at the last entry's write-back; the
group issues nothing until then. In a relaxation body the step's flags are collected at issue (R311). -/
def actSfu (w : RWord) (s : State) : Act :=
  let f := ROp.front .sfu w
  s.issue f fun c =>
    let g := c.g
    let once := ROp.uniform .sfu w
    let mode := g.rounding w.rnd
    let lanes := c.lanesOf once
    let res := lanes.map fun l => (l, sfuBits (w.opx.toNat % 16) w.ty (g.rd w.a l w.ty) mode w.sat (s.rho c once mode l))
    let fl := res.map fun r => (r.1, r.2.2)
    let beats := beatsOf lanes 4
    let core := s.core g.id.core
    let en := fpEnables g.fpmode
    let body := (s.bodyOf c.gid g).isSome
    if Config.sfuEntries < core.sfu.length + beats.length then .wait s
    else match body, flagTrap en fl with
      | true, some _ => .done ((s.collectFlags c fl).holdFlags c en fl)
      | _, trap? =>
        let s := if body then s.collectFlags c fl else s
        let flags := if body then 0 else allFlags fl
        let trap := trap?.map fun p => c.trap p.1 (if once then c.act else p.2)
        let writes := beats.map fun b => if trap.isSome then [] else
          (res.filter fun r => b.contains r.1).flatMap fun r => g.wr w.d r.1 w.ty r.2.1
        let (id, s) := s.newId
        let entries := sfuEntries c.gid id (en &&& 31 != 0) flags trap writes
        let s := s.modCore g.id.core fun k => { k with sfu := k.sfu ++ entries }
        if trap.isSome then .done (s.modGroup c.gid fun g => { g with issued := true })
        else .done ((s.modGroup c.gid fun g => g.setEmpty (writes.flatMap fun b => b.map (·.1))).commit c f)

/-- SFU_ENTRY_START (R179): the unit takes the first entry that has not started. -/
def sfuStart (core : Nat) (s : State) : State :=
  s.modCore core fun k =>
    match k.sfu.findIdx? fun e => e.started.isNone with
    | some i => { k with sfu := k.sfu.modify i fun e => { e with started := some s.dev.clk } }
    | none => k

/-- SFU_WRITEBACK (R179, R356): the entry that started writes back; its flags join FPMODE, or its trap is raised. The
results of a fibre or a group that ended are discarded (R157). -/
def sfuBack (core : Nat) (s : State) : State :=
  match (s.core core).sfu with
  | [] => s
  | e :: rest =>
    if e.started.isNone then s
    else
      let s := s.modCore core fun k => { k with sfu := rest }
      match s.group e.gid with
      | none => s
      | some g =>
        if g.ended then
          let live := s.work.producers.any (·.gid == e.gid) || rest.any (·.gid == e.gid)
          (if live then s else { s with groups := smErase s.groups e.gid }).reap
        else
          let s := s.setGroup e.gid ({ g with fpmode := orFlags g.fpmode e.flags }.receive e.writes)
          match e.trap with
          | some t => s.raise e.gid t
          | none => s

/-! ### The meanings, one for each instruction and event -/

/-- `SFU` (R178, R179). -/
def execSfu (w : RWord) (s : State) : Host.Outcome State Fault Refusal := finish (actSfu w s)

/-- SFU_ENTRY_START (R179). -/
def execSfuEntryStart (core : Nat) (s : State) : Host.Outcome State Fault Refusal :=
  .next (sfuStart core s)

/-- SFU_WRITEBACK (R179, R356). -/
def execSfuWriteback (core : Nat) (s : State) : Host.Outcome State Fault Refusal :=
  .next (sfuBack core s)

end Sys2Proof.Machine
end

