-- ==== Sys2Proof/Machine/Slices.lean ====
section
/-! DEFINITION. The arithmetic of the matrix engine (R85-R87, R98, R188-R191, R205, R207-R209): what each operation makes
of slices and of bytes. -/

namespace Sys2Proof.Machine

/-! ### Products and blocks (R85-R87) -/

/-- The product of two l6 elements (R85): a NaR makes the block NaN, a zero gives zero. -/
def l6Product (a b : Nat) : Exact :=
  let x := sextNat a 5
  let y := sextNat b 5
  let neg := (a / 32 % 2 = 1) != (b / 32 % 2 = 1)
  if (decodeL6 a).isNan || (decodeL6 b).isNan then .nan false
  else if x = -16 || y = -16 then .fin false 0 0
  else
    let k := x + y
    .fin neg (l6T (k % 4).toNat) (k / 4 - 23)

/-- The product of two elements (R85). -/
def engProduct (ta tb : Ty) (a b : Nat) : Exact × FpFlags :=
  if ta = .l6 then (l6Product a b, 0) else mulEx (decode ta a) (decode tb b)

/-- The exact sum of a block's products; with special values they combine in ascending K (R87; log 82). -/
def sumProducts (l : List (Exact × FpFlags)) : Exact × FpFlags :=
  match l with
  | [] => (.fin false 0 0, 0)
  | p :: rest => rest.foldl (fun a x => let (r, f) := addEx a.1 x.1 .rne; (r, a.2 ||| x.2 ||| f)) p

/-- One block of a scaled format (R86): the new element and its flags. -/
def blockScaled (c : Nat) (prods : List (Exact × FpFlags)) (sa sb : Exact) : Nat × FpFlags :=
  let (p, _) := sumProducts prods
  let inf := sa.isInf || sb.isInf
  if p.isNan || sa.isNan || sb.isNan then (Ty.cnan .f32, FpFlags.nv)
  else
    let (d, _) := mulEx (mulEx p sa).1 sb
    if d.isNan then (Ty.cnan .f32, FpFlags.nv)
    else
      let d := if p.isZero && !inf then .fin false 0 0 else d
      let (x, f) := addEx (decode .f32 c) d .rne
      let (b, g) := roundTo .f32 x .rne false 0
      (b, f ||| g)

/-- One block of another format (R87): t is the accumulator's format. -/
def blockPlain (t : Ty) (c : Nat) (prods : List (Exact × FpFlags)) : Nat × FpFlags :=
  let (p, f) := sumProducts prods
  let (x, g) := addEx (decode t c) p .rne
  let (b, h) := roundTo t x .rne false 0
  (b, f ||| g ||| h)

/-! ### Slices (R188, R189) -/

/-- The key of element (i, c) of a slice. -/
def sliceKey (a i c : Nat) : Nat := 4096 * a + 64 * i + c

/-- An element of a slice. -/
def Engine.elem (e : Engine) (a i c : Nat) : Word := smGet 0 e.slices (sliceKey a i c)

/-- Column j of the block at a slice, as f32 or f64 (R189). -/
def Engine.col (e : Engine) (f64 : Bool) (a i j : Nat) : Nat :=
  if f64 then (e.elem (a + 2 * (j / 64)) i (j % 64)).toNat + 2 ^ 32 * (e.elem (a + 2 * (j / 64) + 1) i (j % 64)).toNat
  else (e.elem (a + j / 64) i (j % 64)).toNat

/-- The writes of a value to column j of the block at a slice. -/
def colWrites (f64 : Bool) (a i j v : Nat) : List (Nat × Word) :=
  if f64 then
    [(sliceKey (a + 2 * (j / 64)) i (j % 64), BitVec.ofNat 32 v),
     (sliceKey (a + 2 * (j / 64) + 1) i (j % 64), BitVec.ofNat 32 (v / 2 ^ 32))]
  else [(sliceKey (a + j / 64) i (j % 64), BitVec.ofNat 32 v)]

/-- Every position of 64 rows by n columns. -/
def positions (n : Nat) : List (Nat × Nat) := (List.range 64).flatMap fun i => (List.range n).map fun j => (i, j)

/-- What an operation does to slices: the elements it writes, and its flags. -/
structure SliceRes where
  writes : List (Nat × Word)
  flags : FpFlags
  deriving DecidableEq, Repr

/-- Write elements of slices. -/
def Engine.writeSlices (e : Engine) (l : List (Nat × Word)) : Engine :=
  { e with slices := l.foldl (fun m p => smPut 0 m p.1 p.2) e.slices }

/-! ### Reading sources -/

/-- Bytes of a share at a place and an offset, as a number. -/
def State.spadNat (s : State) (l : SpadLoc) (ofs n : Nat) : Nat := leVal (s.spadRead l.grid l.team l.core (l.ofs + ofs) n)

/-- The physical address of a virtual one, by the pages that an operation checked at issue (R197). -/
def pageAddr (pages : List (Nat × Nat × Nat)) (va : Nat) : Nat :=
  match pages.find? fun p => p.1 == va / 4096 with
  | some p => p.2.1 * 4096 + va % 4096
  | none => 0

/-- Bytes at a place and an offset, as a number; a byte of a page that is not listed reads zero. -/
def State.engNat (s : State) (pages : List (Nat × Nat × Nat)) (l : Loc) (ofs n : Nat) : Nat :=
  match l with
  | .spad l => s.spadNat l ofs n
  | .glob va => leVal ((List.range n).map fun i =>
      let a := (va + ofs + i) % 2 ^ 64
      if pages.any (·.1 == a / 4096) then s.readByte (pageAddr pages a) else 0)

/-! ### mma (R191, R205) -/

/-- The offset of element (i, k) of A and of (k, j) of B in native layout (R191 Table 2). -/
def layA (kb e i k : Nat) : Nat := ((k / kb * 64 + i) * kb + k % kb) * e

@[inherit_doc layA] def layB (kb e k j : Nat) : Nat := ((k / kb * 192 + j) * kb + k % kb) * e

/-- One element of C := C + A × B (R205). -/
def State.mmaElem (s : State) (e : Engine) (d : Nat) (ta tb : Ty) (k : Nat) (a b sa sb : SpadLoc) (i j : Nat) : Nat × FpFlags :=
  let kb := ta.blockDepth
  let ea := ta.width / 8
  let eb := tb.width / 8
  let f64 := decide (ta = .f64)
  (List.range (k / kb)).foldl (fun acc blk =>
    let prods := (List.range kb).map fun r =>
      engProduct ta tb (s.spadNat a (layA kb ea i (blk * kb + r)) ea) (s.spadNat b (layB kb eb (blk * kb + r) j) eb)
    let (c, f) :=
      if ta.scaled then
        blockScaled acc.1 prods (decode .bf16 (s.spadNat sa ((blk * 64 + i) * 2) 2)) (decode .bf16 (s.spadNat sb ((blk * 192 + j) * 2) 2))
      else blockPlain (if f64 then .f64 else .f32) acc.1 prods
    (c, acc.2 ||| f)) (e.col f64 d i j, 0)

/-- Results at positions, as slice writes with their flags. -/
def gather (f64 : Bool) (d : Nat) (l : List (Nat × Nat × Nat × FpFlags)) : SliceRes :=
  ⟨l.flatMap fun p => colWrites f64 d p.1 p.2.1 p.2.2.1, l.foldl (fun a p => a ||| p.2.2.2) 0⟩

/-- What an operation whose destination is slices does when it ends (R205, R208, R209). A draw for a peer add counts rows and
columns from the first of them (R96; log 83). -/
def State.sliceOp (s : State) (e : Engine) (o : EngOp) : SliceRes :=
  match o.kind with
  | .mzero d n => ⟨(List.range (4096 * n)).map fun x => (4096 * d + x, 0), 0⟩
  | .mcopy d a n => ⟨(List.range (4096 * n)).map fun x => (4096 * d + x, smGet 0 e.slices (4096 * a + x)), 0⟩
  | .mfill d n src => ⟨(List.range (4096 * n)).map fun x => (4096 * d + x, BitVec.ofNat 32 (s.engNat o.pages src (4 * x) 4)), 0⟩
  | .mma d ta tb k a b sa sb =>
    gather (ta = .f64) d ((positions 192).map fun p => let r := s.mmaElem e d ta tb k a b sa sb p.1 p.2; (p.1, p.2, r.1, r.2))
  | .peerAdd d n f64 rnd sat tns cnt vals =>
    let cols := if f64 then 32 * n else 64 * n
    let t : Ty := if f64 then .f64 else .f32
    gather f64 d ((positions cols).map fun p =>
      let v := (vals.getD (p.1 * cols + p.2) 0).toNat
      let (x, f) := addEx (decode t (e.col f64 d p.1 p.2)) (decode t v) rnd
      let rho := drawBits (s.srKey o.ctx) (BitVec.ofNat 32 p.1) (BitVec.ofNat 32 p.2) (BitVec.ofNat 32 tns) cnt
      let (b, g) := roundTo t x rnd sat rho
      (p.1, p.2, b, f ||| g))
  | _ => ⟨[], 0⟩

/-! ### mld (R98, R207) -/

/-- The encoding of +0 in a type (R207). -/
def zeroCode (t : Ty) : Nat := if t = .l6 then 0x10 else 0

/-- r(c) of a channel (R98): rcp of its f32 entry by its reference algorithm, with its flags (R81, R178); +∞ for a zero, whose DZ the
engine's status has no field for. It is rounded by rne with SAT 0 (log 75). -/
def smoothing (entry : Nat) : Exact × FpFlags :=
  if (decode .f32 entry).isZero then (.inf false, 0)
  else
    let r := sfuBits 0 .f32 entry .rne false 0
    (decode .f32 r.1, r.2)

/-- An exact value rounded to a type. -/
def roundAny (t : Ty) (x : Exact) (mode : Rnd) (sat : Bool) (rho : Nat) : Nat × FpFlags :=
  if t.isInt then roundToInt t x mode rho else roundTo t x mode sat rho

/-- Element (i, j) of the tile that `mld` writes (R207). -/
def State.mldElem (s : State) (o : EngOp) (ts td : Ty) (rnd : Rnd) (sat tr : Bool) (sm tns : Nat) (cnt : Word) (pitch : Nat)
    (src : Loc) (smooth : SpadLoc) (i j : Nat) : Nat × FpFlags :=
  let e := ts.width / 8
  let v := s.engNat o.pages src (if tr then j * pitch + i * e else i * pitch + j * e) e
  let rho := drawBits (s.srKey o.ctx) (BitVec.ofNat 32 i) (BitVec.ofNat 32 j) (BitVec.ofNat 32 tns) cnt
  if sm = 0 then (if ts = td then (v, 0) else convert ts td v rnd sat rho)
  else
    let r := smoothing (s.spadNat smooth (4 * (if sm = 1 then j else i)) 4)
    let (x, f) := mulEx (decode ts v) r.1
    let (b, g) := roundAny td x .rne sat 0
    (b, r.2 ||| f ||| g)

/-- Bytes of a value at an offset of a place: the key of its core and line, its address, and the byte. -/
def placeBytes (l : SpadLoc) (ofs n v : Nat) : List (Nat × Nat × Byte) :=
  (List.range n).map fun i =>
    let a := l.ofs + ofs + i
    (l.core * 16384 + a / 128, a, BitVec.ofNat 8 (v / 256 ^ i))

/-- The offset of element (i, j) in a layout of the destination (R207). -/
def mldOfs (lay kb e dpitch i j : Nat) : Nat :=
  match lay with
  | 0 => i * dpitch + j * e
  | 1 => layA kb e i j
  | _ => layB kb e i j

/-- Rows and columns that a layout writes, with the padding (R207). -/
def mldExtent (lay kb rt ct : Nat) : Nat × Nat :=
  match lay with
  | 0 => (rt, ct)
  | 1 => (64, ceilDiv ct kb * kb)
  | _ => (ceilDiv rt kb * kb, 192)

/-- The scales that `mld` moves (R207). -/
def State.mldScales (s : State) (lay rt ct : Nat) (sSrc sDst : SpadLoc) : List (Nat × Nat × Byte) :=
  if lay = 1 then
    let nb := ceilDiv ct 32
    (List.range 64).flatMap fun i => (List.range nb).flatMap fun b =>
      placeBytes sDst ((b * 64 + i) * 2) 2 (if i < rt then s.spadNat sSrc ((i * nb + b) * 2) 2 else 0)
  else
    (List.range (ceilDiv rt 32)).flatMap fun b => (List.range 192).flatMap fun j =>
      placeBytes sDst ((b * 192 + j) * 2) 2 (if j < ct then s.spadNat sSrc ((b * ct + j) * 2) 2 else 0)

/-! ### mdrain (R209) -/

/-- Element (i, col) of a drain, converted (R209). -/
def State.drainElem (s : State) (e : Engine) (ctx a : Nat) (f64 : Bool) (ty : Ty) (rnd : Rnd) (sat : Bool) (tns : Nat) (cnt row col : Word)
    (i j : Nat) : Nat × FpFlags :=
  let rho := drawBits (s.srKey ctx) (row + BitVec.ofNat 32 i) (col + BitVec.ofNat 32 j) (BitVec.ofNat 32 tns) cnt
  convert (if f64 then .f64 else .f32) ty (e.col f64 a i j) rnd sat rho

/-- The bytes of a value at an address of a global place, by line. -/
def globBytes (pages : List (Nat × Nat × Nat)) (va n v : Nat) : List (Nat × Nat × Byte) :=
  (List.range n).map fun i =>
    let pa := pageAddr pages ((va + i) % 2 ^ 64)
    (lineOf pa, pa, BitVec.ofNat 8 (v / 256 ^ i))

/-- What an operation whose destination is memory writes, byte by byte with the key of each line, and its flags. -/
def State.byteOp (s : State) (e : Engine) (o : EngOp) : List (Nat × Nat × Byte) × FpFlags :=
  match o.kind with
  | .mld ts td rnd sat lay tr sm scl tns cnt rows cols pitch dpitch src dst sSrc sDst smooth =>
    let (rt, ct) := if tr then (cols, rows) else (rows, cols)
    let kb := td.blockDepth
    let ed := td.width / 8
    let (nr, nc) := mldExtent lay kb rt ct
    let els := (List.range nr).flatMap fun i => (List.range nc).map fun j =>
      let r := if i < rt && j < ct then s.mldElem o ts td rnd sat tr sm tns cnt pitch src smooth i j else (zeroCode td, 0)
      (placeBytes dst (mldOfs lay kb ed dpitch i j) ed r.1, r.2)
    (els.flatMap (·.1) ++ (if scl then s.mldScales lay rt ct sSrc sDst else []), els.foldl (fun a x => a ||| x.2) 0)
  | .mdrainMem a n f64 ty rnd sat _ tns cnt dst pitch row col =>
    let es := ty.width / 8
    let els := (positions (if f64 then 32 * n else 64 * n)).map fun p =>
      let r := s.drainElem e o.ctx a f64 ty rnd sat tns cnt row col p.1 p.2
      let ofs := p.1 * pitch + p.2 * es
      ((match dst with | .spad l => placeBytes l ofs es r.1 | .glob va => globBytes o.pages (va + ofs) es r.1), r.2)
    (els.flatMap (·.1), els.foldl (fun a x => a ||| x.2) 0)
  | _ => ([], 0)

/-- The bytes gathered by line, in order of writing. -/
def byLine (l : List (Nat × Nat × Byte)) : List (Nat × List (Nat × Byte)) :=
  (keyUnion [] (l.map (·.1))).map fun k => (k, (l.filter (·.1 == k)).map (·.2))

end Sys2Proof.Machine
end

