-- ==== Sys2Proof/Machine/Matrix.lean ====
section
/-! DEFINITION. The matrix engine's instructions (R190-R210, R393): ownership, convergence, and the checks with which an
operation enters the engine's queue. -/

namespace Sys2Proof.Machine

/-! ### Checks (R190, R197, R393) -/

/-- Parts of an operand's range: an offset and a length for each row. -/
abbrev Rows := List (Nat × Nat)

/-- n rows of some bytes at a pitch. -/
def rowsOf (n pitch len : Nat) : Rows := (List.range n).map fun r => (r * pitch, len)

/-- Bytes from the place to the end of the last row. -/
def rowsEnd (l : Rows) : Nat := l.foldl (fun a (p : Nat × Nat) => max a (p.1 + p.2)) 0

/-- A scratchpad operand: its word, its place and its rows. -/
structure SpadOp where
  word : Nat
  place : SpadLoc
  rows : Rows
  deriving DecidableEq, Repr

/-- The lines of a scratchpad operand, with its team core. -/
def SpadOp.lines (o : SpadOp) : List (Nat × Nat) :=
  (keyUnion [] (o.rows.flatMap fun (p : Nat × Nat) => if p.2 = 0 then [] else linesOf (o.place.ofs + p.1) p.2)).map fun l => (o.place.core, l)

/-- Operands whose words name no range of a share (R190): the first such word, or every place. -/
def State.spadOps (s : State) (id : Ident) : List (Nat × Rows) → Sum Nat (List SpadOp)
  | [] => .inr []
  | (w, rows) :: rest =>
    match s.spadPlace id w (rowsEnd rows) with
    | none => .inl w
    | some p =>
      match s.spadOps id rest with
      | .inl w => .inl w
      | .inr l => .inr (⟨w, p, rows⟩ :: l)

/-- The parts of a range of addresses within single pages. -/
def pageParts (va : Nat) : Nat → Nat → List (Nat × Nat)
  | 0, _ => []
  | _ + 1, 0 => []
  | fuel + 1, len + 1 =>
    let m := min (len + 1) (4096 - va % 4096)
    (va, m) :: pageParts (va + m) fuel (len + 1 - m)

/-- The parts of an operand's rows. -/
def rowParts (va : Nat) (rows : Rows) : List (Nat × Nat) :=
  rows.flatMap fun (p : Nat × Nat) => pageParts ((va + p.1) % 2 ^ 64) (p.2 / 4096 + 2) p.2

/-- The first address of a global operand that is not canonical. -/
def badRow (va : Nat) (rows : Rows) : Option DWord :=
  (rows.flatMap fun (p : Nat × Nat) => [BitVec.ofNat 64 (va + p.1), BitVec.ofNat 64 (va + p.1 + p.2 - 1)]).find? fun a => !canonical a

/-- The pages of an operand, checked before the instruction commits (R197). -/
structure PageWalk where
  s : State
  pages : List (Nat × Nat × Nat)
  fails : List Fail
  blocked : Bool

/-- One part of a page, in the order of the parts; a page in MT 11 flips (R100). -/
def PageWalk.part (c : Ctx) (k : Kind) (x : PageWalk) (p : Nat × Nat) : PageWalk :=
  match x.s.access c.g.id.ctx p.1 p.2 k false with
  | .ok s t =>
    let pa := t.addr (p.1 % 2 ^ 57)
    let s := if t.mt == 3 then s.flip pa else s
    { x with s := s, pages := if x.pages.any (·.1 == p.1 / 4096) then x.pages else x.pages ++ [(p.1 / 4096, pa / 4096, t.mt)] }
  | .fault s cause level => { x with s := s, fails := x.fails ++ [⟨lowest 0 c.act, cause, BitVec.ofNat 64 p.1, level⟩] }
  | .blocked s => { x with s := x.s.doomsOf s, blocked := true }

/-- The first failure of steps 3 and 4 of Table 7 (R393 check 4). -/
def PageWalk.trap (c : Ctx) (x : PageWalk) : Option Trap :=
  (walkFails x.fails).head?.map fun f => c.trap f.cause c.act f.addr f.level

/-- The physical lines of an operand's parts. -/
def partLines (pages : List (Nat × Nat × Nat)) (parts : List (Nat × Nat)) : List Nat :=
  keyUnion [] (parts.flatMap fun p => linesOf (pageAddr pages p.1) p.2)

/-- Check 6 of R393 (R197, R227): COPYFAULT, then ORPHAN, of a scratchpad source. -/
def State.sourceFail (s : State) (c : Ctx) (srcs : List SpadOp) : Option Trap :=
  let st := fun (o : SpadOp) => match s.share o.place.grid o.place.team o.place.core with
    | some sh => sh.presence (o.lines.map fun (p : Nat × Nat) => p.2)
    | none => .present
  match srcs.find? fun o => st o == .faulted with
  | some o => some (c.trap .copyfault c.act (BitVec.ofNat 64 o.word))
  | none => (srcs.find? fun o => st o == .orphan).map fun o => c.trap .orphan c.act (BitVec.ofNat 64 o.word)

/-- Two ranges of one share overlap. -/
def SpadOp.overlaps (a b : SpadOp) : Bool :=
  a.place.core == b.place.core && a.place.ofs < b.place.ofs + rowsEnd b.rows && b.place.ofs < a.place.ofs + rowsEnd a.rows

/-! ### Entering the queue (R195, R196) -/

/-- The engine of a group's core. -/
def State.engine (s : State) (core : Nat) : Engine := (s.core core).engine

/-- Change an engine. -/
def State.modEngine (s : State) (core : Nat) (f : Engine → Engine) : State :=
  s.modCore core fun c => { c with engine := f c.engine }

/-- The queue is full (R195). -/
def State.engineFull (s : State) (core : Nat) : Bool := Config.engineEntries ≤ (s.engine core).ops.length

/-- The lines of scratchpad destinations are claimed: absent, with a pending writer (R196). -/
def State.claimLines (s : State) (grid team : Nat) (lines : List (Nat × Nat)) : State :=
  lines.foldl (fun s p => s.modShare grid team p.1 fun sh => sh.claim [p.2]) s

/-- What an operation holds. -/
structure OpLines where
  src : List Nat := []
  dst : List Nat := []
  spadSrc : List (Nat × Nat) := []
  spadDst : List (Nat × Nat) := []
  pages : List (Nat × Nat × Nat) := []

/-- An operation enters the queue (R195, R196). -/
def State.enterOp (s : State) (c : Ctx) (kind : EngKind) (l : OpLines) : State :=
  let (id, s) := s.newId
  let core := c.g.id.core
  let o : EngOp := ⟨id, c.gid, c.g.id.grid, c.g.id.team, c.g.id.ctx, c.own, c.act, (s.engine core).epoch, kind, false, l.src, l.dst, [],
    keyPairs l.spadSrc, keyPairs l.spadDst, l.pages, false, 0⟩
  (s.modEngine core fun e => { e with ops := e.ops ++ [o] }).claimLines c.g.id.grid c.g.id.team (keyPairs l.spadDst)
where
  /-- Pairs without repeats. -/
  keyPairs (l : List (Nat × Nat)) : List (Nat × Nat) := l.foldl (fun a p => if a.contains p then a else a ++ [p]) []

/-- What the shared checks see of an engine instruction (R192, R199). -/
def mxFront (w : XWord) (aRegs bRegs : Nat := 0) (dSrc : Nat := 0) (dst : List (Operand × Nat) := []) (sole : Bool := false)
    (illop : Group → Bool := fun _ => false) (nondet : Ident → Bool := fun _ => false) : Front :=
  { xFront w (ports := [.mxp]) (aRegs := aRegs) (bRegs := bRegs) (dst := dst) (mx := true) (illop := illop) (nondet := nondet) with
    mxSole := sole
    srcs := (xFront w (aRegs := aRegs) (bRegs := bRegs)).srcs ++ (if dSrc = 0 then [] else [⟨w.d, dSrc, false, false⟩]) }

/-! ### Ownership (R192-R194) -/

/-- `macq` (R193). One that enters the owner queue has issued: its YLD takes effect then (R29). -/
def actMacq (w : XWord) (s : State) : Act :=
  let f := xFront w (ports := [.mxp])
  s.issue f fun c =>
    let core := c.g.id.core
    let e := s.engine core
    if e.owner = some c.gid then .done (s.commit c f)
    else if e.owner.isNone && e.ownerQ.isEmpty && !s.engineAwaited core then
      .done (((s.modEngine core fun e => { e with ownerQ := [c.gid] }).engineGrant core).commit c f)
    else if Config.engineEntries ≤ e.ownerQ.length then .wait s
    else .park (((s.modEngine core fun e => { e with ownerQ := e.ownerQ ++ [c.gid] }).hold c.gid .engine).yieldIf f.hints.yld c.gid)

/-- `marel` (R194): by the owner alone. -/
def actMarel (w : XWord) (s : State) : Act :=
  let f := mxFront w (sole := true)
  s.issue f fun c => .done ((s.commit c f).engineRelease c.g.id.core)

/-! ### Convergence (R202, R203) -/

/-- `mcvr` (R202). -/
def actMcvr (w : XWord) (s : State) : Act :=
  let f := mxFront w
  s.issue f fun c =>
    let core := c.g.id.core
    match smFind (s.engine core).conv (w.f 15 12) with
    | some ⟨_, _, _ :: _, _, _⟩ => .wait s
    | _ => .done ((s.modEngine core fun e => { e with conv := smSet e.conv (w.f 15 12) ⟨w.f 11 0, 0, [], none, none⟩ }).commit c f)

/-- Two registers as an address. -/
def Ctx.pair (c : Ctx) (x : Operand) : DWord := BitVec.ofNat 64 (c.g.bits x 2 0)

/-- Register j of a block. -/
def Ctx.sreg (c : Ctx) (x : Operand) (j : Nat) : Nat := (c.g.reg (c.g.key x 0 j)).toNat

/-- A type by its code in M. -/
def tyOf (n : Nat) : Ty := (Ty.ofCode n).getD .f32

/-- The operands of an `mma`: A, B, and the scales of a scaled format (R191, R205). -/
def Ctx.mmaWords (c : Ctx) (w : XWord) : List (Nat × Rows) :=
  let ta := tyOf (w.f 3 0)
  let k := 8 * (w.f 15 8 + 1)
  [(c.sreg w.a 0, [(0, 64 * k * (ta.width / 8))]), (c.sreg w.b 0, [(0, 192 * k * ((tyOf (w.f 7 4)).width / 8))])] ++
  (if ta.scaled then [(c.sreg w.a 1, [(0, 128 * (k / 32))]), (c.sreg w.b 1, [(0, 384 * (k / 32))])] else [])

/-- The operation of an `mma` whose operands are in place. -/
def mmaKind (w : XWord) (ops : List SpadOp) : EngKind :=
  let z : SpadLoc := ⟨0, 0, 0, 0⟩
  let p := fun (i : Nat) => ((ops.drop i).head?.map (·.place)).getD z
  .mma w.d.idx (tyOf (w.f 3 0)) (tyOf (w.f 7 4)) (8 * (w.f 15 8 + 1)) (p 0) (p 1) (p 2) (p 3)

/-- An `mma` issues into the queue, with the presence check of R197. -/
def State.issueMma (s : State) (c : Ctx) (f : Front) (w : XWord) (ops : List SpadOp) (close : State → State) : Act :=
  match s.sourceFail c ops with
  | some t => .trap c.gid t s
  | none => .done ((close (s.enterOp c (mmaKind w ops) { spadSrc := ops.flatMap (·.lines) })).commit c f)

/-- What a round of a convergence register compares (R203). -/
def Ctx.mmaSig (c : Ctx) (w : XWord) : BitVec 8 × Word × List Word :=
  (BitVec.ofNat 8 w.d.idx, w.m, (c.mmaWords w).map fun p => BitVec.ofNat 32 p.1)

/-- An arrival does not fit its round (R203): another operation, or too many fibres. -/
def Conv.misfit (v : Conv) (c : Ctx) (w : XWord) : Bool :=
  (match v.op with | some x => decide (x ≠ c.mmaSig w) | none => false) || v.n < v.count + c.act.length

/-- An `mma` needs an entry of the queue (R195): alone, or as the arrival that completes its round. -/
def Ctx.mmaEnters (c : Ctx) (w : XWord) (cv : Option Conv) : Bool :=
  w.f 20 20 = 0 || (match cv with | some v => v.count + c.act.length == v.n && !v.misfit c w | none => false)

/-- The group whose arrival would complete the round and found the queue full, while it stands at its `mma` (R203 step 5; log 91). -/
def State.closer (s : State) (v : Conv) : Option Nat :=
  match v.closing with
  | some (h, own) => (match s.group h with | some g => if g.pc == some own && g.pending.isNone && !g.ended then some h else none | none => none)
  | none => none

/-- The queue is full at an arrival that needs an entry: one that would complete its round is noted, and then no arrival counts
until it issues (R203 step 5). -/
def State.mmaFull (s : State) (c : Ctx) (w : XWord) (cv : Option Conv) : Act :=
  match cv with
  | some v =>
    if w.f 20 20 = 0 || s.closer v == some c.gid then .wait s
    else .park (s.modEngine c.g.id.core fun e => { e with conv := smSet e.conv (w.f 19 16) { v with closing := some (c.gid, c.own) } })
  | none => .wait s

/-- `mma` (R203-R205): alone, or as an arrival of a convergence round. -/
def actMma (w : XWord) (s : State) : Act :=
  let f := mxFront w (aRegs := 2) (bRegs := 2)
  s.issue f fun c =>
    let core := c.g.id.core
    let cv := smFind (s.engine core).conv (w.f 19 16)
    if w.f 20 20 = 1 && cv.isNone then .trap c.gid (c.trap .mxmismatch c.act) s
    else if w.f 20 20 = 1 && (match cv with | some v => v.arrived.contains c.gid | none => false) then .wait s
    else if w.f 20 20 = 1 && (match cv.bind s.closer with | some h => h != c.gid | none => false) then .wait s
    else if c.mmaEnters w cv && s.engineFull core then s.mmaFull c w cv
    else match s.spadOps c.g.id (c.mmaWords w) with
      | .inl word => .trap c.gid (c.trap .addr c.act (BitVec.ofNat 64 word)) s
      | .inr ops =>
        if w.f 20 20 = 0 then s.issueMma c f w ops fun s => s
        else match cv with
          | none => .trap c.gid (c.trap .mxmismatch c.act) s
          | some v =>
            let n := v.count + c.act.length
            if v.misfit c w then .trap c.gid (c.trap .mxmismatch c.act) s
            else if n = v.n then
              s.issueMma c f w ops fun s =>
                s.modEngine core fun e => { e with conv := smSet e.conv (w.f 19 16) ⟨v.n, 0, [], none, none⟩ }
            else
              .done ((s.modEngine core fun e =>
                { e with conv := smSet e.conv (w.f 19 16) ⟨v.n, n, v.arrived ++ [c.gid], some (c.mmaSig w), none⟩ }).commit c f)

/-! ### Slices (R208) -/

/-- `mzero` (R208). -/
def actMzero (w : XWord) (s : State) : Act :=
  let f := mxFront w
  s.issue f fun c =>
    if s.engineFull c.g.id.core then .wait s
    else .done ((s.enterOp c (.mzero w.d.idx (w.f 7 0 + 1)) {}).commit c f)

/-- `mcopy` (R208). -/
def actMcopy (w : XWord) (s : State) : Act :=
  let f := mxFront w
  s.issue f fun c =>
    if s.engineFull c.g.id.core then .wait s
    else .done ((s.enterOp c (.mcopy w.d.idx w.a.idx (w.f 7 0 + 1)) {}).commit c f)

/-- `mfill` (R208, R393). -/
def actMfill (w : XWord) (s : State) : Act :=
  let f := mxFront w (aRegs := 2)
  s.issue f fun c =>
    let n := w.f 7 0 + 1
    let rows : Rows := [(0, 16384 * n)]
    let src := c.pair w.a
    let addr := fun (a : DWord) => Act.trap c.gid (c.trap .addr c.act a) s
    if s.engineFull c.g.id.core then .wait s
    else if w.f 8 8 = 1 then
      if c.sreg w.a 1 != 0 then addr src
      else match s.spadOps c.g.id [(c.sreg w.a 0, rows)] with
        | .inl word => addr (BitVec.ofNat 64 word)
        | .inr ops =>
          match s.sourceFail c ops, ops with
          | some t, _ => .trap c.gid t s
          | none, o :: _ => .done ((s.enterOp c (.mfill w.d.idx n (.spad o.place)) { spadSrc := o.lines }).commit c f)
          | none, [] => .wait s
    else if src.toNat % 4 != 0 then .trap c.gid (c.trap .align c.act src) s
    else match badRow src.toNat rows with
      | some a => addr a
      | none =>
        let parts := rowParts src.toNat rows
        let x := parts.foldl (PageWalk.part c .read) ⟨s, [], [], false⟩
        match x.trap c with
        | some t => .trap c.gid t x.s
        | none =>
          if x.blocked then s.waitFrom x.s
          else .done ((x.s.enterOp c (.mfill w.d.idx n (.glob src.toNat))
            { src := partLines x.pages parts, pages := x.pages }).commit c f)

/-! ### mld (R207, R393) -/

/-- The operands of an `mld` as its registers give them. -/
structure MldArgs where
  ts : Ty
  td : Ty
  lay : Nat
  tr : Bool
  ssp : Bool
  sm : Nat
  scl : Bool
  src : DWord
  pitch : Nat
  rows : Nat
  cols : Nat
  dpitch : Nat
  sSrc : Nat
  sDst : Nat
  smooth : Nat
  dst : Nat

/-- Read them (R207 Table 11). -/
def Ctx.mldArgs (c : Ctx) (w : XWord) : MldArgs where
  ts := tyOf (w.f 3 0)
  td := tyOf (w.f 7 4)
  lay := w.f 13 12
  tr := w.f 14 14 = 1
  ssp := w.f 15 15 = 1
  sm := w.f 17 16
  scl := w.f 18 18 = 1
  src := c.pair w.a
  pitch := c.sreg w.a 2
  rows := c.sreg w.a 3 % 65536
  cols := c.sreg w.a 3 / 65536
  dpitch := c.sreg w.a 4
  sSrc := c.sreg w.a 5
  sDst := c.sreg w.a 6
  smooth := c.sreg w.a 7
  dst := c.sreg w.d 0

/-- (Rt, Ct). -/
def MldArgs.shape (a : MldArgs) : Nat × Nat := if a.tr then (a.cols, a.rows) else (a.rows, a.cols)

/-- MXSHAPE of the shape fields (R207). -/
def MldArgs.badShape (a : MldArgs) : Bool :=
  a.rows = 0 || a.cols = 0 || 2048 < a.rows || 2048 < a.cols || (a.lay = 1 && 64 < a.shape.1) || (a.lay = 2 && 192 < a.shape.2)

/-- ALIGN (R207). -/
def MldArgs.misaligned (a : MldArgs) : Bool :=
  let es := a.ts.width / 8
  let sa := if a.ssp then a.src.toNat % 2 ^ 21 else a.src.toNat
  sa % es != 0 || a.pitch % es != 0 || (a.lay = 0 && a.dpitch % (a.td.width / 8) != 0)

/-- The rows of the source and of the destination. -/
def MldArgs.srcRows (a : MldArgs) : Rows := rowsOf a.rows a.pitch (a.cols * (a.ts.width / 8))

@[inherit_doc MldArgs.srcRows] def MldArgs.dstRows (a : MldArgs) : Rows :=
  let e := a.td.width / 8
  let (nr, nc) := mldExtent a.lay a.td.blockDepth a.shape.1 a.shape.2
  if a.lay = 0 then rowsOf nr a.dpitch (nc * e) else [(0, nr * nc * e)]

/-- The scale and smoothing operands, in the order source, destination, smoothing (R207). -/
def MldArgs.extra (a : MldArgs) : List (Nat × Rows) :=
  let (rt, ct) := a.shape
  (if a.scl then
    (if a.lay = 1 then [(a.sSrc, [(0, rt * ceilDiv ct 32 * 2)]), (a.sDst, [(0, 128 * ceilDiv ct 32)])]
     else [(a.sSrc, [(0, ceilDiv rt 32 * ct * 2)]), (a.sDst, [(0, 384 * ceilDiv rt 32)])])
   else []) ++
  (if a.sm = 0 then [] else [(a.smooth, [(0, 4 * (if a.sm = 1 then ct else rt))])])

/-- The operation, with its operands in place: destination, then the extra operands. -/
def MldArgs.kind (a : MldArgs) (w : XWord) (rnd : Rnd) (cnt : Word) (src : Loc) (dst : SpadOp) (extra : List SpadOp) : EngKind :=
  let z : SpadLoc := ⟨0, 0, 0, 0⟩
  let p := fun (i : Nat) => ((extra.drop i).head?.map (·.place)).getD z
  .mld a.ts a.td rnd (w.f 11 11 = 1) a.lay a.tr a.sm a.scl (w.f 26 19) cnt a.rows a.cols a.pitch a.dpitch src dst.place
    (if a.scl then p 0 else z) (if a.scl then p 1 else z) (if a.sm = 0 then z else p (if a.scl then 2 else 0))

/-- The scratchpad operands of `mld` beside its elements that are sources, and those that are destinations. -/
def MldArgs.sources (a : MldArgs) (extra : List SpadOp) : List SpadOp := if a.scl then extra.take 1 ++ extra.drop 2 else extra

@[inherit_doc MldArgs.sources] def MldArgs.dests (a : MldArgs) (dst : SpadOp) (extra : List SpadOp) : List SpadOp :=
  dst :: (if a.scl then (extra.drop 1).take 1 else [])

/-- A destination of `mld` overlaps another of its ranges in one share (R207, R393 check 5): the elements' source, when it is in
scratchpad, the scales, the smoothing vector or the other destination. -/
def MldArgs.clash (a : MldArgs) (src : List SpadOp) (dst : SpadOp) (extra : List SpadOp) : Bool :=
  let srcs := src ++ a.sources extra
  let scale := if a.scl then (extra.drop 1).take 1 else []
  (a.dests dst extra).any (fun d => srcs.any d.overlaps) || scale.any dst.overlaps

/-- A rounding code of an engine instruction (R209): `dyn` takes FPMODE.DRND at issue. -/
def Ctx.engRnd (c : Ctx) (code : Nat) : Rnd := c.g.rounding ((Rnd.ofCode code).getD .rne)

/-- `mld` (R207, R393). -/
def actMld (w : XWord) (s : State) : Act :=
  let f := mxFront w (aRegs := 8) (dSrc := 1)
  s.issue f fun c =>
    let a := c.mldArgs w
    let addr := fun (x : DWord) => Act.trap c.gid (c.trap .addr c.act x) s
    let rnd := c.engRnd (w.f 10 8)
    let cnt := s.twc c.g.id.ctx (w.f 26 19)
    let here := [(a.dst, a.dstRows)] ++ a.extra
    if s.engineFull c.g.id.core then .wait s
    else if a.badShape then .trap c.gid (c.trap .mxshape c.act) s
    else if a.misaligned then .trap c.gid (c.trap .align c.act a.src) s
    else if a.ssp then
      if a.src.toNat / 2 ^ 32 != 0 then addr a.src
      else match s.spadOps c.g.id ((a.src.toNat, a.srcRows) :: here) with
        | .inr (src :: dst :: extra) =>
          if a.clash [src] dst extra then .trap c.gid (c.trap .mxshape c.act) s
          else match s.sourceFail c (src :: a.sources extra) with
            | some t => .trap c.gid t s
            | none =>
              .done ((s.enterOp c (a.kind w rnd cnt (.spad src.place) dst extra)
                { spadSrc := (src :: a.sources extra).flatMap (·.lines), spadDst := (a.dests dst extra).flatMap (·.lines) }).commit c f)
        | .inl word => addr (BitVec.ofNat 64 word)
        | _ => .wait s
    else match badRow a.src.toNat a.srcRows, s.spadOps c.g.id here with
      | some x, _ => addr x
      | none, .inl word => addr (BitVec.ofNat 64 word)
      | none, .inr (dst :: extra) =>
        let parts := rowParts a.src.toNat a.srcRows
        let x := parts.foldl (PageWalk.part c .read) ⟨s, [], [], false⟩
        match x.trap c with
        | some t => .trap c.gid t x.s
        | none =>
          if x.blocked then s.waitFrom x.s
          else if a.clash [] dst extra then .trap c.gid (c.trap .mxshape c.act) x.s
          else match x.s.sourceFail c (a.sources extra) with
            | some t => .trap c.gid t x.s
            | none =>
              .done ((x.s.enterOp c (a.kind w rnd cnt (.glob a.src.toNat) dst extra)
                { src := partLines x.pages parts, spadSrc := (a.sources extra).flatMap (·.lines)
                  spadDst := (a.dests dst extra).flatMap (·.lines), pages := x.pages }).commit c f)
      | none, .inr [] => .wait s

/-! ### mdrain (R97, R209) -/

/-- The width of the current group; 16 when there is none. -/
def State.curWidth (s : State) : Nat := match s.sched.cur.bind s.group with | some g => g.id.width | none => 16

/-- The counter that a drain reads at issue, which rises by one when its effective rounding is sr (R97). -/
def State.drainCount (s : State) (c : Ctx) (rnd : Rnd) (tns : Nat) : Word × State :=
  let n := s.twc c.g.id.ctx tns
  (n, if rnd = .sr then s.modCtx c.g.id.ctx fun x => { x with twc := smPut 0 x.twc tns (n + 1) } else s)

/-- A drain to memory (R209, R393). -/
def State.drainMem (s : State) (c : Ctx) (f : Front) (w : XWord) : Act :=
  let n := w.f 16 14 + 1
  let f64 := decide (w.f 13 13 = 1)
  let ty := tyOf (w.f 3 0)
  let rnd := c.engRnd (w.f 6 4)
  let cols := if f64 then 32 * n else 64 * n
  let pitch := c.sreg w.b 0
  let rows := rowsOf 64 pitch (cols * (ty.width / 8))
  let dst := c.pair w.d
  let addr := fun (x : DWord) => Act.trap c.gid (c.trap .addr c.act x) s
  let go := fun (s : State) (loc : Loc) (l : OpLines) =>
    let (cnt, s) := s.drainCount c rnd (w.f 24 17)
    Act.done ((s.enterOp c (.mdrainMem w.a.idx n f64 ty rnd (w.f 7 7 = 1) (match w.f 12 11 with | 0 => .team | 1 => .cluster | 2 => .device | _ => .system)
      (w.f 24 17) cnt loc pitch (BitVec.ofNat 32 (c.sreg w.b 1)) (BitVec.ofNat 32 (c.sreg w.b 2))) l).commit c f)
  if w.f 10 10 = 1 then
    if c.sreg w.d 1 != 0 then addr dst
    else match s.spadOps c.g.id [(c.sreg w.d 0, rows)] with
      | .inl word => addr (BitVec.ofNat 64 word)
      | .inr (o :: _) => go s (.spad o.place) { spadDst := o.lines }
      | .inr [] => .wait s
  else match badRow dst.toNat rows with
    | some a => addr a
    | none =>
      let parts := rowParts dst.toNat rows
      let x := parts.foldl (PageWalk.part c .write) ⟨s, [], [], false⟩
      match x.trap c with
      | some t => .trap c.gid t x.s
      | none =>
        let lines := partLines x.pages parts
        if x.blocked then s.waitFrom x.s else go x.s (.glob dst.toNat) { dst := lines, pages := x.pages }

/-- A drain to registers (R209). -/
def State.drainReg (s : State) (c : Ctx) (f : Front) (w : XWord) : Act :=
  let wd := c.g.id.width
  let rnd := c.engRnd (w.f 6 4)
  let keys := c.act.flatMap fun l => (List.range (64 * (64 / wd))).map fun j => c.g.key w.d l j
  let (cnt, s) := s.drainCount c rnd (w.f 24 17)
  let (prod, s) := s.produce c.gid (keys.map fun k => (k, none))
  .done ((s.enterOp c (.mdrainReg w.a.idx (tyOf (w.f 3 0)) rnd (w.f 7 7 = 1) (w.f 24 17) cnt (BitVec.ofNat 32 (c.sreg w.b 1))
    (BitVec.ofNat 32 (c.sreg w.b 2)) w.d.idx c.act prod) {}).commit c f)

/-- A drain to a peer engine (R209). -/
def State.drainPeer (s : State) (c : Ctx) (f : Front) (w : XWord) : Act :=
  let peer := c.sreg w.b 0
  let rnd := c.engRnd (w.f 6 4)
  if 192 ≤ peer || peer = logical c.g.id.core then .trap c.gid (c.trap .addr c.act (BitVec.ofNat 64 peer)) s
  else
    let (cnt, s) := s.drainCount c rnd (w.f 24 17)
    .done ((s.enterOp c (.mdrainPeer w.d.idx w.a.idx (w.f 16 14 + 1) (w.f 13 13 = 1) rnd (w.f 7 7 = 1) (w.f 24 17) cnt peer) {}).commit c f)

/-- What the shared checks see of `mdrain`, by its target. -/
def drainFront (w : XWord) (width : Nat) : Front :=
  match w.f 9 8 with
  | 0 => mxFront w (bRegs := 4) (dSrc := 2)
  | 1 => mxFront w (bRegs := 4) (dst := [(w.d, 64 * (64 / width))])
  | _ => mxFront w (bRegs := 1)

/-- `mdrain` (R209). -/
def actMdrain (w : XWord) (s : State) : Act :=
  let f := drainFront w s.curWidth
  s.issue f fun c =>
    if s.engineFull c.g.id.core then .wait s
    else match w.f 9 8 with
      | 0 => s.drainMem c f w
      | 1 => s.drainReg c f w
      | _ => s.drainPeer c f w

/-! ### mstat (R210) -/

/-- The status word as a group sees it (R210 Table 6). -/
def State.engWord (s : State) (gid : Nat) (g : Group) : Nat :=
  let e := s.engine g.id.core
  let team := match e.owner with
    | some o => o == gid || (match s.group o with | some og => og.id.grid == g.id.grid && og.id.team == g.id.team | none => false)
    | none => false
  (if e.owner = some gid then 1 else 0) + (if team then 2 else 0) +
  (if g.id.det then 0 else 4 * e.ops.length + 2 ^ 8 * e.ownerQ.length) + 2 ^ 16 * e.flags.toNat

/-- CLR clears the sticky fields (R210). -/
def State.clearFlags (s : State) (core : Nat) (clr : Bool) : State :=
  if clr then s.modEngine core fun e => { e with flags := 0 } else s

/-- `mstat` (R210). -/
def actMstat (w : XWord) (s : State) : Act :=
  let f := mxFront w (dst := [(w.d, 1)]) (nondet := fun id => id.det && w.f 0 0 = 0)
  s.issue f fun c =>
    let core := c.g.id.core
    let clr := decide (w.f 1 1 = 1)
    let key := c.g.key w.d 0 0
    let word := s.engWord c.gid c.g
    if w.f 0 0 = 0 then
      .done (((s.modGroup c.gid fun g => g.puts [(key, BitVec.ofNat 32 word)]).clearFlags core clr).commit c f)
    else
      let ops := (s.engine core).ops.map (·.id)
      if ops.isEmpty then .done (((s.giveWords c w.d 1 word).clearFlags core clr).commit c f)
      else
        let (prod, s) := s.produce c.gid [(key, none)]
        .done ((s.modEngine core fun e => { e with stats := e.stats ++ [⟨c.gid, prod, key, ops, clr⟩] }).commit c f)

/-! ### The meanings, one for each instruction and event -/

/-- `MACQ` (R193). -/
def execMacq (w : XWord) (s : State) : Host.Outcome State Fault Refusal := finish (actMacq w s)

/-- `MAREL` (R194). -/
def execMarel (w : XWord) (s : State) : Host.Outcome State Fault Refusal := finish (actMarel w s)

/-- `MCVR` (R202). -/
def execMcvr (w : XWord) (s : State) : Host.Outcome State Fault Refusal := finish (actMcvr w s)

/-- `MMA` (R203-R205). -/
def execMma (w : XWord) (s : State) : Host.Outcome State Fault Refusal := finish (actMma w s)

/-- `MLD` (R207). -/
def execMld (w : XWord) (s : State) : Host.Outcome State Fault Refusal := finish (actMld w s)

/-- `MZERO` (R208). -/
def execMzero (w : XWord) (s : State) : Host.Outcome State Fault Refusal := finish (actMzero w s)

/-- `MDRAIN` (R209). -/
def execMdrain (w : XWord) (s : State) : Host.Outcome State Fault Refusal := finish (actMdrain w s)

/-- `MFILL` (R208). -/
def execMfill (w : XWord) (s : State) : Host.Outcome State Fault Refusal := finish (actMfill w s)

/-- `MCOPY` (R208). -/
def execMcopy (w : XWord) (s : State) : Host.Outcome State Fault Refusal := finish (actMcopy w s)

/-- `MSTAT` (R210). -/
def execMstat (w : XWord) (s : State) : Host.Outcome State Fault Refusal := finish (actMstat w s)

end Sys2Proof.Machine
end

