-- ==== Sys2Proof/Machine/Engine.lean ====
section
/-! DEFINITION. The matrix engine as an agent (R195-R199, R205-R210): it starts the head of its queue, completes
destination lines, ends operations and sends peer adds. -/

namespace Sys2Proof.Machine

/-! ### Ends -/

/-- The sticky flags of the status word: NV, OF, UF, NX of the flags raised (R210 Table 6). -/
def engFlags (f : FpFlags) : BitVec 5 :=
  (f.extractLsb' 0 1).setWidth 5 ||| ((f.extractLsb' 2 3).setWidth 5 <<< 1)

/-- An `mstat` whose operations have all ended reads the status word (R210). -/
def State.readStat (s : State) (core : Nat) (x : EngStat) : State :=
  match s.group x.gid with
  | some g => (s.fill x.prod [(x.key, BitVec.ofNat 32 (s.engWord x.gid g))]).clearFlags core x.clr
  | none => s

/-- An operation leaves the queue (R194, R195, R210): its flags join the status word of the ownership under which it
issued, slices are zeroed if they wait for it, and each `mstat` that waited for nothing else reads. -/
def State.leaveOp (s : State) (core : Nat) (o : EngOp) (flags : FpFlags) : State :=
  let e := s.engine core
  let zero := e.zeroAfter.contains o.id
  let stats := e.stats.map fun x => { x with ops := x.ops.filter (· != o.id) }
  let s := s.modEngine core fun e => { e with
    ops := e.ops.filter (·.id != o.id)
    flags := if e.epoch = o.epoch then e.flags ||| engFlags flags else e.flags
    slices := if zero then [] else e.slices
    zeroAfter := e.zeroAfter.filter (· != o.id)
    stats := stats.filter (!·.ops.isEmpty) }
  ((stats.filter (·.ops.isEmpty)).foldl (fun s x => s.readStat core x) s).reap

/-- The `mstat`s of a core wait for operations that are left alone; one that waits for nothing reads (R210). -/
def State.tidyStats (s : State) (core : Nat) : State :=
  let live := s.engineOps.map (·.id)
  let stats := (s.engine core).stats.map fun x => { x with ops := x.ops.filter live.contains }
  (stats.filter (·.ops.isEmpty)).foldl (fun s x => s.readStat core x)
    (s.modEngine core fun e => { e with stats := stats.filter (!·.ops.isEmpty) })

/-- The head of an engine's queue. -/
def State.headOp (s : State) (core : Nat) : Option EngOp := (s.engine core).ops.head?

/-- Change an operation in an engine's queue. -/
def State.modOp (s : State) (core id : Nat) (f : EngOp → EngOp) : State :=
  s.modEngine core fun e => { e with ops := e.ops.map fun o => if o.id == id then f o else o }

/-! ### Start (R195-R197) -/

/-- The presence of an operation's scratchpad sources. -/
def State.opPresence (s : State) (o : EngOp) : Presence :=
  let st := o.spadSrc.map fun p => match s.share o.grid o.team p.1 with | some sh => sh.presence [p.2] | none => .present
  if st.contains .faulted then .faulted else if st.contains .orphan then .orphan
  else if st.contains .pending then .pending else .present

/-- Destination lines that will not be written: one pending writer less. -/
def Share.drop (sh : Share) (lines : List Nat) : Share :=
  { sh with writers := lines.foldl (fun m l => smPut 0 m l (smGet 0 m l - 1)) sh.writers }

/-- An operation fails at its start (R197): it writes nothing, and the trap is raised at the instruction that entered it. -/
def State.failOp (s : State) (core : Nat) (o : EngOp) (cause : Cause) : State :=
  let s := o.spadDst.foldl (fun s p => s.modShare o.grid o.team p.1 fun sh => sh.drop [p.2]) s
  let s := s.leaveOp core o 0
  match s.group o.gid with
  | some g => if g.ended then s else s.raise o.gid (Trap.mk' cause o.own o.act)
  | none => s

/-- The memory type of a line of an operation, by the pages that it checked at issue. -/
def EngOp.mtOf (o : EngOp) (line : Nat) : Nat :=
  match o.pages.find? fun p => p.2.1 == line / 32 with | some p => p.2.2 | none => 0

/-- A source line that an operation, a copy or a collective before this one has taken, or that older accesses of a
memory-side queue come before. -/
def State.srcBlocked (s : State) (o : EngOp) : Bool :=
  o.srcLines.any fun l => s.takenFor (.unit o.id) l || s.barred (.unit o.id) (128 * l) (o.mtOf l)

/-- A source line carries an uncorrectable error (R389). -/
def State.srcBad (s : State) (o : EngOp) : Bool := o.srcLines.any fun l => s.poisoned (128 * l) 128

/-- A page of an operation's sources that its target refuses by now: its bytes read zero (R222). -/
def State.pageRefused (s : State) (o : EngOp) (p : Nat × Nat × Nat) : Bool :=
  !s.allowed (s.targetAt (4096 * p.2.1) p.2.2) o.ctx (4096 * p.2.1) 4096 .read

/-- Every source line is read as one device-scope access (R196, R257), on the path of its page (R100, R223): the operation as it
reads them. -/
def State.readSources (s : State) (o : EngOp) : EngOp × State :=
  if o.srcLines.isEmpty then (o, s)
  else
    let no := o.pages.filter (s.pageRefused o)
    let s := no.foldl (fun s p => s.refuse (s.targetAt (4096 * p.2.1) p.2.2) o.ctx (4096 * p.2.1) .read) s
    let o := { o with pages := o.pages.filter (!no.contains ·) }
    let s := (o.pages.filter (·.2.2 == 3)).foldl (fun s p => s.flip (4096 * p.2.1)) s
    (o, o.srcLines.foldl (fun s l => s.settleLine l) s)

/-- The engine runs the operations of a context that runs, and of one that was stopped until it is saved (R198, R363), but not of
one that an error ends (R389). -/
def State.engineRuns (s : State) (o : EngOp) : Bool :=
  !s.dev.doomed.contains o.ctx && (match s.ctx o.ctx with | some c => c.run == .running || c.run == .stopped | none => false)

/-- ENGINE_OP_START (R195, R197): the head of the queue starts; one whose destination is memory reads its sources and
forms its lines. One that starts anew after a pre-emption (R198) forms those that it has not completed. -/
def opStart (core : Nat) (s : State) : State :=
  match s.headOp core with
  | none => s
  | some o =>
    if o.running || !s.engineRuns o then s
    else match s.opPresence o with
      | .faulted => s.failOp core o .copyfault
      | .orphan => s.failOp core o .orphan
      | .pending => s
      | .present =>
        match o.kind with
        | .mld _ _ _ _ _ _ _ _ _ _ _ _ _ _ _ _ _ _ _ | .mdrainMem _ _ _ _ _ _ _ _ _ _ _ _ _ =>
          if s.srcBlocked o then s
          else if s.srcBad o then s.doom o.ctx
          else
            let (o, s) := s.readSources o
            let (bytes, flags) := s.byteOp (s.engine core) o
            let left := (byLine bytes).filter fun p => o.dstLines.contains p.1 || o.spadDst.contains (p.1 / 16384, p.1 % 16384)
            s.modOp core o.id fun o => { o with running := true, dst := left, flags := flags }
        | _ => s.modOp core o.id fun o => { o with running := true }

/-! ### Lines (R196, R260) -/

/-- ENGINE_LINE_COMPLETE (R196, R227, R260): the engine writes one destination line, as one write on the path of its memory type;
a write that its target refuses by now is discarded (R222). A scratchpad line's key is 16384 × team core + line. -/
def lineDone (core key : Nat) (s : State) : State :=
  match s.headOp core with
  | none => s
  | some o =>
    match o.dst.find? fun p => p.1 == key with
    | none => s
    | some (_, bytes) =>
      let j := key / 16384
      if !o.running || !s.engineRuns o then s
      else if o.spadDst.contains (j, key % 16384) then
        if s.regionSpad o.grid o.team j (key % 16384) then s
        else
          let s := s.modOp core o.id fun o =>
            { o with dst := o.dst.filter (·.1 != key), spadDst := o.spadDst.filter (· != (j, key % 16384)) }
          let s := bytes.foldl (fun s p => s.spadWrite o.grid o.team j p.1 [p.2]) s
          s.modShare o.grid o.team j fun sh => sh.land [key % 16384]
      else
        let pa := 128 * key
        let mt := o.mtOf key
        let tg := s.targetAt pa mt
        if s.blockedFor (.unit o.id) pa 128 true || s.barred (.unit o.id) pa mt then s
        else
          let s := s.modOp core o.id fun o => { o with dst := o.dst.filter (·.1 != key), dstLines := keyDel o.dstLines key }
          if !s.allowed tg o.ctx pa 128 .write then s.refuse tg o.ctx pa .write
          else ((if mt == 3 then s.flip pa else s).settleLine key).writeEach bytes

/-! ### The end of an operation (R198) -/

/-- The values of a drain to registers, in the order of its producer's registers (R209), with their flags. -/
def State.regValues (s : State) (e : Engine) (ctx a : Nat) (ty : Ty) (rnd : Rnd) (sat : Bool) (tns : Nat) (cnt row col : Word)
    (lanes : List Nat) (width : Nat) : List (Nat × FpFlags) :=
  lanes.flatMap fun l => (List.range (64 * (64 / width))).map fun r =>
    let x := s.drainElem e ctx a false ty rnd sat tns cnt row col (l + width * (r / 64)) (r % 64)
    (extend ty x.1, x.2)

/-- ENGINE_OP_END (R198, R205, R207-R210): the operation commits its slice writes or registers and leaves the queue. -/
def opEnd (core : Nat) (s : State) : State :=
  match s.headOp core with
  | none => s
  | some o =>
    if !o.running || !o.dst.isEmpty || !s.engineRuns o then s
    else match o.kind with
      | .mld _ _ _ _ _ _ _ _ _ _ _ _ _ _ _ _ _ _ _ | .mdrainMem _ _ _ _ _ _ _ _ _ _ _ _ _ => s.leaveOp core o o.flags
      | .mdrainPeer _ _ _ _ _ _ _ _ _ => if o.sent then s.leaveOp core o 0 else s
      | .mdrainReg a ty rnd sat tns cnt row col _ lanes prod =>
        match s.work.producers.find? fun p => p.id == prod, s.group o.gid with
        | some p, some g =>
          let vals := s.regValues (s.engine core) o.ctx a ty rnd sat tns cnt row col lanes g.id.width
          let s := s.fill prod ((p.writes.map (·.1)).zip (vals.map fun v => BitVec.ofNat 32 v.1))
          s.leaveOp core o (vals.foldl (fun f v => f ||| v.2) 0)
        | _, _ => s.leaveOp core o 0
      | _ =>
        if s.srcBlocked o then s
        else if s.srcBad o then s.doom o.ctx
        else
          let (o, s) := s.readSources o
          let r := s.sliceOp (s.engine core) o
          (s.modEngine core fun e => e.writeSlices r.writes).leaveOp core o r.flags

/-! ### Peer adds (R209, R385) -/

/-- The elements that a peer drain sends, row by row. -/
def Engine.peerValues (e : Engine) (f64 : Bool) (a n : Nat) : List DWord :=
  (positions (if f64 then 32 * n else 64 * n)).map fun p => BitVec.ofNat 64 (e.col f64 a p.1 p.2)

/-- The save of a context holds the engine of a core (R198). -/
def State.engineSaved (s : State) (ctx core : Nat) : Bool :=
  match s.ctx ctx with | some c => c.saved.any fun x => x.core == core && x.engine.isSome | none => false

/-- PEER_ADD (R209): the add of a running peer drain reaches the peer engine; it enters the queue when the peer's owner
belongs to the same context, and is refused otherwise. -/
def peerMove (core : Nat) (s : State) : State :=
  match s.headOp core with
  | none => s
  | some o =>
    match o.kind with
    | .mdrainPeer d a n f64 rnd sat tns cnt peer =>
      let pk := core / Config.cores * Config.cores + peer
      let e := s.engine pk
      let owner := e.owner.bind s.group
      let waits := s.engineSaved o.ctx pk || (match owner with | some g => !s.running g.id.ctx | none => false)
      if !o.running || o.sent || waits || !s.engineRuns o then s
      else if (match owner with | some g => g.id.ctx == o.ctx | none => false) then
        if s.engineFull pk then s
        else
          let (id, s) := s.newId
          let add : EngOp := ⟨id, o.gid, o.grid, o.team, o.ctx, o.own, o.act, e.epoch,
            .peerAdd d n f64 rnd sat tns cnt ((s.engine core).peerValues f64 a n), false, [], [], [], [], [], [], false, 0⟩
          (s.modEngine pk fun e => { e with ops := e.ops ++ [add] }).modOp core o.id fun o => { o with sent := true }
      else
        (s.modEngine core fun e => { e with flags := if e.epoch = o.epoch then e.flags ||| 16 else e.flags }).modOp core o.id
          fun o => { o with sent := true }
    | _ => s

/-! ### The meanings, one for each instruction and event -/

/-- ENGINE_OP_START (R195, R197). -/
def execEngineOpStart (core : Nat) (s : State) : Host.Outcome State Fault Refusal :=
  .next (opStart core s)

/-- ENGINE_LINE_COMPLETE (R196, R260). -/
def execEngineLineComplete (core : Nat) (line : Nat) (s : State) : Host.Outcome State Fault Refusal :=
  .next (lineDone core line s)

/-- ENGINE_OP_END (R198, R205-R210). -/
def execEngineOpEnd (core : Nat) (s : State) : Host.Outcome State Fault Refusal :=
  .next (opEnd core s)

/-- PEER_ADD (R209). -/
def execPeerAdd (core : Nat) (s : State) : Host.Outcome State Fault Refusal :=
  .next (peerMove core s)

end Sys2Proof.Machine
end

