-- ==== Sys2Proof/Machine/Lanes.lean ====
section
/-! DEFINITION. The instructions that combine the lanes of a batch (R182-R186, R92, R93) and the keyed counter generator
(R187). -/

namespace Sys2Proof.Machine

/-- The raw bits that `shfl`, `push` and `bcast` move (R182): 64 for a 64-bit type and 32 otherwise; a constant as its
slot gives it. -/
def Group.rawBits (g : Group) (x : Operand) (t : Ty) (lane : Nat) : Nat :=
  match x with
  | .k i => extend t (constBits i t)
  | _ => g.bits x t.regs lane

/-- A lane's value for `shfl` and `bcast`: 0 from a lane outside active(B) (R182, R183). -/
def Ctx.fromLane (c : Ctx) (x : Operand) (t : Ty) (j : Nat) : Nat := if c.act.contains j then c.g.rawBits x t j else 0

/-- The lanes that receive a result: every active lane, or one register when D is s. -/
def Ctx.dLanes (c : Ctx) (d : Operand) : List Nat := if d.isS then c.act.take 1 else c.act

/-- The registers that raw bits of a type are written to (R182). -/
def Group.wrRaw (g : Group) (x : Operand) (lane : Nat) (t : Ty) (bits : Nat) : List (Nat × Word) := g.split x t.regs lane bits

/-- `shfl` (R183). -/
def actShfl (w : RWord) (s : State) : Act :=
  s.issue (ROp.front .shfl w) fun c =>
    let writes := c.act.flatMap fun l =>
      c.g.wrRaw w.d l w.ty (c.fromLane w.a w.ty (c.g.rd w.b l .n32 % c.g.id.width))
    s.commitFlags c (ROp.front .shfl w) false writes []

/-- `bcast` (R183). -/
def actBcast (w : RWord) (s : State) : Act :=
  s.issue (ROp.front .bcast w) fun c =>
    let v := c.fromLane w.a w.ty (c.g.rd w.b 0 .n32 % c.g.id.width)
    s.commitFlags c (ROp.front .bcast w) false ((c.dLanes w.d).flatMap fun l => c.g.wrRaw w.d l w.ty v) []

/-- The lane that a `push` sends to (R184). -/
def Ctx.pushTo (c : Ctx) (w : RWord) (l : Nat) : Nat := c.g.rd w.b l .n32 % c.g.id.width

/-- `push` (R184): the highest sender to a lane wins; C receives the collision and the lost bit. -/
def actPush (w : RWord) (s : State) : Act :=
  s.issue (ROp.front .push w) fun c =>
    let senders := fun (j : Nat) => c.act.filter fun l => c.pushTo w l == j
    let writes := c.act.flatMap fun j => match senders j with
      | [] => []
      | l :: ls => c.g.wrRaw w.d j w.ty (c.g.rawBits w.a w.ty (ls.foldl max l))
    let coll := c.act.any fun j => 2 ≤ (senders j).length
    let lost := c.act.any fun l => !c.act.contains (c.pushTo w l)
    let status : Nat := (if coll then 1 else 0) + (if lost then 2 else 0)
    let cs := match w.c with | some x => c.g.wr x 0 .n32 status | none => []
    s.commitFlags c (ROp.front .push w) false (writes ++ cs) []

/-! ### scan and lred (R185) -/

/-- One combining step (R185): the instruction of the same name on two values, with its flags. -/
def combOp (fn : Nat) (t : Ty) (sat : Bool) (mode : Rnd) (rho : Nat) (x y : Nat) : Nat × FpFlags :=
  if t.isInt then
    (match fn with
     | 0 => reduceInt (t.intOf x + t.intOf y) t sat
     | 1 => reduceInt (min (t.intOf x) (t.intOf y)) t false
     | 2 => reduceInt (max (t.intOf x) (t.intOf y)) t false
     | 3 => Nat.land x y
     | 4 => Nat.lor x y
     | _ => Nat.xor x y, 0)
  else match fn with
    | 0 =>
      let (r, f) := addEx (decode t x) (decode t y) mode
      let (b, g) := roundTo t r mode sat rho
      (b, f ||| g)
    | 1 => minMax t false x y
    | _ => minMax t true x y

/-- A value or absent, with the flags raised so far and the position of the step that raised each. -/
structure Comb where
  val : Option Nat
  fl : List (Nat × FpFlags)
  deriving DecidableEq, Repr

/-- A step with both operands present combines; otherwise the present one passes (R92). `draw` gives the draw of a step by
its level and position. -/
def Comb.step (op : Nat → Nat → Nat → Nat → Nat × FpFlags) (level p : Nat) (x y : Comb) : Comb :=
  match x.val, y.val with
  | some a, some b => let (r, f) := op level p a b; ⟨some r, x.fl ++ y.fl ++ [(p, f)]⟩
  | some _, none => ⟨x.val, x.fl ++ y.fl⟩
  | none, _ => ⟨y.val, x.fl ++ y.fl⟩

/-- One level of a beat's tree (R92): positions 2i and 2i + 1 combine; each value carries its highest position. -/
def combLevel (op : Nat → Nat → Nat → Nat → Nat × FpFlags) (level : Nat) : List (Nat × Comb) → List (Nat × Comb)
  | a :: b :: rest => (b.1, Comb.step op level b.1 a.2 b.2) :: combLevel op level rest
  | l => l

/-- The sixteen positions of a beat. -/
def beatOf (vals : Nat → Option Nat) (b : Nat) : List (Nat × Comb) :=
  (List.range 16).map fun i => (16 * b + i, ⟨vals (16 * b + i), []⟩)

/-- The reduction of a group over some beats (R92). -/
def reduceLanes (op : Nat → Nat → Nat → Nat → Nat × FpFlags) (beats : Nat) (vals : Nat → Option Nat) : Comb :=
  let beat := fun (b : Nat) =>
    match combLevel op 3 (combLevel op 2 (combLevel op 1 (combLevel op 0 (beatOf vals b)))) with
    | x :: _ => x.2
    | [] => ⟨none, []⟩
  (List.range beats).foldl (fun acc b =>
    if b = 0 then beat 0 else Comb.step op (3 + b) (16 * b + 15) acc (beat b)) ⟨none, []⟩

/-- One level of a beat's scan (R93): every i from d takes the value at i − d. -/
def scanLevel (op : Nat → Nat → Nat → Nat → Nat × FpFlags) (level d : Nat) (y : List (Nat × Comb)) : List (Nat × Comb) :=
  (List.range y.length).map fun i =>
    let (p, v) := y.getD i (0, ⟨none, []⟩)
    if i < d then (p, v) else (p, Comb.step op level p { (y.getD (i - d) (0, ⟨none, []⟩)).2 with fl := [] } v)

/-- The inclusive scan of a group over some beats (R93): each position's result, and the flags of every step. -/
def scanLanes (op : Nat → Nat → Nat → Nat → Nat × FpFlags) (beats : Nat) (vals : Nat → Option Nat) : List (Nat × Comb) :=
  let beat := fun (b : Nat) =>
    scanLevel op 3 8 (scanLevel op 2 4 (scanLevel op 1 2 (scanLevel op 0 1 (beatOf vals b))))
  ((List.range beats).foldl (fun (acc : List (Nat × Comb) × Option Nat) b =>
    let r := (beat b).map fun p => (p.1, Comb.step op 4 p.1 ⟨acc.2, []⟩ p.2)
    (acc.1 ++ r, match r.getLast? with | some x => x.2.val | none => acc.2)) ([], none)).1

/-- The combining step of a `scan` or `lred` in hand, with its draws (R96, R185). -/
def State.combOf (s : State) (c : Ctx) (w : RWord) : Nat → Nat → Nat → Nat → Nat × FpFlags :=
  let mode := c.g.rounding w.rnd
  fun level p x y =>
    combOp (w.opx.toNat % 8) w.ty w.sat mode (if mode = .sr && w.ty.isFloat then s.stepDraw c level p else 0) x y

/-- The beats up to the last active lane: every lane of a later beat is absent. -/
def Ctx.beats (c : Ctx) : Nat := c.act.foldl max 0 / 16 + 1

/-- The value of a lane, absent when it is inactive. -/
def Ctx.laneVal (c : Ctx) (w : RWord) (l : Nat) : Option Nat := if c.act.contains l then some (c.g.rd w.a l w.ty) else none

/-- The flags of the steps, by the active lane at each step's position, or by every active lane when none stands there, for the lanes that
a trap names (R81, R93; log 34). -/
def Ctx.stepFlags (c : Ctx) (fl : List (Nat × FpFlags)) : List (Nat × FpFlags) :=
  fl.flatMap fun p => if c.act.contains p.1 then [p] else c.act.map fun l => (l, p.2)

/-- `scan` (R185). -/
def actScan (w : RWord) (s : State) : Act :=
  s.issue (ROp.front .scan w) fun c =>
    let res := scanLanes (s.combOf c w) c.beats (c.laneVal w)
    let writes := (res.filter fun p => c.act.contains p.1).flatMap fun p => c.g.wr w.d p.1 w.ty (p.2.val.getD 0)
    s.commitFlags c (ROp.front .scan w) false writes (c.stepFlags (res.flatMap fun p => p.2.fl))

/-- `lred` (R185). -/
def actLred (w : RWord) (s : State) : Act :=
  s.issue (ROp.front .lred w) fun c =>
    let r := reduceLanes (s.combOf c w) c.beats (c.laneVal w)
    s.commitFlags c (ROp.front .lred w) false
      ((c.dLanes w.d).flatMap fun l => c.g.wr w.d l w.ty (r.val.getD 0)) (c.stepFlags r.fl)

/-- The value that `vote` writes (R186). -/
def Ctx.voteBits (c : Ctx) (w : RWord) : Nat :=
  let bit := fun (l : Nat) => c.g.rd w.a l .n32 / 2 ^ (w.opx.toNat / 8 % 32) % 2 = 1
  match w.opx.toNat % 4 with
  | 0 => if c.act.all fun l => bit l then 1 else 0
  | 1 => if c.act.any fun l => bit l then 1 else 0
  | 2 => (laneMask (c.act.filter fun l => bit l)).toNat
  | _ => match c.act with
    | [] => 1
    | l0 :: _ => if c.act.all fun l => c.g.rd w.a l .n32 == c.g.rd w.a l0 .n32 then 1 else 0

/-- `vote` (R186). -/
def actVote (w : RWord) (s : State) : Act :=
  s.issue (ROp.front .vote w) fun c =>
    s.commitFlags c (ROp.front .vote w) false ((c.dLanes w.d).flatMap fun l => c.g.wr w.d l w.ty (c.voteBits w)) []

/-! ### kcg (R187) -/

/-- The four result registers of a lane's `kcg` (R187). -/
def Ctx.kcgWrites (c : Ctx) (w : RWord) (l : Nat) : List (Nat × Word) :=
  let k := c.g.rdDWord w.b l
  let x := fun (j : Nat) => c.g.reg (c.g.key w.a l j)
  let y := kcg (loWord k) (hiWord k) (x 0) (x 1) (x 2) (x 3)
  [(c.g.key w.d l 0, y.x0), (c.g.key w.d l 1, y.x1), (c.g.key w.d l 2, y.x2), (c.g.key w.d l 3, y.x3)]

/-- `kcg` (R187), a long-latency producer. -/
def actKcg (w : RWord) (s : State) : Act :=
  let f := ROp.front .kcg w
  s.issue f fun c =>
    let writes := (c.lanesOf (ROp.uniform .kcg w)).flatMap (c.kcgWrites w)
    .done (((s.produce c.gid (writes.map fun p => (p.1, some p.2))).2).commit c f)

/-! ### The meanings, one for each instruction and event -/

/-- `SHFL` (R183). -/
def execShfl (w : RWord) (s : State) : Host.Outcome State Fault Refusal := finish (actShfl w s)

/-- `PUSH` (R184). -/
def execPush (w : RWord) (s : State) : Host.Outcome State Fault Refusal := finish (actPush w s)

/-- `BCAST` (R183). -/
def execBcast (w : RWord) (s : State) : Host.Outcome State Fault Refusal := finish (actBcast w s)

/-- `SCAN` (R185). -/
def execScan (w : RWord) (s : State) : Host.Outcome State Fault Refusal := finish (actScan w s)

/-- `LRED` (R185). -/
def execLred (w : RWord) (s : State) : Host.Outcome State Fault Refusal := finish (actLred w s)

/-- `VOTE` (R186). -/
def execVote (w : RWord) (s : State) : Host.Outcome State Fault Refusal := finish (actVote w s)

/-- `KCG` (R187). -/
def execKcg (w : RWord) (s : State) : Host.Outcome State Fault Refusal := finish (actKcg w s)

end Sys2Proof.Machine
end

