-- ==== Sys2Proof/Machine/Loops.lean ====
section
/-! DEFINITION. Reserving loops (R290-R303): `rlbeg`, `claim`, `rwave` and `rlend`, the signatures, and the wave former. -/

namespace Sys2Proof.Machine

/-! ### Instructions that wait for every participant -/

/-- The instruction that a waiting group stands at, with the lanes for which it acts. -/
def State.standsAt (s : State) (gid : Nat) (gd : Guard) : Option Ctx :=
  match s.group gid with
  | none => none
  | some g =>
    match g.pc with
    | none => none
    | some own =>
      let b := g.batch own
      some ⟨gid, g, own, b, g.active gd b⟩

/-- A group that waited commits, with its last-use hints (R29). -/
def State.resumeWith (s : State) (gid : Nat) (f : Front) : State :=
  match s.standsAt gid f.guard with
  | none => s
  | some c => (s.modGroup gid fun g => g.lastUse c.act f).resume gid

/-- A trap is raised in a group that waits in an instruction. -/
def State.raiseIn (s : State) (gid : Nat) (gd : Guard) (cause : Cause) (addr : DWord := 0) (level : Nat := 7) : State :=
  match s.standsAt gid gd with
  | none => s
  | some c => (s.modGroup gid fun g => { g with wait := none }).raise gid (c.trap cause c.act addr level)

/-- The lanes of some groups that hold a fibre, numbered in ascending (RIDX, lane) (R290, R306). -/
def slotsOf (parts : List (Nat × Group)) : List Slot :=
  let byRidx := parts.foldr (fun p acc =>
    let rec ins : List (Nat × Group) → List (Nat × Group)
      | [] => [p]
      | q :: rest => if p.2.id.ridx ≤ q.2.id.ridx then p :: q :: rest else q :: ins rest
    ins acc) []
  byRidx.flatMap fun p => (keyUnion [] (p.2.fibres.map (·.lane))).map fun l => ⟨p.1, l⟩

/-! ### Claims (R292) -/

/-- The granule of an address. -/
def granuleOf (va : Nat) : Nat := va / 2 ^ 6 % 2 ^ 51

/-- The signature bits of a granule (R292). -/
def claimBits (g : Nat) : List Nat :=
  let b := fun (hi lo : Nat) => g / 2 ^ lo % 2 ^ (hi + 1 - lo)
  let h1 := Nat.xor (Nat.xor (b 11 0) (b 23 12)) (Nat.xor (b 35 24) (b 47 36))
  let h2 := Nat.xor (Nat.xor ((h1 * 2 ^ 5 + h1 / 2 ^ 7) % 2 ^ 12) (b 50 48)) 0xA5C
  if h1 = h2 then [h1] else [h1, h2]

/-- The union of the bits of the claims of one kind. -/
def bitsOf (cs : List Claim) (write : Bool) : List Nat :=
  keyUnion [] ((cs.filter fun c => c.write == write).flatMap fun c => claimBits c.granule)

/-- Two claims of one granule, of which at least one writes. -/
def Claim.clash (a b : Claim) : Bool := a.granule == b.granule && (a.write || b.write)

/-! ### Admission (R293) -/

/-- The state of an admission: BW and BR, the claims of the lower items, the admitted items, and what DEFER and FALSE
gain. -/
structure Admission where
  bw : List Nat
  br : List Nat
  lower : List Claim
  admitted : List Nat
  deferred : Nat
  false_ : Nat
  deriving DecidableEq, Repr

/-- One item, in ascending order. -/
def Admission.item (a : Admission) (i : Nat) (cs : List Claim) : Admission :=
  let w := bitsOf cs true
  let r := bitsOf cs false
  let adm := !(w.any fun b => a.bw.contains b || a.br.contains b) && !(r.any a.bw.contains)
  let real := cs.any fun c => a.lower.any c.clash
  { bw := keyUnion a.bw w
    br := keyUnion a.br r
    lower := a.lower ++ cs
    admitted := if adm then a.admitted ++ [i] else a.admitted
    deferred := if adm then a.deferred else a.deferred + 1
    false_ := if adm || real then a.false_ else a.false_ + 1 }

/-- The admission of a wave, whose items ascend with the slots (R291). -/
def admitWave (items : List (Option Nat)) (claims : List (List Claim)) : Admission :=
  (items.zip claims).foldl (fun a p => match p.1 with | some i => a.item i p.2 | none => a) ⟨[], [], [], [], 0, 0⟩

/-! ### Waves (R291) -/

/-- The next wave takes the min(W, pending) lowest pending items, the q-th in slot q; the claims are cleared. -/
def Loop.deal (l : Loop) : Loop :=
  let next := min l.n (l.next + (l.w - l.deferred.length))
  let pend := l.deferred ++ (List.range (next - l.next)).map (l.next + ·)
  { l with
    deferred := pend
    next := next
    items := (List.range l.slots.length).map fun q => if q < l.w then pend[q]? else none
    claims := l.slots.map fun _ => [] }

/-- Items that are not admitted yet. -/
def Loop.pending (l : Loop) : Nat := l.deferred.length + (l.n - l.next)

/-- The former decides a wave (R293): the loop before the next wave is dealt, and the admitted items. -/
def Loop.decide (l : Loop) : Loop × List Nat :=
  let a := admitWave l.items l.claims
  ({ l with
      deferred := l.deferred.filter fun i => !a.admitted.contains i
      waves := min 65535 (l.waves + 1)
      false_ := min 65535 (l.false_ + a.false_)
      defer := min (2 ^ 31 - 1) (l.defer + a.deferred) }, a.admitted)

/-- RLSTAT while the loop is open (R302 Table 2). -/
def Loop.stat (l : Loop) : DWord := BitVec.ofNat 64 (l.waves + l.false_ * 2 ^ 16 + l.defer * 2 ^ 32 + 2 ^ 63)

/-- The item of a slot. -/
def Loop.itemOf (l : Loop) (gid lane : Nat) : Option Nat :=
  match l.slots.findIdx? fun x => x.gid == gid && x.lane == lane with
  | some q => (l.items[q]?).join
  | none => none

/-- The word of an item, or NONE. -/
def itemWord (i : Option Nat) : Word := match i with | some n => BitVec.ofNat 32 n | none => 0xFFFF_FFFF

/-- The open loop of a group's role. -/
def State.loopOf (s : State) (id : Ident) : Option Loop := (s.team id.grid id.team).bind fun t => smFind t.loops id.role.code

/-- Put the loop of a group's role. -/
def State.setLoop (s : State) (id : Ident) (l : Loop) : State :=
  s.modTeam id.grid id.team fun t => { t with loops := smSet t.loops id.role.code l }

/-- The open loop in which a group is a participant, and that did not close under it (R301). -/
def State.myLoop (s : State) (gid : Nat) (id : Ident) : Option Loop :=
  (s.loopOf id).bind fun l => if l.slots.any (·.gid == gid) then some l else none

/-- A loop closed under the group, and it has not issued its `rlend` (R301). -/
def State.brokenLoop (s : State) (gid : Nat) (id : Ident) : Bool :=
  match s.team id.grid id.team with | some t => t.broken.contains gid | none => false

/-- The teams whose open loops a cluster's former holds: those of a saved context were saved with it (R303). -/
def State.formerTeams (s : State) (cluster : Nat) : List Team :=
  s.teams.filter fun t => !t.loops.isEmpty && t.cores.any (fun k => k / 8 == cluster) &&
    match s.ctx t.ctx with | some c => c.run == .running || c.run == .stopped | none => false

/-- The former of the cluster can hold a loop of the team (R303). -/
def State.formerFree (s : State) (id : Ident) : Bool :=
  ((s.formerTeams (id.core / 8)).filter fun t => !(t.grid == id.grid && t.n == id.team)).length < Config.formerLoops

/-- What the shared checks see of `rlbeg`, `rwave` and `rlend` (R297). -/
def rlFront (op : XOp) (w : XWord) : Front :=
  match op with
  | .rlbeg => xFront w (aRegs := 1) (bRegs := 1) (dst := [(w.d, 1)])
  | .rwave => xFront w (dst := [(w.d, 2), (.v 0, 1), (.v (BitVec.ofNat 8 (w.f 15 8)), 1)])
  | _ => xFront w

/-! ### Opening (R290, R298) -/

/-- (N, W, CSET) of an `rlbeg`. -/
def Group.loopArgs (g : Group) (w : XWord) : Nat × Nat × Nat := (g.rd w.a 0 .n32, g.rd w.b 0 .n32, w.f 7 0)

/-- The word of a group that stands arrived in a loop instruction. -/
def Group.loopWord (g : Group) (op : XOp) : Option XWord :=
  match g.wait with | some (.loop o w) => if o = op then some w else none | _ => none

/-- One participant's part of the opening. -/
def State.openFor (s : State) (l : Loop) (gid : Nat) (w : XWord) : State :=
  let s := s.modGroup gid fun g =>
    { (g.puts ((l.slots.filter fun x => x.gid == gid).map fun x =>
        (g.key w.d x.lane 0, itemWord (l.itemOf gid x.lane)))) with stat := { g.stat with rlstat := l.stat } }
  s.resumeWith gid (rlFront .rlbeg w)

/-- The loop of a role opens when every participant has issued `rlbeg` (R290), or raises RLSTATE in every one of them. -/
def State.tryOpen (s : State) (grid team : Nat) (r : Role) : State :=
  let parts := s.roleGroups grid team r
  match parts with
  | [] => s
  | (_, g) :: _ =>
    match g.loopWord .rlbeg with
    | none => s
    | some w =>
      if (s.loopOf g.id).isSome || !(parts.all fun p => p.2.inLoop .rlbeg) || !s.formerFree g.id then s
      else
        let (n, wv, cs) := g.loopArgs w
        let slots := slotsOf parts
        if wv = 0 || 1024 < wv || slots.length < wv then
          parts.foldl (fun s p => match p.2.loopWord .rlbeg with
            | some w => s.raiseIn p.1 w.guard .rlstate
            | none => s) s
        else
          let l := ({ n := n, w := wv, cset := cs, slots := slots, items := [], claims := [], deferred := [], next := 0
                      waves := 0, false_ := 0, defer := 0 } : Loop).deal
          parts.foldl (fun s p => match p.2.loopWord .rlbeg with
            | some w => s.openFor l p.1 w
            | none => s) (s.setLoop g.id l)

/-- `rlbeg` (R298). -/
def actRlbeg (w : XWord) (s : State) : Act :=
  let f := rlFront .rlbeg w
  s.issue f fun c =>
    let id := c.g.id
    let sets := match s.grid id.grid with | some g => g.kernel.claims.length | none => 0
    let first := ((s.roleGroups id.grid id.team id.role).filterMap fun p =>
      (p.2.loopWord .rlbeg).map fun v => p.2.loopArgs v).head?
    if id.bin || (s.loopOf id).isSome || s.brokenLoop c.gid id || sets ≤ w.f 7 0 then .trap c.gid (c.trap .rlstate c.act) s
    else if first.isSome && first != some (c.g.loopArgs w) then .trap c.gid (c.trap .rlmismatch c.act) s
    else if (c.g.keys w.d 1 (c.g.fibres.map (·.lane))).any fun k => s.inFlight c.gid id.core k then .wait s
    else .park ((s.hold c.gid (.loop .rlbeg w)).tryOpen id.grid id.team id.role)

/-! ### Claims (R299) -/

/-- The kind of the j-th claim of a claim set (R292). -/
def State.claimSet (s : State) (id : Ident) (cs : Nat) : ClaimSet :=
  match (s.grid id.grid).bind fun g => g.kernel.claims[cs]? with | some x => x | none => ⟨0, 0⟩

/-- The claims that a lane's slot holds. -/
def Loop.claimsOf (l : Loop) (gid lane : Nat) : List Claim :=
  match l.slots.findIdx? fun x => x.gid == gid && x.lane == lane with
  | some q => l.claims.getD q []
  | none => []

/-- Append a claim to a lane's slot, when the slot holds an item. -/
def Loop.post (l : Loop) (gid lane : Nat) (kinds : BitVec 8) (va : Nat) : Loop :=
  match l.slots.findIdx? fun x => x.gid == gid && x.lane == lane with
  | some q =>
    if ((l.items[q]?).join).isSome then
      { l with claims := l.claims.modify q fun cs => cs ++ [⟨granuleOf va, kinds.getLsbD cs.length⟩] }
    else l
  | none => l

/-- `claim` (R299). -/
def actClaim (w : MWord) (s : State) : Act :=
  let f := MOp.front .claim w
  s.issue f fun c =>
    match (if s.brokenLoop c.gid c.g.id then none else s.loopOf c.g.id) with
    | none => .trap c.gid (c.trap .rlstate c.act) s
    | some l =>
      let bad := c.act.filter fun x => !canonical (c.g.globalAddr w x)
      let cs := s.claimSet c.g.id l.cset
      let excess := c.act.filter fun x => min 8 cs.count ≤ (l.claimsOf c.gid x).length
      if !bad.isEmpty then .trap c.gid (c.trap .addr bad (c.g.globalAddr w (lowest 0 bad))) s
      else if !excess.isEmpty then .trap c.gid (c.trap .claimovf excess) s
      else
        let l := c.act.foldl (fun l x => l.post c.gid x cs.kinds (c.g.globalAddr w x).toNat) l
        .done ((s.setLoop c.g.id l).commit c f)

/-! ### Waves and the end (R296, R300, R301) -/

/-- `rwave` (R300): after a release, the group's arrival; it acts for every slot lane, so every batch must stand at it. -/
def actRwave (w : XWord) (s : State) : Act :=
  let f := rlFront .rwave w
  s.issue f fun c =>
    if s.brokenLoop c.gid c.g.id || (s.myLoop c.gid c.g.id).isNone || c.g.fibres.any (fun x => x.held || x.pc != c.own) then
      .trap c.gid (c.trap .rlstate c.act) s
    else if !s.released c.gid .device then .wait s
    else .park (s.hold c.gid (.loop .rwave w))

/-- One participant's part of a decided wave (R300): the v0 bit, NEXT, the counts and RLSTAT. -/
def State.waveFor (s : State) (old new : Loop) (adm : List Nat) (pend gid : Nat) (w : XWord) : State :=
  let bit : Word := 1#32 <<< w.f 4 0
  let s := s.modGroup gid fun g =>
    let lane := fun (x : Slot) =>
      let k := g.key (.v 0) x.lane 0
      let won := match old.itemOf gid x.lane with | some i => adm.contains i | none => false
      [(k, if won then g.reg k ||| bit else g.reg k &&& ~~~bit),
       (g.key (.v (BitVec.ofNat 8 (w.f 15 8))) x.lane 0, itemWord (new.itemOf gid x.lane))]
    { (g.puts (((old.slots.filter fun x => x.gid == gid).flatMap lane) ++
        [(g.key w.d 0 0, BitVec.ofNat 32 adm.length), (g.key w.d 0 1, BitVec.ofNat 32 pend)])) with
      stat := { g.stat with rlstat := new.stat } }
  s.resumeWith gid (rlFront .rwave w)

/-- The participants of an open loop. -/
def State.loopParts (s : State) (grid team : Nat) (r : Role) (l : Loop) : List (Nat × Group) :=
  (s.roleGroups grid team r).filter fun p => l.slots.any (·.gid == p.1)

/-- The wave is decided and delivered, when every participant's `rwave` has arrived and may acquire (R293, R296). -/
def State.tryWave (s : State) (grid team : Nat) (r : Role) (l : Loop) : State :=
  let parts := s.loopParts grid team r l
  if parts.isEmpty || !(parts.all fun p => p.2.inLoop .rwave && s.acquired p.1 .device) then s
  else
    let (l', adm) := l.decide
    let new := l'.deal
    let s := s.modTeam grid team fun t => { t with loops := smSet t.loops r.code new }
    parts.foldl (fun s p => match p.2.loopWord .rwave with
      | some w => s.waveFor l new adm l'.pending p.1 w
      | none => s) s

/-- The loop closes when every participant's `rlend` has arrived (R301). -/
def State.tryClose (s : State) (grid team : Nat) (r : Role) (l : Loop) : State :=
  let parts := s.loopParts grid team r l
  if parts.isEmpty || !(parts.all fun p => p.2.inLoop .rlend) then s
  else
    let s := s.modTeam grid team fun t => { t with loops := smErase t.loops r.code }
    parts.foldl (fun s p => (s.modGroup p.1 fun g =>
      { g with stat := { g.stat with rlstat := setOpen g.stat.rlstat false } }).resume p.1) s

/-- `rlend` (R301). -/
def actRlend (w : XWord) (s : State) : Act :=
  let f := rlFront .rlend w
  s.issue f fun c =>
    let id := c.g.id
    if s.brokenLoop c.gid id then
      .done ((s.modTeam id.grid id.team fun t => { t with broken := t.broken.filter (· != c.gid) }).commit c f)
    else
      match s.myLoop c.gid id with
      | none => .trap c.gid (c.trap .rlstate c.act) s
      | some l => .park ((s.hold c.gid (.loop .rlend w)).tryClose id.grid id.team id.role l)

/-- The role of a code. -/
def roleOf (n : Nat) : Role := match n with | 0 => .all | 1 => .copy | 2 => .matrix | _ => .vector

/-- A role of a team has a group that waits in `rlbeg`. -/
def State.wantsLoop (s : State) (grid team : Nat) (r : Role) : Bool :=
  (s.roleGroups grid team r).any fun p => p.2.inLoop .rlbeg

/-- WAVE_DECIDE (R290, R293, R303): the former of a team's role decides the wave whose arrivals are complete, and opens a
loop that could not open at its last arrival: a group that had not arrived has ended, or a loop of another team closed. -/
def waveDecide (team role : Nat) (s : State) : State :=
  match s.teams[team]? with
  | none => s
  | some t =>
    if !s.running t.ctx then s
    else
      let r := roleOf role
      match smFind t.loops r.code with
      | none => s.tryOpen t.grid t.n r
      | some l => s.tryWave t.grid t.n r l

/-! ### The meanings, one for each instruction and event -/

/-- `CLAIM` (R299). -/
def execClaim (w : MWord) (s : State) : Host.Outcome State Fault Refusal := finish (actClaim w s)

/-- `RLBEG` (R298). -/
def execRlbeg (w : XWord) (s : State) : Host.Outcome State Fault Refusal := finish (actRlbeg w s)

/-- `RWAVE` (R300). -/
def execRwave (w : XWord) (s : State) : Host.Outcome State Fault Refusal := finish (actRwave w s)

/-- `RLEND` (R301). -/
def execRlend (w : XWord) (s : State) : Host.Outcome State Fault Refusal := finish (actRlend w s)

/-- WAVE_DECIDE (R293, R303). -/
def execWaveDecide (team : Nat) (role : Nat) (s : State) : Host.Outcome State Fault Refusal :=
  .next (waveDecide team role s)

end Sys2Proof.Machine
end

