-- ==== Sys2Proof/Machine/Regions.lean ====
section
/-! DEFINITION. Relaxation regions (R306-R328): the descriptor and the buffer, the body's instructions, the pass with its
scan, the end of a pass, and the commit. -/

namespace Sys2Proof.Machine

/-! ### The FPRU's arithmetic (R315, R316): f32 in rne -/

/-- f32 subtraction, product and fused multiply-add in rne. -/
def fpruSub (a b : Word) : Word :=
  BitVec.ofNat 32 (roundTo .f32 (addEx (decode .f32 a.toNat) (Exact.negate (decode .f32 b.toNat)) .rne).1 .rne false 0).1

@[inherit_doc fpruSub] def fpruMul (a b : Word) : Word :=
  BitVec.ofNat 32 (roundTo .f32 (mulEx (decode .f32 a.toNat) (decode .f32 b.toNat)).1 .rne false 0).1

@[inherit_doc fpruSub] def fpruFma (a b c : Word) : Word :=
  BitVec.ofNat 32
    (roundTo .f32 (fmaEx (decode .f32 a.toNat) (decode .f32 b.toNat) (decode .f32 c.toNat) .rne).1 .rne false 0).1

/-- Every component compares equal to 0. -/
def vecZero (v : List Word) : Bool := v.all fun x => (decode .f32 x.toNat).isZero

/-- An affine map x ↦ Jx + e: m or m × m entries, row by row. -/
structure Affine where
  j : List Word
  e : List Word
  deriving DecidableEq, Repr

/-- comb(a, b): a first, then b (R316). -/
def Affine.comb (m : Nat) (dense : Bool) (a b : Affine) : Affine :=
  let jb := fun (i l : Nat) => b.j.getD (if dense then i * m + l else i) 0
  let ja := fun (l c : Nat) => a.j.getD (if dense then l * m + c else l) 0
  if dense then
    { j := (List.range m).flatMap fun i => (List.range m).map fun c =>
        (List.range (m - 1)).foldl (fun acc l => fpruFma (jb i (l + 1)) (ja (l + 1) c) acc) (fpruMul (jb i 0) (ja 0 c))
      e := (List.range m).map fun i =>
        (List.range m).foldl (fun acc l => fpruFma (jb i l) (a.e.getD l 0) acc) (b.e.getD i 0) }
  else
    { j := (List.range m).map fun i => fpruMul (jb i i) (ja i i)
      e := (List.range m).map fun i => fpruFma (jb i i) (a.e.getD i 0) (b.e.getD i 0) }

/-- One level of a block: every position d or more into it combines at once. -/
def fpruLevel {α : Type} (comb : α → α → α) (d : Nat) (y : List α) : List α :=
  y.mapIdx fun i x => if d ≤ i then (match y[i - d]? with | some a => comb a x | none => x) else x

/-- The MVS-1 tree of prefixes (R316): blocks of 16, then the blocks' last elements. -/
def fpruTree {α : Type} (comb : α → α → α) : Nat → List α → List α
  | 0, y => y
  | fuel + 1, y =>
    let blocks := (List.range (ceilDiv y.length 16)).map fun b =>
      [1, 2, 4, 8].foldl (fun y d => fpruLevel comb d y) ((y.drop (16 * b)).take 16)
    if y.length ≤ 16 then blocks.flatten
    else
      let z := fpruTree comb fuel (blocks.filterMap fun b => b.getLast?)
      (blocks.mapIdx fun b ys => if b = 0 then ys else
        match z[b - 1]? with | some a => ys.map (comb a) | none => ys).flatten

/-! ### The descriptor and the buffer (R307, R308) -/

/-- f32 bits that are finite and not below zero in value. -/
def tolOk (x : Word) : Bool := decide (x.toNat / 2 ^ 23 % 256 < 255) && (decide (x.toNat < 2 ^ 31) || x == 0x8000_0000)

/-- The fields of a region descriptor, with its buffer's place found by `place`; `none` when a check fails (R307, R308). -/
def RegionDesc.ofBytes (b : List Byte) (place : Nat → Nat → Option SpadLoc) : Option RegionDesc :=
  let t := leField b 0 4
  let fl := leField b 9 1
  let m := leField b 8 1
  let tol := fl / 2 % 2 = 1
  let d : RegionDesc := ⟨t, leField b 4 2, leField b 6 2, m, fl % 2 = 1, tol, fl / 4 % 4, leField b 10 1,
    BitVec.ofNat 32 (leField b 12 4), BitVec.ofNat 32 (leField b 16 4), 0, 0⟩
  let ok := decide (1 ≤ t) && decide (t ≤ 65536) && decide (1 ≤ d.limit) && decide (1 ≤ m) && decide (m ≤ 8) && d.guess != 3 &&
    decide (fl < 16) && leField b 11 1 == 0 && leField b 24 8 == 0 && (!tol || (tolOk d.tolAbs && tolOk d.tolRel))
  if ok then
    match place (leField b 20 4) (d.stateBytes + d.workBytes + d.storeBytes) with
    | some l => if l.ofs % 128 = 0 then some { d with bufCore := l.core, bufOfs := l.ofs } else none
    | none => none
  else none

/-- Words of bytes, lowest first. -/
def wordsOf (b : List Byte) : List Word := (List.range (b.length / 4)).map fun i => BitVec.ofNat 32 (leField b (4 * i) 4)

/-- Vectors of m words. -/
def vecsOf (m n : Nat) (w : List Word) : List (List Word) := (List.range n).map fun i => (w.drop (m * i)).take m

/-- S[t] for n steps from t (R308). -/
def State.readStates (s : State) (grid team : Nat) (d : RegionDesc) (t n : Nat) : List (List Word) :=
  vecsOf d.m n (wordsOf (s.spadRead grid team d.bufCore (d.bufOfs + 4 * (d.m * t)) (4 * d.m * n)))

/-- S[t] := the given states, for t from 1 (R320). -/
def State.writeStates (s : State) (grid team : Nat) (d : RegionDesc) (v : List (List Word)) : State :=
  s.spadWrite grid team d.bufCore (d.bufOfs + 4 * d.m) (v.flatten.flatMap fun x => leOf 4 x.toNat)

/-- The machine's own areas become zero when the region becomes IDLE (R308). -/
def State.zeroAreas (s : State) (grid team : Nat) (d : RegionDesc) : State :=
  s.spadWrite grid team d.bufCore (d.bufOfs + d.stateBytes) (List.replicate (d.workBytes + d.storeBytes) 0)

/-! ### Rounds (R310) -/

/-- The step that a slot holds in a round. -/
def Region.stepAt (r : Region) (q : Nat) : Option Nat :=
  let t := r.round * r.slots.length + q + 1
  if t ≤ r.desc.t then some t else none

/-- The round is dealt: the registers of the snapshot, the lanes with a step at the body's start, the others at `rxend`. -/
def State.dealRound (s : State) (r : Region) : State :=
  let lane := fun (gid : Nat) (f : Fibre) =>
    if (r.stepOf gid f.lane).isSome then { f with pc := BitVec.ofNat 64 r.lo, held := false }
    else { f with pc := BitVec.ofNat 64 (r.hi - 12), held := true }
  r.snaps.foldl (fun s sn => s.modGroup sn.gid fun g =>
    { (g.restoreSnap sn) with fibres := g.fibres.map (lane sn.gid), wait := none }) s

/-- Put a team's region. -/
def State.setRegion (s : State) (grid team : Nat) (r : Region) : State :=
  s.modTeam grid team fun t => { t with region := some r }

/-- RXSTAT, RXRES and RXPASS in every participant (R321). -/
def State.postStat (s : State) (parts : List Nat) (f : StatRegs → StatRegs) : State :=
  parts.foldl (fun s p => s.modGroup p fun g => { g with stat := f g.stat }) s

/-! ### Opening (R323) -/

/-- What the shared checks see of a region instruction of the group (R322). -/
def rxFront (op : XOp) (w : XWord) : Front :=
  match op with
  | .rxbeg => xFront w (aRegs := 2) (bRegs := if w.b = .zero then 0 else 2)
  | .rxcmt => xFront w (aRegs := 1)
  | .rxend => { xFront w (body := true) with moves := true }
  | _ => xFront w

/-- (REGION, rd(A), rd(B) or 0) of an `rxbeg`. -/
def Group.regionArgs (g : Group) (w : XWord) : Nat × DWord × DWord :=
  (w.f 7 0, g.rdDWord w.a 0, if w.b = .zero then 0 else g.rdDWord w.b 0)

/-- The word of a group that stands arrived in a region instruction. -/
def Group.regionWord (g : Group) (op : XOp) : Option XWord :=
  match g.wait with | some (.region o w) => if o = op then some w else none | _ => none

/-- An `rxcmt` of the team has performed its steps and waits for their writes (R326; log 90). -/
def State.committing (s : State) (grid team : Nat) : Bool :=
  match (s.team grid team).bind (·.region) with | some r => r.performed | none => false

/-- The team has a region that is not IDLE. -/
def State.regionBusy (s : State) (grid team : Nat) : Bool :=
  match (s.team grid team).bind (·.region) with | some r => r.st != .idle | none => false

/-- Nothing is in flight to a register of the groups. -/
def State.quiet (s : State) (gids : List Nat) : Bool :=
  !(s.work.producers.any fun p => gids.contains p.gid) && !(s.cores.any fun c => c.2.sfu.any fun e => gids.contains e.gid)

/-- A trap in every participant that stands at an instruction of the region. -/
def State.raiseAll (s : State) (parts : List (Nat × Group)) (op : XOp) (cause : Cause) (addr : DWord) (level : Nat := 7) :
    State :=
  parts.foldl (fun s p => match p.2.regionWord op with
    | some w => s.raiseIn p.1 w.guard cause addr level
    | none => s) s

/-- The region opens with its descriptor and guess (R323). -/
def State.openRegion (s : State) (grid team : Nat) (parts : List (Nat × Group)) (e : RegionEntry) (d : RegionDesc)
    (guess : List (List Word)) : State :=
  let s := parts.foldl (fun s p => match p.2.regionWord .rxbeg with
    | some w => s.resumeWith p.1 (rxFront .rxbeg w)
    | none => s) s
  let snaps := parts.map fun p =>
    (⟨p.1, p.2.regs.filter fun x => inSnap x.1⟩ : Snap)
  let r : Region :=
    { st := .opened, lo := e.lo, hi := e.hi, desc := d, parts := parts.map (·.1), slots := slotsOf parts, snaps := snaps
      pass := 1, round := 0, s0 := (s.readStates grid team d 0 1).getD 0 [], sPrev := guess
      settled := List.replicate d.t false, evals := [], prevBytes := [], heldLines := [], heldSpad := [], rHist := []
      last := [], performed := false }
  ((s.setRegion grid team r).dealRound r).postStat r.parts fun st =>
    { st with rxstat := BitVec.ofNat 64 (RegionSt.opened.code * 2 ^ 3), rxres := 0, rxpass := 0 }

/-- The opening, when every participant has arrived (R323). The descriptor is one load of 32 bytes, and the guess is read in
loads of one f32 each, as their alignment shows (Table 7 step 1; log 76). -/
def State.tryOpenRegion (s : State) (grid team : Nat) (role : Role) : State :=
  let parts := s.roleGroups grid team role
  match parts with
  | [] => s
  | (_, g) :: _ =>
    match g.regionWord .rxbeg with
    | none => s
    | some w =>
      if s.regionBusy grid team || !(parts.all fun p => (p.2.regionWord .rxbeg).isSome && s.acquired p.1 .device) ||
        !s.quiet (parts.map (·.1)) then s
      else
        let (i, da, ga) := g.regionArgs w
        if da.toNat % 32 != 0 then s.raiseAll parts .rxbeg .align da else
        match s.unitReadLong .other g.id.ctx da 2 32 with
        | .blocked s' => s.doomsOf s'
        | .fault s c l a => s.raiseAll parts .rxbeg c a l
        | .ok s b =>
          let first := parts.foldl (fun (a : Group) p => if p.2.id.ridx < a.id.ridx then p.2 else a) g
          match RegionDesc.ofBytes b (fun word n => s.spadPlace first.id word n),
              (s.grid grid).bind fun x => x.kernel.regions[i]? with
          | some d, some e =>
            let s0 := (s.readStates grid team d 0 1).getD 0 []
            match d.guess with
            | 0 => s.openRegion grid team parts e d (List.replicate d.t s0)
            | 1 =>
              if w.b = .zero then s.raiseAll parts .rxbeg .rxfault da
              else if ga.toNat % 4 != 0 then s.raiseAll parts .rxbeg .align ga
              else
                match s.unitReadLong .other g.id.ctx ga (2 + 4 * d.m * d.t / 4096) (4 * d.m * d.t) with
                | .blocked s' => s.doomsOf s'
                | .fault s c l a => s.raiseAll parts .rxbeg c a l
                | .ok s b => s.openRegion grid team parts e d (vecsOf d.m d.t (wordsOf b))
            | _ => s.openRegion grid team parts e d (s.readStates grid team d 1 d.t)
          | _, _ => s.raiseAll parts .rxbeg .rxfault da

/-- `rxbeg` (R323). -/
def actRxbeg (w : XWord) (s : State) : Act :=
  let f := rxFront .rxbeg w
  s.issue f fun c =>
    let id := c.g.id
    let n := match s.grid id.grid with | some g => g.kernel.regions.length | none => 0
    let first := ((s.roleGroups id.grid id.team id.role).filterMap fun p =>
      (p.2.regionWord .rxbeg).map fun v => p.2.regionArgs v).head?
    if s.committing id.grid id.team then .wait s
    else if s.regionBusy id.grid id.team || id.bin || n ≤ w.f 7 0 then .trap c.gid (c.trap .rxfault c.act) s
    else if !s.released c.gid .device then .wait s
    else if first.isSome && first != some (c.g.regionArgs w) then .trap c.gid (c.trap .rxfault c.act) s
    else .park ((s.hold c.gid (.region .rxbeg w)).tryOpenRegion id.grid id.team id.role)

/-! ### The body's instructions (R324, R325) -/

/-- The step of a lane and what it starts from, s_(t−1)^(k−1). -/
def Region.stateBefore (r : Region) (t : Nat) : List Word := if t = 1 then r.s0 else r.sPrev.getD (t - 2) []

/-- `rxin` (R324). -/
def actRxin (w : XWord) (s : State) : Act :=
  let f := xFront w (ports := [.v1]) (dst := [(w.d, 1)]) (body := true)
  s.issue f fun c =>
    match s.bodyOf c.gid c.g with
    | none => .trap c.gid (c.trap .rxfault c.act) s
    | some r =>
      let j := w.f 2 0
      if w.f 5 4 = 0 && r.desc.m ≤ j then .trap c.gid (c.trap .rxfault c.act) s
      else
        let val := fun (l : Nat) =>
          let t := (r.stepOf c.gid l).getD 0
          match w.f 5 4 with
          | 0 => ((r.stateBefore t).getD j 0).toNat
          | 1 => t
          | _ => r.pass
        .done ((s.modGroup c.gid fun g => g.puts (c.act.flatMap fun l => g.wr w.d l .n32 (val l))).commit c f)

/-- Write an entry of the lanes' steps. -/
def State.stepPut (s : State) (c : Ctx) (put : StepEval → Nat → StepEval) : State :=
  c.act.foldl (fun s l => s.modRegion c.g fun r => r.modStep c.gid l fun e => put e l) s

/-- `rxout` (R324): raw bits, the later write of a component counts (R311). -/
def actRxout (w : XWord) (s : State) : Act :=
  let f := xFront w (ports := [.v1]) (aRegs := 1) (body := true)
  s.issue f fun c =>
    match s.bodyOf c.gid c.g with
    | none => .trap c.gid (c.trap .rxfault c.act) s
    | some r =>
      if r.desc.m ≤ w.f 2 0 then .trap c.gid (c.trap .rxfault c.act) s
      else
        let val := fun (l : Nat) => BitVec.ofNat 32 (c.g.rd w.a l .f32)
        .done ((s.stepPut c fun e l => { e with f := e.f.set (w.f 2 0) (some (val l)) }).commit c f)

/-- `rxjac` (R324). -/
def actRxjac (w : XWord) (s : State) : Act :=
  let f := xFront w (ports := [.v1]) (aRegs := 1) (body := true)
  s.issue f fun c =>
    match s.bodyOf c.gid c.g with
    | none => .trap c.gid (c.trap .rxfault c.act) s
    | some r =>
      let row := w.f 2 0
      let col := w.f 5 3
      if r.desc.m ≤ row || r.desc.m ≤ col || (!r.desc.dense && row != col) then .trap c.gid (c.trap .rxfault c.act) s
      else
        let i := if r.desc.dense then row * r.desc.m + col else row
        let val := fun (l : Nat) => BitVec.ofNat 32 (c.g.rd w.a l .f32)
        .done ((s.stepPut c fun e l => { e with j := e.j.set i (some (val l)) }).commit c f)

/-- `rxst` (R314, R324): it records a store for each lane; failures are held. -/
def actRxst (w : MWord) (s : State) : Act :=
  let f := MOp.front .rxst w
  s.issue f fun c =>
    match s.bodyOf c.gid c.g with
    | none => .trap c.gid (c.trap .rxfault c.act) s
    | some r =>
      match s.resolve c w.space w.scope (c.elems w false) { once := false, kind := .write, record := true } with
      | .act a => a
      | .ok s hits =>
        let used := fun (l : Nat) => match r.stepOf c.gid l with
          | some t => (smGet (StepEval.start r.desc) r.evals t).stores.length
          | none => 0
        let full := c.act.filter fun l => r.desc.sps ≤ used l
        if !full.isEmpty then .done (full.foldl (fun s l => s.holdFault c l (c.trap .rxfault [l])) s)
        else
          let record := fun (s : State) (h : Hit) => match h.reach with
            | .glob pa mt _ => s.modRegion c.g fun r => r.modStep c.gid h.e.lane fun e =>
                { e with stores := e.stores ++ [⟨h.e.va, pa, mt, w.scope, leOf h.e.bytes (c.datum w h), c.gid⟩] }
            | .spad _ _ => s
          .done ((hits.foldl record s).commit c f)

/-- `rxend` (R325): the batch is held at it; the participant arrives when all its lanes are. -/
def actRxend (w : XWord) (s : State) : Act :=
  let f := rxFront .rxend w
  s.issue f fun c =>
    match s.bodyOf c.gid c.g with
    | none => .trap c.gid (c.trap .rxfault c.act) s
    | some r =>
      if c.own.toNat + 12 != r.hi then .trap c.gid (c.trap .rxbody c.act) s
      else .done ((s.modGroup c.gid fun g => g.holdLanes c.act).commitTo c f fun _ => c.own)

/-! ### The pass (R315) -/

/-- What a pass makes of one step: F_t, J_t, δ_(t−1), s_t^(k), Δ_t, σ_t^(k) and its evaluation. -/
structure StepOut where
  t : Nat
  f : List Word
  j : List Word
  before : List Word
  state : List Word
  delta : List Word
  settled : Bool
  eval : StepEval
  deriving DecidableEq, Repr

/-- F_t and J_t of an evaluation (R311): a component that was not written keeps its state, with the identity's row. -/
def StepEval.result (e : StepEval) (d : RegionDesc) (before : List Word) : List Word × List Word :=
  let one : Word := 0x3F80_0000
  let f := (List.range d.m).map fun j => match (e.f[j]?).join with | some x => x | none => before.getD j 0
  let entry := fun (row col i : Nat) =>
    if ((e.f[row]?).join).isSome then ((e.j[i]?).join).getD 0 else if row = col then one else 0
  (f, if d.dense then (List.range d.m).flatMap fun r => (List.range d.m).map fun c => entry r c (r * d.m + c)
      else (List.range d.m).map fun r => entry r r r)

/-- upd(J, δ, F) (R315). -/
def updStep (d : RegionDesc) (j δ f : List Word) : List Word :=
  (List.range d.m).map fun i =>
    if d.dense then (List.range d.m).foldl (fun acc l => fpruFma (j.getD (i * d.m + l) 0) (δ.getD l 0) acc) (f.getD i 0)
    else fpruFma (j.getD i 0) (δ.getD i 0) (f.getD i 0)

/-- Component by component. -/
def vecSub (a b : List Word) : List Word := (a.zip b).map fun p => fpruSub p.1 p.2

/-- The pass over every step (R315). -/
def Region.runPass (r : Region) : List StepOut :=
  let d := r.desc
  let steps := (List.range d.t).map (· + 1)
  let zero := List.replicate d.m (0 : Word)
  let raw := steps.map fun t =>
    let e := smGet (StepEval.start d) r.evals t
    let old := r.sPrev.getD (t - 1) zero
    if e.fault.isSome then (e, old, old, List.replicate d.jac (0 : Word))
    else
      let (f, j) := e.result d (r.stateBefore t)
      (e, old, f, j)
  let prefixes := fpruTree (Affine.comb d.m d.dense) 5 (raw.map fun x => (⟨x.2.2.2, vecSub x.2.2.1 x.2.1⟩ : Affine))
  let deltas := zero :: prefixes.map (·.e)
  let sig := true :: r.settled
  (steps.zip (raw.zip (deltas.zip sig))).map fun p =>
    let (t, (e, old, f, j), δ, σ) := p
    let s := if vecZero δ then f else updStep d j δ f
    ⟨t, f, j, δ, s, vecSub s old, vecZero δ && σ, e⟩

/-- P: the settled prefix. -/
def settledPrefix (l : List StepOut) : Nat := (l.takeWhile (·.settled)).length

/-- |x| of an f32. -/
def absWord (x : Word) : Word := x &&& 0x7FFF_FFFF

/-- NaN or an infinity. -/
def notFinite (x : Word) : Bool := decide (0x7F80_0000 ≤ (absWord x).toNat)

/-- R_k with its place (R321): the largest |Δ_t[j]|, NaN as +∞; the lowest t, then the lowest j, on a tie. -/
def largestDelta (l : List StepOut) : Word × Nat × Nat :=
  let all := l.flatMap fun x => x.delta.mapIdx fun j y => (absWord y, x.t, j)
  let key := fun (y : Word) => min y.toNat 0x7F80_0000
  match all with
  | [] => (0, 0, 0)
  | x :: rest => rest.foldl (fun a y => if key a.1 < key y.1 then y else a) x

/-- |Δ_t[j]| ≤ fma(TOLREL, |s_t[j]|, TOLABS) for every component (R319). -/
def withinTol (d : RegionDesc) (x : StepOut) : Bool :=
  (x.delta.zip x.state).all fun p =>
    let bound := decode .f32 (fpruFma d.tolRel (absWord p.2) d.tolAbs).toNat
    let mag := decode .f32 (absWord p.1).toNat
    !mag.isNan && !bound.isNan && !ltEx bound mag

/-- OUTCOME codes of RXSTAT (R321 Table 3), and going on. -/
inductive PassOutcome where
  | converged | limit | stalled | diverged | fault (x : StepOut) | more
  deriving DecidableEq, Repr

/-- The decision after pass k (R319). -/
def Region.decidePass (r : Region) (l : List StepOut) (rk : Word) : PassOutcome :=
  let d := r.desc
  let p := settledPrefix l
  match l.find? fun x => x.eval.fault.isSome && x.settled with
  | some x => .fault x
  | none =>
    let conv := if d.tol then !(l.any fun x => x.eval.fault.isSome) && (p == d.t || l.all (withinTol d)) else p == d.t
    let bad := fun (x : StepOut) => decide (p < x.t) && (x.f ++ x.j ++ x.before ++ x.state).any notFinite
    if conv then .converged
    else if l.any bad then .diverged
    else if r.pass = d.limit then .limit
    else if d.stall != 0 && decide (d.stall < r.pass) &&
        (match r.rHist[d.stall - 1]? with | some old => decide (old.toNat ≤ rk.toNat) | none => false) then .stalled
    else .more

@[inherit_doc PassOutcome] def PassOutcome.code : PassOutcome → Nat
  | .converged => 0 | .limit => 1 | .stalled => 2 | .diverged => 3 | .fault _ => 4 | .more => 0

/-! ### Stores and the commit (R314, R320, R326) -/

/-- A recorded store would have to wait for a line now. -/
def State.storeWaits (s : State) (x : RecStore) : Bool :=
  match s.pathOf .global x.pa x.mt x.scope with
  | .m | .tc => s.blockedFor (s.nowBy x.gid) x.pa x.bytes.length true
  | _ => false

/-- The core of the participant of the lowest RIDX, which sequences a region (R329). -/
def State.regionCore (s : State) (r : Region) : Nat :=
  let gs := r.parts.filterMap s.group
  match gs with
  | [] => 0
  | g :: rest => (rest.foldl (fun (a b : Group) => if b.id.ridx < a.id.ridx then b else a) g).id.core

/-- A recorded store performs, on the path that its MT and the page's bias now give; the commit is its issuing agent (R314).
One that its target refuses by now is discarded and logged (R222). -/
def State.performStore (s : State) (ctx core : Nat) (x : RecStore) : State :=
  let a : Access := ⟨x.gid, core, ctx, x.pa, x.bytes.length, .store x.bytes, 0, [], s.sched.nextId, false⟩
  let p := s.pathOf .global x.pa x.mt x.scope
  let tg := targetOf p x.mt
  match p with
  | .qch => s.qchAppend a
  | .h => (if x.mt == 3 then s.flip x.pa else s).hAppend a
  | _ =>
    if !s.allowed tg ctx x.pa x.bytes.length .write then s.refuse tg ctx x.pa .write
    else if p = .tc then s.tcWrite x.gid core ctx x.pa x.bytes
    else s.performWrite x.pa x.bytes

/-- The flags of some steps join every participant's FPMODE. -/
def State.joinFlags (s : State) (parts : List Nat) (l : List StepLast) : State :=
  let fl := l.foldl (fun (a : FpFlags) x => a ||| x.flags) 0
  parts.foldl (fun s p => s.modGroup p fun g => { g with fpmode := orFlags g.fpmode fl }) s

/-- Steps commit (R320, R326): S[t], then the stores in ascending step, then the flags. -/
def State.commitSteps (s : State) (t : Team) (r : Region) (l : List StepLast) : State :=
  let s := s.writeStates t.grid t.n r.desc (l.map (·.state))
  let s := (l.flatMap (·.stores)).foldl (fun s x => s.performStore t.ctx (s.regionCore r) x) s
  (s.joinFlags r.parts l).zeroAreas t.grid t.n r.desc

/-- The region becomes IDLE. -/
def State.closeRegion (s : State) (t : Team) (r : Region) : State :=
  s.setRegion t.grid t.n { r with st := .idle, last := [], heldLines := [], heldSpad := [], performed := false }

/-! ### The end of a round and of a pass (R319, R320, R325, R327) -/

/-- RXSTAT after pass k (R321 Table 3). -/
def rxstatOf (outcome : Nat) (st : RegionSt) (passes p : Nat) : DWord :=
  BitVec.ofNat 64 (outcome + st.code * 2 ^ 3 + passes % 2 ^ 16 * 2 ^ 16 + p * 2 ^ 32)

/-- Every fibre of a participant is held at the `rxend`. -/
def Region.arrivedAll (r : Region) (s : State) : Bool :=
  r.parts.all fun p => match s.group p with
    | some g => g.fibres.all fun f => f.held && f.pc.toNat + 12 == r.hi
    | none => true

/-- The stores of a pass that converged would have to wait for a line, once the region's own lines are let go. -/
def State.storesWait (s : State) (t : Team) (r : Region) (l : List StepOut) : Bool :=
  let s := s.setRegion t.grid t.n { r with st := .pending, heldLines := [], heldSpad := [] }
  (l.flatMap (·.eval.stores)).any s.storeWaits

/-- The pass is complete: it is scanned and decided (R315-R320). -/
def State.passDone (s : State) (t : Team) (r : Region) : State :=
  let l := r.runPass
  let (rk, step, comp) := largestDelta l
  let rInf : Word := if notFinite rk then 0x7F80_0000 else rk
  let out := r.decidePass l rInf
  let p := match out with | .fault x => x.t - 1 | _ => settledPrefix l
  let last := l.map fun x => (⟨x.state, x.eval.stores, x.eval.flags⟩ : StepLast)
  let res : Word := if 0x7F80_0000 < rk.toNat then BitVec.ofNat 32 (Ty.cnan .f32) else rk
  let post := fun (st : RegionSt) (x : StatRegs) =>
    { x with rxstat := rxstatOf out.code st r.pass p, rxres := res, rxpass := BitVec.ofNat 32 (step + comp * 2 ^ 17) }
  match out with
  | .more =>
    let bytes := l.flatMap fun x => x.eval.stores.flatMap fun y => (List.range y.bytes.length).map fun i => (y.pa + i, x.t)
    let r' := { r with
      pass := r.pass + 1, round := 0, sPrev := l.map (·.state), settled := l.map (·.settled), evals := []
      prevBytes := bytes, rHist := (rInf :: r.rHist).take (max 1 r.desc.stall), last := last }
    ((s.setRegion t.grid t.n r').dealRound r').postStat r.parts (post .opened)
  | .converged =>
    let s' := s.setRegion t.grid t.n { r with st := .pending, heldLines := [], heldSpad := [] }
    if s.storesWait t r l then s
    else ((s'.leaveRegion r (post .idle)).commitSteps t r last).closeRegion t r
  | out =>
    let s := (s.leaveRegion r (post .pending)).setRegion t.grid t.n
      { r with st := .pending, heldLines := [], heldSpad := [], last := last }
    match out with
    | .fault x =>
      (match r.slots[(x.t - 1) % r.slots.length]?, x.eval.fault with
       | some q, some tr => s.raise q.gid { tr with body := true, resume := false, after := BitVec.ofNat 64 r.hi }
       | _, _ => s)
    | _ => s

/-- The last round of a pass is complete: the FPRU's end-of-pass work begins (R325, R328). -/
def State.passOver (s : State) (r : Region) : Bool :=
  r.st == .opened && r.arrivedAll s && s.quiet r.parts && r.desc.t ≤ (r.round + 1) * r.slots.length

/-- The round is complete: the next one, or the end of the pass (R325). -/
def State.roundDone (s : State) (t : Team) (r : Region) : State :=
  if !r.arrivedAll s || !s.quiet r.parts then s
  else if (r.round + 1) * r.slots.length < r.desc.t then
    let r' := { r with round := r.round + 1 }
    (s.setRegion t.grid t.n r').dealRound r'
  else s.passDone t r

/-! ### rxcmt and rxabort (R326) -/

/-- The groups of a list that have not ended. -/
def State.liveOf (s : State) (gids : List Nat) : List (Nat × Group) :=
  s.groups.filter fun p => gids.contains p.1 && !p.2.ended

/-- `rxcmt` acts at the last arrival (R326), and commits once every write has performed, with a release and an acquire; the region
is PENDING until then (log 90). -/
def State.tryCommit (s : State) (t : Team) (r : Region) : State :=
  let parts := s.liveOf r.parts
  match parts with
  | [] => s
  | (_, g) :: _ =>
    match g.regionWord .rxcmt with
    | none => s
    | some w =>
      if !(parts.all fun p => (p.2.regionWord .rxcmt).isSome) then s
      else
        let l := r.last.take (g.rd w.a 0 .n32)
        if r.st != .pending || (!r.performed && (l.flatMap (·.stores)).any s.storeWaits) then s
        else
          let s := if r.performed then s
            else (s.commitSteps t r l).setRegion t.grid t.n { r with last := [], performed := true }
          let mine := fun (a : Access) => r.parts.contains a.gid
          if (s.order.qch.any fun q => q.2.any mine) || s.order.h.any mine ||
            !(parts.all fun p => s.released p.1 .device && s.acquired p.1 .device) then s
          else
            let s := (s.closeRegion t r).postStat r.parts fun x =>
              { x with rxstat := setField x.rxstat 3 2 RegionSt.idle.code }
            parts.foldl (fun s p => match p.2.regionWord .rxcmt with
              | some w => s.resumeWith p.1 (rxFront .rxcmt w)
              | none => s) s

/-- `rxcmt` (R326). -/
def actRxcmt (w : XWord) (s : State) : Act :=
  let f := rxFront .rxcmt w
  s.issue f fun c =>
    let fail := Act.trap c.gid (c.trap .rxfault c.act) s
    match s.team c.g.id.grid c.g.id.team with
    | none => fail
    | some t =>
      match t.region with
      | none => fail
      | some r =>
        let n := c.g.rd w.a 0 .n32
        let first := ((s.liveOf r.parts).filterMap fun p => (p.2.regionWord .rxcmt).map fun v => p.2.rd v.a 0 .n32).head?
        if r.st != .pending || !r.parts.contains c.gid || c.g.stat.rxstat.toNat / 2 ^ 32 % 2 ^ 17 < n ||
          (first.isSome && first != some n) then fail
        else .park ((s.hold c.gid (.region .rxcmt w)).tryCommit t r)

/-- The groups that issue an `rxabort`: the participants of a PENDING region, else the groups of the role. -/
def State.abortParts (s : State) (t : Team) (role : Role) : List (Nat × Group) :=
  match t.region with
  | some r => if r.st == .pending then s.liveOf r.parts else s.roleGroups t.grid t.n role
  | none => s.roleGroups t.grid t.n role

/-- `rxabort` acts at the last arrival (R326). -/
def State.tryAbort (s : State) (t : Team) (role : Role) : State :=
  let parts := s.abortParts t role
  if parts.isEmpty || !(parts.all fun p => (p.2.regionWord .rxabort).isSome) then s
  else
    let s : State := match t.region with
      | some (r : Region) =>
        if r.st == RegionSt.pending then
          (s.zeroAreas t.grid t.n r.desc).setRegion t.grid t.n { r with st := .idle, last := [] }
        else s
      | none => s
    let s := s.postStat (parts.map (·.1)) fun x =>
      { x with rxstat := setField (setField x.rxstat 0 3 5) 3 2 RegionSt.idle.code }
    parts.foldl (fun s p => s.resume p.1) s

/-- `rxabort` (R326). -/
def actRxabort (w : XWord) (s : State) : Act :=
  let f := rxFront .rxabort w
  s.issue f fun c =>
    let fail := Act.trap c.gid (c.trap .rxfault c.act) s
    match s.team c.g.id.grid c.g.id.team with
    | none => fail
    | some t =>
      let opened := match t.region with | some r => decide (r.st = RegionSt.opened) | none => false
      if opened || !((s.abortParts t c.g.id.role).any (·.1 == c.gid)) then fail
      else .park ((s.hold c.gid (.region .rxabort w)).tryAbort t c.g.id.role)

/-- The FPRU's end-of-pass work on a region has begun, and waits for nothing (R328; log 77). -/
def State.passDue (s : State) (t : Team) : Bool :=
  match t.region with
  | some r => s.passOver r && !(s.storesWait t r r.runPass)
  | none => false

/-- A context is stopped for pre-emption and not saved yet (R363). -/
def State.stoppedCtx (s : State) (ctx : Nat) : Bool :=
  match s.ctx ctx with | some c => c.run = .stopped && !s.dev.doomed.contains ctx | none => false

/-- PASS_END (R319, R325): the FPRU ends a round or a pass; it also opens a region, or ends an `rxcmt` or `rxabort`, whose
last arrival found something to wait for. While the context is stopped, the end-of-pass work goes on (R363). -/
def passEnd (team : Nat) (s : State) : State :=
  match s.teams[team]? with
  | none => s
  | some t =>
    if !s.running t.ctx then
      match t.region with
      | some r => if s.stoppedCtx t.ctx && s.passOver r then s.passDone t r else s
      | none => s
    else
      let roles := [Role.all, .copy, .matrix, .vector]
      match t.region with
      | some r =>
        if r.st == .opened then s.roundDone t r
        else
          let waits := (s.liveOf r.parts).any fun p => (p.2.regionWord .rxcmt).isSome
          if waits then s.tryCommit t r
          else match roles.find? fun x => (s.abortParts t x).any fun p => (p.2.regionWord .rxabort).isSome with
            | some x => s.tryAbort t x
            | none => roles.foldl (fun s x => s.tryOpenRegion t.grid t.n x) s
      | none =>
        match roles.find? fun x => (s.abortParts t x).any fun p => (p.2.regionWord .rxabort).isSome with
        | some x => s.tryAbort t x
        | none => roles.foldl (fun s x => s.tryOpenRegion t.grid t.n x) s

/-! ### The meanings, one for each instruction and event -/

/-- `RXST` (R314, R324). -/
def execRxst (w : MWord) (s : State) : Host.Outcome State Fault Refusal := finish (actRxst w s)

/-- `RXBEG` (R323). -/
def execRxbeg (w : XWord) (s : State) : Host.Outcome State Fault Refusal := finish (actRxbeg w s)

/-- `RXIN` (R324). -/
def execRxin (w : XWord) (s : State) : Host.Outcome State Fault Refusal := finish (actRxin w s)

/-- `RXOUT` (R324). -/
def execRxout (w : XWord) (s : State) : Host.Outcome State Fault Refusal := finish (actRxout w s)

/-- `RXJAC` (R324). -/
def execRxjac (w : XWord) (s : State) : Host.Outcome State Fault Refusal := finish (actRxjac w s)

/-- `RXEND` (R325). -/
def execRxend (w : XWord) (s : State) : Host.Outcome State Fault Refusal := finish (actRxend w s)

/-- `RXCMT` (R326). -/
def execRxcmt (w : XWord) (s : State) : Host.Outcome State Fault Refusal := finish (actRxcmt w s)

/-- `RXABORT` (R326). -/
def execRxabort (w : XWord) (s : State) : Host.Outcome State Fault Refusal := finish (actRxabort w s)

/-- PASS_END (R319, R320, R325). -/
def execPassEnd (team : Nat) (s : State) : Host.Outcome State Fault Refusal :=
  .next (passEnd team s)

end Sys2Proof.Machine
end

