-- ==== Sys2Proof/Machine/Collective.lean ====
section
/-! DEFINITION. Collectives (R333-R341): the attached collective at this rank with its tree, `tcopy`, and the collective
engine's packets. What another rank sends is an argument of the event. -/

namespace Sys2Proof.Machine

/-! ### The tree (R336) -/

/-- The position of a rank. -/
def posOf (rank root ranks : Nat) : Nat := (rank + ranks - root) % ranks

/-- The positions whose values a position combines, in the order of the levels. -/
def childrenOf (p ranks : Nat) : List Nat :=
  ((List.range 10).filter fun j => 2 ^ j < ranks && p % 2 ^ (j + 1) = 0 && p + 2 ^ j < ranks).map fun j => p + 2 ^ j

/-- The atomic operation that stands for a reduce operator on a type (R334 Table 2). -/
def ropAop (rop : Nat) (t : Ty) : Nat := if t.isFloat && rop = 1 then 12 else if t.isFloat && rop = 2 then 13 else rop

/-- comb(x, y) for one element (R334 Table 2). -/
def combElem (rop : Nat) (t : Ty) (x y : Int) : Int :=
  if rop = 12 then wideAdd x y else (aopNew (ropAop rop t) (t.width / 8) x.toNat y.toNat 0 : Nat)

/-- Element by element. -/
def combVals (d : CollDesc) (x y : List Int) : List Int := (x.zip y).map fun p => combElem d.rop d.ety p.1 p.2

/-- The rank, the position and the ranks of a grid's collective. -/
structure Place3 where
  rank : Nat
  pos : Nat
  ranks : Nat
  deriving DecidableEq, Repr

/-- Where this rank stands in a collective. -/
def State.collPlace (s : State) (ctx : Nat) (d : CollDesc) : Place3 :=
  match (s.ctx ctx).bind (·.domain) with
  | some x => let n := x.gx * x.gy * x.gz; ⟨x.rank, posOf x.rank d.root n, n⟩
  | none => ⟨0, 0, 1⟩

/-- The position's value after its children (R336): once every child was taken, or flushed as absent. -/
def Coll.value (c : Coll) (children : List Nat) : Option (List Int) :=
  match c.vals with
  | none => none
  | some v =>
    children.foldl (fun (a : Option (List Int)) q =>
      match a, c.taken.find? fun x => x.1 == q with
      | some v, some (_, some y) => some (combVals c.desc v y)
      | some v, some (_, none) => some v
      | _, _ => none) (some v)

/-- Change a grid's collective. -/
def State.modColl (s : State) (grid : Nat) (f : Coll → Coll) : State :=
  s.modGrid grid fun g => { g with coll := g.coll.map f }

/-! ### Messages (R338, R339) -/

/-- CSTAT counts up (R341): LATE, FLUSH and HUNG stop at their greatest values. -/
def cstatUp (x : Word) (lo width : Nat) : Word :=
  let v := x.toNat / 2 ^ lo % 2 ^ width
  if v + 1 < 2 ^ width then x + BitVec.ofNat 32 (2 ^ lo) else x

/-- A failing collective (R334, R340): its grid retires with COLLFAIL. -/
def State.endFailed (s : State) (grid : Nat) : State := s.modColl grid fun c => { c with finished := true, failed := true }

/-- The collective ends with COLLHUNG (R340, R341). -/
def State.collHung (s : State) (grid ctx : Nat) : State :=
  (s.endFailed grid).modCtx ctx fun x => { x with cstat := cstatUp x.cstat 24 8 }

/-- The message of a child that was flushed comes late (R339): it is refused and counted, and the event word is told. -/
def State.lateUp (s : State) (ctx grid child : Nat) (event : DWord) : Try :=
  let s := s.modCtx ctx fun x =>
    { x with cstat := cstatUp x.cstat 0 12, flushed := x.flushed.filter fun y => !(y.1 == grid && y.2.1 == child) }
  if event = 0 then .made s
  else match s.unitAdd .other ctx event 1 with
    | .ok s _ | .fault s _ _ => .made s
    | .blocked s => .held s

/-- A message is taken by a collective that has started (R336, R339, R340). One that belongs to no place of the tree, or that comes
again, has no effect. -/
def State.takeMessage (s : State) (grid : Nat) (g : Grid) (c : Coll) (m : RankMsg) : Try :=
  let pl := s.collPlace g.ctx c.desc
  let put := fun (f : Coll → Coll) => Try.made (s.modColl grid fun c => { f c with last := s.dev.clk })
  let n := c.desc.count
  match m with
  | .up q v =>
    (match c.taken.find? fun x => x.1 == q with
     | some (_, none) => s.lateUp g.ctx grid q c.desc.event
     | some _ => .made s
     | none =>
       if c.finished || !((childrenOf pl.pos pl.ranks).contains q) || v.length != n || 2 < c.desc.kind then .made s
       else put fun c => { c with taken := c.taken ++ [(q, some v)] })
  | .down v =>
    if c.finished || v.length != n || pl.pos = 0 || c.result.isSome || !(c.desc.kind = 1 || c.desc.kind = 3) then .made s
    else put fun c => { c with result := some v }
  | .gather r v =>
    if c.finished || v.length != n || c.desc.kind != 4 || r = pl.rank || pl.ranks ≤ r || c.gathered.any (·.1 == r) then .made s
    else put fun c => { c with gathered := c.gathered ++ [(r, v)] }
  | .abort => .made (if c.finished then s else s.collHung grid g.ctx)

/-- The messages that wait in the buffers of the ports are taken in their order (R335 stage 1, R338). -/
def State.takeAll (grid : Nat) : List (Nat × RankMsg) → State → State
  | [], s => s
  | m :: rest, s =>
    match s.grid grid with
    | none => s
    | some g =>
      match g.coll with
      | none => s
      | some c =>
        match s.takeMessage grid g c m.2 with
        | .made s => State.takeAll grid rest (s.modColl grid fun c => { c with early := c.early.drop 1 })
        | .held s' => s.doomsOf s'

/-- A collective that has started, and whose context runs, takes what waits for it (R338, R340). -/
def State.takeEarly (s : State) (grid : Nat) : State :=
  match s.grid grid with
  | none => s
  | some g =>
    match g.coll with
    | some c => if c.started && s.running g.ctx then State.takeAll grid c.early s else s
    | none => s

/-- A move of a collective that is not finished and whose context runs, after what waits for it has been taken. -/
def State.onColl (s : State) (grid : Nat) (f : State → Grid → Coll → State) : State :=
  let s := s.takeEarly grid
  match s.grid grid with
  | none => s
  | some g =>
    match g.coll with
    | none => s
    | some c => if c.finished || !s.running g.ctx then s else f s g c

/-- The bytes of a message in a port's buffer (log 60). -/
def msgBytes (d : CollDesc) : RankMsg → Nat
  | .up _ v | .down v | .gather _ v => v.length * (d.ety.width / 8)
  | .abort => 0

/-- The same of a message whose collective is not known yet. -/
def portBytes (m : PortMsg) : Nat :=
  match m.msg with
  | .up _ v | .down v | .gather _ v => v.length * m.width
  | .abort => 0

/-- The bytes that wait in the early-arrival buffer of a port (R338). -/
def State.earlyUsed (s : State) (port : Nat) : Nat :=
  (s.work.early.filter (·.2.port == port)).foldl (fun a m => a + portBytes m.2) <| s.grids.foldl (fun a p => match p.2.coll with
    | some c => (c.early.filter (·.1 == port)).foldl (fun a m => a + msgBytes c.desc m.2) a
    | none => a) 0

/-- A message for a collective whose record is not taken yet waits in its port's buffer, while that takes it (R338; log 60). -/
def State.keepEarly (s : State) (grid : Nat) (m : PortMsg) : State :=
  if s.earlyUsed m.port + portBytes m ≤ Config.earlyBytes then
    { s with work := { s.work with early := s.work.early ++ [(grid, m)] } }
  else s

/-- COLLECTIVE_MESSAGE (R336, R338, R339): a message that comes before its collective has started, or while its context is
pre-empted, waits in its port's buffer; while that cannot take it, its sender is held. -/
def collMessage (grid : Nat) (x : PortMsg) (s : State) : State :=
  let s := s.takeEarly grid
  let port := x.port
  let m := x.msg
  if s.sched.nextId ≤ grid then s.keepEarly grid x else
  match s.grid grid with
  | some g =>
    (match g.coll with
     | some c =>
       if !c.started || !s.running g.ctx || !c.early.isEmpty then
         if s.earlyUsed port + msgBytes c.desc m ≤ Config.earlyBytes then
           s.modColl grid fun c => { c with early := c.early ++ [(port, m)] }
         else s
       else (s.takeMessage grid g c m).after s
     | none => s)
  | none =>
    match m with
    | .up q _ =>
      (match s.ctxs.findSome? fun p => (p.2.flushed.find? fun y => y.1 == grid && y.2.1 == q).map fun y => (p.1, y.2.2) with
       | some (ctx, event) => if s.running ctx then (s.lateUp ctx grid q event).after s else s
       | none => s)
    | _ => s

/-- The collective starts when the grid's first group first issues (R116, R335 stage 1), and takes its early arrivals. -/
def State.collStart (s : State) (grid : Nat) : State :=
  match (s.grid grid).bind (·.coll) with
  | some c =>
    if c.started then s
    else (s.modColl grid fun c => { c with started := true, last := s.dev.clk }).takeEarly grid
  | none => s

/-! ### Contribution and result (R335, R336) -/

/-- The elements of a contribution. -/
def CollDesc.elems (d : CollDesc) (b : List Byte) : List Int :=
  let e := d.ety.width / 8
  (List.range d.count).map fun i =>
    let x := leField b (e * i) e
    if d.rop = 12 then (accumulate 0 (decode d.ety x) d.anchor).1 else (x : Int)

/-- This rank has sent a message once its own value is there and its children's are (R336): of a collective of one rank, none. -/
def Coll.sent (c : Coll) (pl : Place3) : Bool :=
  pl.ranks != 1 && match c.desc.kind with
    | 1 => (c.value (childrenOf pl.pos pl.ranks)).isSome
    | 2 => pl.pos != 0 && (c.value (childrenOf pl.pos pl.ranks)).isSome
    | 3 => pl.pos = 0
    | _ => true

/-- This rank has its contribution. -/
def State.given (s : State) (grid : Nat) (pl : Place3) (v : List Int) : State :=
  s.modColl grid fun c =>
    let c := { c with vals := some v, since := s.dev.clk }
    if c.sent pl then { c with last := s.dev.clk } else c

/-- The next line of SRC is read (R335 stage 2): once, as a device-scope read of M, after the `red`s of the groups, and held
from then on (R260). It moves while its class holds tokens (R250). -/
def State.collRead (s : State) (grid : Nat) (g : Grid) (c : Coll) (id : Nat) (pl : Place3) : State :=
  let n := c.desc.count * (c.desc.ety.width / 8)
  let va := c.desc.src + BitVec.ofNat 64 c.src.length
  let k := min (n - c.src.length) (128 - va.toNat % 128)
  if !s.tokens g.ctx c.desc.tbc true || s.order.reds.any (fun r => r.ctx == g.ctx && r.ord ≤ id) then s
  else match s.unitWalk g.ctx va k .read, s.unitRead (.unit id) g.ctx va k with
    | .ok _ t, .ok s b =>
      let src := c.src ++ b
      let line := lineOf (t.addr (va.toNat % 2 ^ 57))
      let s := (s.spend g.ctx c.desc.tbc true).modColl grid fun c => { c with src := src, srcLines := keyAdd c.srcLines line }
      if src.length = n then s.given grid pl (c.desc.elems src) else s
    | _, .fault s _ _ => s.endFailed grid
    | _, .blocked s' => s.doomsOf s'
    | _, _ => s

/-- COLLECTIVE_CONTRIBUTE (R335 stage 2): when the last group has ended, each rank reads its next line of SRC. -/
def collContribute (grid : Nat) (s : State) : State :=
  s.onColl grid fun s g c =>
    let pl := s.collPlace g.ctx c.desc
    if !c.started || c.vals.isSome || !s.groupsEnded grid g then s
    else match c.id with
      | some id => s.collRead grid g c id pl
      | none => let (id, s) := s.newId; (s.modColl grid fun c => { c with id := some id }).collRead grid g c id pl

/-- An element as it is written to DST: an xfadd result is rounded once (R90). -/
def CollDesc.bits (d : CollDesc) (x : Int) : Nat :=
  if d.rop = 12 then (wideTo d.ety x d.anchor .rne false 0).1 else x.toNat

/-- The bytes of elements. -/
def CollDesc.bytes (d : CollDesc) (v : List Int) : List Byte := v.flatMap fun x => leOf (d.ety.width / 8) (d.bits x)

/-- What this rank writes at its finish: offsets from DST with bytes; `none` while its result is not there (R335, R336). -/
def Coll.outcome (c : Coll) (pl : Place3) : Option (List (Nat × List Byte)) :=
  let d := c.desc
  let own := c.value (childrenOf pl.pos pl.ranks)
  match c.vals with
  | none => none
  | some v =>
    match d.kind with
    | 1 => if pl.pos = 0 then own.map fun v => [(0, d.bytes v)]
           else if own.isSome then c.result.map fun v => [(0, d.bytes v)] else none
    | 2 => own.map fun v => if pl.pos = 0 then [(0, d.bytes v)] else []
    | 3 => if pl.pos = 0 then some [] else c.result.map fun v => [(0, d.bytes v)]
    | _ =>
      let all := c.gathered ++ [(pl.rank, v)]
      if all.length = pl.ranks then some (all.map fun x => (x.1 * d.count * (d.ety.width / 8), d.bytes x.2)) else none

/-- The lines of DST that some bytes go to, each with its memory type and its bytes by physical address. -/
inductive DstLines where
  | ok (s : State) (l : List (Nat × Nat × List (Nat × Byte)))
  | fault (s : State)
  | blocked (s : State)

@[inherit_doc DstLines] def State.dstLinesOf (s : State) (ctx : Nat) : Nat → DWord → List Byte → DstLines
  | 0, _, _ => .ok s []
  | fuel + 1, va, b =>
    if b.isEmpty then .ok s []
    else
      let k := min b.length (128 - va.toNat % 128)
      match s.unitWalk ctx va k .write with
      | .blocked s => .blocked s
      | .fault s _ _ => .fault s
      | .ok s t =>
        let pa := t.addr (va.toNat % 2 ^ 57)
        match s.dstLinesOf ctx fuel (va + BitVec.ofNat 64 k) (b.drop k) with
        | .ok s l => .ok s ((lineOf pa, t.mt, (List.range k).map fun i => (pa + i, b.getD i 0)) :: l)
        | r => r

/-- Every DST line of a finish is taken (R260, R335 stage 4). -/
def State.takeDst (s : State) (grid : Nat) (g : Grid) (c : Coll) (l : List (Nat × List Byte)) : State :=
  let step := fun (r : DstLines) (x : Nat × List Byte) => match r with
    | .ok s acc =>
      (match s.dstLinesOf g.ctx (x.2.length / 128 + 2) (c.desc.dst + BitVec.ofNat 64 x.1) x.2 with
       | .ok s l => DstLines.ok s (acc ++ l)
       | r => r)
    | r => r
  match l.foldl step (.ok s []) with
  | .ok s lines =>
    let own := fun (c : Coll) (s : State) => match c.id with | some i => (i, s) | none => s.newId
    let (id, s) := own c s
    s.modColl grid fun c => { c with id := some id, dst := some lines, finished := lines.isEmpty }
  | .fault s => s.endFailed grid
  | .blocked s' => s.doomsOf s'

/-- One taken line of DST is written and completed; the last one finishes the collective. -/
def State.writeDst (s : State) (grid : Nat) (g : Grid) (c : Coll) (x : Nat × Nat × List (Nat × Byte))
    (rest : List (Nat × Nat × List (Nat × Byte))) : State :=
  let pa := match x.2.2 with | p :: _ => p.1 | [] => 128 * x.1
  let n := x.2.2.length
  let tg := s.targetAt pa x.2.1
  let a := Agent.unit (c.id.getD 0)
  if !s.tokens g.ctx c.desc.tbc true || s.blockedFor a pa n true || s.barred a pa x.2.1 then s
  else if !s.allowed tg g.ctx pa n .write then (s.refuse tg g.ctx pa .write).endFailed grid
  else
    let s := (s.spend g.ctx c.desc.tbc true).modColl grid fun c => { c with dst := some rest, finished := rest.isEmpty }
    ((if x.2.1 == 3 then s.flip pa else s).settleLine x.1).writeEach x.2.2

/-- COLLECTIVE_FINISH (R335 stage 4): DST's lines are taken, then each is written and completed, and the collective retires. -/
def collFinish (grid : Nat) (s : State) : State :=
  s.onColl grid fun s g c =>
    match c.dst, c.outcome (s.collPlace g.ctx c.desc) with
    | none, some l => s.takeDst grid g c l
    | some (x :: rest), _ => s.writeDst grid g c x rest
    | _, _ => s

/-! ### Timeouts, watchdog and abort (R339, R340) -/

/-- COLLECTIVE_TIMEOUT_FLUSH (R339): each missing child counts as absent. -/
def collFlush (grid : Nat) (s : State) : State :=
  s.onColl grid fun s g c =>
    let pl := s.collPlace g.ctx c.desc
    let miss := (childrenOf pl.pos pl.ranks).filter fun q => !c.taken.any (·.1 == q)
    if g.det || c.desc.timeout = 0 || 2 < c.desc.kind || c.vals.isNone || miss.isEmpty || s.dev.clk < c.since + c.desc.timeout then s
    else (s.modColl grid fun c => { c with taken := c.taken ++ miss.map fun q => (q, none), last := s.dev.clk }).modCtx g.ctx
      fun x => { x with
        cstat := cstatUp x.cstat 12 12
        flushed := x.flushed ++ miss.map fun q => (grid, q, c.desc.event) }

/-- COLLECTIVE_WATCHDOG (R340): no message was sent or received for the context's watchdog period. -/
def collWatchdog (grid : Nat) (s : State) : State :=
  s.onColl grid fun s g c =>
    match s.ctx g.ctx with
    | some x => if !g.det || !c.started || s.dev.clk < c.last + x.watchdog then s else s.collHung grid g.ctx
    | none => s

/-- COLLECTIVE_ABORT (R340): an abort from another rank; for a pre-empted context, or a collective that is not taken yet, it waits with the messages. -/
def collAbort (grid : Nat) (s : State) : State :=
  match s.grid grid with
  | none => if s.sched.nextId ≤ grid then s.keepEarly grid ⟨0, 0, .abort⟩ else s
  | some g =>
    match g.coll with
    | none => s
    | some c =>
      if c.finished then s
      else if s.running g.ctx then s.collHung grid g.ctx
      else s.modColl grid fun c => { c with early := c.early ++ [(0, .abort)] }

/-! ### tcopy and the packets of the collective engine (R337) -/

/-- What the shared checks see of `tcopy`. -/
def tcopyFront (w : XWord) : Front :=
  let f := xFront w (ports := [.cpp]) (aRegs := 2) (bRegs := 4)
  { f with srcs := f.srcs ++ [⟨w.d, 2, false, false⟩] }

/-- `tcopy` (R337). -/
def actTcopy (w : XWord) (s : State) : Act :=
  let f := tcopyFront w
  s.issue f fun c =>
    let rec_ := c.g.rdDWord w.a 0
    let comp := BitVec.ofNat 64 (c.g.bits w.d 2 0)
    let dir := w.f 12 11
    let b := fun (j : Nat) => (c.g.reg (c.g.key w.b 0 j)).toNat
    match s.namedHandle c.g.id w false with
    | some (core, some bd) =>
      if !canonical rec_ then .trap c.gid (c.trap .addr c.act rec_) s
      else if comp != 0 && !canonical comp then .trap c.gid (c.trap .addr c.act comp) s
      else if rec_.toNat % 64 != 0 then .trap c.gid (c.trap .align c.act rec_) s
      else if comp.toNat % 8 != 0 then .trap c.gid (c.trap .align c.act comp) s
      else if bd.state != (if dir = 1 then .free else .full) || !s.released c.gid .device then .wait s
      else
        match s.handle c.g.id.ctx core (w.f 7 0) with
        | none => .trap c.gid (c.trap .handle c.act) s
        | some h =>
          let (id, s) := s.newId
          let s := if dir = 1 then s.takeHandles (some h) none else s.takeHandles none (some h)
          let p : Packet := ⟨2, if dir = 1 then 5 else 6, w.f 15 13, 0, 0, 0, 0, 0, 0, rec_, comp, 0, dir⟩
          let o := [sextNat (b 0) 32, sextNat (b 1) 32, sextNat (b 2) 32, sextNat (b 3 % 2 ^ 16) 16, sextNat (b 3 / 2 ^ 16) 16]
          .done ({ s with work := { s.work with packets := s.work.packets ++ [(⟨id, c.g.id.ctx, none, some c.g.id.grid, p, o, some h⟩ : CollPacket)] } }.commit c f)
    | _ => .trap c.gid (c.trap .handle c.act) s

/-- The target ranks of a packet, ascending; `none` is BADSHAPE (R337). -/
def targets (x : Shape) (d : Domain) : Option (List Nat) :=
  let cs := [(x.cx, d.gx), (x.cy, d.gy), (x.cz, d.gz)]
  let rep := fun (i : Nat) => x.rep / 2 ^ i % 2 = 1
  if (List.range 3).any fun i => !rep i && (cs.getD i (0, 0)).2 ≤ (cs.getD i (0, 0)).1 then none
  else
    let hit := fun (r : Nat) =>
      (rep 0 || r % d.gx = x.cx) && (rep 1 || r / d.gx % d.gy = x.cy) && (rep 2 || r / (d.gx * d.gy) = x.cz)
    some ((List.range (d.gx * d.gy * d.gz)).filter hit)

/-- The checks of Table 3 (R337): the operator is checked of a reduce-put. -/
def collShapeBad (b : List Byte) (x : Shape) (dir : Nat) : Bool :=
  shapeBad b x true || 8 ≤ x.rep ||
  (match Ty.ofCode x.rtype with
    | some t => 5 < x.rtype || t.width / 8 != 2 ^ x.esz || (dir = 2 && (!ropOk x.rop t || x.rop = 12))
    | none => true)

/-- A collective packet is over: its handle's transition, then the COMP add (R239, R337). -/
def State.packetEnd (s : State) (x : CollPacket) (ok : Bool) : Try :=
  let s := { s with work := { s.work with packets := s.work.packets.filter (·.id != x.id) } }
  let s := if !ok then s.faultHandle x.handle (if x.packet.dir = 1 then some [] else none)
    else match x.handle with
      | some h => s.setHandle h (if x.packet.dir = 1 then .full else .free)
      | none => s
  (s.compAdd x.ctx x.packet.comp (if ok then 1 else 1 + 2 ^ 32)).next fun s => .made s.reap

/-- One element of a reduce-put at this rank (R337): a `red` (R274) whose partial follows every local core's; on another path
than F and U_l it performs when the path lets it. -/
def State.remoteRed (s : State) (x : CollPacket) (rank : Nat) (sh : Shape) (va : DWord) (v : Nat) : UnitRes :=
  let t := (Ty.ofCode sh.rtype).getD .i32
  let n := t.width / 8
  match s.unitWalk x.ctx va n .both with
  | .blocked s => .blocked s
  | .fault s c l => .fault s c l
  | .ok s' tr =>
    let pa := tr.addr (va.toNat % 2 ^ 57)
    let p := s'.pathOf .global pa tr.mt .device
    let tg := s'.targetAt pa tr.mt
    let e := if sh.rop = 11 then s'.anchorOf pa else none
    if s'.blocked pa n true || s'.barred .other pa tr.mt then .blocked s
    else if !s'.allowed tg x.ctx pa n .both then .fault (s'.refuse tg x.ctx pa .both) .access 5
    else if tr.mt = 0 && (p != .h || e.isSome) then
      .ok (s'.accumulateRed
        ⟨0, x.ctx, Config.cores + rank, ropAop sh.rop t, pa, n, BitVec.ofNat 64 v, e, s'.sched.nextId⟩) []
    else if s'.poisoned pa n then .blocked (s.doom x.ctx)
    else .ok ((if tr.mt == 3 then s'.flip pa else s').performRmw (ropAop sh.rop t) pa n v 0).2 []

/-- The elements of the dense side that lie in the box, with their addresses. -/
def CollPacket.places (x : CollPacket) (sh : Shape) : List (Nat × DWord) :=
  (List.range (sh.size / 2 ^ sh.esz)).filterMap fun i =>
    (sh.va x.origin (i * 2 ^ sh.esz)).map fun va => (i * 2 ^ sh.esz, va)

/-- A put or a reduce-put at this rank, element by element. -/
def State.localPut (s : State) (x : CollPacket) (sh : Shape) (rank : Nat) (dense : List Byte) : UnitRes :=
  let e := 2 ^ sh.esz
  (x.places sh).foldl (fun r p => match r with
    | .ok s _ =>
      let b := (dense.drop p.1).take e
      if x.packet.dir = 2 then s.remoteRed x rank sh p.2 (leVal b) else s.unitWrite .other x.ctx p.2 b
    | r => r) (.ok s [])

/-- The box of this rank, for a get: an element outside the extents reads zero (R237). -/
def State.localGet (s : State) (x : CollPacket) (sh : Shape) : UnitRes :=
  let e := 2 ^ sh.esz
  (List.range (sh.size / e)).foldl (fun r i => match r with
    | .ok s acc => (match sh.va x.origin (i * e) with
      | none => .ok s (acc ++ List.replicate e 0)
      | some va => (match s.unitRead .other x.ctx va e with
        | .ok s b => .ok s (acc ++ b)
        | r => r))
    | r => r) (.ok s [])

/-- A line of the handle's range has been read by the body of an open region, and takes no write (R313). -/
def State.landWaits (s : State) (h : Option HandleEntry) : Bool :=
  match HandleEntry.range h with
  | some b => b.lines.any fun l => s.regionSpad b.grid b.team b.shareCore l
  | none => false

/-- The dense bytes of a get land in the handle. -/
def State.landGet (s : State) (h : Option HandleEntry) (dense : List Byte) : State :=
  match HandleEntry.range h with
  | some b => (s.spadWrite b.grid b.team b.shareCore b.ofs dense).modShare b.grid b.team b.shareCore fun sh => sh.land b.lines
  | none => s

/-- The transfer of a packet whose record passed its checks (R337). -/
def State.runPacket (s : State) (x : CollPacket) (sh : Shape) (d : Domain) (ranks : List Nat) (answer : RemoteAnswer) : Try :=
  let mine := ranks.contains d.rank
  let remote := ranks.any (· != d.rank)
  let bad := match answer with | .fault _ => remote | .ok _ => false
  if x.packet.dir = 1 then
    match (if mine then s.localGet x sh else .ok s (match answer with | .ok b => b | .fault _ => [])) with
    | .blocked s => .held s
    | .fault s _ _ => s.packetEnd x false
    | .ok s' b =>
      if bad then s'.packetEnd x false
      else if b.length != sh.size || s.landWaits x.handle then .held s
      else (s'.landGet x.handle b).packetEnd x true
  else
    let dense := match HandleEntry.range x.handle with
      | some b => s.spadRead b.grid b.team b.shareCore b.ofs sh.size
      | none => []
    match (if mine then s.localPut x sh d.rank dense else .ok s []) with
    | .blocked s => .held s
    | .fault s _ _ => s.packetEnd x false
    | .ok s _ => s.packetEnd x (!bad)

/-- A packet's record, read once and checked (R333, R337): it runs, or it fails. -/
def State.tryPacket (s : State) (x : CollPacket) (answer : RemoteAnswer) : Try :=
  match (s.ctx x.ctx).bind (·.domain) with
  | none => s.packetEnd x false
  | some d =>
    match s.unitReadLong .other x.ctx x.packet.shape 2 128 with
    | .blocked s => .held s
    | .fault s _ _ _ => s.packetEnd x false
    | .ok s b =>
      let sh := Shape.ofBytes b
      match targets sh d with
      | some ranks =>
        if collShapeBad b sh x.packet.dir || !sideFits x.handle sh.size || (x.packet.dir = 1 && ranks.length != 1) then
          s.packetEnd x false
        else (s.spendFor x.ctx x.packet.tbc true sh.size).runPacket x sh d ranks answer
      | none => s.packetEnd x false

/-- A packet of a copy queue waits for the earlier packets of its queue with which it may share a byte (R238). -/
def State.collEarly (s : State) (x : CollPacket) : Bool :=
  match x.queue with
  | none => false
  | some q =>
    !(s.collsBefore x.ctx q x.id).isEmpty ||
    s.work.copies.any fun c => c.ctx == x.ctx && c.queue == q && c.id < x.id && (c.unlanded ++ s.unread c).any x.meets

/-- COLLECTIVE_PACKET_TAKE (R333, R337). -/
def collPacket (id : Nat) (answer : RemoteAnswer) (s : State) : State :=
  match s.work.packets.find? (·.id == id) with
  | none => s
  | some x =>
    if !s.running x.ctx || !s.tokens x.ctx x.packet.tbc true || s.collEarly x then s else (s.tryPacket x answer).after s

/-! ### The meanings, one for each instruction and event -/

/-- `TCOPY` (R337). -/
def execTcopy (w : XWord) (s : State) : Host.Outcome State Fault Refusal := finish (actTcopy w s)

/-- COLLECTIVE_CONTRIBUTE (R335). -/
def execCollectiveContribute (grid : Nat) (s : State) : Host.Outcome State Fault Refusal :=
  .next (collContribute grid s)

/-- COLLECTIVE_MESSAGE (R336, R338, R339). -/
def execCollectiveMessage (grid : Nat) (msg : PortMsg) (s : State) : Host.Outcome State Fault Refusal :=
  .next (collMessage grid msg s)

/-- COLLECTIVE_FINISH (R335). -/
def execCollectiveFinish (grid : Nat) (s : State) : Host.Outcome State Fault Refusal :=
  .next (collFinish grid s)

/-- COLLECTIVE_TIMEOUT_FLUSH (R339). -/
def execCollectiveTimeoutFlush (grid : Nat) (s : State) : Host.Outcome State Fault Refusal :=
  .next (collFlush grid s)

/-- COLLECTIVE_WATCHDOG (R340). -/
def execCollectiveWatchdog (grid : Nat) (s : State) : Host.Outcome State Fault Refusal :=
  .next (collWatchdog grid s)

/-- COLLECTIVE_ABORT (R340). -/
def execCollectiveAbort (grid : Nat) (s : State) : Host.Outcome State Fault Refusal :=
  .next (collAbort grid s)

/-- COLLECTIVE_PACKET_TAKE (R337). -/
def execCollectivePacketTake (packet : Nat) (answer : RemoteAnswer) (s : State) : Host.Outcome State Fault Refusal :=
  .next (collPacket packet answer s)

end Sys2Proof.Machine
end

