-- ==== Sys2Proof/Machine/Sketch.lean ====
section
/-! DEFINITION. Set reconciliation by sketch (R342-R351): `skins`, `skdel`, `skxch`, `skpeel` and the rounds that Brock
runs. What the peer answers in a round is an argument of the event. -/

namespace Sys2Proof.Machine

/-! ### Cells (R342-R344) -/

/-- h_j(K). -/
def SetClass.h (x : SetClass) (k : DWord) (j : Nat) : Nat := (kcg x.k0 x.k1 (loWord k) (hiWord k) (BitVec.ofNat 32 j) 0).x0.toNat

/-- chk(K). -/
def SetClass.chk (x : SetClass) (k : DWord) : DWord :=
  let y := kcg x.k0 x.k1 (loWord k) (hiWord k) 0 0
  (y.x2 ++ y.x1 : BitVec 64)

end Sys2Proof.Machine

namespace Sys2Proof
open Machine

/-- The fields of a cell (R343 Table 1). -/
def SketchCell.ofBytes (b : List Byte) : SketchCell :=
  ⟨BitVec.ofNat 32 (leField b 0 4), BitVec.ofNat 64 (leField b 8 8), BitVec.ofNat 64 (leField b 0x10 8)⟩

/-- A cell with a key entered: σ as a word. -/
def SketchCell.enter (c : SketchCell) (x : SetClass) (σ : Word) (k : DWord) : SketchCell :=
  ⟨c.count + σ, c.keysum ^^^ k, c.check ^^^ x.chk k⟩

/-- The combination of two cells (R344). -/
def SketchCell.comb (a b : SketchCell) : SketchCell := ⟨a.count + b.count, a.keysum ^^^ b.keysum, a.check ^^^ b.check⟩

/-- The difference of two cells (R347 step 4). -/
def SketchCell.diff (a b : SketchCell) : SketchCell := ⟨a.count - b.count, a.keysum ^^^ b.keysum, a.check ^^^ b.check⟩

/-- An empty cell. -/
def SketchCell.zero : SketchCell := ⟨0, 0, 0⟩

end Sys2Proof

namespace Sys2Proof.Machine

/-- The fold of a sketch to 2^n cells (R344). -/
def foldSketch (n : Nat) (cells : List SketchCell) : List SketchCell :=
  cells.foldl (fun (a : List SketchCell × Nat) c => (a.1.modify (a.2 % 2 ^ n) fun x => x.comb c, a.2 + 1))
    (List.replicate (2 ^ n) SketchCell.zero, 0) |>.1

/-! ### skins and skdel (R345) -/

/-- The set class that an instruction names. -/
def State.setClass (s : State) (id : Ident) (i : Nat) : Option SetClass := (s.grid id.grid).bind fun g => g.kernel.classes[i]?

/-- What the shared checks see of `skins` and `skdel`; a uniform form issues to CTL (R34). -/
def skFront (w : XWord) : Front := xFront w (ports := [.mp]) (aRegs := 2) (bRegs := 2)

/-- `skins` and `skdel`: σ is 1 or −1. A cell of a page in host bias is entered by way of H (R223). -/
def actSketch (σ : Word) (w : XWord) (s : State) : Act :=
  let f := skFront w
  s.issue f fun c =>
    let once := w.a.isS
    let base := c.g.rdDWord w.b 0
    match s.setClass c.g.id (w.f 7 0) with
    | none => .trap c.gid (c.trap .skstate c.act) s
    | some x =>
      if base.toNat % 64 != 0 then .trap c.gid (c.trap .align c.act base) s
      else
        let els := (c.lanesOf once).flatMap fun l => (List.range 3).map fun j =>
          let va := base + BitVec.ofNat 64 (32 * (x.h (c.g.rdDWord w.a l) j % 2 ^ x.log2n))
          (⟨l, j, 32, va.toNat, false, va, none, va, true⟩ : Elem)
        match s.resolveNow c .global .device els { once := once, kind := .both, mt0 := true } with
        | .act a => a
        | .ok s hits =>
          let key := fun (h : Hit) => c.g.rdDWord w.a h.e.lane
          .done ((hits.foldl (fun s h => s.perform c h (.cell σ (key h) (x.chk (key h))) 0 []) s).commit c f)

/-- `skins`. -/
def actSkins (w : XWord) (s : State) : Act := actSketch 1 w s

/-- `skdel`. -/
def actSkdel (w : XWord) (s : State) : Act := actSketch 0xFFFF_FFFF w s

/-! ### skxch (R346, R350) -/

/-- The exchange that a record describes (R346 Table 2). -/
def Exchange.ofBytes (b : List Byte) (id ctx grid die : Nat) (va : DWord) (pa : Nat) (cls : SetClass) (ranks : Nat) : Exchange :=
  let f := leField b
  let d := fun (o : Nat) => BitVec.ofNat 64 (f o 8)
  let bad := (d 0).toNat % 64 != 0 || (d 8).toNat % 64 != 0 || !(f 0x10 2 = 0xFFFF || f 0x10 2 < ranks) || f 0x12 1 = 0 ||
    cls.log2n < f 0x12 1 || !(f 0x13 1 = 1 || f 0x13 1 = 2) || f 0x14 1 = 0 || 8 < f 0x14 1 || 7 < f 0x15 1 || f 0x16 2 != 0 ||
    f 0x18 8 % 16 != 0 || f 0x20 4 = 0 || 2 ^ 20 < f 0x20 4 || f 0x24 4 != 0 || f 0x28 8 % 8 != 0 || f 0x38 8 != 0
  { id := id, ctx := ctx, grid := grid, die := die, va := va, pa := pa, cls := cls, localBase := d 0, remoteBase := d 8, peer := f 0x10 2
    n := f 0x12 1, grow := f 0x13 1, maxr := f 0x14 1, tbc := f 0x15 1, diff := d 0x18, dcap := f 0x20 4, comp := d 0x28
    rounds := 0, bad := bad }

/-- The record's one element, with its snapshot of 64 bytes. -/
def recordElem (a : DWord) (ofs bytes : Nat) : Elem :=
  let va := a + BitVec.ofNat 64 ofs
  ⟨0, 0, bytes, va.toNat, false, va, none, va, true⟩

/-- `skxch` (R350). -/
def actSkxch (w : XWord) (s : State) : Act :=
  let f := xFront w (aRegs := 2)
  s.issue f fun c =>
    let a := c.g.rdDWord w.a 0
    if a.toNat % 64 != 0 then .trap c.gid (c.trap .align c.act a) s
    else match s.setClass c.g.id (w.f 7 0) with
      | none => .trap c.gid (c.trap .skstate c.act) s
      | some x =>
        match s.resolveNow c .global .device [{ recordElem a 0 64 with lane := lowest 0 c.act }]
            { once := true, kind := .both, mt0 := true } with
        | .act r => r
        | .ok s hits =>
          match hits with
          | [] => .wait s
          | h :: _ =>
            let s := s.settle h.pa 64
            let b := s.readBytes h.pa 64
            let die := s.dieOf c.g.id.core
            if leField b 0x30 4 % 8 = 1 then .trap c.gid (c.trap .skstate c.act) s
            else if Config.brockExchanges ≤ (s.work.exchanges.filter (·.die == die)).length || !s.released c.gid .device then .wait s
            else
              let ranks := match (s.ctx c.g.id.ctx).bind (·.domain) with | some d => d.gx * d.gy * d.gz | none => 0
              let (id, s) := s.newId
              let x := Exchange.ofBytes b id c.g.id.ctx c.g.id.grid die a h.pa x ranks
              let s := s.writeM (h.pa + 0x30) (leOf 4 1 ++ leOf 4 0)
              .done ({ s with work := { s.work with exchanges := s.work.exchanges ++ [x] } }.commit c f)

/-! ### skpeel (R350, R351) -/

/-- What the shared checks see of `skpeel`. -/
def skpeelFront (w : XWord) : Front :=
  xFront w (aRegs := 2) (bRegs := 1) (dst := [(w.d, 3)]) (resumes := true)

/-- The entries of the list that the lanes read (R350): a lane with an entry, and its element. -/
def Ctx.peelElems (c : Ctx) (w : XWord) (diff : DWord) (entries : Nat) : List Elem :=
  c.act.filterMap fun l =>
    let i := (c.g.rdWord w.b 0 + BitVec.ofNat 32 l).toNat
    if i < entries then
      let va := diff + BitVec.ofNat 64 (16 * i)
      some ⟨l, 0, 16, va.toNat, false, va, none, va, true⟩
    else none

/-- The words of the lanes' entries. -/
def Ctx.peelWords (c : Ctx) (read : List (Nat × Nat)) : List Word :=
  c.act.flatMap fun l =>
    let v := match read.find? fun x => x.1 == l with | some x => x.2 | none => 0
    (List.range 3).map fun j => BitVec.ofNat 32 (v / 2 ^ (32 * j))

/-- A field of an exchange record, as a group reads it later than its RESULT: the target checks the request, and a refused one delivers
zero (R222). -/
def State.recordRead (s : State) (ctx pa n mt : Nat) : Nat × State :=
  let tg := s.targetAt pa mt
  if s.allowed tg ctx pa n .read then s.performRead pa n else (0, s.refuse tg ctx pa .read)

/-- `skpeel` once RESULT is known (R350): SKSTAT, then the traps, then the entries. `d` is what its wait keeps, when it has
waited. -/
def State.peel (s : State) (c : Ctx) (f : Front) (w : XWord) (x : WordWait) (d : Option Due) (res : Nat) : Act :=
  if s.notYet c.gid c.g.id.core x.pa 8 x.mt false then .wait s
  else if s.poisoned (x.pa - 0x18) 32 then .park (s.doom c.g.id.ctx)
  else
    let (entries, s) := s.recordRead c.g.id.ctx (x.pa + 4) 4 x.mt
    let s := s.modGroup c.gid fun g =>
      { g with stat := { g.stat with skstat := BitVec.ofNat 64 (res % 2 ^ 32 + 2 ^ 32 * entries) } }
    let keys := c.g.keys w.d 3 c.act
    match res % 8 with
    | 0 => .trap c.gid (c.trap .skstate c.act) s
    | 3 => .trap c.gid (c.trap .peelfail c.act) s
    | 4 => .trap c.gid (c.trap .copyfault c.act (c.g.rdDWord w.a 0)) s
    | _ =>
      if !s.acquired c.gid .device then
        match d with
        | some _ => .wait s
        | none => let (d, s) := s.owe c f keys; .park (s.hold c.gid (.word { x with woke := some (BitVec.ofNat 64 res) } d))
      else
        let (diff, s) := s.recordRead c.g.id.ctx (x.pa - 0x18) 8 x.mt
        match s.resolveNow c .global .device (c.peelElems w (BitVec.ofNat 64 diff) entries) { once := false, kind := .read } with
        | .act r => r
        | .ok s hits =>
          let read := hits.foldl (fun (x : List (Nat × Nat) × State) h =>
            let (v, s) := x.2.performRead h.pa 16
            (x.1 ++ [(h.e.lane, v)], s)) ([], s)
          let words := c.peelWords read.1
          match d with
          | some d => .done (read.2.commitDue c f d words)
          | none => .done (((read.2.produce c.gid (keys.zip (words.map some))).2).commit c f)

/-- `skpeel` (R350): while the exchange runs the group parks, woken as `waitc` is on RESULT. NONDET comes after the walk
(R353). -/
def actSkpeel (w : XWord) (s : State) : Act :=
  let f := skpeelFront w
  s.issue f fun c =>
    let a := c.g.rdDWord w.a 0
    match c.g.wait with
    | some (.word x d) =>
      match x.woke with
      | some v => s.peel c f w x (some d) v.toNat
      | none => .wait s
    | _ =>
      if a.toNat % 64 != 0 then .trap c.gid (c.trap .align c.act a) s
      else match s.resolveNow c .global .device [{ recordElem a 0x30 4 with lane := lowest 0 c.act }]
          { once := true, kind := .read, mt0 := true, nondet := fun _ _ => c.g.id.det && c.g.id.bin } with
        | .act r => r
        | .ok s hits =>
          match hits with
          | [] => .wait s
          | h :: _ =>
            let (m, s) := s.performRead h.pa 4
            let x : WordWait := ⟨h.pa, 4, h.mt, 1, 1, none, false, none, none, true⟩
            if m % 8 = 0 then .trap c.gid (c.trap .skstate c.act) s
            else if m % 8 = 1 then s.parkWord c f (c.g.keys w.d 3 c.act) x
            else s.peel c f w x none m

/-! ### Rounds (R347-R349) -/

/-- The state of a peel: the cells, the list, newest last, and whether this sweep made progress. -/
structure Peel where
  cells : List SketchCell
  list : List (DWord × Word)
  progress : Bool
  full : Bool
  deriving DecidableEq, Repr

end Sys2Proof.Machine

namespace Sys2Proof
open Machine

/-- A pure cell (R347). -/
def SketchCell.pure? (c : SketchCell) (x : SetClass) : Bool :=
  (c.count == 1 || c.count == 0xFFFF_FFFF) && x.chk c.keysum == c.check

end Sys2Proof

namespace Sys2Proof.Machine

/-- One cell of a sweep. -/
def Peel.at_ (p : Peel) (x : SetClass) (n dcap c : Nat) : Peel :=
  match p.cells[c]? with
  | none => p
  | some cell =>
    if p.full || !cell.pure? x then p
    else if p.list.length = dcap then { p with full := true }
    else
      let cells := (List.range 3).foldl (fun cs j =>
        cs.modify (x.h cell.keysum j % 2 ^ n) fun d => d.enter x (0 - cell.count) cell.keysum) p.cells
      { p with cells := cells, list := p.list ++ [(cell.keysum, cell.count)], progress := true }

/-- Sweeps until one makes no progress. -/
def Peel.run (p : Peel) (x : SetClass) (n dcap : Nat) : Nat → Peel
  | 0 => p
  | fuel + 1 =>
    let q := (List.range (2 ^ n)).foldl (fun p c => p.at_ x n dcap c) { p with progress := false }
    if q.progress && !q.full then q.run x n dcap fuel else q

/-- A unit's write to a frame that it holds: the target checks it as the context's (R222). -/
def State.unitPut (s : State) (ctx pa : Nat) (b : List Byte) : State :=
  let tg := s.targetAt pa 0
  if s.allowed tg ctx pa b.length .write then s.performWrite pa b else s.refuse tg ctx pa .write

/-- The end of an exchange (R348): ENTRIES, RESULT, then the COMP add. -/
def State.exchangeEnd (s : State) (x : Exchange) (res entries : Nat) : Try :=
  if s.blocked (x.pa + 0x30) 8 true then .held s
  else
    let s := (s.unitPut x.ctx (x.pa + 0x34) (leOf 4 entries)).unitPut x.ctx (x.pa + 0x30) (leOf 4 res)
    let s := { s with work := { s.work with exchanges := s.work.exchanges.filter (·.id != x.id) } }
    s.compAdd x.ctx x.comp (if res % 8 = 2 then 1 else 1 + 2 ^ 32)

/-- RESULT (R351 Table 4); a record that breaks its table ends with ROUNDS and NLAST 0, as no round ran. -/
def resultWord (state reason rounds nlast fcode : Nat) : Nat :=
  state + reason * 2 ^ 3 + rounds * 2 ^ 8 + nlast * 2 ^ 12 + fcode * 2 ^ 24

/-- A sketch as a context reads it: cell by cell. -/
inductive SketchRead where
  | ok (s : State) (cells : List SketchCell)
  | fault (s : State) (code : Nat)
  | blocked (s : State)

@[inherit_doc SketchRead] def State.readSketch (s : State) (ctx : Nat) (base : DWord) (n : Nat) : SketchRead :=
  (List.range (2 ^ n)).foldl (fun r i => match r with
    | .ok s cells => (match s.unitRead .other ctx (base + BitVec.ofNat 64 (32 * i)) 32 with
      | .ok s b => .ok s (cells ++ [SketchCell.ofBytes b])
      | .fault s c _ => .fault s c.copyCode
      | .blocked s => .blocked s)
    | r => r) (.ok s [])

/-- The bytes of a difference list (R346). -/
def listBytes (l : List (DWord × Word)) : List Byte := l.flatMap fun e => leOf 8 e.1.toNat ++ leOf 8 e.2.toNat

/-- Write bytes for a context, page by page. -/
def State.unitWriteLong (s : State) (ctx : Nat) (va : DWord) : Nat → List Byte → UnitRes
  | 0, _ => .ok s []
  | fuel + 1, b =>
    if b.isEmpty then .ok s []
    else
      let k := min b.length (4096 - va.toNat % 4096)
      match s.unitWrite .other ctx va (b.take k) with
      | .ok s _ => s.unitWriteLong ctx (va + BitVec.ofNat 64 k) fuel (b.drop k)
      | r => r

/-- A round with both folds (R347, R348). -/
def State.finishRound (s : State) (x : Exchange) (mine other : List SketchCell) : Try :=
  let fd := (mine.zip other).map fun p => p.1.diff p.2
  let p := Peel.run ⟨fd, [], false, false⟩ x.cls x.n x.dcap (x.dcap + 1)
  let r := x.rounds + 1
  if p.full then s.exchangeEnd x (resultWord 3 2 r x.n 0) 0
  else if p.cells.all (· == SketchCell.zero) then
    match s.unitWriteLong x.ctx x.diff (x.dcap / 256 + 2) (listBytes p.list) with
    | .ok s _ => s.exchangeEnd x (resultWord 2 0 r x.n 0) p.list.length
    | .fault s c _ => s.exchangeEnd x (resultWord 4 0 r x.n c.copyCode) 0
    | .blocked s => .held s
  else if r = x.maxr || x.n = x.cls.log2n then s.exchangeEnd x (resultWord 3 1 r x.n 0) 0
  else
    let x' := { x with n := min (x.n + x.grow) x.cls.log2n, rounds := r }
    .made { s with work := { s.work with exchanges := s.work.exchanges.map fun (y : Exchange) => if y.id == x.id then x' else y } }

/-- The peer of an exchange is this context: PEER is 0xFFFF, or its own rank (R333, R346). -/
def State.ownPeer (s : State) (x : Exchange) : Bool :=
  x.peer == 0xFFFF || match (s.ctx x.ctx).bind (·.domain) with | some d => d.rank == x.peer | none => false

/-- One round of an exchange (R347): both folds, the peer's from the event unless the peer is this context. -/
def State.tryRound (s : State) (x : Exchange) (peer : PeerFold) : Try :=
  let fail := fun (s : State) (code : Nat) => s.exchangeEnd x (resultWord 4 0 (x.rounds + 1) x.n code) 0
  if x.bad then s.exchangeEnd x (resultWord 4 0 0 0 1) 0
  else match s.readSketch x.ctx x.localBase x.cls.log2n with
    | .blocked s => .held s
    | .fault s c => fail s c
    | .ok s cells =>
      let mine := foldSketch x.n cells
      if s.ownPeer x then
        match s.readSketch x.ctx x.remoteBase x.cls.log2n with
        | .blocked s => .held s
        | .fault s c => fail s c
        | .ok s cells => s.finishRound x mine (foldSketch x.n cells)
      else match peer with
        | .fault c => fail s c
        | .cells cs =>
          if cs.length = 2 ^ x.n then (s.spendFor x.ctx x.tbc true (32 * 2 ^ x.n)).finishRound x mine cs else .held s

/-- EXCHANGE_ROUND (R347, R349): the oldest exchange of a die runs one round. -/
def exchangeRound (id : Nat) (peer : PeerFold) (s : State) : State :=
  match s.work.exchanges.find? (·.id == id) with
  | none => s
  | some x =>
    if !s.running x.ctx || (s.work.exchanges.any fun y => y.die == x.die && y.id < x.id) || !s.tokens x.ctx x.tbc true then s
    else (s.tryRound x peer).after s

/-! ### The meanings, one for each instruction and event -/

/-- `SKINS` (R345). -/
def execSkins (w : XWord) (s : State) : Host.Outcome State Fault Refusal := finish (actSkins w s)

/-- `SKDEL` (R345). -/
def execSkdel (w : XWord) (s : State) : Host.Outcome State Fault Refusal := finish (actSkdel w s)

/-- `SKXCH` (R350). -/
def execSkxch (w : XWord) (s : State) : Host.Outcome State Fault Refusal := finish (actSkxch w s)

/-- `SKPEEL` (R350). -/
def execSkpeel (w : XWord) (s : State) : Host.Outcome State Fault Refusal := finish (actSkpeel w s)

/-- EXCHANGE_ROUND (R347, R348). -/
def execExchangeRound (exchange : Nat) (peer : PeerFold) (s : State) : Host.Outcome State Fault Refusal :=
  .next (exchangeRound exchange peer s)

end Sys2Proof.Machine
end

