-- ==== Sys2Proof/Machine/Attempt.lean ====
section
/-! DEFINITION. The attempt at a group's instruction, as the core considers it in each cycle (R144, R147): whether it is
eligible is what the attempt answers. -/

namespace Sys2Proof.Machine

/-- The attempt at an instruction; an event is no instruction of a group. -/
def attempt (i : Instr) (s : State) : Act :=
  match i with
  | .add w => actAlu .add w s
  | .addImm w => actImm .add w s
  | .sub w => actAlu .sub w s
  | .subImm w => actImm .sub w s
  | .addw w => actAlu .addw w s
  | .mul24 w => actAlu .mul24 w s
  | .mul24Imm w => actImm .mul24 w s
  | .mul32 w => actAlu .mul32 w s
  | .mul32Imm w => actImm .mul32 w s
  | .mulhi w => actAlu .mulhi w s
  | .mad24 w => actAlu .mad24 w s
  | .mad32 w => actAlu .mad32 w s
  | .min w => actAlu .min w s
  | .minImm w => actImm .min w s
  | .max w => actAlu .max w s
  | .maxImm w => actImm .max w s
  | .abs w => actAlu .abs w s
  | .neg w => actAlu .neg w s
  | .and w => actAlu .and w s
  | .andImm w => actImm .and w s
  | .or w => actAlu .or w s
  | .orImm w => actImm .or w s
  | .xor w => actAlu .xor w s
  | .xorImm w => actImm .xor w s
  | .not w => actAlu .not w s
  | .andn w => actAlu .andn w s
  | .andnImm w => actImm .andn w s
  | .shl w => actAlu .shl w s
  | .shlImm w => actImm .shl w s
  | .shr w => actAlu .shr w s
  | .shrImm w => actImm .shr w s
  | .sar w => actAlu .sar w s
  | .sarImm w => actImm .sar w s
  | .rotl w => actAlu .rotl w s
  | .rotlImm w => actImm .rotl w s
  | .popc w => actAlu .popc w s
  | .clz w => actAlu .clz w s
  | .brev w => actAlu .brev w s
  | .bfx w => actAlu .bfx w s
  | .bfi w => actAlu .bfi w s
  | .cmp w => actAlu .cmp w s
  | .cmpImm w => actImm .cmp w s
  | .sel w => actAlu .sel w s
  | .mov w => actAlu .mov w s
  | .movImm w => actImm .mov w s
  | .lea w => actAlu .lea w s
  | .leaImm w => actImm .lea w s
  | .fadd w => actAlu .fadd w s
  | .fsub w => actAlu .fsub w s
  | .fmul w => actAlu .fmul w s
  | .fma w => actAlu .fma w s
  | .fmin w => actAlu .fmin w s
  | .fmax w => actAlu .fmax w s
  | .fcmp w => actAlu .fcmp w s
  | .fcvt w => actAlu .fcvt w s
  | .frnd w => actAlu .frnd w s
  | .fclass w => actAlu .fclass w s
  | .fscale w => actAlu .fscale w s
  | .sfu w => actSfu w s
  | .xacc w => actXacc w s
  | .xcvt w => actXcvt w s
  | .shfl w => actShfl w s
  | .push w => actPush w s
  | .bcast w => actBcast w s
  | .scan w => actScan w s
  | .lred w => actLred w s
  | .vote w => actVote w s
  | .kcg w => actKcg w s
  | .pairedWord w => actPair w s
  | .ld w => actLoad .ld w s
  | .st w => actStore w s
  | .ldt w => actLoad .ldt w s
  | .pref w => actPref w s
  | .atom w => actAtom w s
  | .red w => actRed w s
  | .aord w => actAord w s
  | .waitc w => actWaitc w s
  | .qpush w => actQpush w s
  | .qpop w => actQpop w s
  | .fset w => actFset w s
  | .fget w => actFget w s
  | .claim w => actClaim w s
  | .rxst w => actRxst w s
  | .cpq w => actCpq w s
  | .launch w => actLaunch w s
  | .wb w => actWb w s
  | .macq w => actMacq w s
  | .marel w => actMarel w s
  | .mcvr w => actMcvr w s
  | .mma w => actMma w s
  | .mld w => actMld w s
  | .mzero w => actMzero w s
  | .mdrain w => actMdrain w s
  | .mfill w => actMfill w s
  | .mcopy w => actMcopy w s
  | .mstat w => actMstat w s
  | .bwait w => actBwait w s
  | .bset w => actBset w s
  | .srnext w => actSrnext w s
  | .tcopy w => actTcopy w s
  | .skins w => actSkins w s
  | .skdel w => actSkdel w s
  | .skxch w => actSkxch w s
  | .skpeel w => actSkpeel w s
  | .rlbeg w => actRlbeg w s
  | .rwave w => actRwave w s
  | .rlend w => actRlend w s
  | .rxbeg w => actRxbeg w s
  | .rxin w => actRxin w s
  | .rxout w => actRxout w s
  | .rxjac w => actRxjac w s
  | .rxend w => actRxend w s
  | .rxcmt w => actRxcmt w s
  | .rxabort w => actRxabort w s
  | .nop w => actNop w s
  | .bra w => actBra w s
  | .brs w => actBrs w s
  | .jmp w => actJmp w s
  | .call w => actCall w s
  | .ret w => actRet w s
  | .join w => actJoin w s
  | .spawn w => actSpawn w s
  | .fend w => actFend w s
  | .yield w => actYield w s
  | .arrive w => actArrive w s
  | .waitb w => actWaitb w s
  | .fence w => actFence w s
  | .rdsr w => actRdsr w s
  | .wrsr w => actWrsr w s
  | .trap w => actTrap w s
  | .eret w => actEret w s
  | .brk w => actBrk w s
  | .twc w => actTwc w s
  | .tlbinv w => actTlbinv w s
  | .issuePick _ => .noGroup
  | .hostAppend _ _ _ _ => .noGroup
  | .launchQueueTake _ _ => .noGroup
  | .pendingLaunchTake _ => .noGroup
  | .teamSteal _ _ _ => .noGroup
  | .teamAdmission _ _ => .noGroup
  | .gridRetire _ => .noGroup
  | .swapOut _ => .noGroup
  | .swapIn _ => .noGroup
  | .binTimeout _ _ => .noGroup
  | .binFormGroup _ _ => .noGroup
  | .longLatencyWriteback _ => .noGroup
  | .sfuEntryStart _ => .noGroup
  | .sfuWriteback _ => .noGroup
  | .engineOpStart _ => .noGroup
  | .engineOpEnd _ => .noGroup
  | .peerAdd _ => .noGroup
  | .copyPacketTake _ _ => .noGroup
  | .copyLineLand _ _ => .noGroup
  | .copySourceReadDone _ => .noGroup
  | .copyComplete _ => .noGroup
  | .copyFault _ _ _ => .noGroup
  | .cpqPublish _ => .noGroup
  | .ringDepthAdjust _ _ _ _ => .noGroup
  | .tcDrain _ _ => .noGroup
  | .qchPerform _ => .noGroup
  | .redAccumulate _ => .noGroup
  | .hPerform _ => .noGroup
  | .hostAccess _ => .noGroup
  | .biasSetRequest _ => .noGroup
  | .aordArrival _ _ => .noGroup
  | .aordRetry _ _ => .noGroup
  | .monitorWake _ => .noGroup
  | .waitcTimeout _ => .noGroup
  | .waitReread _ => .noGroup
  | .waveDecide _ _ => .noGroup
  | .passEnd _ => .noGroup
  | .collectiveContribute _ => .noGroup
  | .collectiveMessage _ _ => .noGroup
  | .collectiveFinish _ => .noGroup
  | .collectiveTimeoutFlush _ => .noGroup
  | .collectiveWatchdog _ => .noGroup
  | .collectiveAbort _ => .noGroup
  | .collectivePacketTake _ _ => .noGroup
  | .exchangeRound _ _ => .noGroup
  | .trapEntry _ => .noGroup
  | .handlerWindowFree _ => .noGroup
  | .preemptRequest _ => .noGroup
  | .contextSave _ => .noGroup
  | .contextRestore _ => .noGroup
  | .debugHaltRequest _ => .noGroup
  | .programBufferStart _ _ => .noGroup
  | .debugResume _ => .noGroup
  | .profileSample _ _ => .noGroup
  | .reuseSample _ => .noGroup
  | .contextDestroy _ => .noGroup
  | .contextKill _ => .noGroup
  | .errorEvent _ => .noGroup
  | .journalEntryTimeout => .noGroup
  | .clockLower => .noGroup
  | .powerOn _ _ => .noGroup
  | .provisioningWrite _ => .noGroup
  | .queueRegister _ => .noGroup
  | .imageLoad _ => .noGroup
  | .imageUnload _ _ => .noGroup
  | .accessTableWrite _ => .noGroup
  | .formatWindowWrite _ _ _ => .noGroup
  | .watchpointSet _ _ _ => .noGroup
  | .reservationGrant _ _ _ => .noGroup
  | .tokenBucketSet _ _ _ _ _ => .noGroup
  | .domainJoin _ _ _ _ _ => .noGroup
  | .deviceReset _ => .noGroup
  | .contextCreate _ => .noGroup
  | .engineLineComplete _ _ => .noGroup
  | .clockRestore => .noGroup
  | .debuggerAttach _ _ => .noGroup
  | .profilingEnable _ _ => .noGroup
  | .partitionAssign _ _ => .noGroup
  | .tokenBucketRefill _ _ _ => .noGroup

/-- How a group stands when its next instruction is considered (R40, R144, R147): it waits; it fails a check of R40 steps 1
to 5, which uses no issue slot (and counts as a first issue, log 97); or it issues. -/
inductive Standing where
  | waits | traps | issues
  deriving DecidableEq, Repr

/-- A trap of R40 steps 1 to 5, which is raised at the consideration; an ORPHAN of a scratchpad line names a word (R197,
R227). -/
def Trap.early (t : Trap) : Bool :=
  match t.cause with
  | .illop | .illpair | .role | .regempty => true
  | .orphan => t.addr = 0
  | _ => false

/-- The standing of a group's next instruction, as it is fetched, decoded and checked. -/
def State.standing (s : State) (gid : Nat) : Standing :=
  match ({ s with sched := { s.sched with cur := some gid } } : State).fetch gid with
  | .stall => .waits
  | .error _ => .issues
  | .trap _ _ => .traps
  | .run i s => match attempt i s with
    | .wait _ => .waits
    | .noGroup => .waits
    | .trap _ t _ => if t.early then .traps else .issues
    | _ => .issues

/-- The group's next instruction is eligible (R144): it would issue, or raise a trap of its own. -/
def State.eligible (s : State) (gid : Nat) : Bool := s.standing gid == .issues

/-- The group's next instruction (R40 steps 1 to 3), when there is one. -/
def State.nextInstr (s : State) (gid : Nat) : Option Instr :=
  match s.fetch gid with | .run i _ => some i | _ => none

/-! ### What two picks may share (R143, R145) -/

/-- Ports of an instruction (R34). -/
def viewPorts (v : View) : List Port :=
  match v with
  | .r op w => (op.front w).ports
  | .i op w => (op.front w).ports
  | .p w => w.front.ports
  | .m op _ => [op.port]
  | .x op _ =>
    (match op with
     | .macq | .marel | .mcvr | .mma | .mld | .mzero | .mdrain | .mfill | .mcopy | .mstat => [.mxp]
     | .tcopy => [.cpp]
     | .rxin | .rxout | .rxjac => [.v1]
     | .skins | .skdel => [.mp]
     | _ => [.ctl])
  | .c _ _ | .y _ _ => [.ctl]

/-- The v registers that an instruction reads as A, B, C or a further source; the guard does not count. -/
def viewBanks (v : View) : List Nat :=
  let of := fun (x : Operand) (n : Nat) => match x with | .v i => (List.range n).map fun j => (i.toNat + j) % 16 | _ => []
  let ofSrc := fun (f : Front) => f.srcs.flatMap fun x => of x.x x.n
  match v with
  | .r op w => ofSrc (op.front w)
  | .i op w => ofSrc (op.front w)
  | .p w => ofSrc w.front
  | .m op w => ofSrc (MOp.front op w)
  | .x op w => (if op.presentA w then of w.a (if op = .rxout || op = .rxjac then 1 else 2) else [])
  | .c op w => (match op with | .jmp | .ret => of w.a 2 | .spawn => of w.a (w.f 27 24) | _ => [])
  | .y _ _ => []

/-- Two picks of one cycle conflict (R145). -/
def viewsConflict (a b : View) : Bool :=
  let p := viewPorts a
  let q := viewPorts b
  q.length != 1 || q.any (fun x => x != .v1 && p.contains x) || (viewBanks a).any (viewBanks b).contains

end Sys2Proof.Machine
end

