-- ==== Sys2Proof/Machine/Admit.lean ====
section
/-! DEFINITION. Placement (R119-R129): the home of a team, what a core has free, the admission queues and admission;
swap-out and return (R134-R137); and the groups that spawn bins form (R148, R149). -/

namespace Sys2Proof.Machine

/-! ### Homes (R122-R124) -/

/-- The logical core that the draw of R122 gives. -/
def homeOf (seed : DWord) (n : Nat) (serial : Word) : Nat :=
  (kcg (loWord seed) (hiWord seed) (BitVec.ofNat 32 n) serial 0 0).x0.toNat * Config.cores / 2 ^ 32

/-- The home of a team: where it was stolen to, or that of R122. -/
def Grid.home (g : Grid) (n : Nat) : Nat := (smFind g.homes n).getD (homeOf g.record.seed n g.serial)

/-- Team core j of a home (R123). -/
def teamCoreAt (home j : Nat) : Nat := 8 * (home / 8) + (home % 8 + j) % 8

/-- The core key of a logical core in a context's partition. -/
def State.coreKey (s : State) (ctx l : Nat) : Nat := Config.cores * (match s.ctx ctx with | some c => c.part | none => 0) + l

/-- The cores of a team with a home. -/
def State.coresAt (s : State) (g : Grid) (home : Nat) : List Nat :=
  (List.range g.kernel.cores).map fun j => s.coreKey g.ctx (teamCoreAt home j)

/-- The cores on which a team waits or stands. -/
def State.coresOf (s : State) (g : Grid) (n : Nat) : List Nat := s.coresAt g (g.home n)

/-! ### What a team takes on a core (R120, R121, R126, R127) -/

/-- The groups of a kernel's teams in the order of t, each with its index in its role (R120). -/
def Kernel.groups (k : Kernel) : List (RoleEntry × Nat) :=
  k.roles.flatMap fun r => (List.range r.groups).map fun i => (r, i)

/-- A team core's share of SPAD bytes (R121). -/
def Kernel.shareBytes (k : Kernel) : Nat := ceilDiv k.spad (128 * k.cores) * 128

/-- The windows of the groups that team core j receives (R121). -/
def Kernel.windowsOn (k : Kernel) (j : Nat) : List Nat :=
  ((k.groups.zipIdx.filter fun x => x.2 % k.cores == j)).map fun x => windowOf x.1.1.v k.width

/-- The handle names of a kernel's rings (R247). -/
def Kernel.ringHandles (k : Kernel) : List Nat := k.rings.flatMap fun r => (List.range r.count).map (r.first + ·)

/-! ### What a core has free (R125-R127) -/

/-- A core has room for a share of these bytes. -/
def State.shareFree (s : State) (core bytes : Nat) : Bool :=
  (s.teams.filter fun t => t.cores.contains core).foldl (fun a t => a + t.shareSize) bytes ≤ Config.spadBytes

/-- The barriers that a core's pool has given out: each team holds its own from team core 0 (R127). -/
def State.barriersUsed (s : State) (core : Nat) : Nat :=
  (s.teams.filter fun t => t.cores.head? == some core).foldl (fun a t => a + t.barriers.length) 0

/-- The ring descriptors that a core's pool has given out. -/
def State.ringsUsed (s : State) (core : Nat) : Nat :=
  s.teams.foldl (fun a t => a + ((t.cores.zip t.rings).filter fun x => x.1 == core).foldl (fun b x => b + x.2.length) 0) 0

/-- The pool entries of R127 are free on team core j of a team. -/
def State.poolsFree (s : State) (g : Grid) (j core : Nat) : Bool :=
  let k := g.kernel
  let fresh := k.ringHandles.filter fun h => (s.work.handles.find? fun e => e.ctx == g.ctx && e.core == core && e.k == h).isNone
  (j != 0 || s.barriersUsed core + k.nbar ≤ 64) &&
  s.ringsUsed core + k.rings.length ≤ 16 &&
  fresh.length == k.ringHandles.length &&
  (s.work.handles.filter (·.core == core)).length + fresh.length ≤ 256

/-- Everything that R125 asks of team core j. -/
def State.coreReady (s : State) (g : Grid) (j core : Nat) : Bool :=
  s.slotsFree core g.ctx (g.kernel.windowsOn j) && s.shareFree core g.kernel.shareBytes && s.poolsFree g j core

/-! ### The admission queues (R128) -/

/-- A parked group has been woken (R135, R136). -/
def State.woken (s : State) (gid : Nat) (g : Group) : Bool :=
  match g.wait with
  | some w => w.woken || (w.retries && s.eligible gid)
  | none => true

/-- The wait keeps a wake that came (R135). -/
def Wait.wake : Wait → Wait
  | .retry _ => .retry true
  | .launch _ d => .launch true d
  | w => w

/-- A group that is swapped out in a wait whose instruction is tried again, and that nothing has woken. -/
def Group.sleeps (g : Group) : Bool := g.place == .swapped && g.wait.any fun w => w.retries && !w.woken

/-- A wake of such a group is kept, though what woke it may lapse before the group returns (R135). -/
def State.keepWakes (s : State) : State :=
  if s.groups.any (·.2.sleeps) then
    { s with groups := s.groups.map fun p =>
        (p.1, if p.2.sleeps && s.eligible p.1 then { p.2 with wait := p.2.wait.map (·.wake) } else p.2) }
  else s

/-- The context waits to resume after a save (R137, R364). -/
def State.restoring (s : State) (ctx : Nat) : Bool := match s.ctx ctx with | some c => c.run == .restoring | none => false

/-- The groups that wait to return to a core: from a swap-out once woken, and those of a context that is being restored
(R136, R137). -/
def State.returning (s : State) (core : Nat) : List (Nat × Group) :=
  s.groups.filter fun p =>
    p.2.id.core == core && ((p.2.place == .swapped && s.running p.2.id.ctx && s.woken p.1 p.2) ||
      (p.2.place == .saved && s.restoring p.2.id.ctx))

/-- The bins of a core that were written to a swap area (R149). -/
def State.binsOut (s : State) (core : Nat) : List Bin :=
  (s.core core).bins.filter fun b => b.out && s.running b.ctx

/-- The time by which a group takes its place among those that return: when it parked; a context that is being restored returns as
one, with the earliest of its saved groups, and a group that was not parked counts with its last park (log 94). -/
def State.returnAt (s : State) (g : Group) : Nat :=
  if g.place == .saved then
    (s.groups.filter fun p => p.2.id.ctx == g.id.ctx && p.2.place == .saved).foldl (fun a p => min a p.2.parkedAt) g.parkedAt
  else g.parkedAt

/-- The key of a team in the admission queues, after every returning group. -/
def teamKey (g : Grid) (n : Nat) : List Nat := [1, 65536 - (g.record.cls * 256 + g.record.prio.toNat), g.order, n]

/-- Keys of a returning group and of a written-out bin (R128, R149): the oldest park first, and bins after every group, in the order of
their opening (log 94). -/
def State.returnKey (s : State) (g : Group) : List Nat := [0, 0, s.returnAt g]

@[inherit_doc State.returnKey] def binKey (b : Bin) : List Nat := [0, 1, b.opened]

/-- A team with a smaller key waits on a core. -/
def State.teamBefore (s : State) (core : Nat) (key : List Nat) : Bool :=
  s.grids.any fun p => s.running p.2.ctx && (List.range p.2.record.total).any fun n =>
    lexLt (teamKey p.2 n) key && !p.2.admitted.contains n && (s.coresOf p.2 n).contains core

/-- Nothing with a smaller key waits on a core. -/
def State.heads (s : State) (core : Nat) (key : List Nat) : Bool :=
  !((s.returning core).any fun p => lexLt (s.returnKey p.2) key) &&
  !((s.binsOut core).any fun b => lexLt (binKey b) key) &&
  !(s.teamBefore core key)

/-! ### Admission (R125-R129) -/

/-- The groups of a team, with where they go, and what their identity registers hold (R120, R133). -/
def Grid.idents (g : Grid) (id n : Nat) (cores : List Nat) : List Ident :=
  let k := g.kernel
  let r := g.record
  let i := n % r.gx.toNat
  let j := n / r.gx.toNat % r.gy.toNat
  let l := n / (r.gx.toNat * r.gy.toNat)
  k.groups.zipIdx.map fun x =>
    { ctx := g.ctx, grid := id, team := n, teamCore := x.2 % k.cores, core := cores.getD (x.2 % k.cores) 0, t := x.2
      role := x.1.1.role, ridx := x.1.2, rcnt := x.1.1.groups - 1, width := k.width
      grpid := BitVec.ofNat 32 (n * k.groups.length + x.2)
      taskidx := BitVec.ofNat 64 ((r.bx.toNat + i) + (r.by_.toNat + j) * 2 ^ 32 + (r.bz.toNat + l) * 2 ^ 48)
      seed := r.seed, bin := false, det := g.det, vBud := x.1.1.v, oBud := x.1.1.o, sBud := x.1.1.s, nbar := k.nbar
      cores := k.cores, share := k.shareBytes, secLo := k.secLo, textLo := k.textLo, textLen := k.textLen, trapAt := k.trapAt }

/-- The status registers before a unit has written them. -/
def StatRegs.start : StatRegs := ⟨0, 0, 0, 0, 0, 0⟩

/-- The trap registers before a trap. -/
def TrapRegs.start : TrapRegs := ⟨0, 0, 0, 0, 7, 0⟩

/-- A group as it starts (R129): every register zero and full, ARGS in s0:s1, FPMODE and LC at reset, BINTMO 256. -/
def Group.start (id : Ident) (gid : Nat) (fibres : List Fibre) (args : DWord) (swaptmo : Word) (reserved : Bool) : Group :=
  { id := id, fibres := fibres
    regs := if 2 ≤ id.sBud then
        smPut 0 (smPut 0 [] (regKey 1 0 0) (loWord args)) (regKey 1 0 1) (hiWord args) else []
    empty := [], fpmode := 0, lc := 0, bintmo := 256, swaptmo := swaptmo, lqfull := 0, monfull := 0
    stat := StatRegs.start, trap := TrapRegs.start, handler := none, pending := none, wait := none, parkedAt := 0, age := gid
    notBefore := 0, haltReq := false, halt := none, place := .slot, reserved := reserved, issued := false, ended := false }

/-- The fibres of an admitted group: one for each lane, at ENTRY (R139). -/
def Ident.fibres (id : Ident) (entry : Nat) : List Fibre :=
  (List.range id.width).map fun l =>
    ⟨l, BitVec.ofNat 64 entry, BitVec.ofNat 32 ((id.team * 2048 + id.t * id.width + l) % 2 ^ 31), 0, false⟩

/-- The group takes one of its context's reserved slots (R110): its record asks for it, one is left and its window fits. -/
def State.asReserved (s : State) (resv : Bool) (id : Ident) : Bool :=
  match s.ctx id.ctx with
  | some c => resv && s.reservedUsed id.core id.ctx < c.resSlots && windowOf id.vBud id.width ≤ c.resKib
  | none => false

/-- Place one group of a team. -/
def State.placeGroup (s : State) (g : Grid) (id : Ident) : State :=
  let (gid, s) := s.newId
  let swaptmo := match s.ctx id.ctx with | some c => c.swaptmo | none => 0
  s.setGroup gid
    (Group.start id gid (id.fibres g.kernel.textLo) g.record.args swaptmo (s.asReserved (g.record.flags.getLsbD 1) id))

/-- A share at admission: zero, with every presence bit set. -/
def Share.start : Share := ⟨[], [], [], []⟩

/-- A team as it is admitted: shares zero, barriers at COUNT 0 and PHASE 0, rings as R247 gives. -/
def Grid.teamOf (g : Grid) (id n : Nat) (cores : List Nat) : Team :=
  let k := g.kernel
  { grid := id, n := n, ctx := g.ctx, cores := cores, shareSize := k.shareBytes
    shares := cores.map fun _ => Share.start
    barriers := (List.range k.nbar).map fun b => (b, ⟨0, false⟩)
    rings := cores.map fun _ => k.rings.map fun e => ⟨e, ⟨0, false, 0⟩, ⟨0, false, 0⟩, e.max⟩
    loops := [], broken := [], region := none }

/-- The handle names of a team's rings become reserved for it on each of its cores (R127). -/
def Grid.reserve (g : Grid) (id n : Nat) (cores : List Nat) : List HandleEntry :=
  cores.flatMap fun c => g.kernel.ringHandles.map fun h => ⟨g.ctx, c, h, some (id, n), none⟩

/-- TEAM_ADMISSION (R125-R129). -/
def admitTeam (grid n : Nat) (s : State) : State :=
  match s.grid grid with
  | none => s
  | some g =>
    let cores := s.coresOf g n
    let ready := cores.zipIdx.all fun x => s.coreReady g x.2 x.1 && s.heads x.1 (teamKey g n)
    if g.record.total ≤ n || g.admitted.contains n || !s.running g.ctx || !ready then s
    else
      let s := s.modGrid grid fun g => { g with admitted := g.admitted ++ [n] }
      let s := { s with
        teams := s.teams ++ [g.teamOf grid n cores]
        work := { s.work with handles := s.work.handles ++ g.reserve grid n cores } }
      (g.idents grid n cores).foldl (fun s id => s.placeGroup g id) s

/-- TEAM_STEAL (R124): in free mode, cores with room for the shares take a team that is not admitted, while its context runs
(R137). -/
def stealTeam (grid n home : Nat) (s : State) : State :=
  match s.grid grid with
  | none => s
  | some g =>
    if g.det || !s.running g.ctx || g.record.total ≤ n || g.admitted.contains n || Config.cores ≤ home ||
       !((s.coresAt g home).all fun c => s.shareFree c g.kernel.shareBytes) then s
    else s.modGrid grid fun g => { g with homes := smSet g.homes n home }

/-! ### Swap-out and return (R134-R136) -/

/-- The group's producers in flight, but for that of a destination that its own wait has marked empty (R134, R380). -/
def State.inFlightOf (s : State) (gid : Nat) (g : Group) : Bool :=
  s.work.producers.any (fun p => p.gid == gid && (g.wait.bind Wait.due).all (·.prod != p.id)) ||
  (s.core g.id.core).sfu.any (·.gid == gid)

/-- The machine writes part of its state to an area of a context (R135, R149, R364): in what layout is its own, so the bytes are
free (log 19). -/
def State.writeArea (s : State) (a : Area) : State :=
  let (n, s) := s.draw
  s.performWrite a.base ((Config.areaBytes n).take a.size)

/-- The swap area of a context receives a group or a bin. -/
def State.writeSwap (s : State) (ctx : Nat) : State :=
  match s.ctx ctx with | some c => s.writeArea c.swapArea | none => s

/-- The conditions of R134. -/
def State.maySwap (s : State) (gid : Nat) (g : Group) : Bool :=
  let e := (s.core g.id.core).engine
  g.place == .slot && !g.ended && g.halt.isNone && s.running g.id.ctx &&
  (match g.wait with | some w => w.parks | none => false) && !s.woken gid g &&
  g.swaptmo != 0 && g.parkedAt + g.swaptmo.toNat < s.dev.clk &&
  !s.inFlightOf gid g &&
  e.owner != some gid && !(e.conv.any fun c => c.2.arrived.contains gid) &&
  (s.bodyOf gid g).isNone && (s.myLoop gid g.id).isNone && s.swapRoom g.id.ctx

/-- SWAP_OUT (R134, R135, R268): the group leaves its slot with its state, once the context's paths are empty. -/
def swapOutGroup (gid : Nat) (s : State) : State :=
  match s.group gid with
  | none => s
  | some g =>
    if s.maySwap gid g then
      ((s.flushCtx g.id.ctx).next fun s =>
        .made ((s.writeSwap g.id.ctx).modGroup gid fun g => { g with place := .swapped, reserved := false })).after s
    else s

/-- SWAP_IN (R136): a woken group that heads its core's queue takes a slot, as the youngest of the core (R145). -/
def swapInGroup (gid : Nat) (s : State) : State :=
  match s.group gid with
  | none => s
  | some g =>
    let resv := match s.grid g.id.grid with | some gr => gr.record.flags.getLsbD 1 | none => false
    if g.place == .swapped && s.running g.id.ctx && s.woken gid g && s.heads g.id.core (s.returnKey g) &&
       s.slotsFree g.id.core g.id.ctx [g.window] then
      let (n, s) := s.newId
      s.setGroup gid { g with place := .slot, age := n, reserved := s.asReserved resv g.id }
    else s

/-! ### Spawn bins (R148, R149) -/

/-- BIN_TIMEOUT (R148): the timer of a bin has expired, and it closes. -/
def expireBin (core bin : Nat) (s : State) : State :=
  s.modCore core fun k => { k with bins := k.bins.modify bin fun b =>
    if b.deadline ≤ s.dev.clk && s.running b.ctx then { b with closed := true } else b }

/-- The group that a closed bin becomes (R149). -/
def Bin.group (b : Bin) (gid : Nat) (args : DWord) (reserved : Bool) : Group :=
  let id := { b.ident with bin := true, grpid := 0xFFFF_FFFF, ridx := 0 }
  let fibres := b.fibres.zipIdx.map fun x => ⟨x.2, b.entry, x.1.fibid, 0, false⟩
  let g := Group.start id gid fibres args b.swaptmo reserved
  { g with regs := b.fibres.zipIdx.foldl (fun m x =>
      x.1.args.zipIdx.foldl (fun m y => smPut 0 m (regKey 0 x.2 (y.2 + 1)) y.1) m) g.regs }

/-- BIN_FORM_GROUP (R149): a closed bin becomes a group when a slot and units are free; else it is written to the swap
area, when that has room, and waits as a returning group does. -/
def formGroup (core bin : Nat) (s : State) : State :=
  match (s.core core).bins[bin]? with
  | none => s
  | some b =>
    if !b.closed || !s.running b.ctx then s
    else
      let drop := fun (s : State) => s.modCore core fun k => { k with bins := k.bins.eraseIdx bin }
      if s.slotsFree core b.ctx [windowOf b.ident.vBud b.ident.width] &&
         s.heads core (if b.out then binKey b else [0, 2]) then
        let args := match s.grid b.grid with | some g => g.record.args | none => 0
        let resv := match s.grid b.grid with | some g => g.record.flags.getLsbD 1 | none => false
        let (gid, s) := (drop s).newId
        s.setGroup gid (b.group gid args (s.asReserved resv b.ident))
      else if !b.out && s.swapRoom b.ctx then
        (s.writeSwap b.ctx).modCore core fun k => { k with bins := k.bins.modify bin fun b => { b with out := true } }
      else s

/-! ### The meanings, one for each instruction and event -/

/-- TEAM_STEAL (R124). -/
def execTeamSteal (grid : Nat) (n : Nat) (home : Nat) (s : State) : Host.Outcome State Fault Refusal :=
  .next (stealTeam grid n home s)

/-- TEAM_ADMISSION (R125-R129). -/
def execTeamAdmission (grid : Nat) (n : Nat) (s : State) : Host.Outcome State Fault Refusal :=
  .next (admitTeam grid n s)

/-- SWAP_OUT (R134, R135). -/
def execSwapOut (group : Nat) (s : State) : Host.Outcome State Fault Refusal :=
  .next (swapOutGroup group s)

/-- SWAP_IN (R136). -/
def execSwapIn (group : Nat) (s : State) : Host.Outcome State Fault Refusal :=
  .next (swapInGroup group s)

/-- BIN_TIMEOUT (R148). -/
def execBinTimeout (core : Nat) (bin : Nat) (s : State) : Host.Outcome State Fault Refusal :=
  .next (expireBin core bin s)

/-- BIN_FORM_GROUP (R149). -/
def execBinFormGroup (core : Nat) (bin : Nat) (s : State) : Host.Outcome State Fault Refusal :=
  .next (formGroup core bin s)

end Sys2Proof.Machine
end

