-- ==== Sys2Proof/Machine/Schedule.lean ====
section
/-! DEFINITION. The pick (R142-R145), halting at safe points (R366), what a first issue starts (R116, R118), and the move
that the model makes when nothing else is asked of it (log 1). -/

namespace Sys2Proof.Machine

/-! ### The pick (R144, R145) -/

/-- The group's next instruction is considered: the group stands in a slot of a running context, and none of its traps waits
to be entered. -/
def State.considered (s : State) (g : Group) : Bool :=
  g.place == .slot && !g.ended && g.pending.isNone && decide (g.notBefore ≤ s.dev.clk) && s.running g.id.ctx

/-- The group may be picked: its next instruction is considered, and is eligible (R144). -/
def State.mayIssue (s : State) (gid : Nat) (g : Group) : Bool := s.considered g && s.eligible gid

/-- The groups of a core whose next instructions fail a check of R40 steps 1 to 5: they trap, and issue nothing. -/
def State.trapsOn (s : State) (core : Nat) : List Nat :=
  (s.groups.filter fun p => p.2.id.core == core && s.considered p.2 && s.standing p.1 == .traps).map (·.1)

/-- The oldest of some groups. -/
def oldestGroup (l : List (Nat × Group)) : Option (Nat × Group) :=
  l.foldl (fun (a : Option (Nat × Group)) p => match a with
    | some x => if p.2.age < x.2.age then some p else a
    | none => some p) none

/-- Two groups' next instructions conflict (R145). A fetch that traps takes no port. -/
def State.conflict (s : State) (a b : Nat) : Bool :=
  match (s.nextInstr a).bind Instr.view, (s.nextInstr b).bind Instr.view with
  | some x, some y => viewsConflict x y
  | _, _ => false

/-- A paired word takes both picks (R145). -/
def State.takesBoth (s : State) (gid : Nat) : Bool :=
  match s.nextInstr gid with
  | some (.pairedWord _) => true
  | _ => false

/-- The picks of one cycle on a core (R145). -/
def State.picksOn (s : State) (core : Nat) : List Nat :=
  let ok := s.groups.filter fun p => p.2.id.core == core && s.mayIssue p.1 p.2
  match oldestGroup ok with
  | none => []
  | some a =>
    if s.takesBoth a.1 then [a.1]
    else match oldestGroup (ok.filter fun p => p.1 != a.1 && !s.conflict a.1 p.1) with
      | none => [a.1]
      | some b => [a.1, b.1]

/-! ### Halting (R366) -/

/-- A group's current batch stands at a safe point (R64, R365). -/
def State.atSafePoint (s : State) (g : Group) : Bool :=
  match g.pc, s.grid g.id.grid with
  | some pc, some gr => gr.kernel.safepts.any (·.pc == pc.toNat)
  | _, _ => false

/-- A halt request that takes effect (R366): at a safe point, before the instruction issues. -/
def State.haltNow (s : State) (gid : Nat) : State :=
  match s.group gid with
  | none => s
  | some g =>
    if g.haltReq && g.halt.isNone && g.wait.isNone && g.pending.isNone && g.place == .slot && !g.ended &&
       !s.sfuHolds gid g.id.core && s.atSafePoint g then
      s.setGroup gid { g with haltReq := false, halt := some ⟨[], none, false⟩ }
    else s

/-! ### Tags (R369) -/

/-- The last safe point at or before an address (R365). -/
def Kernel.lastSafePoint (k : Kernel) (pc : Nat) : Option SafePoint :=
  (k.safepts.filter fun x => x.pc ≤ pc).foldl
    (fun (a : Option SafePoint) x => match a with | some y => if y.pc < x.pc then some x else a | none => some x) none

/-- The issues until a scheduler's next tag: the interval, varied by up to half its length by a random source (R369), which is a
free value. -/
def State.tagGap (s : State) (interval : Nat) : Nat × State :=
  let (n, s) := s.draw
  (interval - interval / 2 + (Config.freeValue n).toNat % (2 * (interval / 2) + 1), s)

/-- An instruction of a profiled context that is picked to issue counts towards the scheduler's next tag, and is tagged when its
turn comes (R369). -/
def State.countTag (s : State) (gid : Nat) : State :=
  match s.group gid with
  | none => s
  | some g => match g.pc, (s.ctx g.id.ctx).bind (·.profile), s.grid g.id.grid with
  | some own, some interval, some gr =>
    let start := fun (s : State) => match smFind (s.core g.id.core).tagIn g.id.ctx with
      | some n => (n, s)
      | none => s.tagGap interval
    let (n, s) := start s
    if 1 < n then s.modCore g.id.core fun k => { k with tagIn := smSet k.tagIn g.id.ctx (n - 1) }
    else
      let (next, s) := s.tagGap interval
      let lanes := (g.decodeLanes (guardOf (gr.wordAt g.id.textLo own.toNat)) (g.batch own)).length
      s.modCore g.id.core fun k => { k with
        tagIn := smSet k.tagIn g.id.ctx next
        tagged := k.tagged ++ [⟨g.id.ctx, gr.kernel.index, own.toNat, lanes, gr.kernel.lastSafePoint own.toNat⟩] }
  | _, _, _ => s

/-! ### The pick of a cycle -/

/-- ISSUE_PICK (R40, R145): the scheduler of a core picks up to two groups, which issue next; the groups whose instructions
trap at a check of R40 steps 1 to 5 take no pick. Some cycles pass (log 4). -/
def pickOn (core : Nat) (s : State) : State :=
  if !s.awake then s
  else
    let (n, s) := s.draw
    let s := { s with dev := { s.dev with clk := s.dev.clk + Config.cyclesPassed n } }
    let s := (s.groups.filter fun p => p.2.id.core == core).foldl (fun s p => s.haltNow p.1) s
    let picks := s.picksOn core
    let traps := s.trapsOn core
    let s := (picks.filter fun p => (s.nextInstr p).isSome).foldl (fun s p => s.countTag p) s
    { s with sched := { s.sched with picks := traps ++ picks } }

/-! ### First issues (R116, R118) -/

/-- A group's first issue, a trap at its first instruction included (log 97), counts in GROUPS; that of the grid's first group, one of the
team with n = 0 (R106, R119), starts its collective. -/
def State.firstIssue (s : State) (g : Group) : State :=
  let s := s.modGrid g.id.grid fun gr => { gr with groups := gr.groups + 1 }
  if g.id.team = 0 then
    (s.modGrid g.id.grid fun gr => { gr with started := true }).collStart g.id.grid
  else s

/-- What a group's issue starts and counts, or the trap of an early check at its first instruction (R116, R118, R119; log 97): `old` is the
group as it stood before. -/
def State.noteIssue (s : State) (gid : Nat) (old : Option Group) : State :=
  match old with
  | none => s
  | some g =>
    let now := match s.group gid with | some x => x.issued | none => true
    if g.issued || !now then s else s.firstIssue g

/-! ### The move that is made when no other is asked for (log 1) -/

/-- Moves of the cores. -/
def State.coreMoves (s : State) : List Instr :=
  let used := (s.cores.map (·.1)) ++ (s.groups.map fun p => p.2.id.core).filter fun k => (smFind s.cores k).isNone
  s.cores.flatMap (fun p =>
    (if p.2.sfu.isEmpty then [] else [Instr.sfuEntryStart p.1, .sfuWriteback p.1]) ++
    (if p.2.engine.ops.isEmpty then [] else [Instr.engineOpStart p.1, .engineOpEnd p.1, .peerAdd p.1]) ++
    ((p.2.engine.ops.head?.map fun o => o.dst.map fun l => Instr.engineLineComplete p.1 l.1).getD []) ++
    (if p.2.pq.isEmpty then [] else [Instr.pendingLaunchTake p.1]) ++
    (List.range p.2.bins.length).flatMap fun i => [Instr.binTimeout p.1 i, .binFormGroup p.1 i]) ++
  (keyUnion [] used).flatMap fun k => [Instr.issuePick k, .handlerWindowFree k]

/-- Moves of groups and of what they have in flight. -/
def State.groupMoves (s : State) : List Instr :=
  s.work.producers.map (fun p => Instr.longLatencyWriteback p.id) ++
  (s.groups.flatMap fun p =>
    (if p.2.wait.isSome then [Instr.monitorWake p.1, .waitcTimeout p.1, .waitReread p.1, .swapOut p.1] else []) ++
    (if p.2.place == .swapped then [Instr.swapIn p.1] else []) ++
    (if p.2.pending.isSome then [Instr.trapEntry p.1] else [])) ++
  s.work.tickets.flatMap fun t => t.lanes.flatMap fun l => [Instr.aordArrival t.id l.lane, .aordRetry t.id l.lane]

/-- A group of a team has arrived at an instruction of a region. -/
def State.wantsRegion (s : State) (grid team : Nat) : Bool :=
  s.groups.any fun p => p.2.id.grid == grid && p.2.id.team == team && match p.2.wait with | some (.region _ _) => true | _ => false

/-- Moves of grids and teams. -/
def State.gridMoves (s : State) : List Instr :=
  (s.grids.flatMap fun p =>
    (if p.2.admitted.length < p.2.record.total then [Instr.teamAdmission p.1 (lowest 0
      ((List.range (p.2.admitted.length + 1)).filter fun n => !p.2.admitted.contains n))] else []) ++
    (if p.2.coll.isSome then [Instr.collectiveContribute p.1, .collectiveFinish p.1, .collectiveTimeoutFlush p.1,
      .collectiveWatchdog p.1] else []) ++ [Instr.gridRetire p.1]) ++
  s.teams.zipIdx.flatMap fun x =>
    (([0, 1, 2, 3].filter fun r => (smFind x.1.loops r).isSome || s.wantsLoop x.1.grid x.1.n (roleOf r)).map fun r =>
      Instr.waveDecide x.2 r) ++
    (if x.1.region.isSome || s.wantsRegion x.1.grid x.1.n then [Instr.passEnd x.2] else [])

/-- Moves of the memory order. -/
def State.orderMoves (s : State) : List Instr :=
  s.order.tc.map (fun w => Instr.tcDrain w.core (lineOf w.pa)) ++ s.order.qch.map (fun q => Instr.qchPerform q.1) ++
  (List.range s.order.reds.length).map Instr.redAccumulate ++ (List.range s.order.h.length).map Instr.hPerform

/-- Moves of the queues, the copies and the ports. -/
def State.copyMoves (s : State) : List Instr :=
  (s.ctxs.flatMap fun p => p.2.queues.map fun q =>
    if q.copy then Instr.copyPacketTake p.1 q.num else .launchQueueTake p.1 q.num) ++
  (s.work.copies.flatMap fun c =>
    [Instr.copySourceReadDone c.id, .copyComplete c.id] ++
    (c.unlanded.map fun l => match l with
      | .spad _ _ _ n => Instr.copyLineLand c.id n
      | .glob n => Instr.copyLineLand c.id n)) ++
  (keyUnion [] (s.work.ports.map (·.core))).map Instr.cpqPublish ++
  s.ctxs.flatMap fun p => p.2.buckets.map fun b => Instr.tokenBucketRefill p.1 b.cls b.collective

/-- A context that waits to be restored tries again (R137, R198). -/
def State.restoreMoves (s : State) : List Instr :=
  (s.ctxs.filter fun p => p.2.run == .restoring).map fun p => Instr.contextRestore p.1

/-- Rounds of the exchanges within one context (R347); a round with a peer waits for the peer's fold, which comes from
outside. -/
def State.exchangeMoves (s : State) : List Instr :=
  (s.work.exchanges.filter (s.ownPeer ·)).map fun (x : Exchange) => Instr.exchangeRound x.id (.cells [])

/-- The next move: the kill of a context that has met an uncorrectable error (R389), else each in its turn. -/
def State.defaultMove (s : State) : Option Instr :=
  match s.dev.doomed with
  | ctx :: _ => some (.contextKill ctx)
  | [] =>
  let l := s.coreMoves ++ s.groupMoves ++ s.gridMoves ++ s.orderMoves ++ s.copyMoves ++
    s.restoreMoves ++ s.exchangeMoves ++ (if s.dev.journal.opened.isSome then [Instr.journalEntryTimeout] else [])
  l[s.sched.rotate % l.length]?

/-! ### The meanings, one for each instruction and event -/

/-- ISSUE_PICK (R142-R145). -/
def execIssuePick (core : Nat) (s : State) : Host.Outcome State Fault Refusal :=
  .next (pickOn core s)

end Sys2Proof.Machine
end

