-- ==== Sys2Proof/Machine/Journal.lean ====
section
/-! DEFINITION. The corrected-error journal (R386-R388): its entries, their chain (SHA-256, log 22), and the open entry. -/

namespace Sys2Proof.Machine

/-! ### SHA-256 -/

/-- The first primes: those below 312, which are 64. -/
def shaPrimes : List Nat := (List.range 312).filter fun n => 2 ≤ n && (List.range 16).all fun i => n % (i + 2) != 0 || n == i + 2

/-- The first 32 bits of the fraction of the k-th root of p, for a root below 8. -/
def rootBits (k p : Nat) : Word :=
  BitVec.ofNat 32 ((List.range 35).foldl (fun x i =>
    let y := x + 2 ^ (34 - i)
    if y ^ k ≤ p * 2 ^ (32 * k) then y else x) 0)

/-- A big-endian word. -/
def beWord (b : List Byte) : Word := BitVec.ofNat 32 (leVal b.reverse)

/-- The sum modulo 2 of a word rotated right by each of some amounts. -/
def rotSum (l : List Nat) (x : Word) : Word := l.foldl (fun a r => a ^^^ x.rotateRight r) 0

/-- The message schedule of a block, newest word first: sixteen words of the message, then each from four before it. -/
def shaSchedule (b : List Byte) : List Word :=
  let first := ((List.range 16).map fun i => beWord ((b.drop (4 * i)).take 4)).reverse
  (List.range 48).foldl (fun w _ =>
    let at_ := fun (i : Nat) => w.getD (i - 1) 0
    (at_ 16 + at_ 7 + (rotSum [7, 18] (at_ 15) ^^^ at_ 15 >>> 3) + (rotSum [17, 19] (at_ 2) ^^^ at_ 2 >>> 10)) :: w) first

/-- The last four values of the two sequences that a block computes, newest first. -/
structure ShaState where
  a : List Word
  e : List Word
  deriving DecidableEq, Repr

/-- One round with the sum of its constant and its word. -/
def ShaState.round (x : ShaState) (kw : Word) : ShaState :=
  let a := fun (i : Nat) => x.a.getD i 0
  let e := fun (i : Nat) => x.e.getD i 0
  let choose := e 2 ^^^ (e 0 &&& (e 1 ^^^ e 2))
  let most := (a 0 &&& a 1) ||| (a 2 &&& (a 0 ||| a 1))
  let t := e 3 + kw + choose + rotSum [25, 11, 6] (e 0)
  ⟨(t + most + rotSum [22, 13, 2] (a 0)) :: x.a.take 3, (a 3 + t) :: x.e.take 3⟩

/-- The hash value after a block of 64 bytes. -/
def ShaState.block (x : ShaState) (b : List Byte) : ShaState :=
  let y := ((shaPrimes.map (rootBits 3)).zip (shaSchedule b).reverse).foldl (fun y p => y.round (p.1 + p.2)) x
  let sum := fun (l m : List Word) => (l.zip m).map fun p => p.1 + p.2
  ⟨sum x.a y.a, sum x.e y.e⟩

/-- The blocks of a message: a one bit, zeros, and its length in bits. -/
def shaPadded (m : List Byte) : List Byte :=
  m ++ [0x80] ++ List.replicate ((119 - m.length % 64) % 64) 0 ++ (leOf 8 (8 * m.length)).reverse

/-- SHA-256 of a message. -/
def sha256 (m : List Byte) : List Byte :=
  let start := (shaPrimes.take 8).map (rootBits 2)
  let p := shaPadded m
  let x := (List.range (p.length / 64)).foldl (fun (x : ShaState) i => x.block ((p.drop (64 * i)).take 64))
    ⟨start.take 4, start.drop 4⟩
  (x.a ++ x.e).flatMap fun w => (leOf 4 w.toNat).reverse

/-! ### Entries (R386, R387) -/

/-- The 64 bytes of an entry (R386 Table 2). -/
def OpenEntry.bytes (e : OpenEntry) (seq : Nat) (chain : List Byte) : List Byte :=
  leOf 8 seq ++ leOf 8 e.time ++ leOf 2 e.unit.toNat ++ leOf 2 e.kind.toNat ++ leOf 2 e.synd.toNat ++ leOf 2 e.count ++
  leOf 8 e.loc.toNat ++ chain ++ List.replicate 16 0

/-- Change the journal. -/
def State.modJournal (s : State) (f : Journal → Journal) : State := { s with dev := { s.dev with journal := f s.dev.journal } }

/-- The open entry is written, as one access (R386, R387). -/
def State.writeJournal (s : State) : State :=
  match s.dev.journal.opened with
  | none => s
  | some e =>
    let n := s.dev.journal.next
    let b := e.bytes n s.dev.journal.chain
    (s.performWrite (journalBase + 64 * n) b).modJournal fun j =>
      { j with next := n + 1, chain := (sha256 b).take 16, opened := none }

/-- JSTAT, which the runtime and the firmware read through the management channel (R390 Table 4): NEXT and LOST. No instruction
reads it. -/
def State.jstat (s : State) : DWord := BitVec.ofNat 64 (s.dev.journal.next % 2 ^ 21 + s.dev.journal.lost % 2 ^ 32 * 2 ^ 32)

/-- An event finds the journal full (R388). -/
def State.lostEvent (s : State) : State := s.modJournal fun j => { j with lost := min (j.lost + 1) (2 ^ 32 - 1) }

/-- The event joins the open entry (R387). -/
def OpenEntry.joins (e : OpenEntry) (r : ErrorReq) (clk : Nat) : Bool :=
  e.unit == r.unit && e.kind == r.kind && e.synd == r.synd && e.loc == r.loc && clk < e.time + 2 ^ 20

/-- An event enters the journal (R387, R388). -/
def State.enterEvent (s : State) (r : ErrorReq) : State :=
  let open_ := fun (s : State) =>
    if Config.journalEntries ≤ s.dev.journal.next then s.lostEvent
    else s.modJournal fun j => { j with opened := some ⟨s.dev.clk, r.unit, r.kind, r.synd, 1, r.loc⟩ }
  match s.dev.journal.opened with
  | none => open_ s
  | some e =>
    if e.joins r s.dev.clk then
      let s := s.modJournal fun j => { j with opened := some { e with count := e.count + 1 } }
      if 65535 ≤ e.count + 1 then s.writeJournal else s
    else open_ s.writeJournal

end Sys2Proof.Machine
end

