-- ==== Sys2Proof/Machine/Save.lean ====
section
/-! DEFINITION. Pre-emption (R363), the save and the restore of a context (R364, with R137, R149, R198, R278, R328), and its
end: destruction and the kill (R383-R385). -/

namespace Sys2Proof.Machine

/-! ### Pre-emption (R358, R363) -/

/-- The groups of a context. -/
def State.groupsOf (s : State) (ctx : Nat) : List (Nat × Group) := s.groups.filter fun p => p.2.id.ctx == ctx

/-- Every core stops issuing for a context (R363). -/
def State.stopIssue (s : State) (ctx : Nat) : State :=
  let keep := fun (p : Nat) => match s.group p with | some g => g.id.ctx != ctx | none => false
  { s with sched := { s.sched with picks := s.sched.picks.filter keep } }

/-- PREEMPT_REQUEST (R358, R363, R387): a trap's entry completes first; then the cores stop issuing for the context, and
the journal's open entry is written. -/
def preempt (ctx : Nat) (s : State) : State :=
  match s.ctx ctx with
  | none => s
  | some c =>
    if c.run == .running then
      let s := (s.groupsOf ctx).foldl (fun s p => if p.2.place == .slot then s.enterHandler p.1 else s) s
      (s.stopIssue ctx).writeJournal.modCtx ctx fun c => { c with run := .stopped, savedAt := s.dev.clk }
    else s

/-! ### The save (R364) -/

/-- The engine is a context's: its owner belongs to it, or nothing owns the slices that its last owner left (R194). -/
def Engine.isOf (e : Engine) (s : State) (ctx : Nat) : Bool :=
  match e.owner with
  | some o => (match s.group o with | some g => g.id.ctx == ctx | none => false)
  | none => e.lastCtx == some ctx

/-- The engine abandons an operation (R198): it runs again from its start. Lines that it has completed stay written, and are
taken no more. -/
def EngOp.pause (o : EngOp) : EngOp := { o with running := false, dst := [], flags := 0 }

/-- The group belongs to a context. -/
def State.isMine (s : State) (ctx gid : Nat) : Bool := match s.group gid with | some g => g.id.ctx == ctx | none => false

/-- The producers that a save leaves in flight (log 92): those of operations and `mstat`s that are saved with their engines (R198),
and of accesses left in their paths. -/
def State.savedProducers (s : State) : List Nat :=
  (s.engineOps.filterMap fun o => match o.kind with | .mdrainReg _ _ _ _ _ _ _ _ _ _ prod => some prod | _ => none) ++
  (s.cores.flatMap fun c => c.2.engine.stats.map (·.prod)) ++
  (s.order.qch.flatMap fun q => q.2.map (·.prod)) ++ s.order.h.map (·.prod)

/-- Every other producer that a group of the context issued has written back (R164, R363). -/
def State.producersReady (s : State) (ctx : Nat) : Bool :=
  (s.groupsOf ctx).all fun p =>
    !(s.work.producers.any fun x => x.gid == p.1 && (p.2.wait.bind Wait.due).all (·.prod != x.id) && !s.savedProducers.contains x.id) &&
    !((s.core p.2.id.core).sfu.any (·.gid == p.1))

/-- The producers of a context that have their values write back. -/
def State.writeBackAll (s : State) (ctx : Nat) : State :=
  let mine := fun (gid : Nat) => match s.group gid with | some g => g.id.ctx == ctx | none => false
  (s.work.producers.filter fun p => mine p.gid && p.complete).foldl (fun s p => s.writeBack p.id) s

/-- An open region goes back to the start of its pass (R328). -/
def State.restartPass (s : State) (t : Team) : State :=
  match t.region with
  | some r =>
    if r.st == .opened then
      let r := { r with round := 0, evals := [] }
      (s.dealRound r).setRegion t.grid t.n r
    else s
  | none => s

/-- Unperformed arrivals are withdrawn, to be sent again on resume (R278). -/
def Ticket.withdraw (t : Ticket) : Ticket :=
  { t with lanes := t.lanes.map fun l => match l.st with | .held | .retry _ => { l with st := .sent } | _ => l }

/-- A context's part of an engine (R198): its operations, abandoned, with the slices as they stand before the first of them; of an
engine that is its own, the ownership, the owner queue, the convergence registers, the status word and its `mstat`s too. -/
def Engine.part (e : Engine) (s : State) (ctx : Nat) : Option Engine :=
  let ops := e.ops.filter (·.ctx == ctx)
  let zeroed := (e.ops.takeWhile (·.ctx != ctx)).any fun o => e.zeroAfter.contains o.id
  let x := { e with
    ops := ops.map (·.pause), ownerQ := e.ownerQ.filter (s.isMine ctx), stats := e.stats.filter fun x => s.isMine ctx x.gid
    lastCtx := some ctx, zeroAfter := e.zeroAfter.filter fun z => ops.any (·.id == z), slices := if zeroed then [] else e.slices }
  if e.isOf s ctx then some x
  else if ops.isEmpty then none
  else some { x with owner := none, ownerQ := [], conv := [], flags := 0, stats := [] }

/-- An engine without the operations of a context and without its groups in the owner queue; one that was the context's is
unowned. Slices that were to be zeroed after an operation that goes are zeroed after the one before it that is left, or at once
(R194); so are those that the context itself left. -/
def Engine.without (e : Engine) (s : State) (ctx : Nat) : Engine :=
  let own := e.isOf s ctx
  let last := e.lastCtx == some ctx
  let ops := e.ops.filter (·.ctx != ctx)
  let move := fun (z : Nat) => ((ops.filter (·.id ≤ z)).getLast?).map (·.id)
  let zero := e.zeroAfter.any (fun z => (move z).isNone) || (last && ops.isEmpty)
  { e with
    owner := if own then none else e.owner
    ownerQ := e.ownerQ.filter fun g => !s.isMine ctx g
    ops := ops
    conv := if own then [] else e.conv
    stats := if own then e.stats.filter fun x => !s.isMine ctx x.gid else e.stats
    lastCtx := if last then none else e.lastCtx
    zeroAfter := keyUnion [] (e.zeroAfter.filterMap move)
    slices := if zero then [] else e.slices }

/-- What a context has on a core, and the core without it (R364). An `macq` that waits for another context's engine
executes again on restore (R363). -/
def State.takeCore (s : State) (ctx core : Nat) : CoreSave × State :=
  let k := s.core core
  let own := k.engine.isOf s ctx
  let engine := k.engine.part s ctx
  let left := k.engine.without s ctx
  let waiting := if own then [] else k.engine.ownerQ.filter (s.isMine ctx)
  let s := waiting.foldl (fun s g => s.modGroup g fun g => { g with wait := none }) s
  let s := s.modCore core fun k =>
    { k with bins := k.bins.filter (·.ctx != ctx), pq := k.pq.filter (·.ctx != ctx), engine := left }
  let s := if own then s.engineGrant core else s
  (⟨core, engine, k.bins.filter (·.ctx == ctx), k.pq.filter (·.ctx == ctx)⟩, s)

/-- Take a context's part of some cores. -/
def State.takeCores (s : State) (ctx : Nat) : List Nat → List CoreSave × State
  | [] => ([], s)
  | k :: rest =>
    let (x, s) := s.takeCore ctx k
    let (l, s) := s.takeCores ctx rest
    (if x.engine.isNone && x.bins.isEmpty && x.pq.isEmpty then l else x :: l, s)

/-- A stopped context's state goes to the save area and leaves the cores (R364): it does once its paths are empty (R268), but for
what cannot move until the context or another one runs again (log 92), its producers have written back (R164), and the end-of-pass
work that has begun is done (R328). -/
def State.saveNow (s : State) (ctx : Nat) (c : Context) : Try :=
  (s.flushCtx ctx true).next fun s =>
    let s := s.writeBackAll ctx
    if !s.producersReady ctx || s.teams.any (fun t => t.ctx == ctx && s.passDue t) then .held s
    else
      let s := (s.teams.filter (·.ctx == ctx)).foldl (fun s t => s.restartPass t) s
      let withdraw := fun (t : Ticket) => if t.ctx == ctx then t.withdraw else t
      let s := { s with work := { s.work with tickets := s.work.tickets.map withdraw } }
      let (l, s) := s.takeCores ctx (s.cores.map (·.1))
      let leave := fun (p : Nat × Group) =>
        if p.2.id.ctx == ctx && p.2.place == .slot then (p.1, { p.2 with place := .saved, reserved := false }) else p
      let s := { s with groups := s.groups.map leave }
      .made ((s.writeArea c.saveArea).modCtx ctx fun c => { c with run := .saved, saved := l })

/-- CONTEXT_SAVE (R364). -/
def saveContext (ctx : Nat) (s : State) : State :=
  match s.ctx ctx with
  | some c => if c.run == .stopped && !s.dev.doomed.contains ctx then (s.saveNow ctx c).after s else s
  | none => s

/-! ### The restore (R137, R364) -/

/-- The formers of the clusters can take a saved context's open loops back (R303). -/
def State.formersFit (s : State) (ctx : Nat) : Bool :=
  let mine := s.teams.filter fun t => t.ctx == ctx && !t.loops.isEmpty
  (mine.flatMap fun t => t.cores.map (· / 8)).all fun k =>
    (s.formerTeams k).length + (mine.filter fun t => t.cores.any (· / 8 == k)).length ≤ Config.formerLoops

/-- A saved context's groups, handlers, loops, bins and pending launches fit on their cores at once (R137). -/
def State.restoreFits (s : State) (ctx : Nat) (c : Context) : Bool :=
  s.formersFit ctx &&
  let saved := (s.groupsOf ctx).filter fun p => p.2.place == .saved
  let on := fun (k : Nat) => saved.filter fun p => p.2.id.core == k
  ((saved.map fun p => p.2.id.core) ++ c.saved.map (·.core)).all fun k =>
    s.slotsFree k ctx ((on k).map fun p => p.2.window) &&
    decide (s.windowsUsed k + ((on k).filter fun p => p.2.handler.isSome).length ≤ Config.handlerWindows) &&
    (c.saved.filter (·.core == k)).all fun x =>
      decide (((s.core k).bins.filter fun b => !b.out).length + (x.bins.filter fun b => !b.out).length ≤ Config.spawnBins) &&
      decide ((s.core k).pq.length + x.pq.length ≤ Config.pendingEntries)

/-- The engines that a saved context takes back are free (R198). -/
def State.enginesFree (s : State) (c : Context) : Bool :=
  c.saved.all fun x => x.engine.isNone || ((s.core x.core).engine.owner.isNone && (s.core x.core).engine.ops.isEmpty)

/-- No group that was woken on a core before the saved ones comes first in its queue (R128, R136, R137). -/
def State.returnsFirst (s : State) (ctx : Nat) : Bool :=
  (s.groupsOf ctx).all fun p => p.2.place != .saved || s.heads p.2.id.core (s.returnKey p.2)

/-- A context's part goes back to a core; the timers of its bins did not run meanwhile (R149). Entries of the owner queue beyond its
sixteen leave it, the newest first, and their `macq`s find it full (R193; log 93). -/
def State.putCore (s : State) (x : CoreSave) (delta : Nat) : State :=
  let bins := x.bins.map fun b => { b with deadline := b.deadline + delta }
  let s := s.modCore x.core fun k => { k with bins := k.bins ++ bins, pq := k.pq ++ x.pq }
  match x.engine with
  | none => s
  | some e =>
    let k := s.engine x.core
    let room := Config.engineEntries - e.ownerQ.length
    let s := (k.ownerQ.drop room).foldl (fun s g => s.modGroup g fun g => { g with wait := none }) s
    let s := s.modEngine x.core fun _ => { e with ownerQ := e.ownerQ ++ k.ownerQ.take room, stats := e.stats ++ k.stats }
    (if e.owner.isNone then s.engineGrant x.core else s).tidyStats x.core

/-- A collective's clocks did not run meanwhile (R340). -/
def Coll.shift (c : Coll) (delta : Nat) : Coll := { c with since := c.since + delta, last := c.last + delta }

/-- CONTEXT_RESTORE (R137, R364): the context resumes when everything fits and its engines are free; until then it waits,
ahead of those engines' owner queues (R198). -/
def restoreContext (ctx : Nat) (s : State) : State :=
  match s.ctx ctx with
  | none => s
  | some c =>
    if !(c.run == .saved || c.run == .restoring) then s
    else if !s.enginesFree c || !s.restoreFits ctx c || !(State.returnsFirst (s.modCtx ctx fun c => { c with run := .restoring }) ctx) then s.modCtx ctx fun c => { c with run := .restoring }
    else
      let delta := s.dev.clk - c.savedAt
      let s := s.modCtx ctx fun c => { c with run := .running, saved := [] }
      let back := fun (s : State) (p : Nat × Group) =>
        let resv := match s.grid p.2.id.grid with | some gr => gr.record.flags.getLsbD 1 | none => false
        s.modGroup p.1 fun g => { g with place := .slot, reserved := s.asReserved resv g.id }
      let s := ((s.groupsOf ctx).filter fun p => p.2.place == .saved).foldl back s
      let s := c.saved.foldl (fun s x => s.putCore x delta) s
      { s with grids := s.grids.map fun p =>
          if p.2.ctx == ctx then (p.1, { p.2 with coll := p.2.coll.map fun x => x.shift delta }) else p }

/-! ### The kill (R384, R385) -/

/-- An engine without a killed context (R199): its operations and its `mstat`s are dropped. -/
def Engine.drop (e : Engine) (s : State) (ctx : Nat) : Engine :=
  let e := e.without s ctx
  { e with stats := e.stats.filter fun x => !s.isMine ctx x.gid }

/-- A core without a killed context. -/
def State.dropCore (s : State) (ctx core : Nat) : State :=
  let mine := fun (gid : Nat) => match s.group gid with | some g => g.id.ctx == ctx | none => false
  s.modCore core fun k =>
    { k with
      bins := k.bins.filter (·.ctx != ctx), pq := k.pq.filter (·.ctx != ctx)
      sfu := k.sfu.filter fun e => !mine e.gid
      engine := k.engine.drop s ctx
      tagIn := smErase k.tagIn ctx
      tagged := k.tagged.filter (·.ctx != ctx) }

/-- What the units other than the cores have in hand, without a killed context. -/
def Work.drop (w : Work) (ctx : Nat) (mine : Nat → Bool) : Work :=
  { producers := w.producers.filter fun p => !mine p.gid
    tickets := w.tickets.filter (·.ctx != ctx)
    handles := w.handles.filter (·.ctx != ctx)
    copies := w.copies.filter (·.ctx != ctx)
    ports := w.ports.filter (·.ctx != ctx)
    moved := w.moved.filter (·.ctx != ctx)
    packets := w.packets.filter (·.ctx != ctx)
    exchanges := w.exchanges.filter (·.ctx != ctx)
    early := w.early }

/-- Everything that a context has queued and placed goes (R384 steps 2 and 5); a waiting group of another context may own an
engine now. -/
def State.eraseContext (s : State) (ctx : Nat) : State :=
  let mine := fun (gid : Nat) => match s.group gid with | some g => g.id.ctx == ctx | none => false
  let s := (s.cores.map (·.1)).foldl (fun s k => s.dropCore ctx k) s
  let s : State := { s with
    groups := s.groups.filter fun p => p.2.id.ctx != ctx
    grids := s.grids.filter fun p => p.2.ctx != ctx
    teams := s.teams.filter (·.ctx != ctx)
    ctxs := smErase s.ctxs ctx
    work := s.work.drop ctx mine
    order := { s.order with
      tlb := s.order.tlb.filter (·.ctx != ctx), nodes := s.order.nodes.filter (·.ctx != ctx) } }
  (s.cores.map (·.1)).foldl (fun s k =>
    let e := (s.core k).engine
    (if e.owner.isNone && !e.ownerQ.isEmpty then s.engineGrant k else s).tidyStats k) s

/-- Every target revokes the context's master id (R384 step 3). -/
def State.revoke (s : State) (ctx : Nat) : State :=
  { s with dev := { s.dev with access := s.dev.access.filter (·.1 / 4 != ctx), doomed := keyDel s.dev.doomed ctx } }

/-- A write that is on its way to its target is performed or refused: which of the two is free (R384 step 4). `tab` is the
targets' table before it was revoked. -/
def State.orRefuse (s : State) (tab : SMap (List Window)) (t : Target) (ctx pa n : Nat) (may : Bool) (k : Kind)
    (perform : State → State) : State :=
  let (i, s) := s.draw
  if may && (Config.freeValue i).getLsbD 0 && !s.blocked pa n k.writes && grantedBy tab t ctx pa n k then perform s
  else s.refuse t ctx pa k

/-- The entries of a queue of accesses that a killed context leaves, with the state after its own ended: one may be performed
only when no older entry of another context comes `before` it. -/
def State.endAccesses (s : State) (tab : SMap (List Window)) (t : Target) (ctx : Nat) (before : Access → Access → Bool) :
    List Access → List Access → List Access × State
  | kept, [] => (kept, s)
  | kept, a :: rest =>
    if a.ctx != ctx then s.endAccesses tab t ctx before (kept ++ [a]) rest
    else
      let may := !(kept.any fun b => before b a)
      let s := match a.kind with
        | .load => s
        | .store b => s.orRefuse tab t ctx a.pa a.bytes may .write fun s => s.performWrite a.pa b
        | .rmw aop b d => s.orRefuse tab t ctx a.pa a.bytes may .both fun s => (s.performRmw aop a.pa a.bytes b.toNat d.toNat).2
        | .cell σ k x => s.orRefuse tab t ctx a.pa a.bytes may .both fun s => s.cellMove σ k x a.pa
        | .red aop b e => s.orRefuse tab t ctx a.pa a.bytes may .both fun s =>
            s.accumulateRed ⟨a.gid, a.ctx, logical a.core, aop, a.pa, a.bytes, b, some e, a.ord⟩
      s.endAccesses tab t ctx before kept rest

/-- Every write of the context that is on its way performs in M or is refused (R384 step 4): a `red` that performs is merged,
and so is all that U_l holds. -/
def State.endPaths (s : State) (tab : SMap (List Window)) (ctx : Nat) : State :=
  let tc := s.order.tc.filter (·.ctx == ctx)
  let s := { s with order := { s.order with tc := s.order.tc.filter (·.ctx != ctx) } }
  let s := tc.foldl (fun s w => s.orRefuse tab .slice ctx w.pa w.bytes.length true .write fun s => s.writeM w.pa w.bytes) s
  let s := s.order.qch.foldl (fun s q =>
    let (l, s) := s.endAccesses tab .hbm ctx (fun _ _ => true) [] q.2
    { s with order := { s.order with qch := smPut [] s.order.qch q.1 l } }) s
  let reds := s.order.reds.filter (·.ctx == ctx)
  let s := { s with order := { s.order with reds := s.order.reds.filter (·.ctx != ctx) } }
  let s := reds.foldl (fun s r => s.orRefuse tab .slice ctx r.pa r.bytes true .both fun s => s.accumulateRed r) s
  let s := (keyUnion [] (s.order.partials.map fun p => lineOf p.pa)).foldl (fun s l => s.mergeLine l) s
  let (l, s) := s.endAccesses tab .port ctx (fun b a => b.core == a.core && lineOf b.pa == lineOf a.pa) [] s.order.h
  { s with order := { s.order with h := l } }

/-- THE KILL (R384): issuing stops; everything of the context is dropped, and its master id is revoked; writes on their way
end. The journal's open entry is written before the kill is reported (R387). -/
def State.kill (s : State) (ctx : Nat) : State :=
  match s.ctx ctx with
  | none => { s with dev := { s.dev with doomed := keyDel s.dev.doomed ctx } }
  | some _ => ((((s.stopIssue ctx).eraseContext ctx).revoke ctx).endPaths s.dev.access ctx).writeJournal

/-- CONTEXT_KILL (R384). -/
def killContext (ctx : Nat) (s : State) : State := s.kill ctx

/-- Nothing that a context launched is left, taken or waiting (R383). -/
def State.allRetired (s : State) (ctx : Nat) (c : Context) : Bool :=
  !(s.grids.any fun p => p.2.ctx == ctx) && !(s.cores.any fun p => p.2.pq.any (·.ctx == ctx)) &&
  !(c.saved.any fun x => !x.pq.isEmpty) && c.queues.all fun q => q.copy || s.settledCount q == 0

/-- Copies, packets and exchanges that still run for a context, which a retirement does not drop. -/
def State.unitsBusy (s : State) (ctx : Nat) (c : Context) : Bool :=
  s.work.copies.any (·.ctx == ctx) || s.work.ports.any (·.ctx == ctx) || s.work.packets.any (·.ctx == ctx) ||
  s.work.exchanges.any (·.ctx == ctx) || c.queues.any fun q => q.copy && !q.faulted && s.settledCount q != 0

/-- CONTEXT_DESTROY (R383): a retirement, once nothing of the context runs, when every grid has retired; else a kill. -/
def destroyContext (ctx : Nat) (s : State) : State :=
  match s.ctx ctx with
  | none => s
  | some c =>
    if !s.allRetired ctx c then s.kill ctx
    else if s.unitsBusy ctx c then s
    else ((s.flushCtx ctx).next fun s => .made (((s.stopIssue ctx).eraseContext ctx).revoke ctx)).after s

/-! ### The meanings, one for each instruction and event -/

/-- PREEMPT_REQUEST (R363). -/
def execPreemptRequest (ctx : Nat) (s : State) : Host.Outcome State Fault Refusal :=
  .next (preempt ctx s)

/-- CONTEXT_SAVE (R364). -/
def execContextSave (ctx : Nat) (s : State) : Host.Outcome State Fault Refusal :=
  .next (saveContext ctx s)

/-- CONTEXT_RESTORE (R364). -/
def execContextRestore (ctx : Nat) (s : State) : Host.Outcome State Fault Refusal :=
  .next (restoreContext ctx s)

/-- CONTEXT_DESTROY (R383). -/
def execContextDestroy (ctx : Nat) (s : State) : Host.Outcome State Fault Refusal :=
  .next (destroyContext ctx s)

/-- CONTEXT_KILL (R384). -/
def execContextKill (ctx : Nat) (s : State) : Host.Outcome State Fault Refusal :=
  .next (killContext ctx s)

end Sys2Proof.Machine
end

