-- ==== Sys2Proof/Machine/Device.lean ====
section
/-! DEFINITION. The device's own events: errors (R387-R389), power-on and reset (R372, R386, R391), provisioning and access
tables (R221, R391), format windows (R224), the core clock (R392), partitions (R11) and reuse histograms (R370). -/

namespace Sys2Proof.Machine

/-! ### Errors (R387-R389) -/

/-- An event's fields are as the journal's tables give them (R386): a syndrome class that is not reserved, and for its KIND the
unit's type and the form of LOC. -/
def errorOk (r : ErrorReq) : Bool :=
  let loc := r.loc.toNat
  let unit := r.unit.toNat / 8 % 32
  [1, 2, 3, 4, 15].contains r.synd.toNat &&
  match r.kind.toNat with
  | 1 => unit == 1 && loc % 32 == 0 && loc < 2 ^ 51
  | 2 => unit == 2 && loc % 128 == 0 && loc < 2 ^ 51
  | 3 => unit == 3 && loc % 128 == 0 && loc < Config.spadBytes
  | 4 => unit == 3 && loc < 2 ^ 20
  | 5 => unit == 3 && loc < 2 ^ 14
  | 6 => unit == 3 || unit == 4
  | 7 => unit == 5 && loc < 8
  | 8 => unit == 6
  | _ => false

/-- The 32-byte words of M that an uncorrectable error lies in (R389 and Table 3): the word of an HBM array, the line of an L2
slice. -/
def errorWords (r : ErrorReq) : List Nat :=
  match r.kind.toNat with
  | 1 => [r.loc.toNat / 32]
  | 2 => (List.range 4).map (r.loc.toNat / 32 + ·)
  | _ => []

/-- ERROR_EVENT (R386-R389): the event enters the journal. An uncorrectable error in M stays there until whole words are written
over it, and an access that would deliver its value kills the context; one in a core or a link, whose places the model does
not hold, kills the context whose access it reaches, which the event names (log 78). -/
def errorMove (r : ErrorReq) (s : State) : State :=
  if !errorOk r then s
  else
    let s := s.enterEvent r
    if r.synd != 15 then s
    else if !(errorWords r).isEmpty then { s with dev := { s.dev with poison := keyUnion s.dev.poison (errorWords r) } }
    else match r.victim with
      | some c => s.kill c
      | none => s

/-- JOURNAL_ENTRY_TIMEOUT (R387): the open entry is written 2^20 cycles after its TIME. -/
def journalTimeout (s : State) : State :=
  match s.dev.journal.opened with
  | some e => if e.time + 2 ^ 20 ≤ s.dev.clk then s.writeJournal else s
  | none => s

/-! ### Power and reset (R99, R100, R188, R372, R386, R390, R391) -/

/-- POWER_ON (R386, R390): everything is as at reset but the provisioning state, which the module keeps (R391). The reset
line and the provisioning strap are as the module finds them. -/
def power (held strap : Bool) (s : State) : State :=
  { State.reset with
    dev := { State.reset.dev with prov := s.dev.prov, inReset := held, strap := strap }
    sched := { s.sched with picks := [], cur := none } }

/-- DEVICE_RESET (R100, R188, R372): CLK is 0, every page is in device bias, every slice is zero, nothing runs. Memory with its
errors, the journal (R388) and the provisioning state stay: the open entry, whose time ends here, is written (R387). The
reset line is held or released. -/
def resetDevice (held : Bool) (s : State) : State :=
  let s := s.writeJournal
  { State.reset with
    mem := s.mem
    dev := { State.reset.dev with
      prov := s.dev.prov, journal := s.dev.journal, poison := s.dev.poison, inReset := held, strap := s.dev.strap, powered := s.dev.powered }
    sched := { s.sched with picks := [], cur := none } }

/-- PROVISIONING_WRITE (R99, R391): the module's state only in reset, with the strap asserted, and at most 4 of the 18 ports carry
the host personality; the firmware sets its cap at any time. No cap passes the fuse. -/
def provision (r : ProvReq) (s : State) : State :=
  match r with
  | .module p =>
    if s.dev.inReset && s.dev.strap && decide (p.ports.length ≤ 4) && p.ports.all (fun x => x.1 < 18) then
      { s with dev := { s.dev with prov := { p with powerCap := min p.powerCap Config.powerCeiling } } }
    else s
  | .firmware cap => { s with dev := { s.dev with prov := { s.dev.prov with powerCap := min cap Config.powerCeiling } } }

/-- CLOCK_LOWER and CLOCK_RESTORE (R392): the one clock of every core. -/
def setClock (full : Bool) (s : State) : State := { s with dev := { s.dev with fullClock := full } }

/-! ### Access tables (R70, R221, R391) -/

/-- The windows that loaded images give a master at a target (R70). -/
def State.imageWindows (s : State) (master : Nat) (t : Target) : List Window :=
  match s.ctx master with
  | some c => (c.images.filter fun i => i.held.contains (targetCode t)).flatMap (·.windows)
  | none => []

end Sys2Proof.Machine

namespace Sys2Proof
open Machine

/-- A window is a 4 KiB-aligned range with some right (R221). -/
def Window.ok (w : Window) : Bool := w.lo % 4096 == 0 && w.hi % 4096 == 0 && decide (w.lo < w.hi) && (w.read || w.write)

/-- A window lies inside another, with no right more (R391). -/
def Window.inside (w x : Window) : Bool := decide (x.lo ≤ w.lo) && decide (w.hi ≤ x.hi) && (!w.read || x.read) && (!w.write || x.write)

end Sys2Proof

namespace Sys2Proof.Machine

/-- The windows of images stand no longer at a target: the firmware has removed them. -/
def State.unholdImages (s : State) (master : Nat) (t : Target) : State :=
  s.modCtx master fun c => { c with images := c.images.map fun i => { i with held := i.held.filter (· != targetCode t) } }

/-- ACCESS_TABLE_WRITE (R221, R388, R391): a master's windows at one target; those of its images stay when the runtime writes.
The firmware grants nothing outside the provisioned set, and narrows what stands; no window grants write on the journal. -/
def writeAccess (r : AccessReq) (s : State) : State :=
  let provisioned := match s.dev.prov.windows.find? fun p => p.1 == r.master with | some p => p.2 | none => []
  let l := r.windows ++ (if r.byFirmware then [] else s.imageWindows r.master r.target)
  let ok := r.windows.all (·.ok) && decide (l.length ≤ Config.masterWindows) &&
    r.windows.all (fun w => !(w.write && inJournal w.lo (w.hi - w.lo))) &&
    (!r.byFirmware || r.windows.all fun w => (provisioned ++ smGet [] s.dev.access (tableKey r.master r.target)).any fun x => w.inside x)
  if ok then
    let s := if r.byFirmware then s.unholdImages r.master r.target else s
    { s with dev := { s.dev with access := smPut [] s.dev.access (tableKey r.master r.target) l } }
  else s

/-! ### Format windows (R224) -/

/-- Bytes of a window's alias range. -/
def FmtWindow.aliasBytes (w : FmtWindow) : Nat := w.nsize / (w.narrow.width / 8) * (w.wide.width / 8)

/-- Two windows overlap, in their narrow ranges or in their alias ranges (R224). -/
def FmtWindow.overlaps (a b : FmtWindow) : Bool :=
  (decide (a.nbase < b.nbase + b.nsize) && decide (b.nbase < a.nbase + a.nsize)) ||
  (a.fmt != 0 && b.fmt != 0 && decide (a.xbase < b.xbase + b.aliasBytes) && decide (b.xbase < a.xbase + a.aliasBytes))

/-- FORMAT_WINDOW_WRITE (R224): register `index` of a stack, unless its window would overlap another. -/
def writeFormat (stack index : Nat) (words : List DWord) (s : State) : State :=
  let key := 32 * stack + index
  let w := FmtWindow.ofWords words
  let others := ({ s with dev := { s.dev with fmt := smErase s.dev.fmt key } } : State).fmtWindows
  let live := w.nsize != 0 && decide (w.fmt ≤ 4) && (w.fmt != 4 || w.exp)
  if 8 ≤ stack || 32 ≤ index || words.length != 5 || (live && others.any w.overlaps) then s
  else { s with dev := { s.dev with fmt := smSet s.dev.fmt key words } }

/-! ### Partitions (R11) -/

/-- A context is in the way of a change to its partition: it has something placed on its cores. -/
def State.placed (s : State) (ctx : Nat) : Bool :=
  s.grids.any (fun p => p.2.ctx == ctx) || s.teams.any (·.ctx == ctx) || s.groups.any fun p => p.2.id.ctx == ctx

/-- PARTITION_ASSIGN (R11): whole dies become a partition, which holds these contexts. A partition that loses a die is
dissolved, so none of its other contexts may be left. -/
def assignPartition (dies ctxs : List Nat) (s : State) : State :=
  let hit := fun (p : List Nat) => p.any dies.contains
  let lost := (s.dev.partitions.zipIdx.filter fun x => hit x.1).map (·.2)
  let ok := dies.Nodup && dies.all (· < 8) && [1, 2, 4, 8].contains dies.length && !(ctxs.any s.placed) &&
    s.ctxs.all fun c => !(lost.contains c.2.part) || ctxs.contains c.1
  if ok then
    let n := s.dev.partitions.length
    let parts := s.dev.partitions.map (fun p => if hit p then [] else p) ++ [dies]
    let s := { s with dev := { s.dev with
      partitions := parts, partOf := ctxs.foldl (fun m c => smSet m c n) s.dev.partOf } }
    ctxs.foldl (fun s c => s.modCtx c fun x => { x with part := n }) s
  else s

/-! ### Reuse histograms (R370) -/

/-- REUSE_SAMPLE (R370): a line that a core accesses is sampled into one of its 32 tag registers; from then on the core's
accesses move the tag (`State.noteLine`). -/
def sampleReuse (core line : Nat) (s : State) : State :=
  let tags := (s.core core).reuse
  if tags.length < Config.tagRegisters && !tags.any (·.line == line) then
    s.modCore core fun k => { k with reuse := k.reuse ++ [⟨line, []⟩] }
  else s

/-! ### The meanings, one for each instruction and event -/

/-- ERROR_EVENT (R386-R389). -/
def execErrorEvent (req : ErrorReq) (s : State) : Host.Outcome State Fault Refusal :=
  .next (errorMove req s)

/-- JOURNAL_ENTRY_TIMEOUT (R387). -/
def execJournalEntryTimeout (s : State) : Host.Outcome State Fault Refusal :=
  .next (journalTimeout s)

/-- POWER_ON (R386). -/
def execPowerOn (held : Bool) (strap : Bool) (s : State) : Host.Outcome State Fault Refusal :=
  .next (power held strap s)

/-- DEVICE_RESET (R100, R188, R372). -/
def execDeviceReset (held : Bool) (s : State) : Host.Outcome State Fault Refusal :=
  .next (resetDevice held s)

/-- PROVISIONING_WRITE (R391). -/
def execProvisioningWrite (p : ProvReq) (s : State) : Host.Outcome State Fault Refusal :=
  .next (provision p s)

/-- CLOCK_LOWER (R392). -/
def execClockLower (s : State) : Host.Outcome State Fault Refusal :=
  .next (setClock false s)

/-- CLOCK_RESTORE (R392). -/
def execClockRestore (s : State) : Host.Outcome State Fault Refusal :=
  .next (setClock true s)

/-- ACCESS_TABLE_WRITE (R221, R391). -/
def execAccessTableWrite (req : AccessReq) (s : State) : Host.Outcome State Fault Refusal :=
  .next (writeAccess req s)

/-- FORMAT_WINDOW_WRITE (R224). -/
def execFormatWindowWrite (stack : Nat) (index : Nat) (words : List DWord) (s : State) : Host.Outcome State Fault Refusal :=
  .next (writeFormat stack index words s)

/-- PARTITION_ASSIGN (R11). -/
def execPartitionAssign (dies : List Nat) (ctxs : List Nat) (s : State) : Host.Outcome State Fault Refusal :=
  .next (assignPartition dies ctxs s)

/-- REUSE_SAMPLE (R370). -/
def execReuseSample (req : ReuseReq) (s : State) : Host.Outcome State Fault Refusal :=
  .next (sampleReuse req.core req.line s)

end Sys2Proof.Machine
end

