-- ==== Sys2Proof/Machine/Runtime.lean ====
section
/-! DEFINITION. What the runtime and a debugger do: contexts (R96, R97, R133, R215, R340), queues (R102, R118, R233),
reservations (R110), domains (R333), watchpoints (R361), halts and the program buffer (R366, R367), profiling (R369); and a
trap's entry when it waited for a handler window (R354, R355). -/

namespace Sys2Proof.Machine

/-- LONG_LATENCY_WRITEBACK (R146, R356): a producer that has every value writes back. -/
def longBack (producer : Nat) (s : State) : State := s.writeBack producer

/-! ### Traps that wait (R355) -/

/-- TRAP_ENTRY (R354, R355, R358): the trap of a group enters the handler, if a window is free. -/
def enterTrap (gid : Nat) (s : State) : State :=
  match s.group gid with
  | some g => if g.place == .slot then s.enterHandler gid else s
  | none => s

/-- HANDLER_WINDOW_FREE (R355): the oldest group of a core whose trap waits takes a free window. -/
def freeWindow (core : Nat) (s : State) : State :=
  match oldestGroup (s.groups.filter fun p => p.2.id.core == core && p.2.pending.isSome && p.2.place == .slot) with
  | some p => s.enterHandler p.1
  | none => s

/-! ### Contexts -/

/-- A new context (R96, R97, R133, R215): counters zero, nothing registered. -/
def Context.start (r : CtxReq) (part : Nat) : Context :=
  { part := part, srKey := r.srKey, root := r.root, twc := [], swaptmo := r.swaptmo, swapRoom := r.swapRoom
    swapArea := r.swapArea, saveArea := r.saveArea, watchdog := r.watchdog, cstat := 0, flushed := [], resSlots := 0, resKib := 0, queues := [], completion := none, images := [], tables := []
    buckets := [], domain := none, watch := [], debugger := none, profile := none, samples := [], run := .running
    saved := [], savedAt := 0 }

/-! ### Queues (R102, R118, R233) -/

/-- RING and LOG2SIZE of a header, as they are read once at registration; `none` when the header breaks its table. -/
def State.readHeader (s : State) (header : Nat) : Option (DWord × Nat) :=
  let ring := s.phys8 (header + 0x18)
  let log2 := (s.readByte (header + 0x20)).toNat
  if header % 64 == 0 && ring % 64 == 0 && decide (4 ≤ log2) && decide (log2 ≤ 16) then some (BitVec.ofNat 64 ring, log2) else none

/-- The runtime's access to a header, as a target checks it (R221). -/
def State.runtimeMay (s : State) (pa n : Nat) (k : Kind) : Bool := s.allowed .slice Config.runtimeId pa n k

/-- Register a launch or copy queue: QNUM is written, and a copy queue's fault fields start at zero. The runtime's write is
refused where its own windows do not reach (R222). -/
def State.addQueue (s : State) (ctx num header : Nat) (copy : Bool) (cluster : Nat) : State :=
  if s.blocked header 64 true || 64 ≤ num then s
  else if !s.runtimeMay header 64 .both then s.refuse .slice Config.runtimeId header .both
  else
    let s' := s.settle header 64
    match s'.readHeader header with
    | none => s
    | some (ring, log2) =>
      let s' := s'.writeM (header + 0x21) ([BitVec.ofNat 8 num] ++ if copy then List.replicate 30 0 else [])
      let others := fun (q : Queue) => !(q.num == num && q.copy == copy)
      let q : Queue := ⟨num, cluster, copy, header, ring, log2, false⟩
      s'.modCtx ctx fun c => { c with queues := c.queues.filter others ++ [q] }

/-- Copy queues that one engine serves, but for one that is registered again. -/
def State.engineQueues (s : State) (part cluster ctx num : Nat) : Nat :=
  s.ctxs.foldl (fun a p => a + if p.2.part == part then
    (p.2.queues.filter fun q => q.copy && q.cluster == cluster && !(p.1 == ctx && q.num == num)).length else 0) 0

/-- The context has a launch pending (R109): published, or appended, and its first group has not issued. -/
def State.launchPending (s : State) (ctx : Nat) (c : Context) : Bool :=
  s.grids.any (fun p => p.2.ctx == ctx && !p.2.started) || s.cores.any (fun p => p.2.pq.any (·.ctx == ctx)) ||
  c.saved.any (fun x => !x.pq.isEmpty) || c.queues.any fun q => !q.copy && s.settledCount q != 0

/-- A completion queue as it is registered: its header is read once (R118), by the runtime, whose windows the target checks (R221);
no queue while that must wait, is refused, or finds no header. -/
def State.completionAt (s : State) (header : Nat) : Option Queue × State :=
  if s.blocked header 64 false then (none, s)
  else if !s.runtimeMay header 64 .read then (none, s.refuse .slice Config.runtimeId header .read)
  else
    let s' := s.settle header 64
    match s'.readHeader header with
    | some x => (some ⟨0, 0, false, header, x.1, x.2, false⟩, s')
    | none => (none, s)

/-- QUEUE_REGISTER (R102, R118, R233). -/
def registerQueue (r : QueueReq) (s : State) : State :=
  match r with
  | .launch ctx num header => if (s.ctx ctx).isSome then s.addQueue ctx num header false 0 else s
  | .copy ctx cluster num header =>
    match s.ctx ctx with
    | some c =>
      if cluster < 24 && decide (s.engineQueues c.part cluster ctx num < Config.queuesPerOwner) then
        s.addQueue ctx num header true cluster
      else s
    | none => s
  | .completion ctx header =>
    match s.ctx ctx with
    | some c =>
      if s.launchPending ctx c then s
      else match s.completionAt header with
        | (some q, s) => s.modCtx ctx fun c => { c with completion := some q }
        | (none, s) => s
    | none => s

/-! ### The creation of a context -/

/-- An area that the runtime gives the machine lies in device memory and outside the journal (R388). -/
def areaOk (a : Area) : Bool := a.base + a.size ≤ 2 ^ 51 && !inJournal a.base a.size

/-- CONTEXT_CREATE (R96, R97, R118, R133, R135, R215, R340, R364): ids have 12 bits, a root is 4 KiB aligned, a watchdog lasts 1 ms
to 60 s, and the completion queue is registered. -/
def createContext (r : CtxReq) (s : State) : State :=
  let part := smGet 0 s.dev.partOf r.id
  if s.awake && decide (r.id < 4096) && (s.ctx r.id).isNone && r.root % 4096 == 0 && decide (1250000 ≤ r.watchdog) &&
     decide (r.watchdog ≤ 75000000000) && !(s.dev.partitions.getD part []).isEmpty && areaOk r.swapArea && areaOk r.saveArea then
    match s.completionAt r.completion with
    | (some q, s) => { s with ctxs := smSet s.ctxs r.id { Context.start r part with completion := some q } }
    | (none, s) => s
  else s

/-! ### Reservations, domains and watchpoints -/

/-- RESERVATION_GRANT (R110): 1 to 8 slots on every logical core, each with a window of up to 16 KiB. -/
def grantReservation (ctx slots kib : Nat) (s : State) : State :=
  if 1 ≤ slots && decide (slots ≤ 8) && decide (kib ≤ 16) then
    s.modCtx ctx fun c => { c with resSlots := slots, resKib := kib }
  else s

/-- DOMAIN_JOIN (R333): at most one context of the device is in a domain, whose ranks number 1 to 1,024. -/
def joinDomain (ctx rank gx gy gz : Nat) (s : State) : State :=
  let n := gx * gy * gz
  if 1 ≤ n && decide (n ≤ 1024) && decide (rank < n) && !(s.ctxs.any fun p => p.1 != ctx && p.2.domain.isSome) then
    s.modCtx ctx fun c => { c with domain := some ⟨rank, gx, gy, gz⟩ }
  else s

end Sys2Proof.Machine

namespace Sys2Proof
open Machine

/-- A watchpoint's size is a power of two from 4 bytes to 2 MiB, to which its base is aligned; it has a kind (R361). -/
def Watchpoint.ok (w : Watchpoint) : Bool :=
  ((List.range 20).any fun i => w.size == 2 ^ (i + 2)) && w.base % w.size == 0 && (w.read || w.write)

end Sys2Proof

namespace Sys2Proof.Machine

/-- WATCHPOINT_SET (R361): one of a context's four watchpoints. -/
def setWatchpoint (ctx index : Nat) (w : Option Watchpoint) (s : State) : State :=
  if 4 ≤ index then s
  else match w with
    | none => s.modCtx ctx fun c => { c with watch := smErase c.watch index }
    | some x => if x.ok then s.modCtx ctx fun c => { c with watch := smSet c.watch index x } else s

/-! ### Debugging (R366, R367) -/

/-- DEBUGGER_ATTACH (R357, R366). -/
def attachDebugger (ctx : Nat) (haltOnTrap : Bool) (s : State) : State :=
  s.modCtx ctx fun c => { c with debugger := some haltOnTrap }

/-- DEBUG_HALT_REQUEST (R366): the group halts when its current batch next stands at a safe point, or at once if it does. -/
def requestHalt (gid : Nat) (s : State) : State :=
  match s.group gid with
  | some g =>
    if s.debugged g.id.ctx && !g.ended then (s.setGroup gid { g with haltReq := true }).haltNow gid else s
  | none => s

/-- The program buffer of a core holds instructions for a halted group (R367). -/
def State.bufferUsed (s : State) (core : Nat) : Bool :=
  s.groups.any fun p => p.2.id.core == core && p.2.place == .slot && p.2.halt.any fun h => !h.buffer.isEmpty

/-- PROGRAM_BUFFER_START (R367, R368): up to 16 instructions for a halted group, in the one buffer of its core; the debugger may
write DBGDATA before it starts them, or, with no instruction, DBGDATA alone, of any group of its context. -/
def startBuffer (gid : Nat) (words : List IWord96) (data : Option DWord) (s : State) : State :=
  match s.group gid with
  | some g =>
    if words.isEmpty then
      if s.debugged g.id.ctx then s.setGroup gid { g with stat := { g.stat with dbgdata := data.getD g.stat.dbgdata } } else s
    else match g.halt with
    | some h =>
      if g.place == .slot && !s.bufferUsed g.id.core && decide (words.length ≤ 16) then
        s.setGroup gid { g with
          halt := some { h with buffer := words, report := none }
          stat := { g.stat with dbgdata := data.getD g.stat.dbgdata } }
      else s
    | none => s
  | none => s

/-- DEBUG_RESUME (R367, R373): the halted instruction issues next; after `brk`, the next one does. -/
def resumeHalted (gid : Nat) (s : State) : State :=
  match s.group gid with
  | some g =>
    match g.halt, g.pc with
    | some h, some own =>
      if !h.buffer.isEmpty then s
      else if h.skip then
        s.setGroup gid (({ g with halt := none }.move (g.batch own) fun _ => own + 12).settle (s.rxendOf gid g))
      else s.setGroup gid { g with halt := none }
    | _, _ => s
  | none => s

/-! ### Profiling (R369) -/

/-- PROFILING_ENABLE (R369): an interval of 256 to 2^20 issues. -/
def enableProfiling (ctx interval : Nat) (s : State) : State :=
  if 256 ≤ interval && decide (interval ≤ 2 ^ 20) then s.modCtx ctx fun c => { c with profile := some interval } else s

/-- The 32 bytes of a profiling record (R369 Table 3). -/
def profileRecord (kernel distance ordinal : Nat) (m : ProfileMeasure) (lanes : Nat) : List Byte :=
  leOf 2 kernel ++ leOf 2 distance ++ leOf 4 ordinal ++
  (List.range 5).flatMap (fun i => leOf 2 (min 65535 (m.cycles.getD i 0))) ++
  leOf 1 m.level ++ leOf 1 m.block ++ leOf 2 lanes ++ List.replicate 10 0

/-- PROFILE_SAMPLE (R365, R369): the record of the instruction that the core's scheduler tagged first and that has none yet goes
to the runtime's buffer. With no safe point before it, the distance and the ordinal are free. -/
def sampleProfile (core : Nat) (m : ProfileMeasure) (s : State) : State :=
  match (s.core core).tagged with
  | [] => s
  | x :: rest =>
    let s := s.modCore core fun k => { k with tagged := rest }
    let add := fun (s : State) (d o : Nat) =>
      s.modCtx x.ctx fun c => { c with samples := c.samples ++ [profileRecord x.kernel d o m x.lanes] }
    match x.safept with
    | some p => add s ((x.pc - p.pc) / 12) p.ordinal
    | none =>
      let (a, s) := s.draw
      let (b, s) := s.draw
      add s (Config.freeValue a).toNat (Config.freeValue b).toNat

/-! ### The meanings, one for each instruction and event -/

/-- LONG_LATENCY_WRITEBACK (R146). -/
def execLongLatencyWriteback (producer : Nat) (s : State) : Host.Outcome State Fault Refusal :=
  .next (longBack producer s)

/-- TRAP_ENTRY (R354). -/
def execTrapEntry (group : Nat) (s : State) : Host.Outcome State Fault Refusal :=
  .next (enterTrap group s)

/-- HANDLER_WINDOW_FREE (R355). -/
def execHandlerWindowFree (core : Nat) (s : State) : Host.Outcome State Fault Refusal :=
  .next (freeWindow core s)

/-- CONTEXT_CREATE (R96, R97, R215). -/
def execContextCreate (req : CtxReq) (s : State) : Host.Outcome State Fault Refusal :=
  .next (createContext req s)

/-- QUEUE_REGISTER (R102, R118, R233). -/
def execQueueRegister (req : QueueReq) (s : State) : Host.Outcome State Fault Refusal :=
  .next (registerQueue req s)

/-- RESERVATION_GRANT (R110). -/
def execReservationGrant (ctx : Nat) (slots : Nat) (kib : Nat) (s : State) : Host.Outcome State Fault Refusal :=
  .next (grantReservation ctx slots kib s)

/-- DOMAIN_JOIN (R333). -/
def execDomainJoin (ctx : Nat) (rank : Nat) (gx : Nat) (gy : Nat) (gz : Nat) (s : State) : Host.Outcome State Fault Refusal :=
  .next (joinDomain ctx rank gx gy gz s)

/-- WATCHPOINT_SET (R361). -/
def execWatchpointSet (ctx : Nat) (index : Nat) (w : Option Watchpoint) (s : State) : Host.Outcome State Fault Refusal :=
  .next (setWatchpoint ctx index w s)

/-- DEBUGGER_ATTACH (R366). -/
def execDebuggerAttach (ctx : Nat) (haltOnTrap : Bool) (s : State) : Host.Outcome State Fault Refusal :=
  .next (attachDebugger ctx haltOnTrap s)

/-- DEBUG_HALT_REQUEST (R366). -/
def execDebugHaltRequest (group : Nat) (s : State) : Host.Outcome State Fault Refusal :=
  .next (requestHalt group s)

/-- PROGRAM_BUFFER_START (R367). -/
def execProgramBufferStart (group : Nat) (words : BufferReq) (s : State) :
    Host.Outcome State Fault Refusal :=
  .next (startBuffer group words.words words.data s)

/-- DEBUG_RESUME (R367). -/
def execDebugResume (group : Nat) (s : State) : Host.Outcome State Fault Refusal :=
  .next (resumeHalted group s)

/-- PROFILING_ENABLE (R369). -/
def execProfilingEnable (ctx : Nat) (interval : Nat) (s : State) : Host.Outcome State Fault Refusal :=
  .next (enableProfiling ctx interval s)

/-- PROFILE_SAMPLE (R369). -/
def execProfileSample (core : Nat) (m : ProfileMeasure) (s : State) : Host.Outcome State Fault Refusal :=
  .next (sampleProfile core m s)

end Sys2Proof.Machine
end

