-- ==== Sys2Proof/Machine/Image.lean ====
section
/-! DEFINITION. The loader (R59-R72): a linked Bropex Kernel Object is checked, placed in a context's address space and
registered; and unloading. -/

namespace Sys2Proof.Machine

/-! ### The file (R59, R60) -/

/-- One bit of CRC-32 (IEEE 802.3, reflected; log 22). -/
def crcBit (c : Word) : Word := if c.getLsbD 0 then (c >>> 1) ^^^ 0xEDB8_8320#32 else c >>> 1

/-- CRC-32 of some bytes. -/
def crc32 (l : List Byte) : Word :=
  ~~~(l.foldl (fun c b => (List.range 8).foldl (fun c _ => crcBit c) (c ^^^ b.setWidth 32)) 0xFFFF_FFFF#32)

/-- Some bytes of a list, zero beyond its end. -/
def slice (l : List Byte) (o n : Nat) : List Byte := (List.range n).map fun i => l.getD (o + i) 0

/-- A section entry (R60 Table 2), with whether its reserved fields are zero. -/
structure Sect where
  kind : Nat
  flags : Nat
  off : Nat
  size : Nat
  addr : Nat
  align : Nat
  entry : Nat
  link : Nat
  clean : Bool
  deriving DecidableEq, Repr

@[inherit_doc Sect] def Sect.ofBytes (b : List Byte) : Sect :=
  { kind := leField b 4 1, flags := leField b 5 1, off := leField b 8 8, size := leField b 0x10 8, addr := leField b 0x18 8
    align := leField b 0x20 4, entry := leField b 0x24 4, link := leField b 0x28 2
    clean := leField b 6 2 = 0 && (b.drop 0x2A).all (· = 0) && leField b 5 1 < 16 }

/-- A file as the loader reads it: its bytes and its sections. -/
structure Bko where
  file : List Byte
  sects : List Sect
  deriving DecidableEq, Repr

/-- A field of the file. -/
def Bko.u (x : Bko) (o n : Nat) : Nat := leVal (slice x.file o n)

/-- The sections of a file. -/
def Bko.ofFile (f : List Byte) : Bko :=
  let n := min (leVal (slice f 8 2)) 4096
  let t := leVal (slice f 0x10 8)
  ⟨f, (List.range n).map fun i => Sect.ofBytes (slice f (t + 48 * i) 48)⟩

/-- A section's bytes: a .bss has none in the file and is zero (R60). -/
def Bko.bytesOf (x : Bko) (s : Sect) : List Byte :=
  if s.kind = 4 then List.replicate s.size 0 else slice x.file s.off s.size

/-- The one section of a kind. -/
def Bko.ofKind (x : Bko) (k : Nat) : Option Sect := x.sects.find? (·.kind == k)

/-- The entries of the table of a kind. -/
def Bko.table (x : Bko) (k bytes : Nat) : List (List Byte) :=
  match x.ofKind k with
  | some s => let b := x.bytesOf s; (List.range (s.size / bytes)).map fun i => slice b (bytes * i) bytes
  | none => []

/-- Minimum alignment and entry size of a kind (R61 Table 3). -/
def kindShape (k : Nat) : Nat × Nat :=
  match k with
  | 1 => (64, 0) | 5 => (128, 128) | 6 => (8, 16) | 7 => (8, 72) | 8 => (8, 24) | 9 => (8, 8) | 10 => (64, 128)
  | 11 => (8, 16) | 12 => (8, 24) | 13 => (8, 24) | 14 => (1, 0) | 15 => (4, 0) | _ => (8, 0)

/-- A section that the loader places in memory (R61 Table 3). -/
def Sect.loaded (s : Sect) : Bool := 1 ≤ s.kind && s.kind ≤ 11

/-- W=1 and X=1 of a kind (R61 Table 3). -/
def Sect.writable (s : Sect) : Bool := s.kind = 3 || s.kind = 4 || s.kind = 10

@[inherit_doc Sect.writable] def Sect.isText (s : Sect) : Bool := s.kind = 1

/-! ### Kernel descriptors (R62) -/

/-- The fields of a descriptor that the checks read. -/
structure Desc where
  entry : Nat
  text : Nat
  width : Nat
  shape : Nat
  mode : Nat
  nroles : Nat
  threads : Nat
  cores : Nat
  nrings : Nat
  nbar : Nat
  spad : Nat
  trap : Nat
  len : Nat
  nregions : Nat
  nclaims : Nat
  roleBytes : List (List Byte)
  ringBytes : List (List Byte)
  clean : Bool
  deriving DecidableEq, Repr

@[inherit_doc Desc] def Desc.ofBytes (b : List Byte) : Desc :=
  { entry := leField b 0 4, text := leField b 4 2, width := leField b 6 1, shape := leField b 7 1, mode := leField b 8 1
    nroles := leField b 9 1, threads := leField b 0xA 2, cores := leField b 0xC 1, nrings := leField b 0xD 1
    nbar := leField b 0xE 1, spad := leField b 0x30 4, trap := leField b 0x34 4, len := leField b 0x38 4
    nregions := leField b 0x3C 2, nclaims := leField b 0x3E 2
    roleBytes := (List.range 4).map fun i => slice b (0x10 + 8 * i) 8
    ringBytes := (List.range 16).map fun i => slice b (0x40 + 4 * i) 4
    clean := leField b 0xF 1 = 0 }

/-- The descriptors of a file. -/
def Bko.descs (x : Bko) : List Desc := (x.table 5 128).map Desc.ofBytes

/-- A role entry (R62 Table 5). -/
def roleEntry (b : List Byte) : RoleEntry :=
  ⟨roleOf (leField b 0 1), leField b 1 1, leField b 2 2, leField b 4 2, leField b 6 2⟩

/-- The used role entries. -/
def Desc.roles (d : Desc) : List RoleEntry := (d.roleBytes.take d.nroles).map roleEntry

/-- A ring entry (R62 Table 6). -/
def ringEntry (b : List Byte) : RingEntry :=
  ⟨leField b 0 1 % 16, leField b 1 1, leField b 2 1, leField b 3 1 % 16 + 1, leField b 3 1 / 16 + 1⟩

/-- The used ring entries. -/
def Desc.rings (d : Desc) : List RingEntry := (d.ringBytes.take d.nrings).map ringEntry

/-- Groups of a team. -/
def Desc.groups (d : Desc) : Nat := d.roles.foldl (fun a r => a + r.groups) 0

/-- The text section of a descriptor. -/
def Bko.textOf (x : Bko) (d : Desc) : Option Sect := match x.sects[d.text]? with
  | some s => if s.isText then some s else none
  | none => none

/-- The entries of a table that name a kernel in the two bytes at `o`. -/
def Bko.mine (x : Bko) (k bytes o kernel : Nat) : List (List Byte) :=
  (x.table k bytes).filter fun e => leField e o 2 == kernel

/-- No two elements of a list are related. -/
def apart {α : Type} (r : α → α → Bool) : List α → Bool
  | [] => true
  | a :: l => !(l.any (r a)) && apart r l

/-! ### The checks (R70 Table 12) -/

/-- 0x01 BADMAGIC. -/
def Bko.badMagic (x : Bko) : Bool := x.u 0 4 != 0x1A4F_4B42 || x.u 4 2 != 1

/-- 0x02 BADSUM. -/
def Bko.badSum (x : Bko) : Bool :=
  x.u 0x20 8 != x.file.length || x.u 0x30 4 != (crc32 (x.file.take 0x30 ++ [0, 0, 0, 0] ++ x.file.drop 0x34)).toNat

/-- A section lies inside the file and is aligned by its ADDR, with the entry size of its kind; one of .bss has file offset 0 (log 79). -/
def Bko.sectOk (x : Bko) (s : Sect) : Bool :=
  let (al, es) := kindShape s.kind
  1 ≤ s.kind && s.kind ≤ 15 && s.clean && s.entry == es && (es == 0 || s.size % es == 0) &&
  (if s.kind = 4 then s.off == 0 else decide (s.off + s.size ≤ x.file.length)) &&
  ((List.range 32).any fun i => s.align == 2 ^ i) && decide (al ≤ s.align) && s.addr % s.align == 0

/-- The reserved fields of the tables' entries are zero. -/
def Bko.tablesClean (x : Bko) : Bool :=
  x.descs.all (·.clean) && (x.descs.all fun d => d.ringBytes.all fun b => leField b 0 1 / 16 % 8 = 0) &&
  ((x.table 6 16).all fun e => leField e 6 2 = 0) && ((x.table 7 72).all fun e => leField e 0x42 1 < 16 && (e.drop 0x43).all (· = 0)) &&
  ((x.table 8 24).all fun e => leField e 2 2 = 0) && ((x.table 11 16).all fun e => leField e 6 2 = 0) &&
  ((x.table 12 24).all fun e => leField e 9 3 = 0)

/-- 0x03 BADSECT, which also refuses a header and a section table that are not laid out as R60 gives (log 79). -/
def Bko.badSect (x : Bko) : Bool :=
  let n := x.u 8 2
  let t := x.u 0x10 8
  x.u 0xC 4 != 1 || x.u 0x2C 4 != 0 || (slice x.file 0x34 12).any (· != 0) || x.u 0xA 2 != 48 || n < 2 || 4096 < n ||
  t % 8 != 0 || x.file.length < t + 48 * n || (slice x.file t 48).any (· != 0) ||
  !((x.sects.drop 1).all x.sectOk) ||
  ((List.range 11).any fun i => 1 < (x.sects.filter (·.kind == i + 5)).length) || !x.tablesClean

/-- The 8-byte field that a relocation patches lies in a section that has bytes and is no text (log 79). -/
def Bko.relocField (x : Bko) (r : List Byte) : Option (Sect × Nat) :=
  match x.ofKind 12 with
  | none => none
  | some rs =>
    match x.sects[rs.link]? with
    | some s =>
      let o := leField r 0 8
      if s.isText || s.kind = 4 || s.kind = 0 || s.size < o + 8 || (s.addr + o) % 8 != 0 then none else some (s, o)
    | none => none

/-- 0x04 UNRESOLVED: only ABS64 and SHAPE entries are left, and each passes its check (R67; log 79). -/
def Bko.unresolved (x : Bko) : Bool :=
  (x.table 12 24).any fun r =>
    match leField r 8 1, x.relocField r with
    | 1, some _ => false
    | 5, some (s, o) =>
      let v := leVal (slice (x.bytesOf s) o 8)
      (match x.ofKind 10 with
       | some sh => !(sh.addr ≤ v && v + 128 ≤ sh.addr + sh.size && (v - sh.addr) % 128 == 0)
       | none => true)
    | _, _ => true

/-- 0x05 BADVSHAPE. -/
def Bko.badShape (x : Bko) : Bool := x.u 0x28 4 != 1 || x.descs.any (·.shape != 1)

/-- 0x06 BADTEAM. -/
def Desc.badTeam (d : Desc) : Bool :=
  !([16, 32, 64].contains d.width) || d.threads = 0 || 2048 < d.threads || d.cores = 0 || 4 < d.cores || 1 < d.mode || 64 < d.nbar ||
  d.threads != d.width * d.groups || 64 * d.cores < d.groups

/-- 0x07 BADROLE, which also refuses more than four roles (log 79). -/
def Desc.badRole (d : Desc) : Bool :=
  let used := d.roleBytes.take d.nroles
  d.nroles = 0 || 4 < d.nroles ||
  (used.any (fun b => leField b 0 1 = 0) && d.nroles != 1) || !((used.map fun b => leField b 0 1).Nodup) ||
  used.any (fun b => 3 < leField b 0 1 || 16 < leField b 1 1 || leField b 2 2 = 0 || 64 * d.cores < leField b 2 2 ||
    leField b 4 2 = 0 || 256 < leField b 4 2 || 256 < leField b 6 2) ||
  (d.roleBytes.drop d.nroles).any fun b => b.any (· != 0)

/-- The kernel that a descriptor gives, placed at a base. -/
def Bko.kernel (x : Bko) (base i : Nat) (d : Desc) : Kernel :=
  let sec := base + (match x.textOf d with | some s => s.addr | none => 0)
  let kd := match x.ofKind 5 with | some s => s.addr | none => 0
  let at_ := fun (n : Nat) => sec + 12 * n
  { addr := base + kd + 128 * i, index := i, secLo := sec, textLo := at_ d.entry, textLen := 12 * d.len
    trapAt := if d.trap = 0xFFFF_FFFF then none else some (at_ d.trap)
    width := d.width, det := d.mode = 1, threads := d.threads, cores := d.cores, nbar := d.nbar, spad := d.spad
    roles := d.roles, rings := d.rings
    regions := (x.mine 8 24 0 i).map fun e => ⟨at_ (leField e 4 4), at_ (leField e 8 4)⟩
    claims := (x.mine 9 8 4 i).map fun e => ⟨leField e 6 1, BitVec.ofNat 8 (leField e 7 1)⟩
    classes := (x.table 11 16).map fun e => ⟨leField e 4 1, BitVec.ofNat 32 (leField e 8 4), BitVec.ofNat 32 (leField e 12 4)⟩
    safepts := (x.mine 6 16 4 i).map fun e => ⟨at_ (leField e 8 4), leField e 0 4⟩ }

/-- 0x08 NOFIT: the v windows of a core by the distribution of R121, and SPAD. -/
def Bko.noFit (x : Bko) (i : Nat) (d : Desc) : Bool :=
  let k := x.kernel 0 i d
  (List.range d.cores).any (fun j => Config.windowUnits < (k.windowsOn j).foldl (· + ·) 0) ||
  d.cores * Config.spadBytes < d.spad || d.spad % 128 != 0

/-- 0x09 BADTEXT, which also refuses a text index that is no section of kind 1 (log 79). -/
def Bko.badText (x : Bko) : Bool :=
  x.descs.any (fun d =>
    (match x.textOf d with | some s => s.size < 12 * (d.entry + d.len) | none => true) ||
    (d.trap != 0xFFFF_FFFF && !(d.entry ≤ d.trap && d.trap < d.entry + d.len))) ||
  !apart (fun (a b : Desc) => a.text == b.text && decide (a.entry < b.entry + b.len) && decide (b.entry < a.entry + a.len)) x.descs

/-- 0x0A BADRING, which also refuses more than sixteen rings (log 79). -/
def Desc.badRing (d : Desc) : Bool :=
  16 < d.nrings || !apart (fun (a b : RingEntry) => a.sg == b.sg ||
    (decide (a.first < b.first + b.count) && decide (b.first < a.first + a.count))) d.rings ||
  (d.ringBytes.take d.nrings).any (fun b => leField b 0 1 < 128) ||
  d.rings.any fun r => r.count = 0 || 16 < r.count || 256 < r.first + r.count || r.max < r.min || r.count < r.max

/-- STOP of an instruction word (R29, R36). -/
def stopBit (w : IWord96) : Bool := if w.extractLsb' 93 3 = 5 then w.getLsbD 16 else w.getLsbD 38

/-- The words of a descriptor's text, with their indices in its section. -/
def Bko.wordsOf (x : Bko) (d : Desc) : List (Nat × IWord96) :=
  match x.textOf d with
  | some s =>
    let b := x.bytesOf s
    (List.range d.len).map fun i => (d.entry + i, BitVec.ofNat 96 (leNat (slice b (12 * (d.entry + i)) 12)))
  | none => []

/-- A live map names a register beyond every role's budget (R64 Table 7). -/
def Desc.badLive (d : Desc) (m : List Byte) : Bool :=
  let top := fun (f : RoleEntry → Nat) => d.roles.foldl (fun a r => max a (f r)) 0
  let v := leField m 0 0x20
  let s := leField m 0x20 0x20
  let o := leField m 0x40 2
  2 ^ top (·.v) ≤ v || 2 ^ top (·.s) ≤ s || 2 ^ top (·.o) ≤ o

/-- 0x0B BADSAFEPT: one entry for each instruction with STOP, with the ordinals 0, 1, 2 … in order, the entries of a kernel
together (logs 28 and 79). -/
def Bko.badSafept (x : Bko) : Bool :=
  ((x.table 6 16).any fun e => x.descs.length ≤ leField e 4 2) ||
  x.descs.zipIdx.any fun p =>
    let mine := (x.mine 6 16 4 p.2)
    let stops := ((x.wordsOf p.1).filter fun w => stopBit w.2).map (·.1)
    let maps := match x.ofKind 7 with | some s => s.size | none => 0
    mine.length != stops.length ||
    stops.zipIdx.any (fun q => !(mine.any fun e => leField e 0 4 == q.2 && leField e 8 4 == q.1)) ||
    mine.any fun e =>
      let m := leField e 0xC 4
      m % 72 != 0 || maps < m + 72 || (match x.ofKind 7 with | some s => p.1.badLive (slice (x.bytesOf s) m 72) | none => true)

/-- A kernel's entries in a table follow one another (R65; log 79), and their number is as the descriptor says. -/
def Bko.badCount (x : Bko) (k bytes o i n : Nat) : Bool :=
  let l := (x.table k bytes).map fun e => leField e o 2
  (l.filter (· == i)).length != n || ((l.dropWhile (· != i)).take n).any (· != i)

/-- 0x0C BADREGION; entries apart, or of no kernel, count for none, a body that ends before its start is bad, and an empty one inside
another overlaps it (log 79). -/
def Bko.badRegion (x : Bko) : Bool :=
  ((x.table 8 24).any fun e => x.descs.length ≤ leField e 0 2) ||
  x.descs.zipIdx.any fun p =>
    let l := (x.mine 8 24 0 p.2).map fun e => (leField e 4 4, leField e 8 4)
    x.badCount 8 24 0 p.2 p.1.nregions ||
    l.any (fun b => b.2 < b.1 || b.1 < p.1.entry || p.1.entry + p.1.len < b.2) ||
    !apart (fun (a b : Nat × Nat) => decide (a.1 < b.2) && decide (b.1 < a.2)) l

/-- 0x0D BADCLAIM; entries apart, or of no kernel, count for none (log 79). -/
def Bko.badClaim (x : Bko) : Bool :=
  ((x.table 9 8).any fun e => leField e 6 1 = 0 || 8 < leField e 6 1 || 2 ^ leField e 6 1 ≤ leField e 7 1 || x.descs.length ≤ leField e 4 2) ||
  x.descs.zipIdx.any fun p => x.badCount 9 8 4 p.2 p.1.nclaims

/-- 0x0E BADSETCLS. -/
def Bko.badSetcls (x : Bko) : Bool := (x.table 11 16).any fun e => leField e 4 1 = 0 || 20 < leField e 4 1 || leField e 5 1 != 3

/-- The first check that fails decides; 0 when all pass (R70). -/
def Bko.check (x : Bko) : Nat :=
  if x.badMagic then 1 else if x.badSum then 2 else if x.badSect then 3 else if x.unresolved then 4
  else if x.badShape then 5 else if x.descs.any (·.badTeam) then 6 else if x.descs.any (·.badRole) then 7
  else if x.descs.zipIdx.any (fun p => x.noFit p.2 p.1) then 8 else if x.badText then 9
  else if x.descs.any (·.badRing) then 0xA else if x.badSafept then 0xB else if x.badRegion then 0xC
  else if x.badClaim then 0xD else if x.badSetcls then 0xE else 0

/-! ### Placing (R61, R67, R69, R70) -/

/-- A section's bytes with the base added to its ABS64 and SHAPE fields. -/
def Bko.relocated (x : Bko) (base : Nat) (s : Sect) : List Byte :=
  (x.table 12 24).foldl (fun b r => match x.relocField r with
    | some (t, o) => if t == s then b.take o ++ leOf 8 ((leVal (slice b o 8) + base) % 2 ^ 64) ++ b.drop (o + 8) else b
    | none => b) (x.bytesOf s)

/-- The loaded sections. -/
def Bko.loaded (x : Bko) : List Sect := x.sects.filter (·.loaded)

/-- The pages of the image that a loaded section touches, with X and W for each. -/
def Bko.pages (x : Bko) : List (Nat × Bool × Bool) :=
  let of := fun (s : Sect) => if s.size = 0 then [] else (List.range ((s.addr + s.size - 1) / 4096 + 1 - s.addr / 4096)).map (s.addr / 4096 + ·)
  (keyUnion [] (x.loaded.flatMap of)).map fun p =>
    let here := x.loaded.filter fun s => (of s).contains p
    (p, here.any (·.isText), here.any (·.writable))

/-- A write of the runtime (R221): its targets check its own id, and refuse it where its windows do not reach (R222, R388). -/
def State.runtimeWrite (s : State) (pa : Nat) (b : List Byte) : State :=
  if s.runtimeMay pa b.length .write then s.performWrite pa b else s.refuse .slice Config.runtimeId pa .write

/-- What the runtime did in several accesses stands when none of them was refused; else the refusals alone are left. -/
def State.unlessRefused (s s' : State) : State :=
  if s'.dev.refusals.length = s.dev.refusals.length then s' else { s with dev := { s.dev with refusals := s'.dev.refusals } }

/-- A pool of frames for new tables. -/
structure Pool where
  s : State
  next : Nat

/-- The table below an entry, made new from the pool when there is none. -/
def Pool.below (p : Pool) (ea : Nat) : Nat × Pool :=
  let e := p.s.phys8 ea
  if e % 2 = 1 then (e / 4096 % 2 ^ 40 * 4096, p)
  else
    let s := p.s.runtimeWrite p.next (List.replicate 4096 0)
    (p.next, ⟨s.runtimeWrite ea (leOf 8 (p.next + 1)), p.next + 4096⟩)

/-- The level-0 table of an address, made as far as it is missing (R215). -/
def Pool.descend (p : Pool) (t va : Nat) : Nat → Nat × Pool
  | 0 => (t, p)
  | lvl + 1 =>
    let (t, p) := p.below (t + 8 * (va / 2 ^ (12 + 9 * (lvl + 1)) % 512))
    p.descend t va lvl

/-- Map one page: V, L, and W and X as Table 3 gives. -/
def Pool.map (p : Pool) (root va pa : Nat) (x w : Bool) : Pool :=
  let (t, p) := p.descend root va 4
  let e := pa + 3 + (if w then 8 else 0) + (if x then 16 else 0)
  { p with s := p.s.runtimeWrite (t + 8 * (va / 4096 % 512)) (leOf 8 e) }

/-- The windows over the frames of the loaded sections (R70). -/
def Bko.windows (x : Bko) (frames : Nat) : List Window :=
  x.pages.foldl (fun (l : List Window) p =>
    let lo := frames + 4096 * p.1
    match l.getLast? with
    | some w => if w.hi = lo && w.write = p.2.2 then l.dropLast ++ [{ w with hi := lo + 4096 }] else l ++ [⟨lo, lo + 4096, true, p.2.2⟩]
    | none => [⟨lo, lo + 4096, true, p.2.2⟩]) []

/-- The bytes from an image's base to its last loaded one. -/
def Bko.extent (x : Bko) : Nat := x.loaded.foldl (fun a t => max a (t.addr + t.size)) 0

/-- Windows join a master's at every target. -/
def State.grantAll (s : State) (master : Nat) (ws : List Window) : State :=
  let add := fun (tab : SMap (List Window)) (t : Target) =>
    smPut [] tab (tableKey master t) (smGet [] tab (tableKey master t) ++ ws)
  { s with dev := { s.dev with access := targetKinds.foldl add s.dev.access } }

/-- Place an image whose checks pass. -/
def State.placeImage (s : State) (r : ImageReq) (c : Context) (x : Bko) : State :=
  let s := x.pages.foldl (fun s p => s.runtimeWrite (r.frames + 4096 * p.1) (List.replicate 4096 0)) s
  let s := x.loaded.foldl (fun s t => s.runtimeWrite (r.frames + t.addr) (x.relocated r.base t)) s
  let q := x.pages.foldl (fun (q : Pool) p => q.map c.root (r.base + 4096 * p.1) (r.frames + 4096 * p.1) p.2.1 p.2.2) ⟨s, r.pool⟩
  let (id, s) := q.s.newId
  let kernels := x.descs.zipIdx.map fun p => x.kernel r.base p.2 p.1
  let i : Image := ⟨id, r.base, r.frames, x.extent, kernels, x.windows r.frames, targetKinds.map targetCode, false⟩
  let made := if q.next = r.pool then [] else [(r.pool, q.next - r.pool)]
  (s.modCtx r.ctx fun c => { c with images := c.images ++ [i], tables := c.tables ++ made }).grantAll r.ctx i.windows

/-- Two ranges touch. -/
def touch (a n b m : Nat) : Bool := a < b + m && b < a + n

/-- The place that the runtime gives an image touches that of a placed one, in the context's addresses or in frames, or frames that
the loader has made into tables, or its own pool (R70). -/
def State.placeTaken (s : State) (r : ImageReq) (c : Context) (x : Bko) : Bool :=
  let n := ceilDiv x.extent 4096 * 4096
  let pool := 4 * 4096 * x.pages.length
  touch r.frames n r.pool pool || c.images.any (fun i => touch r.base n i.base (ceilDiv i.size 4096 * 4096)) ||
  s.ctxs.any fun p =>
    (p.2.images.any fun i =>
      touch r.frames n i.frames (ceilDiv i.size 4096 * 4096) || touch r.pool pool i.frames (ceilDiv i.size 4096 * 4096)) ||
    p.2.tables.any fun t => touch r.frames n t.1 t.2 || touch r.pool pool t.1 t.2

/-- IMAGE_LOAD (R70): the first failing check refuses the image, and nothing is placed. The base is a multiple of 2 MiB (R60),
the place is free, no window grants write on the journal (R388), and the windows count toward the master's 64. -/
def loadImage (r : ImageReq) (s : State) : State :=
  match s.ctx r.ctx with
  | none => s
  | some c =>
    let x := Bko.ofFile r.file
    let ws := x.windows r.frames
    let status := x.check
    if status != 0 then { s with dev := { s.dev with loader := status } }
    else if r.base % 2 ^ 21 != 0 || r.frames % 4096 != 0 || r.pool % 4096 != 0 || s.placeTaken r c x ||
        ws.any (fun w => w.write && inJournal w.lo (w.hi - w.lo)) ||
        targetKinds.any (fun t =>
          decide (Config.masterWindows < (smGet [] s.dev.access (tableKey r.ctx t)).length + ws.length)) then s
    else
      let s' := s.placeImage r c x
      s.unlessRefused { s' with dev := { s'.dev with loader := 0 } }

/-! ### Unloading (R72) -/

/-- A grid was launched from an image. -/
def Image.has (i : Image) (g : Grid) : Bool := i.kernels.any fun k => k.addr == g.kernel.addr

/-- Clear the leaf of an address; a cleared entry is not valid (R215). -/
def State.unmapPage (s : State) (ctx va : Nat) : State :=
  match s.ctx ctx with
  | none => s
  | some c =>
    let (t, p) := (Pool.mk s 0).descend c.root va 4
    if p.next = 0 then s.runtimeWrite (t + 8 * (va / 4096 % 512)) (leOf 8 0) else s

/-- IMAGE_UNLOAD (R70, R72): the descriptors are withdrawn at once; the image is unmapped, and its windows removed, once every
grid launched from it has retired. -/
def unloadImage (ctx image : Nat) (s : State) : State :=
  match (s.ctx ctx).bind fun c => c.images.find? (·.id == image) with
  | none => s
  | some i =>
    let s := s.modCtx ctx fun c => { c with images := c.images.map fun x => if x.id == image then { x with withdrawn := true } else x }
    if s.grids.any fun p => p.2.ctx == ctx && i.has p.2 then s
    else
      let pages := i.windows.flatMap fun w => (List.range ((w.hi - w.lo) / 4096)).map fun n => i.base + (w.lo - i.frames) + 4096 * n
      let s := pages.foldl (fun s va => s.unmapPage ctx va) s
      let s := s.modCtx ctx fun c => { c with images := c.images.filter (·.id != image) }
      let drop := fun (tab : SMap (List Window)) (k : Nat) =>
        smPut [] tab (4 * ctx + k) (i.windows.foldl (fun l w => l.erase w) (smGet [] tab (4 * ctx + k)))
      { s with dev := { s.dev with access := i.held.foldl drop s.dev.access } }

/-! ### The meanings, one for each instruction and event -/

/-- IMAGE_LOAD (R70). -/
def execImageLoad (req : ImageReq) (s : State) : Host.Outcome State Fault Refusal :=
  .next (loadImage req s)

/-- IMAGE_UNLOAD (R72). -/
def execImageUnload (ctx : Nat) (image : Nat) (s : State) : Host.Outcome State Fault Refusal :=
  .next (unloadImage ctx image s)

end Sys2Proof.Machine
end

