-- ==== Sys2Proof/Machine/Boot.lean ====
section
/-! DEFINITION. A program in the place where the next step fetches (log 12): the captured text of the group that is picked, or,
when no group is, one group of one grid of one context, as a launch would leave it, with its tables and its text in memory. -/

namespace Sys2Proof.Machine

/-- The context of the placed program: its tables at 0x1000, one frame at 0x1_0000 for its text. -/
def Context.boot : Context :=
  Context.start ⟨0, 0, 0x1000, 0, 0, ⟨0, 0⟩, ⟨0, 0⟩, 1250000, 0⟩ 0

/-- The tables: one entry on each level from the root, and a leaf with V, L, W, X, A and D for the page at 0x1_0000 (R215). -/
def bootTables : List (Nat × Nat) :=
  [(0x1000, 0x2001), (0x2000, 0x3001), (0x3000, 0x4001), (0x4000, 0x5001), (0x5080, 0x1_00DB)]

/-- The kernel of the placed program: one instruction at 0x1_0000, one ALL group of 16 lanes, every budget at its limit. -/
def Kernel.boot : Kernel :=
  { addr := 0x1_1000, index := 0, secLo := 0x1_0000, textLo := 0x1_0000, textLen := 12, trapAt := none, width := 16, det := false
    threads := 16, cores := 1, nbar := 64, spad := 65536, roles := [⟨.all, 16, 1, 256, 256⟩], rings := [], regions := []
    claims := [], classes := [], safepts := [] }

/-- Its launch record: one team. -/
def LaunchRec.boot : LaunchRec :=
  { kdesc := 0x1_1000, args := 0, gx := 1, gy := 1, gz := 1, seed := 0, succ := 0, coll := 0, bx := 0, by_ := 0, bz := 0
    flags := 0, prio := 0 }

/-- Its grid, with the text captured. -/
def Grid.boot (id : Nat) (text : List Byte) : Grid :=
  { ctx := 0, serial := 0, recaddr := 0, source := 0, origin := 0, record := LaunchRec.boot, kernel := Kernel.boot, text := text
    det := false, order := id, admitted := [0], homes := [], started := false, groups := 0, trapped := false, collFail := false
    coll := none }

/-- The access tables the program is given: its own at each kind of target, and the walker's at the slices. -/
def bootKeys : List Nat := [tableKey 0 .slice, tableKey 0 .hbm, tableKey 0 .port, tableKey Config.walkerId .slice]

/-- The machine with a program of one instruction placed and its group picked. -/
def State.bootWord (s : State) (text : List Byte) : State :=
  let id := s.sched.nextId
  let gid := id + 1
  let gr := Grid.boot id text
  let cores := [118]
  let mem := bootTables.foldl (fun m e => memPuts m e.1 (leOf 8 e.2)) s.mem
  let ident := ((gr.idents id 0 cores).map fun i => Group.start i gid (i.fibres gr.kernel.textLo) 0 0 false)
  { s with
    mem := memPuts mem 0x1_0000 text
    ctxs := smSet s.ctxs 0 Context.boot
    grids := smSet s.grids id gr
    teams := s.teams ++ [gr.teamOf id 0 cores]
    groups := ident.foldl (fun m g => smSet m gid g) s.groups
    order := { s.order with tlb := s.order.tlb.filter (·.ctx != 0), nodes := s.order.nodes.filter (·.ctx != 0) }
    dev := { s.dev with access := bootKeys.foldl (fun m k => smSet m k [⟨0, 2 ^ 51, true, true⟩]) s.dev.access }
    sched := { s.sched with nextId := id + 2, picks := [gid] } }

/-- The captured text with a word at an address. -/
def Grid.putWord (g : Grid) (lo pc : Nat) (b : List Byte) : Grid :=
  { g with text := g.text.take (pc - lo) ++ b ++ g.text.drop (pc - lo + 12) }

/-- Put an instruction's 12 bytes where the next step fetches. -/
def State.placeWord (s : State) (b : List Byte) : State :=
  match s.sched.picks with
  | [] => s.bootWord b
  | gid :: _ =>
    match s.group gid with
    | none => s.bootWord b
    | some g =>
      match g.halt with
      | some h => s.setGroup gid { g with halt := some { h with buffer := BitVec.ofNat 96 (leNat b) :: h.buffer.drop 1 } }
      | none => match g.pc with
        | some pc => s.modGrid g.id.grid fun gr => gr.putWord g.id.textLo pc.toNat b
        | none => s.bootWord b

/-- The picked group that issues now, and the state in which it does. -/
def State.popPick (s : State) (gid : Nat) (rest : List Nat) : State :=
  { s with sched := { s.sched with picks := rest, cur := some gid } }

/-- The event that happens now, and the state in which it does. -/
def State.popEvent (s : State) (rest : List Instr) : State :=
  { s with sched := { s.sched with agenda := rest, cur := none } }

/-- The state in which a move of the default order happens. -/
def State.turn (s : State) : State := { s with sched := { s.sched with rotate := s.sched.rotate + 1, cur := none } }

end Sys2Proof.Machine
end

