-- ==== Sys2Proof/Machine/Dispatch.lean ====
section
/-! DEFINITION. The dispatcher: one arm per constructor of `Instr`, each a direct call of its meaning. -/

namespace Sys2Proof.Machine

/-- What an instruction or an event does. -/
def exec (i : Instr) (s : State) : Host.Outcome State Fault Refusal :=
  match i with
  | .add w => Sys2Proof.Machine.execAdd w s
  | .addImm w => Sys2Proof.Machine.execAddImm w s
  | .sub w => Sys2Proof.Machine.execSub w s
  | .subImm w => Sys2Proof.Machine.execSubImm w s
  | .addw w => Sys2Proof.Machine.execAddw w s
  | .mul24 w => Sys2Proof.Machine.execMul24 w s
  | .mul24Imm w => Sys2Proof.Machine.execMul24Imm w s
  | .mul32 w => Sys2Proof.Machine.execMul32 w s
  | .mul32Imm w => Sys2Proof.Machine.execMul32Imm w s
  | .mulhi w => Sys2Proof.Machine.execMulhi w s
  | .mad24 w => Sys2Proof.Machine.execMad24 w s
  | .mad32 w => Sys2Proof.Machine.execMad32 w s
  | .min w => Sys2Proof.Machine.execMin w s
  | .minImm w => Sys2Proof.Machine.execMinImm w s
  | .max w => Sys2Proof.Machine.execMax w s
  | .maxImm w => Sys2Proof.Machine.execMaxImm w s
  | .abs w => Sys2Proof.Machine.execAbs w s
  | .neg w => Sys2Proof.Machine.execNeg w s
  | .and w => Sys2Proof.Machine.execAnd w s
  | .andImm w => Sys2Proof.Machine.execAndImm w s
  | .or w => Sys2Proof.Machine.execOr w s
  | .orImm w => Sys2Proof.Machine.execOrImm w s
  | .xor w => Sys2Proof.Machine.execXor w s
  | .xorImm w => Sys2Proof.Machine.execXorImm w s
  | .not w => Sys2Proof.Machine.execNot w s
  | .andn w => Sys2Proof.Machine.execAndn w s
  | .andnImm w => Sys2Proof.Machine.execAndnImm w s
  | .shl w => Sys2Proof.Machine.execShl w s
  | .shlImm w => Sys2Proof.Machine.execShlImm w s
  | .shr w => Sys2Proof.Machine.execShr w s
  | .shrImm w => Sys2Proof.Machine.execShrImm w s
  | .sar w => Sys2Proof.Machine.execSar w s
  | .sarImm w => Sys2Proof.Machine.execSarImm w s
  | .rotl w => Sys2Proof.Machine.execRotl w s
  | .rotlImm w => Sys2Proof.Machine.execRotlImm w s
  | .popc w => Sys2Proof.Machine.execPopc w s
  | .clz w => Sys2Proof.Machine.execClz w s
  | .brev w => Sys2Proof.Machine.execBrev w s
  | .bfx w => Sys2Proof.Machine.execBfx w s
  | .bfi w => Sys2Proof.Machine.execBfi w s
  | .cmp w => Sys2Proof.Machine.execCmp w s
  | .cmpImm w => Sys2Proof.Machine.execCmpImm w s
  | .sel w => Sys2Proof.Machine.execSel w s
  | .mov w => Sys2Proof.Machine.execMov w s
  | .movImm w => Sys2Proof.Machine.execMovImm w s
  | .lea w => Sys2Proof.Machine.execLea w s
  | .leaImm w => Sys2Proof.Machine.execLeaImm w s
  | .fadd w => Sys2Proof.Machine.execFadd w s
  | .fsub w => Sys2Proof.Machine.execFsub w s
  | .fmul w => Sys2Proof.Machine.execFmul w s
  | .fma w => Sys2Proof.Machine.execFma w s
  | .fmin w => Sys2Proof.Machine.execFmin w s
  | .fmax w => Sys2Proof.Machine.execFmax w s
  | .fcmp w => Sys2Proof.Machine.execFcmp w s
  | .fcvt w => Sys2Proof.Machine.execFcvt w s
  | .frnd w => Sys2Proof.Machine.execFrnd w s
  | .fclass w => Sys2Proof.Machine.execFclass w s
  | .fscale w => Sys2Proof.Machine.execFscale w s
  | .sfu w => Sys2Proof.Machine.execSfu w s
  | .xacc w => Sys2Proof.Machine.execXacc w s
  | .xcvt w => Sys2Proof.Machine.execXcvt w s
  | .shfl w => Sys2Proof.Machine.execShfl w s
  | .push w => Sys2Proof.Machine.execPush w s
  | .bcast w => Sys2Proof.Machine.execBcast w s
  | .scan w => Sys2Proof.Machine.execScan w s
  | .lred w => Sys2Proof.Machine.execLred w s
  | .vote w => Sys2Proof.Machine.execVote w s
  | .kcg w => Sys2Proof.Machine.execKcg w s
  | .pairedWord w => Sys2Proof.Machine.execPairedWord w s
  | .ld w => Sys2Proof.Machine.execLd w s
  | .st w => Sys2Proof.Machine.execSt w s
  | .ldt w => Sys2Proof.Machine.execLdt w s
  | .pref w => Sys2Proof.Machine.execPref w s
  | .atom w => Sys2Proof.Machine.execAtom w s
  | .red w => Sys2Proof.Machine.execRed w s
  | .aord w => Sys2Proof.Machine.execAord w s
  | .waitc w => Sys2Proof.Machine.execWaitc w s
  | .qpush w => Sys2Proof.Machine.execQpush w s
  | .qpop w => Sys2Proof.Machine.execQpop w s
  | .fset w => Sys2Proof.Machine.execFset w s
  | .fget w => Sys2Proof.Machine.execFget w s
  | .claim w => Sys2Proof.Machine.execClaim w s
  | .rxst w => Sys2Proof.Machine.execRxst w s
  | .cpq w => Sys2Proof.Machine.execCpq w s
  | .launch w => Sys2Proof.Machine.execLaunch w s
  | .wb w => Sys2Proof.Machine.execWb w s
  | .macq w => Sys2Proof.Machine.execMacq w s
  | .marel w => Sys2Proof.Machine.execMarel w s
  | .mcvr w => Sys2Proof.Machine.execMcvr w s
  | .mma w => Sys2Proof.Machine.execMma w s
  | .mld w => Sys2Proof.Machine.execMld w s
  | .mzero w => Sys2Proof.Machine.execMzero w s
  | .mdrain w => Sys2Proof.Machine.execMdrain w s
  | .mfill w => Sys2Proof.Machine.execMfill w s
  | .mcopy w => Sys2Proof.Machine.execMcopy w s
  | .mstat w => Sys2Proof.Machine.execMstat w s
  | .bwait w => Sys2Proof.Machine.execBwait w s
  | .bset w => Sys2Proof.Machine.execBset w s
  | .srnext w => Sys2Proof.Machine.execSrnext w s
  | .tcopy w => Sys2Proof.Machine.execTcopy w s
  | .skins w => Sys2Proof.Machine.execSkins w s
  | .skdel w => Sys2Proof.Machine.execSkdel w s
  | .skxch w => Sys2Proof.Machine.execSkxch w s
  | .skpeel w => Sys2Proof.Machine.execSkpeel w s
  | .rlbeg w => Sys2Proof.Machine.execRlbeg w s
  | .rwave w => Sys2Proof.Machine.execRwave w s
  | .rlend w => Sys2Proof.Machine.execRlend w s
  | .rxbeg w => Sys2Proof.Machine.execRxbeg w s
  | .rxin w => Sys2Proof.Machine.execRxin w s
  | .rxout w => Sys2Proof.Machine.execRxout w s
  | .rxjac w => Sys2Proof.Machine.execRxjac w s
  | .rxend w => Sys2Proof.Machine.execRxend w s
  | .rxcmt w => Sys2Proof.Machine.execRxcmt w s
  | .rxabort w => Sys2Proof.Machine.execRxabort w s
  | .nop w => Sys2Proof.Machine.execNop w s
  | .bra w => Sys2Proof.Machine.execBra w s
  | .brs w => Sys2Proof.Machine.execBrs w s
  | .jmp w => Sys2Proof.Machine.execJmp w s
  | .call w => Sys2Proof.Machine.execCall w s
  | .ret w => Sys2Proof.Machine.execRet w s
  | .join w => Sys2Proof.Machine.execJoin w s
  | .spawn w => Sys2Proof.Machine.execSpawn w s
  | .fend w => Sys2Proof.Machine.execFend w s
  | .yield w => Sys2Proof.Machine.execYield w s
  | .arrive w => Sys2Proof.Machine.execArrive w s
  | .waitb w => Sys2Proof.Machine.execWaitb w s
  | .fence w => Sys2Proof.Machine.execFence w s
  | .rdsr w => Sys2Proof.Machine.execRdsr w s
  | .wrsr w => Sys2Proof.Machine.execWrsr w s
  | .trap w => Sys2Proof.Machine.execTrap w s
  | .eret w => Sys2Proof.Machine.execEret w s
  | .brk w => Sys2Proof.Machine.execBrk w s
  | .twc w => Sys2Proof.Machine.execTwc w s
  | .tlbinv w => Sys2Proof.Machine.execTlbinv w s
  | .issuePick core => Sys2Proof.Machine.execIssuePick core s
  | .hostAppend ctx q copy record => Sys2Proof.Machine.execHostAppend ctx q copy record s
  | .launchQueueTake ctx q => Sys2Proof.Machine.execLaunchQueueTake ctx q s
  | .pendingLaunchTake core => Sys2Proof.Machine.execPendingLaunchTake core s
  | .teamSteal grid n home => Sys2Proof.Machine.execTeamSteal grid n home s
  | .teamAdmission grid n => Sys2Proof.Machine.execTeamAdmission grid n s
  | .gridRetire grid => Sys2Proof.Machine.execGridRetire grid s
  | .swapOut group => Sys2Proof.Machine.execSwapOut group s
  | .swapIn group => Sys2Proof.Machine.execSwapIn group s
  | .binTimeout core bin => Sys2Proof.Machine.execBinTimeout core bin s
  | .binFormGroup core bin => Sys2Proof.Machine.execBinFormGroup core bin s
  | .longLatencyWriteback producer => Sys2Proof.Machine.execLongLatencyWriteback producer s
  | .sfuEntryStart core => Sys2Proof.Machine.execSfuEntryStart core s
  | .sfuWriteback core => Sys2Proof.Machine.execSfuWriteback core s
  | .engineOpStart core => Sys2Proof.Machine.execEngineOpStart core s
  | .engineOpEnd core => Sys2Proof.Machine.execEngineOpEnd core s
  | .peerAdd core => Sys2Proof.Machine.execPeerAdd core s
  | .copyPacketTake ctx q => Sys2Proof.Machine.execCopyPacketTake ctx q s
  | .copyLineLand copy line => Sys2Proof.Machine.execCopyLineLand copy line s
  | .copySourceReadDone copy => Sys2Proof.Machine.execCopySourceReadDone copy s
  | .copyComplete copy => Sys2Proof.Machine.execCopyComplete copy s
  | .copyFault copy code addr => Sys2Proof.Machine.execCopyFault copy code addr s
  | .cpqPublish core => Sys2Proof.Machine.execCpqPublish core s
  | .ringDepthAdjust team teamCore ring depth => Sys2Proof.Machine.execRingDepthAdjust team teamCore ring depth s
  | .tcDrain core line => Sys2Proof.Machine.execTcDrain core line s
  | .qchPerform channel => Sys2Proof.Machine.execQchPerform channel s
  | .redAccumulate index => Sys2Proof.Machine.execRedAccumulate index s
  | .hPerform index => Sys2Proof.Machine.execHPerform index s
  | .hostAccess req => Sys2Proof.Machine.execHostAccess req s
  | .biasSetRequest frame => Sys2Proof.Machine.execBiasSetRequest frame s
  | .aordArrival op lane => Sys2Proof.Machine.execAordArrival op lane s
  | .aordRetry op lane => Sys2Proof.Machine.execAordRetry op lane s
  | .monitorWake group => Sys2Proof.Machine.execMonitorWake group s
  | .waitcTimeout group => Sys2Proof.Machine.execWaitcTimeout group s
  | .waitReread group => Sys2Proof.Machine.execWaitReread group s
  | .waveDecide team role => Sys2Proof.Machine.execWaveDecide team role s
  | .passEnd team => Sys2Proof.Machine.execPassEnd team s
  | .collectiveContribute grid => Sys2Proof.Machine.execCollectiveContribute grid s
  | .collectiveMessage grid msg => Sys2Proof.Machine.execCollectiveMessage grid msg s
  | .collectiveFinish grid => Sys2Proof.Machine.execCollectiveFinish grid s
  | .collectiveTimeoutFlush grid => Sys2Proof.Machine.execCollectiveTimeoutFlush grid s
  | .collectiveWatchdog grid => Sys2Proof.Machine.execCollectiveWatchdog grid s
  | .collectiveAbort grid => Sys2Proof.Machine.execCollectiveAbort grid s
  | .collectivePacketTake packet answer => Sys2Proof.Machine.execCollectivePacketTake packet answer s
  | .exchangeRound exchange peer => Sys2Proof.Machine.execExchangeRound exchange peer s
  | .trapEntry group => Sys2Proof.Machine.execTrapEntry group s
  | .handlerWindowFree core => Sys2Proof.Machine.execHandlerWindowFree core s
  | .preemptRequest ctx => Sys2Proof.Machine.execPreemptRequest ctx s
  | .contextSave ctx => Sys2Proof.Machine.execContextSave ctx s
  | .contextRestore ctx => Sys2Proof.Machine.execContextRestore ctx s
  | .debugHaltRequest group => Sys2Proof.Machine.execDebugHaltRequest group s
  | .programBufferStart group words => Sys2Proof.Machine.execProgramBufferStart group words s
  | .debugResume group => Sys2Proof.Machine.execDebugResume group s
  | .profileSample core m => Sys2Proof.Machine.execProfileSample core m s
  | .reuseSample req => Sys2Proof.Machine.execReuseSample req s
  | .contextDestroy ctx => Sys2Proof.Machine.execContextDestroy ctx s
  | .contextKill ctx => Sys2Proof.Machine.execContextKill ctx s
  | .errorEvent req => Sys2Proof.Machine.execErrorEvent req s
  | .journalEntryTimeout => Sys2Proof.Machine.execJournalEntryTimeout s
  | .clockLower => Sys2Proof.Machine.execClockLower s
  | .powerOn held strap => Sys2Proof.Machine.execPowerOn held strap s
  | .provisioningWrite p => Sys2Proof.Machine.execProvisioningWrite p s
  | .queueRegister req => Sys2Proof.Machine.execQueueRegister req s
  | .imageLoad req => Sys2Proof.Machine.execImageLoad req s
  | .imageUnload ctx image => Sys2Proof.Machine.execImageUnload ctx image s
  | .accessTableWrite req => Sys2Proof.Machine.execAccessTableWrite req s
  | .formatWindowWrite stack index words => Sys2Proof.Machine.execFormatWindowWrite stack index words s
  | .watchpointSet ctx index w => Sys2Proof.Machine.execWatchpointSet ctx index w s
  | .reservationGrant ctx slots kib => Sys2Proof.Machine.execReservationGrant ctx slots kib s
  | .tokenBucketSet ctx cls collective rate burst => Sys2Proof.Machine.execTokenBucketSet ctx cls collective rate burst s
  | .domainJoin ctx rank gx gy gz => Sys2Proof.Machine.execDomainJoin ctx rank gx gy gz s
  | .deviceReset held => Sys2Proof.Machine.execDeviceReset held s
  | .contextCreate req => Sys2Proof.Machine.execContextCreate req s
  | .engineLineComplete core line => Sys2Proof.Machine.execEngineLineComplete core line s
  | .clockRestore => Sys2Proof.Machine.execClockRestore s
  | .debuggerAttach ctx haltOnTrap => Sys2Proof.Machine.execDebuggerAttach ctx haltOnTrap s
  | .profilingEnable ctx interval => Sys2Proof.Machine.execProfilingEnable ctx interval s
  | .partitionAssign dies ctxs => Sys2Proof.Machine.execPartitionAssign dies ctxs s
  | .tokenBucketRefill ctx cls collective => Sys2Proof.Machine.execTokenBucketRefill ctx cls collective s

end Sys2Proof.Machine
end

