-- ==== Sys2Proof/Machine/Step.lean ====
section
/-! DEFINITION. One step: the instruction of a picked group (R40, R145), else the next event of the agenda, else the move whose
turn it is (log 1). -/

namespace Sys2Proof.Machine

/-- A picked group's instruction: fetched and decoded (R40 steps 1 to 3), then executed; a trap of the fetch is taken. -/
def stepGroup (gid : Nat) (s : State) : Host.Outcome State Fault Refusal :=
  match s.fetch gid with
  | .stall => .next s
  | .error s' => .next s'
  | .trap t s' => .next ((s'.raise gid t).noteIssue gid (s.group gid))
  | .run i s' =>
    match exec i s' with
    | .next t => .next (t.noteIssue gid (s.group gid))
    | .fault f => .fault f
    | .refused r => .refused r

/-- An event. A word of an instruction is no event: it is executed only when it is fetched. -/
def stepEvent (i : Instr) (s : State) : Host.Outcome State Fault Refusal :=
  match i.view with
  | some _ => .next s
  | none => exec i s

/-- The instruction, event or move whose turn it is. -/
def stepTurn (s : State) : Host.Outcome State Fault Refusal :=
  match s.sched.picks with
  | gid :: rest => stepGroup gid (s.popPick gid rest)
  | [] =>
    match s.sched.agenda with
    | i :: rest => stepEvent i (s.popEvent rest)
    | [] =>
      if s.awake then
        match s.defaultMove with
        | some i => stepEvent i s.turn
        | none => .next s
      else .next s

/-- One step of the machine: what happens, after which every group that is swapped out keeps the wakes that came (R135). -/
def step (s : State) : Host.Outcome State Fault Refusal :=
  match stepTurn s with
  | .next t => .next t.keepWakes
  | .fault f => .fault f
  | .refused r => .refused r

/-- The machine with an instruction placed where `step` fetches next (log 12). -/
def State.withFetchWord (s : State) (nbits w : Nat) : State := s.placeWord (leBytes 12 (w % 2 ^ min nbits 96))

end Sys2Proof.Machine
end

