-- ==== Sys2Proof/Safety.lean ====
section
/-! DEFINITION. The terms in which claims speak of a run: a step that goes on, the invariant of memory, and what an
instruction leaves as it was. -/

namespace Sys2Proof.Machine

/-- The step of a state answers a next state: the machine neither stops with a fault nor refuses. -/
def State.GoesOn (s : State) : Prop := ∃ t, step s = .next t

/-- Memory has its canonical form. -/
def State.MemOk (s : State) : Prop := Memory.wf s.mem

end Sys2Proof.Machine

namespace Sys2Proof
open Machine

/-! ### What every instruction of a group is given -/

/-- What the shared checks see of an instruction: its ports, its sources and destinations, and its own checks (R40, R147). -/
def View.front (v : View) (s : State) : Front :=
  match v with
  | .r op w => op.front w
  | .i op w => op.front w
  | .p w => w.front
  | .m .waitc w => MOp.front .waitc w (resumes := true)
  | .m .qpush w => MOp.front .qpush w (resumes := true)
  | .m .qpop w => MOp.front .qpop w (resumes := true)
  | .m .fget w => MOp.front .fget w (resumes := true)
  | .m .launch w => MOp.front .launch w (resumes := true)
  | .m .cpq w => cpqFront w
  | .m op w => MOp.front op w
  | .x .macq w => xFront w (ports := [.mxp])
  | .x .marel w => mxFront w (sole := true)
  | .x .mcvr w | .x .mzero w | .x .mcopy w => mxFront w
  | .x .mma w => mxFront w (aRegs := 2) (bRegs := 2)
  | .x .mld w => mxFront w (aRegs := 8) (dSrc := 1)
  | .x .mfill w => mxFront w (aRegs := 2)
  | .x .mdrain w => drainFront w s.curWidth
  | .x .mstat w => mxFront w (dst := [(w.d, 1)]) (nondet := fun id => id.det && w.f 0 0 = 0)
  | .x .bwait w | .x .srnext w => xFront w (dst := [(w.d, 1)])
  | .x .bset w => xFront w (aRegs := if w.f 18 16 = 3 then 2 else 0) (dst := [(w.d, 1)])
  | .x .tcopy w => tcopyFront w
  | .x .skins w | .x .skdel w => skFront w
  | .x .skxch w => xFront w (aRegs := 2)
  | .x .skpeel w => skpeelFront w
  | .x .rlbeg w => rlFront .rlbeg w
  | .x .rwave w => rlFront .rwave w
  | .x .rlend w => rlFront .rlend w
  | .x .rxin w => xFront w (ports := [.v1]) (dst := [(w.d, 1)]) (body := true)
  | .x .rxout w | .x .rxjac w => xFront w (ports := [.v1]) (aRegs := 1) (body := true)
  | .x op w => rxFront op w
  | .c .bra w | .c .brs w => ctlFront w (moves := true)
  | .c .jmp w | .c .ret w => ctlFront w (moves := true) (aRegs := 2)
  | .c .call w => ctlFront w (moves := true) (dst := [(w.d, 2)])
  | .c .spawn w =>
    { ctlFront w (aRegs := w.f 27 24) (body := false) with illop := fun g => w.f 27 24 != 0 && g.id.vBud ≤ w.f 27 24 }
  | .c .arrive w => ctlFront w (illop := fun g => g.id.nbar ≤ w.f 17 12) (body := false)
  | .c .waitb w => ctlFront w (illop := fun g => g.id.nbar ≤ w.f 17 12) (resumes := true) (body := false)
  | .c .fend w | .c .fence w => ctlFront w (body := false)
  | .c _ w => ctlFront w
  | .y .rdsr w => rdsrFront w
  | .y .wrsr w => wrsrFront w
  | .y .twc w => twcFront w
  | .y .tlbinv w => tlbinvFront w
  | .y .eret w => ctlFront w (illop := fun g => g.handler.isNone)
  | .y _ w => ctlFront w (body := false)

end Sys2Proof

namespace Sys2Proof.Machine

/-- The shared checks let an instruction go on, with an active lane (R27, R40). -/
def Runs (s : State) (f : Front) (c : Ctx) : Prop := s.front f = .go c ∧ c.act ≠ []

/-! ### What an instruction leaves as it was -/

/-- Memory, the grids, the contexts, the device and every other group are as they were. -/
structure SameOutside (gid : Nat) (s t : State) : Prop where
  mem : t.mem = s.mem
  grids : t.grids = s.grids
  ctxs : t.ctxs = s.ctxs
  dev : t.dev = s.dev
  groups : ∀ k, k ≠ gid → t.group k = s.group k

/-- The memory order, the cores, the work in hand and the schedule are as they were, but the ids that were used up. -/
structure Quiet (s t : State) : Prop where
  order : t.order = s.order
  cores : t.cores = s.cores
  work : t.work = s.work
  sched : t.sched = { s.sched with nextId := t.sched.nextId }

/-- A group is as it was, but the registers with the keys in `written`, which become full or empty as the instruction says, those
with the keys in `used`, which its last-use hints may empty (R29), FPMODE, the PCs, its wait and its age. -/
structure KeepsGroup (g g' : Group) (written used : List Nat) : Prop where
  regs : ∀ k, k ∉ written → g'.reg k = g.reg k
  bits : ∀ k, k ∉ written → k ∉ used → g'.isFull k = g.isFull k
  fibres : (g'.fibres.map fun f => (f.lane, f.fibid, f.sc)) = g.fibres.map fun f => (f.lane, f.fibid, f.sc)
  id : g'.id = g.id
  lc : g'.lc = g.lc
  timers : (g'.bintmo, g'.swaptmo) = (g.bintmo, g.swaptmo)
  counts : (g'.lqfull, g'.monfull) = (g.lqfull, g.monfull)
  stat : g'.stat = g.stat
  trap : g'.trap = g.trap
  handler : g'.handler = g.handler
  pending : g'.pending = g.pending
  place : g'.place = g.place
  ended : g'.ended = g.ended
  clock : (g'.parkedAt, g'.notBefore) = (g.parkedAt, g.notBefore)
  request : (g'.haltReq, g'.reserved) = (g.haltReq, g.reserved)

/-- The keys of the registers that an instruction writes. -/
def Group.dstKeys (g : Group) (f : Front) (act : List Nat) : List Nat := f.dsts.flatMap fun p => g.keys p.1 p.2 act

/-- The keys of the registers that an instruction reads with a last-use hint. -/
def Group.luKeys (g : Group) (f : Front) (act : List Nat) : List Nat :=
  (f.srcs.filter fun x => x.lu && x.x.hasBit).flatMap fun x => g.keys x.x x.n act

/-- The lanes of the batch stand where `pc` says, and the others where they stood: said of a group none of whose lanes is held
(R155) and that is not halted (R367). -/
def Ctx.GoesTo (c : Ctx) (g' : Group) (pc : Nat → DWord) : Prop :=
  c.g.halt = none → (∀ f ∈ c.g.fibres, f.held = false) →
  g'.fibres = c.g.fibres.map fun f => if c.batch.contains f.lane then { f with pc := pc f.lane } else f

/-- An instruction has committed: the registers that it wrote are full, those that a last-use hint names and that it
did not write are empty (R29), its flags have joined FPMODE (R81), or in a relaxation body its steps' flags (R311), and its
batch stands where `pc` says. -/
structure Wrote (s t : State) (c : Ctx) (g' : Group) (written used : List Nat) (fl : FpFlags) (pc : Nat → DWord) : Prop where
  group : t.group c.gid = some g'
  outside : SameOutside c.gid s t
  quiet : Quiet s t
  keeps : KeepsGroup c.g g' written used
  full : ∀ k ∈ written, g'.isFull k = true
  lastUse : ∀ k ∈ used, k ∉ written → g'.isFull k = false
  free : g'.wait = none
  flags : s.bodyOf c.gid c.g = none → g'.fpmode = orFlags c.g.fpmode fl
  body : s.bodyOf c.gid c.g ≠ none → g'.fpmode = c.g.fpmode
  teams : s.bodyOf c.gid c.g = none ∨ fl = 0 → t.teams = s.teams
  next : c.GoesTo g' pc

/-- An instruction that writes every destination it names has committed. -/
abbrev Committed (s t : State) (c : Ctx) (g' : Group) (f : Front) (fl : FpFlags) : Prop :=
  Wrote s t c g' (c.g.dstKeys f c.act) (c.g.luKeys f c.act) fl c.nextPc

/-- An attempt that answers a next state in which the instruction has committed, with `post` of every active lane. -/
def Commits (o : Host.Outcome State Fault Refusal) (s : State) (c : Ctx) (f : Front) (fl : FpFlags)
    (post : Group → Nat → Prop) : Prop :=
  ∃ t g', o = .next t ∧ Committed s t c g' f fl ∧ ∀ l ∈ c.act, post g' l

end Sys2Proof.Machine
end

