-- ==== Sys2Proof/Certificates/Slice0/Obligations.lean ====
section
/-! DEFINITION. The statements for the provers. Each docstring names the rules of the manual that it formalises; what the
instruction leaves as it was is said by `Committed`, `SameOutside` and `KeepsGroup` (Safety.lean). -/

open Sys2Proof Sys2Proof.Machine

/-! ### Integer arithmetic, logic and bit fields (R165-R172) -/

/-- The exact results of R165 Table 3, from the integers that A, B and C hold; `e` is the low 24 bits of the type. -/
def exactInteger (op : ROp) (t : Ty) (a b c : Int) : Int :=
  let e := fun (x : Int) => if t.signed then Int.bmod x (2 ^ 24) else x % 2 ^ 24
  match op with
  | .add => a + b
  | .sub => a - b
  | .mul24 => e a * e b
  | .mul32 => a * b
  | .mulhi => (a * b) / 2 ^ 32
  | .mad24 => e a * e b + c
  | .mad32 => a * b + c
  | .min => if a ≤ b then a else b
  | .max => if a ≤ b then b else a
  | .abs => if a < 0 then -a else a
  | .neg => -a
  | _ => 0

/-- An exact integer reduced to a type (R74): clamped to its range under SAT, else its low bits read in its signedness. -/
def reducedTo (t : Ty) (sat : Bool) (x : Int) : Int :=
  if sat then max t.minInt (min t.maxInt x) else if t.signed then Int.bmod x (2 ^ t.width) else x % 2 ^ t.width

/-- The registers that hold a value of a type hold an integer of the type: two's complement over all their bits (R73). -/
def holdsInt (g : Group) (d : Operand) (l : Nat) (t : Ty) (x : Int) : Prop :=
  (g.bits d t.regs l : Int) = x % 2 ^ (32 * t.regs)

/-- R165: the result is satint(x, t) under SAT and trunc(x, width(t)) otherwise, in every active lane; no flag is raised. -/
def Says.IntegerArithmetic : Prop :=
  ∀ (s : State) (c : Ctx) (op : ROp) (w : RWord),
    op ∈ [.add, .sub, .mul24, .mul32, .mulhi, .mad24, .mad32, .min, .max, .abs, .neg] → op.wf w → Runs s (op.front w) c →
    Commits (exec (op.instr w) s) s c (op.front w) 0 fun g' l =>
      let src := fun (x : Operand) => w.ty.intOf (c.g.rd x l w.ty)
      holdsInt g' w.d l w.ty (reducedTo w.ty w.sat (exactInteger op w.ty (src w.a) (src w.b) (src (w.c.getD .zero))))

/-- R166 and R167: `addw` adds a narrow source to a value of twice its width, and `lea` adds a scaled index to an address. -/
def Says.WideningAndAddress : Prop :=
  (∀ (s : State) (c : Ctx) (w : RWord) (wide : Ty), ROp.addw.wf w → w.ty.widened = some wide → Runs s (ROp.addw.front w) c →
    Commits (exec (.addw w) s) s c (ROp.addw.front w) 0 fun g' l =>
      holdsInt g' w.d l wide (reducedTo wide w.sat (w.ty.intOf (c.g.rd w.a l w.ty) + wide.intOf (c.g.rd w.b l wide)))) ∧
  ∀ (s : State) (c : Ctx) (w : RWord), ROp.lea.wf w → Runs s (ROp.lea.front w) c →
    Commits (exec (.lea w) s) s c (ROp.lea.front w) 0 fun g' l =>
      BitVec.ofNat 64 (g'.bits w.d 2 l) = c.g.rdDWord w.a l + (c.g.rdWord w.b l).signExtend 64 <<< w.opx.toNat

/-- R74, R165, R166 and R167: the integer instructions, `addw` and `lea` write the exact result reduced to its type, clamped
under SAT. -/
def Obligations.IntegerArithmetic : Prop :=
  Says.IntegerArithmetic ∧ Says.WideningAndAddress

/-- The results of R168 Table 5 on w bits; `n` is the shift amount. -/
def logicResult (op : ROp) {k : Nat} (a b : BitVec k) (n : Nat) : BitVec k :=
  match op with
  | .and => a &&& b
  | .or => a ||| b
  | .xor => a ^^^ b
  | .not => ~~~a
  | .andn => a &&& ~~~b
  | .shl => a <<< n
  | .shr => a >>> n
  | .sar => a.sshiftRight n
  | _ => a.rotateLeft n

/-- R168: logic and shifts work on the raw bits; a shift amount is B read as n32. -/
def Says.LogicAndShifts : Prop :=
  ∀ (s : State) (c : Ctx) (op : ROp) (w : RWord), op ∈ [.and, .or, .xor, .not, .andn, .shl, .shr, .sar, .rotl] → op.wf w →
    Runs s (op.front w) c →
    Commits (exec (op.instr w) s) s c (op.front w) 0 fun g' l =>
      let src := fun (x : Operand) => BitVec.ofNat w.ty.width (c.g.rd x l w.ty)
      BitVec.ofNat w.ty.width (g'.bits w.d w.ty.regs l) = logicResult op (src w.a) (src w.b) (c.g.rdWord w.b l).toNat

/-- R168: `popc` and `clz` write a count to one register, and `brev` reverses the bits. -/
def Says.BitCounts : Prop :=
  ∀ (s : State) (c : Ctx) (op : ROp) (w : RWord), op ∈ [.popc, .clz, .brev] → op.wf w → Runs s (op.front w) c →
    Commits (exec (op.instr w) s) s c (op.front w) 0 fun g' l =>
      let a := c.g.rd w.a l w.ty
      let n := w.ty.width
      match op with
      | .popc => g'.bits w.d 1 l = (List.range n).countP a.testBit
      | .clz => g'.bits w.d 1 l = if a = 0 then n else n - 1 - Nat.log2 a
      | _ => ∀ i < n, (g'.bits w.d w.ty.regs l).testBit i = a.testBit (n - 1 - i)

/-- R169: `bfx` extracts the field of n bits at p, and `bfi` puts the low n bits of A there. -/
def Says.BitFields : Prop :=
  ∀ (s : State) (c : Ctx) (op : ROp) (w : RWord), op ∈ [.bfx, .bfi] → op.wf w → Runs s (op.front w) c →
    Commits (exec (op.instr w) s) s c (op.front w) 0 fun g' l =>
      let a := c.g.rd w.a l .n32
      let p := c.g.rd w.b l .n32 % 32
      let n := min (c.g.rd w.b l .n32 / 256 % 64) 32
      let bitOfA := fun (i : Nat) => if i < 32 then a.testBit i else w.ty == .i32 && a.testBit 31
      ∀ i < 32, (g'.bits w.d 1 l).testBit i =
        if op = .bfi then (if p ≤ i ∧ i < p + n then a.testBit (i - p) else (c.g.rd (w.c.getD .zero) l .n32).testBit i)
        else if i < n then bitOfA (p + i)
        else w.ty == .i32 && decide (0 < n) && bitOfA (p + n - 1)

/-- R168 and R169: logic, shifts, bit counts and bit fields work on the raw bits of their operands. -/
def Obligations.LogicAndBits : Prop :=
  Says.LogicAndShifts ∧ Says.BitCounts ∧ Says.BitFields

/-- R170: `cmp` writes one bit of D and leaves the others; an n type compares unsigned. -/
def Says.Compare : Prop :=
  ∀ (s : State) (c : Ctx) (w : RWord), ROp.cmp.wf w → Runs s (ROp.cmp.front w) c →
    Commits (exec (.cmp w) s) s c (ROp.cmp.front w) 0 fun g' l =>
      let a := w.ty.intOf (c.g.rd w.a l w.ty)
      let b := w.ty.intOf (c.g.rd w.b l w.ty)
      let holds : Bool := match (w.opx.extractLsb' 0 3).toNat with
        | 0 => a = b | 1 => a ≠ b | 2 => a < b | 3 => a ≤ b | 4 => a > b | _ => a ≥ b
      ∀ i < 32, (g'.bits w.d 1 l).testBit i =
        if i = (w.opx.extractLsb' 3 5).toNat then holds else (c.g.bits w.d 1 l).testBit i

/-- R171 and R172: `sel` is defined for every type, with C present, RND rne and SAT 0, and takes A or B by one bit of C; `mov` takes A.
The bits are copied unchanged, extended in a register as R73 says. -/
def Says.SelectAndMove : Prop :=
  (∀ t : Ty, ∃ w : RWord, w.ty = t ∧ ROp.sel.wf w = true) ∧
  (∀ w : RWord, ROp.sel.wf w = true → w.c.isSome ∧ w.opx.toNat < 32 ∧ w.rnd = .rne ∧ w.sat = false) ∧
  ∀ (s : State) (c : Ctx) (op : ROp) (w : RWord), op ∈ [.sel, .mov] → op.wf w → Runs s (op.front w) c →
    Commits (exec (op.instr w) s) s c (op.front w) 0 fun g' l =>
      let x := if op = .mov ∨ (c.g.rd (w.c.getD .zero) l .n32).testBit w.opx.toNat then w.a else w.b
      g'.bits w.d w.ty.regs l = extend w.ty (c.g.rd x l w.ty)

/-- R170 to R172: `cmp` writes one bit of D; `sel`, of every type, takes A or B by one bit of C; `mov` takes A. -/
def Obligations.CompareSelectMove : Prop :=
  Says.Compare ∧ Says.SelectAndMove

/-! ### Floating point (R78, R81, R173-R177) -/

/-- An instruction that computes `res` in each lane, with its flags: when no enabled flag is raised it commits, and D holds the
results (R81, R173). -/
def commitsLanes (op : ROp) (w : RWord) (s : State) (c : Ctx) (res : Nat → Nat × FpFlags) : Prop :=
  let flags := (c.lanesOf (op.uniform w)).map fun l => (l, (res l).2)
  flagTrap (fpEnables c.g.fpmode) flags = none →
  Commits (exec (op.instr w) s) s c (op.front w) (allFlags flags) fun g' l =>
    g'.bits w.d (op.slotD w).regs l = extend (op.slotD w) (res l).1

/-- R173: the exact sum or product of the decoded operands is rounded once to the type, with the draw of R96 under sr; NaN results
are cnan(t). -/
def Says.FloatArithmetic : Prop :=
  ∀ (s : State) (c : Ctx) (op : ROp) (w : RWord), op ∈ [.fadd, .fsub, .fmul, .fma] → op.wf w → Runs s (op.front w) c →
    let mode := c.g.rounding w.rnd
    commitsLanes op w s c fun l =>
      let src := fun (x : Operand) => decode w.ty (c.g.rd x l w.ty)
      let exact := match op with
        | .fadd => addEx (src w.a) (src w.b) mode
        | .fsub => addEx (src w.a) (src w.b).negate mode
        | .fmul => mulEx (src w.a) (src w.b)
        | _ => fmaEx (src w.a) (src w.b) (src (w.c.getD .zero)) mode
      let rounded := roundTo w.ty exact.1 mode w.sat (s.rho c (op.uniform w) mode l)
      (rounded.1, rounded.2 ||| exact.2)

/-- The value of an exact number over a step 2^q that is no greater than its own: m × 2^(e − q), with its sign. -/
def Exact.over (q : Int) : Exact → Int
  | .fin n m e => (if n then -1 else 1) * (m * 2 ^ (e - q).toNat)
  | _ => 0

/-- R173 and R76: sums and products of finite operands are exact, and infinities and NaNs follow IEEE 754. -/
def Says.ExactSumsAndProducts : Prop :=
  (∀ (n n' : Bool) (m m' : Nat) (e e' : Int) (mode : Rnd), ∃ k p q, addEx (.fin n m e) (.fin n' m' e') mode = (.fin k p q, 0) ∧
    ∀ r, r ≤ e → r ≤ e' → r ≤ q →
      Exact.over r (.fin k p q) = Exact.over r (.fin n m e) + Exact.over r (.fin n' m' e')) ∧
  (∀ (n n' : Bool) (m m' : Nat) (e e' : Int), ∃ k p, mulEx (.fin n m e) (.fin n' m' e') = (.fin k p (e + e'), 0) ∧
    ∀ r r', r ≤ e → r' ≤ e' →
      Exact.over (r + r') (.fin k p (e + e')) = Exact.over r (.fin n m e) * Exact.over r' (.fin n' m' e')) ∧
  (∀ (n : Bool) (mode : Rnd), addEx (.inf n) (.inf !n) mode = (.nan false, FpFlags.nv) ∧ addEx (.inf n) (.inf n) mode = (.inf n, 0)) ∧
  (∀ (n k : Bool) (e : Int), mulEx (.inf n) (.fin k 0 e) = (.nan false, FpFlags.nv) ∧ mulEx (.fin k 0 e) (.inf n) = (.nan false, FpFlags.nv)) ∧
  ∀ (x : Exact) (sig : Bool) (mode : Rnd), (addEx (.nan sig) x mode).1.isNan ∧ (addEx x (.nan sig) mode).1.isNan ∧
    (mulEx (.nan sig) x).1.isNan ∧ (mulEx x (.nan sig)).1.isNan

/-- R78 Table 3: a magnitude m × 2^e rounded to a multiple of 2^q goes to the nearest (ties to even, or away from zero under
rna), toward zero, or in the direction of its sign; only a multiple that differs is inexact. -/
def Says.RoundingModes : Prop :=
  ∀ (mode : Rnd) (neg : Bool) (m : Nat) (e q : Int) (rho : Nat), mode ∈ [.rne, .rtz, .rup, .rdn, .rna] →
    let p := 2 ^ (q - e).toNat
    let x := m * 2 ^ (e - q).toNat
    let r := roundAt mode neg m e q rho
    r.2 = decide (x % p ≠ 0) ∧
    match mode with
    | .rtz => r.1 = x / p
    | .rup => r.1 = if x % p ≠ 0 ∧ neg = false then x / p + 1 else x / p
    | .rdn => r.1 = if x % p ≠ 0 ∧ neg = true then x / p + 1 else x / p
    | .rna => 2 * (r.1 * p) ≤ 2 * x + p ∧ 2 * x < 2 * (r.1 * p) + p
    | _ => 2 * (r.1 * p) ≤ 2 * x + p ∧ 2 * x ≤ 2 * (r.1 * p) + p ∧
        (2 * (r.1 * p) = 2 * x + p ∨ 2 * x = 2 * (r.1 * p) + p → x % p ≠ 0 → r.1 % 2 = 0)

/-- R76, R78 and R173: sums and products of finite operands are exact, and a magnitude is rounded to a grid as its mode says. -/
def Obligations.Rounding : Prop :=
  Says.ExactSumsAndProducts ∧ Says.RoundingModes

/-- R174: `fmin` and `fmax` answer one of their operands, with −0 below +0; a NaN gives the other operand, and two NaNs give
cnan(t); a signalling NaN raises NV. -/
def Says.MinimumAndMaximum : Prop :=
  ∀ (s : State) (c : Ctx) (op : ROp) (w : RWord), op ∈ [.fmin, .fmax] → op.wf w → Runs s (op.front w) c →
    commitsLanes op w s c fun l =>
      let a := c.g.rd w.a l w.ty
      let b := c.g.rd w.b l w.ty
      let x := decode w.ty a
      let y := decode w.ty b
      let below := fun (u v : Exact) => ltEx u v || (u.isZero && v.isZero && u.sign && !v.sign)
      let value :=
        if x.isNan && y.isNan then w.ty.cnan
        else if x.isNan then b else if y.isNan then a
        else if op = .fmin then (if below y x then b else a) else (if below y x then a else b)
      (value, if x.isSig || y.isSig then FpFlags.nv else 0)

/-- R175: `fcmp` writes bit DBIT of D by COND, with −0 equal to +0; NV comes of a signalling NaN, and under lt, le, gt and ge of
any NaN. -/
def Says.FloatCompare : Prop :=
  ∀ (s : State) (c : Ctx) (w : RWord), ROp.fcmp.wf w → Runs s (ROp.fcmp.front w) c →
    commitsLanes .fcmp w s c fun l =>
      let x := decode w.ty (c.g.rd w.a l w.ty)
      let y := decode w.ty (c.g.rd w.b l w.ty)
      let cond := w.opx.toNat % 8
      let bit := w.opx.toNat / 8 % 32
      let un := x.isNan || y.isNan
      let holds := match cond with
        | 0 => !un && eqEx x y
        | 1 => un || !eqEx x y
        | 2 => !un && ltEx x y
        | 3 => !un && (ltEx x y || eqEx x y)
        | 4 => !un && ltEx y x
        | 5 => !un && (ltEx y x || eqEx y x)
        | 6 => un
        | _ => !un
      let old := BitVec.ofNat 32 (c.g.bits w.d 1 l)
      let one := 1#32 <<< bit
      ((if holds then old ||| one else old &&& ~~~one).toNat,
        if x.isSig || y.isSig || (un && (2 ≤ cond && cond ≤ 5)) then FpFlags.nv else 0)

/-- R177: `fclass` writes a word with exactly one bit set, by Table 8. That it raises no flag for a signalling NaN is the model's choice
(log 80). -/
def Says.FloatClass : Prop :=
  ∀ (s : State) (c : Ctx) (w : RWord), ROp.fclass.wf w → Runs s (ROp.fclass.front w) c →
    Commits (exec (.fclass w) s) s c (ROp.fclass.front w) 0 fun g' l =>
      g'.bits w.d 1 l = 2 ^ (match decode w.ty (c.g.rd w.a l w.ty) with
        | .nan true => 0
        | .nan false => 1
        | .inf n => if n then 2 else 9
        | .fin n m e =>
          if m = 0 then (if n then 5 else 6)
          else if w.ty ≠ .l6 ∧ e = w.ty.fmt.qmin ∧ m < 2 ^ w.ty.fmt.frac then (if n then 4 else 7)
          else (if n then 3 else 8))

/-- R174, R175 and R177: the smaller or larger operand, the comparison in one bit of D, and the class of a value in a word with
one bit set. -/
def Obligations.FloatComparison : Prop :=
  Says.MinimumAndMaximum ∧ Says.FloatCompare ∧ Says.FloatClass

/-- R173 and R176: `fscale` rounds a × 2^k once, with k read as an integer; `frnd` rounds to an integral value, raising NX when it
changes; `fcvt` reduces an integer to an integer type, rounds a value to a floating type, and answers satint with NV for a value
outside an integer type. -/
def Says.ScaleRoundConvert : Prop :=
  ∀ (s : State) (c : Ctx) (op : ROp) (w : RWord), op ∈ [.fscale, .frnd, .fcvt] → op.wf w → Runs s (op.front w) c →
    let mode := c.g.rounding w.rnd
    commitsLanes op w s c fun l =>
      let a := c.g.rd w.a l w.ty
      let x := decode w.ty a
      let rho := s.rho c (op.uniform w) mode l
      let sig := if x.isSig then FpFlags.nv else 0
      match op with
      | .fscale =>
        let k := Ty.intOf .i32 (c.g.rd w.b l .i32)
        let scaled := match x with | .fin n m e => if m = 0 then x else .fin n m (e + k) | y => y
        let r := roundTo w.ty scaled mode w.sat rho
        (r.1, r.2 ||| sig)
      | .frnd =>
        match x with
        | .nan _ => (w.ty.cnan, sig)
        | .inf _ => (a, 0)
        | .fin n m e =>
          if m = 0 ∨ 0 ≤ e then (a, 0)
          else
            let r := roundAt mode n m e 0 rho
            ((roundTo w.ty (.fin n r.1 0) .rne false 0).1, if r.2 then FpFlags.nx else 0)
      | _ =>
        let dty := op.slotD w
        if w.ty.isInt && dty.isInt then (truncInt (reducedTo dty w.sat (w.ty.intOf a)) dty.width, 0)
        else if dty.isInt then roundToInt dty x mode rho
        else
          let r := roundTo dty x mode w.sat rho
          (r.1, r.2 ||| (if x.isSig || (x.isNan && w.ty == .l6 && dty != .l6) then FpFlags.nv else 0))

/-- R173 and R176: sums, products, scalings, integral roundings and conversions round the exact value once. -/
def Obligations.FloatArithmetic : Prop :=
  Says.FloatArithmetic ∧ Says.ScaleRoundConvert

/-- The 256-bit two's-complement integer of an accumulator's eight registers (R88). -/
def wideOf (g : Group) (x : Operand) (l : Nat) : Int := (BitVec.ofNat 256 (g.bits x 8 l)).toInt

/-- The flags that an instruction raises, by the lane that raises them (R81, R89, R185). -/
def raisedFlags (s : State) (c : Ctx) (op : ROp) (w : RWord) : List (Nat × FpFlags) :=
  let mode := c.g.rounding w.rnd
  let each := fun (f : Nat → FpFlags) => (c.lanesOf (op.uniform w)).map fun l => (l, f l)
  match op with
  | .xacc => each fun l => (accumulate (wideOf c.g w.d l) (decode w.ty (c.g.rd w.a l w.ty)) w.opx.toInt).2
  | .xcvt => each fun l => (wideTo w.ty (wideOf c.g w.a l) w.opx.toInt mode w.sat (s.rho c (op.uniform w) mode l)).2
  | .lred => c.stepFlags (reduceLanes (s.combOf c w) c.beats (c.laneVal w)).fl
  | .scan => c.stepFlags ((scanLanes (s.combOf c w) c.beats (c.laneVal w)).flatMap fun p => p.2.fl)
  | _ => each fun l => (s.laneBits c op w l).2

/-- R81, R89 and R318: when a raised flag has its enable set, no lane writes a result. Outside a relaxation body the flags join FPMODE, and
the instruction raises FPEXC, or XOVF when only XOV is enabled and raised; the trap names the lanes that raised an enabled flag, which
for a step of `scan` or `lred` are, by the model's choice (log 34), the active lane at the step's position or else every active lane. In a
body FPMODE stays, the flags join the lanes' steps, and a lane that raised an enabled flag holds the fault as its step's first and
stands at the `rxend`. -/
def Obligations.EnabledFlagTraps : Prop :=
  ∀ (s : State) (c : Ctx) (op : ROp) (w : RWord),
    op ∈ [.fadd, .fsub, .fmul, .fma, .fmin, .fmax, .fcmp, .fcvt, .frnd, .fscale, .xacc, .xcvt, .scan, .lred] →
    op.wf w → Runs s (op.front w) c →
    let flags := raisedFlags s c op w
    let enabled := fpEnables c.g.fpmode
    let lanes := (flags.filter fun p => p.2 &&& enabled != 0).map (·.1)
    let cause := fun (x : FpFlags) => if x &&& enabled &&& 31 ≠ 0 then Cause.fpexc else .xovf
    allFlags flags &&& enabled ≠ 0 →
    (s.bodyOf c.gid c.g = none →
      ∃ t, exec (op.instr w) s = .next (t.raise c.gid (Trap.mk' (cause (allFlags flags)) c.own (if op.uniform w then c.act else lanes))) ∧
        t = s.modGroup c.gid fun g => { g with fpmode := g.fpmode ||| ((allFlags flags).setWidth 32 <<< 8) }) ∧
    ∀ r, s.bodyOf c.gid c.g = some r →
      ∃ t g' r', exec (op.instr w) s = .next t ∧ SameOutside c.gid s t ∧ Quiet s t ∧ t.group c.gid = some g' ∧
        t.bodyOf c.gid g' = some r' ∧ g'.fpmode = c.g.fpmode ∧ (∀ k, g'.reg k = c.g.reg k ∧ g'.isFull k = c.g.isFull k) ∧
        (∀ f ∈ g'.fibres, f.lane ∈ lanes → f.pc = BitVec.ofNat 64 (r.hi - 12) ∧ f.held = true) ∧
        ∀ l ∈ c.act, ∀ n, r.stepOf c.gid l = some n →
          let old := smGet (StepEval.start r.desc) r.evals n
          let new := smGet (StepEval.start r.desc) r'.evals n
          let mine := allFlags (flags.filter fun p => p.1 == l)
          new.flags = old.flags ||| mine ∧
            new.fault = if old.fault.isSome ∨ mine &&& enabled = 0 then old.fault else some (Trap.mk' (cause mine) c.own [l])

/-! ### Format 1 and paired words (R31, R36-R38) -/

/-- R31: a format-1 word computes as its format-0 form does with B the immediate; `cmp` takes the low 16 bits, sign-extended, and
its COND and DBIT from the immediate; `mov` writes the immediate. -/
def Says.ImmediateForms : Prop :=
  ∀ (s : State) (c : Ctx) (op : IOp) (w : ImmWord), op.wf w → Runs s (op.front w) c →
    Commits (exec (op.instr w) s) s c (op.front w) 0 fun g' l =>
      let a := BitVec.ofNat 32 (c.g.rd w.a l .i32)
      match op with
      | .add | .sub | .mul24 | .mul32 | .min | .max =>
        holdsInt g' w.d l .i32 (reducedTo .i32 false (exactInteger op.toR .i32 a.toInt w.imm.toInt 0))
      | .and | .or | .xor | .andn => BitVec.ofNat 32 (g'.bits w.d 1 l) = logicResult op.toR a w.imm 0
      | .shl | .shr | .sar | .rotl => BitVec.ofNat 32 (g'.bits w.d 1 l) = logicResult op.toR a 0 w.imm.toNat
      | .cmp =>
        let b := (w.imm.extractLsb' 0 16).toInt
        let holds : Bool := match (w.imm.extractLsb' 21 3).toNat with
          | 0 => a.toInt = b | 1 => a.toInt ≠ b | 2 => a.toInt < b | 3 => a.toInt ≤ b | 4 => a.toInt > b | _ => a.toInt ≥ b
        ∀ i < 32, (g'.bits w.d 1 l).testBit i =
          if i = (w.imm.extractLsb' 16 5).toNat then holds else (c.g.bits w.d 1 l).testBit i
      | .mov => g'.bits w.d 1 l = w.imm.toNat
      | .lea => BitVec.ofNat 64 (g'.bits w.d 2 l) = c.g.rdDWord w.a l + w.imm.signExtend 64

/-- R36 to R38: the halves of a paired word act on the same lanes, and both read before either writes; each writes what its own
word of format 0 would, and their flags join. -/
def Says.PairedWords : Prop :=
  ∀ (s : State) (c : Ctx) (w : PWord), w.wf → Runs s w.front c →
    let res := fun (h : PHalf) (l : Nat) => s.laneBits c h.op (h.word w) l
    let flags := [w.h0, w.h1].flatMap fun h => c.act.map fun l => (l, (res h l).2)
    flagTrap (fpEnables c.g.fpmode) flags = none →
    Commits (exec (.pairedWord w) s) s c w.front (allFlags flags) fun g' l =>
      ∀ h ∈ [w.h0, w.h1], g'.bits (.v h.d) h.ty.regs l = extend h.ty (res h l).1

/-- R31 and R36 to R38: a format-1 word computes as its format-0 form does with B the immediate, and each half of a paired word
as its own word would. -/
def Obligations.ImmediateAndPairedForms : Prop :=
  Says.ImmediateForms ∧ Says.PairedWords

/-! ### The wide accumulator (R88-R90, R180, R181) -/

/-- R180 and R181: `xacc` adds one term to the accumulator that D names, and `xcvt` converts the one that A names. -/
def Says.WideAccumulator : Prop :=
  (∀ (s : State) (c : Ctx) (w : RWord), ROp.xacc.wf w → Runs s (ROp.xacc.front w) c →
    let sum := fun (l : Nat) => accumulate (wideOf c.g w.d l) (decode w.ty (c.g.rd w.a l w.ty)) w.opx.toInt
    let flags := (c.lanesOf (ROp.xacc.uniform w)).map fun l => (l, (sum l).2)
    flagTrap (fpEnables c.g.fpmode) flags = none →
    Commits (exec (.xacc w) s) s c (ROp.xacc.front w) (allFlags flags) fun g' l => wideOf g' w.d l = (sum l).1) ∧
  ∀ (s : State) (c : Ctx) (w : RWord), ROp.xcvt.wf w → Runs s (ROp.xcvt.front w) c →
    let mode := c.g.rounding w.rnd
    let res := fun (l : Nat) =>
      wideTo w.ty (wideOf c.g w.a l) w.opx.toInt mode w.sat (s.rho c (ROp.xcvt.uniform w) mode l)
    let flags := (c.lanesOf (ROp.xcvt.uniform w)).map fun l => (l, (res l).2)
    flagTrap (fpEnables c.g.fpmode) flags = none →
    Commits (exec (.xcvt w) s) s c (ROp.xcvt.front w) (allFlags flags) fun g' l =>
      g'.bits w.d w.ty.regs l = extend w.ty (res l).1

/-- R89: a NaN leaves W with NV; a saturated W stays; an infinity saturates W by its sign; a finite term on the grid of 2^(E − 200)
is added exactly, and a sum at or beyond the bounds saturates with XOV. -/
def Says.AccumulateRule : Prop :=
  ∀ (w anchor : Int), -(2 ^ 255) ≤ w → w < 2 ^ 255 →
    (∀ sig, accumulate w (.nan sig) anchor = (w, FpFlags.nv)) ∧
    (∀ n m e, w = 2 ^ 255 - 1 ∨ w = -(2 ^ 255) → accumulate w (.fin n m e) anchor = (w, 0)) ∧
    (w ≠ 2 ^ 255 - 1 → w ≠ -(2 ^ 255) →
      (∀ n, accumulate w (.inf n) anchor = (if n then -(2 ^ 255) else 2 ^ 255 - 1, FpFlags.xov)) ∧
      ∀ n m e, anchor - 200 ≤ e →
        let sum := w + Exact.over (anchor - 200) (.fin n m e)
        accumulate w (.fin n m e) anchor =
          if 2 ^ 255 - 1 ≤ sum then (2 ^ 255 - 1, FpFlags.xov) else if sum ≤ -(2 ^ 255) then (-(2 ^ 255), FpFlags.xov) else (sum, 0))

/-- R88, R89, R90, R180 and R181: `xacc` adds one term to an accumulator by the wide rule, and `xcvt` rounds the accumulator
once. -/
def Obligations.WideAccumulators : Prop :=
  Says.WideAccumulator ∧ Says.AccumulateRule

/-! ### Across the lanes (R182-R187) -/

/-- R183: `shfl` gathers A, as raw bits, from the lanes that B names, and `bcast` from one lane, with zero for a lane outside active(B).
The B of `bcast` is of class s or a constant, and any other is ILLOP; its D may be of class s, and is then written once. -/
def Says.ShuffleAndBroadcast : Prop :=
  (∀ (w : RWord) (b : Operand), ROp.bcast.wf w = true → b.isS = false → b.isK = false →
    decodeWord (View.r .bcast { w with b := b }).encode = .illop) ∧
  (∀ cls ∈ [Operand.s 0, .k 0], ∃ w : RWord, ROp.bcast.wf w = true ∧ w.b = cls ∧ w.d.isS = true) ∧
  ∀ (s : State) (c : Ctx) (op : ROp) (w : RWord), op ∈ [.shfl, .bcast] → op.wf w → Runs s (op.front w) c →
    Commits (exec (op.instr w) s) s c (op.front w) 0 fun g' l =>
      let j := c.g.rd w.b l .n32 % c.g.id.width
      g'.bits w.d w.ty.regs l = if j ∈ c.act then c.g.rawBits w.a w.ty j else 0

/-- R184: `push` scatters A to the lanes that B names; the highest sender wins, a lane that receives nothing keeps its D, and C
tells a collision and a send that is lost. -/
def Says.PushScatters : Prop :=
  ∀ (s : State) (c : Ctx) (w : RWord) (status : Operand), ROp.push.wf w → w.c = some status → Runs s (ROp.push.front w) c →
    let dest := fun (l : Nat) => c.g.rd w.b l .n32 % c.g.id.width
    let got := c.act.filter fun j => c.act.any fun l => dest l == j
    let written := c.g.keys w.d w.ty.regs got ++ c.g.keys status 1 [0]
    ∃ t g', exec (.push w) s = .next t ∧
      Wrote s t c g' written ((c.g.luKeys (ROp.push.front w) c.act).filter fun k => !(c.g.dstKeys (ROp.push.front w) c.act).contains k) 0 c.nextPc ∧
      (∀ j ∈ got, ∃ l ∈ c.act, dest l = j ∧ (∀ k ∈ c.act, dest k = j → k ≤ l) ∧
        g'.bits w.d w.ty.regs j = c.g.rawBits w.a w.ty l) ∧
      g'.bits status 1 0 =
        (if c.act.any fun j => 2 ≤ (c.act.filter fun l => dest l == j).length then 1 else 0) +
        (if c.act.any fun a => !c.act.contains (dest a) then 2 else 0)

/-- R183 and R184: `shfl` and `bcast` read other lanes, and `push` writes them; of several senders the highest lane wins. -/
def Obligations.LaneMoves : Prop :=
  Says.ShuffleAndBroadcast ∧ Says.PushScatters

/-- The steps of R92 for an operation whose order does not matter: the active lanes' values combined. -/
def combined (op : Int → Int → Int) (vals : List Int) : Option Int :=
  match vals with
  | [] => none
  | x :: rest => some (rest.foldl op x)

/-- R185, R92 and R93: in every lane of active(B), `lred` leaves the reduction of all of them and `scan` that of those up to its
own, for the integer additions, minima and maxima without saturation. -/
def Says.IntegerScansAndReductions : Prop :=
  ∀ (s : State) (c : Ctx) (op : ROp) (w : RWord), op ∈ [.scan, .lred] → op.wf w → w.ty.isInt → w.sat = false → w.opx.toNat < 3 →
    Runs s (op.front w) c →
    Commits (exec (op.instr w) s) s c (op.front w) 0 fun g' l =>
      let lanes := (List.range (16 * c.beats)).filter fun j => c.act.contains j && (op = .lred || j ≤ l)
      let step := fun (a b : Int) => match w.opx.toNat with | 0 => a + b | 1 => min a b | _ => max a b
      ∃ x, combined step (lanes.map fun j => w.ty.intOf (c.g.rd w.a j w.ty)) = some x ∧
        holdsInt g' w.d l w.ty (reducedTo w.ty false x)

/-- R185: `scan` and `lred` of every type and function, by the steps of R92 and R93 in their order, with the draws of R96. -/
def Says.ScansAndReductions : Prop :=
  (∀ (s : State) (c : Ctx) (w : RWord), ROp.lred.wf w → Runs s (ROp.lred.front w) c →
    let r := reduceLanes (s.combOf c w) c.beats (c.laneVal w)
    flagTrap (fpEnables c.g.fpmode) (c.stepFlags r.fl) = none →
    Commits (exec (.lred w) s) s c (ROp.lred.front w) (allFlags (c.stepFlags r.fl)) fun g' l =>
      ∃ x, r.val = some x ∧ g'.bits w.d w.ty.regs l = extend w.ty x) ∧
  ∀ (s : State) (c : Ctx) (w : RWord), ROp.scan.wf w → Runs s (ROp.scan.front w) c →
    let r := scanLanes (s.combOf c w) c.beats (c.laneVal w)
    flagTrap (fpEnables c.g.fpmode) (c.stepFlags (r.flatMap fun p => p.2.fl)) = none →
    Commits (exec (.scan w) s) s c (ROp.scan.front w) (allFlags (c.stepFlags (r.flatMap fun p => p.2.fl))) fun g' l =>
      ∃ x, (∃ p ∈ r, p.1 = l ∧ p.2.val = some x) ∧ g'.bits w.d w.ty.regs l = extend w.ty x

/-- R186: `vote` tells whether a bit is set in all or in some lanes of active(B), in which lanes it is, or whether A is the same in
all of them. -/
def Says.Votes : Prop :=
  ∀ (s : State) (c : Ctx) (w : RWord), ROp.vote.wf w → Runs s (ROp.vote.front w) c →
    Commits (exec (.vote w) s) s c (ROp.vote.front w) 0 fun g' l =>
      let a := fun (j : Nat) => c.g.rdWord w.a j
      let set := fun (j : Nat) => (a j).getLsbD (w.opx.extractLsb' 3 5).toNat
      match (w.opx.extractLsb' 0 2).toNat with
      | 0 => g'.bits w.d w.ty.regs l = if ∀ j ∈ c.act, set j then 1 else 0
      | 1 => g'.bits w.d w.ty.regs l = if ∃ j ∈ c.act, set j then 1 else 0
      | 2 => ∀ j < w.ty.width, (g'.bits w.d w.ty.regs l).testBit j = (c.act.contains j && set j)
      | _ => g'.bits w.d w.ty.regs l = if ∀ i ∈ c.act, ∀ j ∈ c.act, a i = a j then 1 else 0

/-- R92, R93, R185 and R186: `scan` and `lred` combine the active lanes by the steps of R92 and R93, and `vote` tells what holds
in them. -/
def Obligations.LaneReductions : Prop :=
  Says.IntegerScansAndReductions ∧ Says.ScansAndReductions ∧ Says.Votes

/-! ### Control flow (R150-R159) -/

/-- R28, R151 to R154: `nop` goes on; after a transfer the active lanes stand at their targets and the rest of the batch at the
next instruction; `call` leaves that address in D. Targets are exact sums, instruction starts of the kernel, in the body of an open
region. That the starts are those of the group's own kernel is the model's choice (log 23). -/
def Says.ControlTransfers : Prop :=
  ∀ (s : State) (c : Ctx) (op : COp) (w : XWord), op ∈ [.nop, .bra, .brs, .jmp, .call, .ret] → op.wf w →
    Runs s ((View.c op w).front s) c →
    let offset := 12 * (w.m.extractLsb' 0 24).toInt
    let target : Nat → Int := fun l => match op with
      | .nop => c.own.toNat + 12
      | .jmp => (c.g.rdDWord w.a l).toNat + offset
      | .ret => (c.g.rdDWord w.a l).toNat
      | _ => c.own.toNat + offset
    (op ≠ .nop → ∀ l ∈ c.act, 0 ≤ target l ∧ c.g.id.isStart (target l).toNat) →
    (op ≠ .nop → ∀ r, s.bodyOf c.gid c.g = some r → ∀ l ∈ c.act, r.lo ≤ target l ∧ target l < r.hi) →
    ∃ t g', exec (op.instr w) s = .next t ∧
      Wrote s t c g' (c.g.dstKeys ((View.c op w).front s) c.act) (c.g.luKeys ((View.c op w).front s) c.act) 0
        (fun l => if l ∈ c.act then BitVec.ofInt 64 (target l) else c.own + 12) ∧
      (op = .call → ∀ l ∈ c.act, BitVec.ofNat 64 (g'.bits w.d 2 l) = c.own + 12)

/-- R20: a transfer of an active lane to an address that is no instruction start of the kernel's text, one below 0 among them, raises
ALIGN, with TRAPADDR the target of the first such lane; nothing of the instruction commits. The starts of the group's own kernel
(log 23), and ALIGN before RXBODY in a relaxation body (log 49), are the model's choice. -/
def Says.BadTargetsTrap : Prop :=
  ∀ (s : State) (c : Ctx) (op : COp) (w : XWord), op ∈ [.bra, .brs, .jmp, .call, .ret, .spawn] → op.wf w →
    Runs s ((View.c op w).front s) c →
    let offset := 12 * (w.m.extractLsb' 0 24).toInt
    let target : Nat → Int := fun l => match op with
      | .jmp => (c.g.rdDWord w.a l).toNat + offset
      | .ret => (c.g.rdDWord w.a l).toNat
      | _ => c.own.toNat + offset
    let bad := c.act.filter fun l => decide (target l < 0) || !c.g.id.isStart (target l).toNat
    ∀ l0 rest, bad = l0 :: rest →
      exec (op.instr w) s = .next (s.raise c.gid (Trap.mk' .align c.own bad (BitVec.ofInt 64 (target l0))))

/-- R20, R28 and R151 to R154: a transfer moves the active lanes to their targets and the rest of the batch to the next
instruction; a target that is no instruction start raises ALIGN, and nothing of the instruction commits. What an instruction
start is (log 23), and ALIGN before RXBODY in a relaxation body (log 49), are the model's choice. -/
def Obligations.ControlTransfers : Prop :=
  Says.ControlTransfers ∧ Says.BadTargetsTrap

/-- R155: the active lanes are held at a `join`, and the rest of their batch goes on; once every live lane is held, those at the
smallest PC go on together at the instruction after theirs, and further, with the others, when it is the `join` at which all of those
are held. -/
def Says.JoinHoldsAndReleases : Prop :=
  ∀ (s : State) (c : Ctx) (w : XWord), COp.join.wf w → Runs s (ctlFront w) c → c.g.handler = none → c.g.halt = none →
    s.bodyOf c.gid c.g = none →
    let stands := fun (f : Fibre) => if f.lane ∈ c.act then c.own else f.pc
    ∃ t g', exec (.join w) s = .next t ∧ t.group c.gid = some g' ∧ SameOutside c.gid s t ∧ Quiet s t ∧ t.teams = s.teams ∧
      (∀ k, g'.reg k = c.g.reg k) ∧
      ((∃ f ∈ c.g.fibres, f.held = false ∧ f.lane ∉ c.act) →
        g'.fibres = c.g.fibres.map fun f =>
          if f.lane ∈ c.act then { f with pc := c.own, held := true }
          else if f.lane ∈ c.batch then { f with pc := c.own + 12 } else f) ∧
      ((∀ f ∈ c.g.fibres, f.held = false → f.lane ∈ c.act) →
        ∃ p, (∃ f ∈ c.g.fibres, stands f = p) ∧ (∀ f ∈ c.g.fibres, p ≤ stands f) ∧
          g'.fibres =
            if (∃ f ∈ c.g.fibres, stands f ≠ p) ∧ (∀ f ∈ c.g.fibres, stands f ≠ p → stands f = p + 12) then
              c.g.fibres.map fun f => { f with pc := p + 24, held := false }
            else c.g.fibres.map fun f =>
              if stands f = p then { f with pc := p + 12, held := false } else { f with pc := stands f, held := true })

/-- R156, R139 and R148: `spawn` places a fibre for each active lane in the core's bins, all or none, with a FIBID whose bit 31 is set
and the arguments that A names, and counts it in the lane's SC. That a new bin keeps the spawner's SWAPTMO is the model's choice
(log 26). -/
def Says.SpawnPlacesFibres : Prop :=
  ∀ (s : State) (c : Ctx) (w : XWord) (bins : List Bin), COp.spawn.wf w → Runs s ((View.c .spawn w).front s) c →
    let target := c.own.toNat + 12 * (w.m.extractLsb' 0 24).toInt
    let entry := BitVec.ofInt 64 target
    let fibre := fun (l : Nat) =>
      let sc := ((c.g.fibres.find? fun f => f.lane == l).map (·.sc)).getD 0
      let word := (kcg (loWord c.g.id.seed) (hiWord c.g.id.seed) (c.g.fibid l) sc 0 0x46494252#32).x0
      BinFibre.mk (0x80000000#32 ||| (word &&& 0x7FFFFFFF#32)) ((List.range (w.f 27 24)).map fun j => c.g.reg (c.g.key w.a l j))
    0 ≤ target → c.g.id.isStart target.toNat →
    s.newId.2.placeFibres ⟨c.g.id.core, c.g.id, entry, c.g.swaptmo, s.dev.clk + c.g.bintmo.toNat, s.sched.nextId⟩
      (s.core c.g.id.core).bins (c.act.map fibre) = some bins →
    ∃ t g', exec (.spawn w) s = .next t ∧ t.group c.gid = some g' ∧ SameOutside c.gid s t ∧ t.order = s.order ∧ t.work = s.work ∧
      t.core c.g.id.core = { s.core c.g.id.core with bins := bins } ∧ (∀ k, k ≠ c.g.id.core → t.core k = s.core k) ∧
      (∀ k, g'.reg k = c.g.reg k) ∧
      (c.g.halt = none → (∀ f ∈ c.g.fibres, f.held = false) →
        g'.fibres = c.g.fibres.map fun f =>
          { f with
            sc := if f.lane ∈ c.act then f.sc + 1 else f.sc
            pc := if f.lane ∈ c.batch then c.own + 12 else f.pc })

/-- R148 and R149: a fibre joins the bin of its key that takes fibres, and the bin closes at WIDTH. Else it needs a new bin, which it
opens, with its timer set, once every closed bin of the core has left for a slot or the swap area, while fewer than 16 others are in
use; else it has no place. A bin whose timer has expired is closed. That a new bin keeps the spawner's SWAPTMO is the model's choice
(log 26). -/
def Says.SpawnBins : Prop :=
  ∀ (s : State) (p : SpawnAt) (bins : List Bin) (x : BinFibre),
    let mine := fun (b : Bin) => b.ctx == p.id.ctx && b.grid == p.id.grid && b.team == p.id.team && b.ident.role == p.id.role &&
      b.entry == p.entry && !b.out
    let shut := fun (b : Bin) => b.closed || decide (b.deadline ≤ s.dev.clk)
    (∀ pre b post, bins = pre ++ b :: post → (∀ y ∈ pre, (mine y && !shut y) = false) → (mine b && !shut b) = true →
      s.placeFibre p bins x = some (pre ++
        { b with fibres := b.fibres ++ [x], closed := decide (p.id.width ≤ b.fibres.length + 1) } :: post)) ∧
    ((∀ y ∈ bins, (mine y && !shut y) = false) →
      (s.binsLeave p.core (bins.filter fun y => !y.out && shut y) [] [] = false → s.placeFibre p bins x = none) ∧
      (s.binsLeave p.core (bins.filter fun y => !y.out && shut y) [] [] = true →
        s.placeFibre p bins x =
          if bins.countP (fun b => !b.out && !shut b) < 16 then
            some (bins ++ [⟨p.id.ctx, p.id.team, p.id.grid, p.entry, p.id, p.swaptmo, p.deadline, p.order,
              decide (p.id.width ≤ 1), false, [x]⟩])
          else none))

/-- R139, R148 and R156: `spawn` places a fibre for each active lane in the bins of its core, all or none. -/
def Obligations.SpawnedFibres : Prop :=
  Says.SpawnPlacesFibres ∧ Says.SpawnBins

/-- R157: the fibres of the active lanes end; with the last one the group ends, and while it is listed it has no fibres. -/
def Says.FibresEnd : Prop :=
  ∀ (s : State) (c : Ctx) (w : XWord), COp.fend.wf w → Runs s (ctlFront w (body := false)) c → c.g.halt = none →
    (∀ f ∈ c.g.fibres, f.held = false) →
    ∃ t, exec (.fend w) s = .next t ∧ t.mem = s.mem ∧ t.order = s.order ∧ t.ctxs = s.ctxs ∧ t.dev = s.dev ∧
      ((∃ f ∈ c.g.fibres, f.lane ∉ c.act) →
        ∃ g', t.group c.gid = some g' ∧ (∀ k, g'.reg k = c.g.reg k) ∧
          g'.fibres = (c.g.fibres.filter fun f => !c.act.contains f.lane).map fun f =>
            if f.lane ∈ c.batch then { f with pc := c.own + 12 } else f) ∧
      ((∀ f ∈ c.g.fibres, f.lane ∈ c.act) → ∀ g', t.group c.gid = some g' → g'.ended = true ∧ g'.fibres = [])

/-- R158: `yield` gives the group a new age, after every age that was given before, and keeps it from issuing for N cycles. -/
def Says.YieldMakesYoungest : Prop :=
  ∀ (s : State) (c : Ctx) (w : XWord), COp.yield.wf w → Runs s (ctlFront w) c →
    ∃ t g', exec (.yield w) s = .next t ∧ t.group c.gid = some g' ∧ SameOutside c.gid s t ∧ t.order = s.order ∧
      (∀ k, g'.reg k = c.g.reg k) ∧ (∀ k, g'.isFull k = c.g.isFull k) ∧ g'.fpmode = c.g.fpmode ∧ c.GoesTo g' c.nextPc ∧
      g'.notBefore = s.dev.clk + w.m.toNat + 1 ∧ s.sched.nextId ≤ g'.age ∧ g'.age < t.sched.nextId

/-- R155, R157 and R158: lanes held at a `join` go on together, fibres end, and the group with its last one, and `yield` makes
its group the youngest. -/
def Obligations.FibresHeldAndEnded : Prop :=
  Says.JoinHoldsAndReleases ∧ Says.FibresEnd ∧ Says.YieldMakesYoungest

/-! ### Taking a trap and returning (R352-R360, R373) -/

/-- The registers of the handler window read zero and are full. -/
def windowClear (g : Group) : Prop := ∀ k, (k / 65536 = 4 ∨ k / 65536 = 5) → g.reg k = 0 ∧ g.isFull k = true

/-- What trap entry leaves of a group (R354): the trap registers, the handler window, the enables saved and cleared, and the trapping
batch at the kernel's TRAP; every other register, batch and flag is as it was, but the destination registers `back` of an instruction
that had issued and waited: they are full again, with their old values. -/
structure Entered (g g' : Group) (tr : Trap) (entry : Nat) (lanes back : List Nat) : Prop where
  cause : g'.trap.cause.toNat % 2 ^ 8 = tr.cause.code
  resume : g'.trap.cause.getLsbD 8 = tr.resume
  body : g'.trap.cause.getLsbD 9 = tr.body
  info : g'.trap.cause.extractLsb' 16 16 = tr.info
  pc : g'.trap.pc = tr.pc
  addr : g'.trap.addr = tr.addr
  traplanes : g'.trap.lanes = tr.lanes
  level : g'.trap.level = BitVec.ofNat 32 tr.level
  handler : g'.handler = some ⟨lanes, g.fpmode.extractLsb' 16 6⟩
  enables : g'.fpmode = g.fpmode &&& 0xFFC0FFFF#32
  window : windowClear g'
  regs : ∀ k, k / 65536 ≠ 4 → k / 65536 ≠ 5 → g'.reg k = g.reg k
  bits : ∀ k, k / 65536 ≠ 4 → k / 65536 ≠ 5 → g'.isFull k = (g.isFull k || back.contains k)
  fibres : g'.fibres = g.fibres.map fun f => if f.lane ∈ lanes then { f with pc := BitVec.ofNat 64 entry, held := false } else f
  id : g'.id = g.id
  stat : g'.stat = g.stat
  lc : g'.lc = g.lc
  pending : g'.pending = none
  wait : g'.wait = none

/-- The destination registers of an instruction that has issued and waits, which were full before it issued. -/
def waitedKeys (s : State) (g : Group) : List Nat :=
  match g.wait.bind Wait.due with
  | none => []
  | some d => ((s.work.producers.filter (·.id == d.prod)).flatMap fun p => p.writes.map (·.1)).filter fun k => !d.was.contains k

/-- R354: a trap outside a relaxation body, in a group with a handler that is not in it, enters the handler when a window of the core
is free. An instruction that had issued and waited is taken back. -/
def Says.TrapEntry : Prop :=
  ∀ (s : State) (gid : Nat) (g : Group) (tr : Trap) (entry : Nat), s.group gid = some g → g.halt = none → s.bodyOf gid g = none →
    g.handler = none → g.id.trapAt = some entry → s.windowsUsed g.id.core < 16 →
    tr.body = false → (∃ f ∈ g.fibres, f.held = false ∧ f.pc = tr.pc) →
    let lanes := (g.fibres.filter fun f => !f.held && f.pc == tr.pc).map (·.lane)
    let t := s.raise gid tr
    ∃ g', t.group gid = some g' ∧ Entered g g' tr entry lanes (waitedKeys s g) ∧ SameOutside gid s t ∧ t.order = s.order ∧
      t.cores = s.cores ∧ t.teams = s.teams ∧ t.sched = s.sched ∧
      (g.wait.bind Wait.due = none → t.work = s.work) ∧
      (∀ d, g.wait.bind Wait.due = some d →
        t.work = { s.work with producers := s.work.producers.filter fun p => p.id != d.prod })

/-- R355: while all 16 handler windows of the core are in use the trap waits, with nothing of the group changed; TRAP_ENTRY, or
HANDLER_WINDOW_FREE when no other group of the core waits, then enters the handler. -/
def Says.TrapWaitsForWindow : Prop :=
  ∀ (s : State) (gid : Nat) (g : Group) (tr : Trap) (entry : Nat), s.group gid = some g → g.halt = none → s.bodyOf gid g = none →
    g.handler = none → g.id.trapAt = some entry → g.wait.bind Wait.due = none →
    (16 ≤ s.windowsUsed g.id.core →
      ∃ n, (s.raise gid tr).group gid = some { g with issued := true, wait := none, pending := some tr, notBefore := n }) ∧
    (g.pending = some tr → s.windowsUsed g.id.core < 16 → g.place = .slot → tr.body = false →
      (∃ f ∈ g.fibres, f.held = false ∧ f.pc = tr.pc) →
      let lanes := (g.fibres.filter fun f => !f.held && f.pc == tr.pc).map (·.lane)
      (∃ t g', exec (.trapEntry gid) s = .next t ∧ t.group gid = some g' ∧ Entered g g' tr entry lanes [] ∧ SameOutside gid s t) ∧
      ((∀ p ∈ s.groups, p.2.id.core = g.id.core → p.2.pending.isSome → p.2.place = .slot → p.1 = gid) →
        ∃ t g', exec (.handlerWindowFree g.id.core) s = .next t ∧ t.group gid = some g' ∧ Entered g g' tr entry lanes [] ∧
          SameOutside gid s t))

/-- R357: a trap with no handler, or in the handler, ends every fibre of the group and marks its grid TRAPPED, unless a debugger with
halt-on-trap halts the group. -/
def Says.TrapWithoutHandler : Prop :=
  ∀ (s : State) (gid : Nat) (g : Group) (tr : Trap), s.group gid = some g → g.halt = none → s.bodyOf gid g = none →
    (g.handler.isSome ∨ g.id.trapAt = none) →
    (s.haltsOnTrap g.id.ctx = false →
      (∀ gr, s.grid g.id.grid = some gr → ∃ gr', (s.raise gid tr).grid g.id.grid = some gr' ∧ gr'.trapped = true) ∧
      ∀ g', (s.raise gid tr).group gid = some g' → g'.ended = true ∧ g'.fibres = []) ∧
    (s.haltsOnTrap g.id.ctx = true → g.wait.bind Wait.due = none →
      (s.raise gid tr).group gid = some { g with issued := true, wait := none, halt := some ⟨[], some tr, false⟩ })

/-- R354, R355 and R357: a trap saves its record and the enables and goes to TRAP; with no free window it waits; with no
handler, or in the handler, it ends the group. -/
def Obligations.TrapEntry : Prop :=
  Says.TrapEntry ∧ Says.TrapWaitsForWindow ∧ Says.TrapWithoutHandler

/-- R373: `trap` always raises TRAP and `brk` BRK, after commit and with INFO, and so enter the handler; under a debugger `brk` halts
the group instead. -/
def Says.TrapAndBreak : Prop :=
  ∀ (s : State) (c : Ctx) (op : YOp) (w : XWord) (entry : Nat), op ∈ [.trap, .brk] → op.wf w → Runs s (ctlFront w (body := false)) c →
    c.g.halt = none → c.g.handler = none → c.g.wait.bind Wait.due = none →
    ((op = .trap ∨ s.debugged c.g.id.ctx = false) → c.g.id.trapAt = some entry → s.windowsUsed c.g.id.core < 16 →
      ∃ t g', exec (op.instr w) s = .next t ∧ t.group c.gid = some g' ∧ SameOutside c.gid s t ∧
        Entered c.g g' { Trap.mk' (if op = .trap then .trap else .brk) c.own c.act with info := w.m.extractLsb' 0 16, resume := true }
          entry c.batch []) ∧
    (op = .brk → s.debugged c.g.id.ctx →
      ∃ t g', exec (.brk w) s = .next t ∧ t.group c.gid = some g' ∧ SameOutside c.gid s t ∧
        g'.halt = some ⟨[], none, true⟩ ∧ g'.fibres = c.g.fibres ∧ ∀ k, g'.reg k = c.g.reg k)

/-- R359, R355 and R356: `eret` outside a region's trap sends the handler batch to TRAPPC, or to the instruction after it when RESUME or
its SKIP is set, restores the enables, and frees the window, for which nothing in flight is kept; outside the handler it raises
ILLOP. -/
def Says.ReturnFromTrap : Prop :=
  (∀ (s : State) (c : Ctx) (w : XWord) (h : Handler), YOp.eret.wf w → Runs s ((View.y .eret w).front s) c → c.g.handler = some h →
    c.g.trap.cause.getLsbD 9 = false → (∀ f ∈ c.g.fibres, f.held = false) →
    let back := if c.g.trap.cause.getLsbD 8 || w.m.getLsbD 0 then c.g.trap.pc + 12 else c.g.trap.pc
    c.g.id.isStart back.toNat →
    (∀ r, s.bodyOf c.gid c.g = some r → r.lo ≤ back.toNat ∧ back.toNat < r.hi) →
    let kept := fun (k : Nat) => k / 65536 != 4 && k / 65536 != 5
    ∃ t g', exec (.eret w) s = .next t ∧ t.group c.gid = some g' ∧ SameOutside c.gid s t ∧ t.order = s.order ∧ t.teams = s.teams ∧
      t.work = { s.work with producers := s.work.producers.map fun p =>
        if p.gid == c.gid then { p with writes := p.writes.filter fun x => kept x.1 } else p } ∧
      (∀ k, t.core k = { s.core k with sfu := (t.core k).sfu }) ∧ t.sched = { s.sched with nextId := t.sched.nextId } ∧
      g'.handler = none ∧ g'.fpmode = (c.g.fpmode &&& 0xFFC0FFFF#32) ||| (h.enables.setWidth 32 <<< 16) ∧
      (∀ k, k / 65536 ≠ 4 → k / 65536 ≠ 5 → g'.reg k = c.g.reg k) ∧ g'.trap = c.g.trap ∧
      g'.fibres = c.g.fibres.map fun f => if f.lane ∈ h.lanes then { f with pc := back, held := false } else f) ∧
  ∀ (s : State) (w : XWord) (gid : Nat) (g : Group) (own : DWord), YOp.eret.wf w → s.sched.cur = some gid → s.group gid = some g →
    g.pc = some own → g.wait = none → g.handler = none →
    exec (.eret w) s = .next (s.raise gid (Trap.mk' .illop own (g.batch own)))

/-- R355, R359 and R373: `trap` and `brk` trap after commit, and `eret` returns from the handler. -/
def Obligations.TrapInstructions : Prop :=
  Says.TrapAndBreak ∧ Says.ReturnFromTrap

/-! ### Special registers (R371, R374, R220) -/

/-- R371: `rdsr` reads the special register that M names, in the lane for LANEID and FIBID. -/
def Says.SpecialRegisterReads : Prop :=
  ∀ (s : State) (c : Ctx) (w : XWord) (r : SReg), YOp.rdsr.wf w → SReg.ofCode w.m.toNat = some r → Runs s (rdsrFront w) c →
    Commits (exec (.rdsr w) s) s c (rdsrFront w) 0 fun g' l =>
      let id := c.g.id
      g'.bits w.d (if r.wide then 2 else 1) l = (match r with
        | .laneid => l
        | .fibid => (c.g.fibid l).toNat
        | .grpid => id.grpid.toNat
        | .teamid => id.team
        | .taskidx => id.taskidx.toNat
        | .role => (match id.role with | .all => 0 | .copy => 1 | .matrix => 2 | .vector => 3) + id.ridx * 2 ^ 8 + id.rcnt * 2 ^ 16
        | .width => id.width
        | .seed => id.seed.toNat
        | .ctxid => id.ctx
        | .clk => s.dev.clk
        | .bintmo => c.g.bintmo.toNat
        | .swaptmo => c.g.swaptmo.toNat
        | .fpmode => c.g.fpmode.toNat
        | .srdepth => s.srdepth id
        | .rxstat => c.g.stat.rxstat.toNat
        | .rxres => c.g.stat.rxres.toNat
        | .rxpass => c.g.stat.rxpass.toNat
        | .rlstat => c.g.stat.rlstat.toNat
        | .skstat => c.g.stat.skstat.toNat
        | .cstat => ((s.ctx id.ctx).map (·.cstat.toNat)).getD 0
        | .lqstat => (s.core id.core).pq.length + c.g.lqfull.toNat * 2 ^ 8 + c.g.monfull.toNat * 2 ^ 20
        | .trapcause => c.g.trap.cause.toNat
        | .trappc => c.g.trap.pc.toNat
        | .trapaddr => c.g.trap.addr.toNat
        | .traplanes => c.g.trap.lanes.toNat
        | .traplevel => c.g.trap.level.toNat
        | .dbgdata => c.g.stat.dbgdata.toNat) % 2 ^ (if r.wide then 64 else 32)

/-- R371 with R81, R115, R133, R140, R302, R341, R360 and R368: what a `wrsr` stores in each register that may be written; nothing else
of the machine changes but the wait and the PCs. -/
def Says.SpecialRegisterWrites : Prop :=
  ∀ (s : State) (c : Ctx) (w : XWord) (r : SReg), YOp.wrsr.wf w → SReg.ofCode w.m.toNat = some r → Runs s (wrsrFront w) c →
    c.g.halt = none → (∀ f ∈ c.g.fibres, f.held = false) → w.hints.lua = false → w.hints.yld = false →
    let x := BitVec.ofNat 64 (c.g.rd w.a 0 (if r.wide then .n64 else .n32))
    let low := x.setWidth 32
    let g := { c.g with
      wait := none, issued := true
      fibres := c.g.fibres.map fun f => if c.batch.contains f.lane then { f with pc := c.own + 12 } else f }
    ∃ t, exec (.wrsr w) s = .next t ∧
      t.group c.gid = some (match r with
        | .bintmo => { g with bintmo := if low &&& 0xFFFF#32 = 0 then 1 else low &&& 0xFFFF#32 }
        | .swaptmo => { g with swaptmo := low }
        | .fpmode => { g with fpmode := (low &&& 0x003F3F00#32) ||| (if low.toNat % 8 < 6 then low &&& 7#32 else 0) }
        | .rlstat => { g with stat := { g.stat with
            rlstat := (x &&& 0x7FFFFFFFFFFFFFFF#64) ||| (g.stat.rlstat &&& 0x8000000000000000#64) } }
        | .lqstat => { g with lqfull := x.extractLsb' 8 12, monfull := x.extractLsb' 20 12 }
        | .trapcause => { g with trap := { g.trap with cause := (g.trap.cause &&& ~~~0x100#32) ||| (low &&& 0x100#32) } }
        | .trappc => { g with trap := { g.trap with pc := x } }
        | .dbgdata => { g with stat := { g.stat with dbgdata := x } }
        | _ => g) ∧
      (∀ k, k ≠ c.gid → t.group k = s.group k) ∧
      (∀ k, t.ctx k = if r = .cstat ∧ k = c.g.id.ctx then (s.ctx k).map fun x => { x with cstat := low } else s.ctx k) ∧
      t.mem = s.mem ∧ t.order = s.order ∧ t.grids = s.grids ∧ t.teams = s.teams ∧ t.cores = s.cores ∧ t.work = s.work ∧ t.dev = s.dev

/-- R374: `twc` reads, increments, sets or lowers a tensor write counter of the context, and D receives its old value. -/
def Says.WriteCounters : Prop :=
  ∀ (s : State) (c : Ctx) (w : XWord) (x : Context), YOp.twc.wf w → Runs s (twcFront w) c → s.ctx c.g.id.ctx = some x →
    let n := (w.m.extractLsb' 0 8).toNat
    let old := smGet 0 x.twc n
    let a := c.g.rdWord w.a 0
    let new := match (w.m.extractLsb' 8 2).toNat with | 0 => old | 1 => old + 1 | 2 => a | _ => if old < a then old else a
    ∃ t x' g', exec (.twc w) s = .next t ∧ t.ctx c.g.id.ctx = some x' ∧
      (∀ i, smGet 0 x'.twc i = if i = n then new else smGet 0 x.twc i) ∧ { x' with twc := x.twc } = x ∧
      Wrote (s.modCtx c.g.id.ctx fun k => { k with twc := smPut 0 k.twc n new }) t c g' (c.g.dstKeys (twcFront w) c.act)
        (c.g.luKeys (twcFront w) c.act) 0 c.nextPc ∧
      (w.d ≠ .zero → g'.bits w.d 1 0 = old.toNat)

/-- R371 and R374, with R81, R115, R133, R140, R302, R341, R360 and R368: `rdsr` reads a special register, `wrsr` stores the
fields that may be written, and `twc` moves a write counter. -/
def Obligations.SpecialRegisters : Prop :=
  Says.SpecialRegisterReads ∧ Says.SpecialRegisterWrites ∧ Says.WriteCounters

/-- R220: once the group's earlier writes have performed and nothing uses the entries, `tlbinv` removes every cached translation and
every cached non-leaf entry of the context for an address of the range, and no other. -/
def Says.TranslationInvalidate : Prop :=
  ∀ (s : State) (c : Ctx) (w : XWord), YOp.tlbinv.wf w → Runs s (tlbinvFront w) c →
    let v := c.g.rdDWord w.a 0
    let n := c.g.rd w.b 0 .n32
    let lo := v.toNat % 2 ^ 57 / 4096 * 4096
    let range := if n = 0 then (0, 2 ^ 57) else (lo, min (lo + 4096 * n) (if lo < 2 ^ 56 then 2 ^ 56 else 2 ^ 57))
    let gone := fun (t : Tlb) => t.ctx == c.g.id.ctx && t.va < range.2 && range.1 < t.va + t.bytes
    let path := fun (n : Node) => n.ctx == c.g.id.ctx && n.va < range.2 && range.1 < n.va + 2 ^ (12 + 9 * n.level)
    (canonical v = false → exec (.tlbinv w) s = .next (s.raise c.gid (Trap.mk' .addr c.own c.act v))) ∧
    (canonical v = true → s.released c.gid .device → s.usesEntries c.g.id.ctx (s.order.tlb.filter gone) = false →
      ∃ t g', exec (.tlbinv w) s = .next t ∧
        Wrote { s with order := { s.order with
            tlb := s.order.tlb.filter fun t => !gone t, nodes := s.order.nodes.filter fun n => !path n } } t c g' []
          (c.g.luKeys (tlbinvFront w) c.act) 0 c.nextPc)

/-! ### Memory (R212-R232, R252-R275) -/

/-- A group but for what it waits for: a write that another group's monitor watches is kept in that group's wait (R279). -/
def stillGroup (g : Group) : Group := { g with wait := none }

/-- A memory instruction has committed: the registers of a long-latency destination are empty until its producer writes back (R146),
no register has changed, the last-use hints have emptied theirs (R29), and the batch goes on. Of the other groups only what
their monitors saw can differ, and of the cores the tags that count the lines of their accesses (R370). -/
structure Accessed (s t : State) (c : Ctx) (g' : Group) (f : Front) (emptied : List Nat) : Prop where
  group : t.group c.gid = some g'
  keeps : KeepsGroup c.g g' [] (emptied ++ c.g.luKeys f c.act)
  fpmode : g'.fpmode = c.g.fpmode
  waits : ∀ k ∈ emptied, g'.isFull k = false
  lastUse : ∀ k ∈ c.g.luKeys f c.act, k ∉ c.g.dstKeys f c.act → g'.isFull k = false
  free : g'.wait = none
  next : c.GoesTo g' c.nextPc
  others : ∀ k, k ≠ c.gid → (t.group k).map stillGroup = (s.group k).map stillGroup
  grids : t.grids = s.grids
  ctxs : t.ctxs = s.ctxs
  cores : ∀ k, t.core k = { s.core k with reuse := (t.core k).reuse }

/-- Nothing that an access to M would first move into M is waiting (R256, R257, R259). -/
def Settled (s : State) : Prop := s.order.tc = [] ∧ s.order.partials = []

/-- The access performs in M or in a scratchpad share at once (R254). -/
def Direct (h : Hit) : Prop := match h.reach with | .spad _ _ => True | .glob _ _ p => p = .m

/-- The target of an element that performs at once accepts it by now too (R221, R222). -/
def Accepted (s : State) (c : Ctx) (k : Kind) (h : Hit) : Prop :=
  match h.reach with
  | .spad _ _ => True
  | .glob pa mt _ => s.allowed (s.targetAt pa mt) c.g.id.ctx pa h.e.bytes k = true

/-- An element on the paths Q_ch and H is queued (R258, R261), with the time of its issue, and as a body's load (R313). -/
def Queued (s t : State) (c : Ctx) (h : Hit) (k : AccKind) (prod : Nat) (keys : List Nat) : Prop :=
  let a := fun (pa ord : Nat) => (⟨c.gid, c.g.id.core, c.g.id.ctx, pa, h.e.bytes, k, prod, keys, ord,
    k == .load && (s.bodyOf c.gid c.g).isSome⟩ : Access)
  match h.reach with
  | .glob pa _ .qch => ∃ ord, s.sched.nextId ≤ ord ∧ a pa ord ∈ smGet [] t.order.qch (channelOf pa)
  | .glob pa _ .h => ∃ ord, s.sched.nextId ≤ ord ∧ a pa ord ∈ t.order.h
  | _ => True

/-- The bytes that stand where an element reaches. -/
def standing (s : State) (c : Ctx) (h : Hit) : List Byte :=
  match h.reach with
  | .spad j o => s.spadRead c.g.id.grid c.g.id.team j o h.e.bytes
  | .glob pa _ _ => s.readBytes pa h.e.bytes

/-- The checks that `ld` and `ldt` ask for (R223, R229, R313). -/
def loadChecks (op : MOp) (w : MWord) : Checks :=
  { once := op.uniform w, kind := .read, mt0 := w.space = .const, bodyLoad := true }

/-- R229, R230, R146 and R254: when every check passes, `ld` and `ldt` commit with D empty and a producer for its registers; an element
on Q_ch or H is queued, and one that performs at once gives the producer the little-endian words that stand there. -/
def Says.Loads : Prop :=
  ∀ (s : State) (c : Ctx) (op : MOp) (w : MWord) (s1 : State) (hits : List Hit), op ∈ [.ld, .ldt] → op.wf w →
    Runs s (op.front w) c → s.resolve c w.space w.scope (c.elems w (op.uniform w)) (loadChecks op w) = .ok s1 hits →
    let keys := hits.flatMap (c.datumKeys w)
    ∃ t g' ws, exec (op.instr w) s = .next t ∧ Accessed s1 t c g' (op.front w) keys ∧
      (⟨s1.sched.nextId, c.gid, ws⟩ : Producer) ∈ t.work.producers ∧ ws.map (·.1) = keys ∧
      (∀ h ∈ hits, Queued s1 t c h .load s1.sched.nextId (c.datumKeys w h)) ∧
      (Settled s1 → (∀ h ∈ hits, Direct h ∧ Accepted s1 c .read h) →
        t.mem = s1.mem ∧ t.teams = s1.teams ∧ t.order = s1.order ∧
        (keys.Nodup → ∀ h ∈ hits, ∀ j x, (c.datumKeys w h)[j]? = some x →
          (x, some (BitVec.ofNat 32 (leVal (standing s1 c h) / 2 ^ (32 * j)))) ∈ ws))

/-- R229, R230 and R254: when every check passes, `st` commits; an element on Q_ch or H is queued, one on T_c joins the writes of its
core, and one that performs at once writes the low bytes of D, little-endian, where its address says, in order; every other
byte is as it was. -/
def Obligations.Stores : Prop :=
  ∀ (s : State) (c : Ctx) (w : MWord) (s1 : State) (hits : List Hit), MOp.st.wf w → Runs s (MOp.front .st w) c →
    s.resolve c w.space w.scope (c.elems w (MOp.uniform .st w)) { once := MOp.uniform .st w, kind := .write } = .ok s1 hits →
    let x := fun (h : Hit) => leOf h.e.bytes (c.datum w h)
    ∃ t g', exec (.st w) s = .next t ∧ Accessed s1 t c g' (MOp.front .st w) [] ∧
      (∀ h ∈ hits, Queued s1 t c h (.store (x h)) 0 []) ∧
      (Settled s1 → (∀ h ∈ hits, Direct h ∧ Accepted s1 c .write h) →
        t.order = s1.order ∧
        t.mem = hits.foldl (fun m h => match h.reach with | .glob pa _ _ => memPuts m pa (x h) | _ => m) s1.mem ∧
        (∀ a, (∀ h ∈ hits, ∀ pa mt p, h.reach = .glob pa mt p → a < pa ∨ pa + h.e.bytes ≤ a) →
          memByte t.mem a = memByte s1.mem a) ∧
        ∀ j sh, s1.share c.g.id.grid c.g.id.team j = some sh →
          t.share c.g.id.grid c.g.id.team j = some { sh with
            bytes := hits.foldl (fun m h => match h.reach with
              | .spad i o => if i = j then memPuts m o (x h) else m
              | _ => m) sh.bytes }) ∧
      (s1.order.partials = [] → (∀ y ∈ s1.order.tc, y.core = c.g.id.core) → (∀ h ∈ hits, (∃ pa mt, h.reach = .glob pa mt .tc) ∧ Accepted s1 c .write h) →
        t.mem = s1.mem ∧
        t.order.tc = s1.order.tc ++ hits.map fun h => ⟨c.g.id.core, c.g.id.ctx, [c.gid], h.pa, x h, s1.sched.nextId⟩)

/-- R231, R361 and R362: `pref` commits and changes no value and no register, unless a lane hits a read watchpoint: it raises WATCH;
`wb` makes the checks of a load and commits alike. -/
def Says.PrefetchAndWriteBack : Prop :=
  (∀ (s : State) (c : Ctx) (w : MWord), MOp.pref.wf w → Runs s (MOp.front .pref w) c →
    let seen := s.watchFails c .read ((c.elems w w.a.isS).filterMap (s.prefHit c w))
    (seen = [] →
      ∃ t g', exec (.pref w) s = .next t ∧ Accessed s t c g' (MOp.front .pref w) [] ∧ t.mem = s.mem ∧ t.order = s.order ∧
        t.work = s.work ∧ t.dev = s.dev ∧ (s.bodyOf c.gid c.g = none → t.teams = s.teams)) ∧
    (∀ f rest, seen = f :: rest → (∀ x ∈ rest, f.lane ≤ x.lane) → w.a.isS = false →
      exec (.pref w) s = .next (s.raise c.gid (Trap.mk' .watch c.own (seen.map (·.lane)) f.addr)))) ∧
  ∀ (s : State) (c : Ctx) (w : MWord) (s1 : State) (hits : List Hit), MOp.wb.wf w → Runs s (MOp.front .wb w) c →
    s.resolve c w.space w.scope (c.elems w w.a.isS) { once := w.a.isS, kind := .read } = .ok s1 hits →
    ∃ t g', exec (.wb w) s = .next t ∧ Accessed s1 t c g' (MOp.front .wb w) [] ∧ t.mem = s1.mem ∧ t.order = s1.order ∧
      t.work = s1.work ∧ t.dev = s1.dev ∧ t.teams = s1.teams

/-- R146, R229 to R231 and R254: loads give their producer the words that stand where they reach; `pref` and `wb` change no
value. -/
def Obligations.LoadsAndPrefetches : Prop :=
  Says.Loads ∧ Says.PrefetchAndWriteBack

/-- The checks that `ld`, `ldt` and `st` ask for (R223, R229, R313). -/
def accessChecks (op : MOp) (w : MWord) : Checks :=
  if op = .st then { once := op.uniform w, kind := .write } else loadChecks op w

/-- The group traps for a check that some elements fail (R232): the trap is that of the first element of the lowest failing lane, and
names every lane that failed the check, for a walk those that failed at its level, and every active lane of a uniform form. -/
def TrapsFor (o : Host.Outcome State Fault Refusal) (t : State) (c : Ctx) (once : Bool) (fails : List Fail) : Prop :=
  ∀ pre f post, fails = pre ++ f :: post → (∀ x ∈ pre, f.lane < x.lane) → (∀ x ∈ post, f.lane ≤ x.lane) →
    o = .next (t.raise c.gid (Trap.mk' f.cause c.own
      (if once then c.act else (fails.filter fun x => f.cause == .access || x.level == f.level).map (·.lane)) f.addr f.level))

/-- R232 Table 7: an element whose address is misaligned raises ALIGN, and, when none is, one whose address is not canonical or whose
place is outside the team's shares raises ADDR. Then come the walks that fail, then the accesses that are refused, then COPYFAULT
and ORPHAN of the scratchpad's lines, then RXALIAS of a byte of the team's relaxation buffer. The first check that any element fails
traps before any element performs. -/
def Says.BadAddressesTrap : Prop :=
  ∀ (s : State) (c : Ctx) (op : MOp) (w : MWord), op ∈ [.ld, .ldt, .st] → op.wf w → Runs s (op.front w) c →
    s.bodyOf c.gid c.g = none →
    let once := op.uniform w
    let els := c.elems w once
    let share := match s.team c.g.id.grid c.g.id.team with | some t => t.shareSize | none => 0
    let outside := fun (e : Elem) => match e.spad with
      | none => !canonical e.va
      | some (j, o) => !(e.inCore && j < c.g.id.cores && 0 ≤ o && o + e.bytes ≤ share)
    let traps := TrapsFor (exec (op.instr w) s)
    traps s c once ((els.filter (·.misaligned)).map fun e => ⟨e.lane, .align, BitVec.ofInt 64 e.base, 7⟩) ∧
    ((∀ x ∈ els, x.misaligned = false) →
      traps s c once ((els.filter outside).map fun e => ⟨e.lane, .addr, e.name, 7⟩) ∧
      ((∀ x ∈ els, outside x = false) →
        let k := accessChecks op w
        let x := s.walkElems c w.space w.scope k.mt0 k.kind els
        let walks := x.fails.filter fun f => f.cause != .access
        let badLine := fun (p : Presence) => x.hits.filter fun h => x.s.presenceOf c h == p
        traps x.s c once walks ∧
        (walks = [] → traps x.s c once x.fails) ∧
        (x.fails = [] → x.blocked = false →
          traps x.s c once ((badLine .faulted).map fun h => ⟨h.e.lane, .copyfault, h.e.name, 7⟩) ∧
          (badLine .faulted = [] →
            traps x.s c once ((badLine .orphan).map fun h => ⟨h.e.lane, .orphan, h.e.name, 7⟩) ∧
            (badLine .orphan = [] → badLine .pending = [] →
              ∀ tm r lo hi, x.s.team c.g.id.grid c.g.id.team = some tm → tm.region = some r → r.closed = some (lo, hi) →
                traps x.s c once ((x.hits.filter fun h => match h.reach with
                  | .spad j o => j == r.desc.bufCore && decide (o < hi) && decide (lo < o + h.e.bytes)
                  | _ => false).map fun h => ⟨h.e.lane, .rxalias, h.e.name, 7⟩))))))

/-- R215, R216, R222, R223, R227, R309 and R318: why the later checks fail. A walk stops at the first entry that may not be read
(ACCESS), that is not valid (XLMISS), that has a reserved form (XLRSVD) or that forbids the access (XLPERM); a translation of an MT
that the access may not have is XLPERM, and one that the target does not grant is ACCESS at level 5. A line of a share is faulted,
or without a writer, while it is absent. A relaxation buffer is closed, all of it or but its state, while its region is OPEN or
PENDING. In a body the first failing load of a step is held. -/
def Says.FailingChecks : Prop :=
  (∀ (s : State) (ctx va lvl t : Nat) (k : Kind) (mt0 asCtx : Bool), Settled s →
    let ea := t + 8 * (va / 2 ^ (12 + 9 * lvl) % 512)
    let master := if asCtx then ctx else Config.walkerId
    let e := Pte.of (leVal (s.readBytes ea 8)) lvl
    let walk := s.walkFrom ctx va k mt0 lvl t asCtx
    s.blocked ea 8 false = false →
    (s.allowed .slice master ea 8 .read = false → walk = .fault (s.refuse .slice master ea .read) .access lvl) ∧
    (s.allowed .slice master ea 8 .read = true → s.poisoned ea 8 = false →
      (e.v = false → walk = .fault s .xlmiss lvl) ∧
      (e.v = true → e.rsvd = true → walk = .fault s .xlrsvd lvl) ∧
      (e.v = true → e.rsvd = false → e.l = true →
        (e.k = true ∨ (k.writes = true ∧ e.w = false) ∨ (k = .fetch ∧ e.x = false)) → walk = .fault s .xlperm lvl))) ∧
  (∀ (s s1 : State) (ctx va n : Nat) (k : Kind) (mt0 : Bool) (t : Tlb), s.translate ctx va k mt0 = .ok s1 t →
    let pa := t.addr (va % 2 ^ 57)
    (mt0 = true → t.mt ≠ 0 → s.access ctx va n k mt0 = .fault s1 .xlperm t.level) ∧
    ((mt0 = false ∨ t.mt = 0) →
      s.access ctx va n k mt0 = if grantedBy t.win (s1.targetAt pa t.mt) ctx pa n k then .ok s1 t
        else .fault (s1.refuse (s1.targetAt pa t.mt) ctx pa k) .access 5)) ∧
  (∀ (sh : Share) (lines : List Nat),
    (sh.presence lines = .faulted ↔ ∃ l ∈ lines, l ∈ sh.absent ∧ l ∈ sh.faulted) ∧
    (sh.presence lines = .orphan ↔
      (∀ l ∈ lines, l ∈ sh.absent → l ∉ sh.faulted) ∧ ∃ l ∈ lines, l ∈ sh.absent ∧ smGet 0 sh.writers l = 0) ∧
    (sh.presence lines = .present ↔ ∀ l ∈ lines, l ∉ sh.absent)) ∧
  (∀ (r : Region),
    let lo := r.desc.bufOfs
    let hi := lo + r.desc.stateBytes + r.desc.workBytes + r.desc.storeBytes
    (r.st = .opened → r.closed = some (lo, hi)) ∧ (r.st = .pending → r.closed = some (lo + r.desc.stateBytes, hi))) ∧
  ∀ (s : State) (c : Ctx) (op : MOp) (w : MWord) (r : Region), op ∈ [.ld, .ldt] → op.wf w → Runs s (op.front w) c →
    s.bodyOf c.gid c.g = some r →
    let els := c.elems w (op.uniform w)
    let k := loadChecks op w
    let x := s.walkElems c w.space w.scope k.mt0 k.kind els
    let aliased := fun (h : Hit) => match h.reach, r.stepOf c.gid h.e.lane with
      | .glob pa _ _, some n => r.prevBytes.any (fun b => decide (pa ≤ b.1 ∧ b.1 < pa + h.e.bytes ∧ b.2 < n)) ||
        (smGet (StepEval.start r.desc) r.evals n).stores.any fun b => decide (b.pa < pa + h.e.bytes ∧ pa < b.pa + b.bytes.length)
      | _, _ => false
    ∀ fails, (∀ e ∈ els, e.misaligned = false ∧ e.spad = none ∧ canonical e.va = true) →
      ((fails = x.fails ∧ ∀ y ∈ fails, y.cause ≠ .access) ∨ (x.fails = [] ∧ x.blocked = false ∧
        fails = (x.hits.filter aliased).map fun h => ⟨h.e.lane, .rxalias, h.e.va, 7⟩)) →
      ∀ before f after n, fails = before ++ f :: after → (∀ y ∈ before, y.lane ≠ f.lane) → r.stepOf c.gid f.lane = some n →
        (smGet (StepEval.start r.desc) r.evals n).fault = none →
        ∃ t g' r', exec (op.instr w) s = .next t ∧ t.group c.gid = some g' ∧ t.bodyOf c.gid g' = some r' ∧
          (∀ q, g'.reg q = c.g.reg q) ∧
          (smGet (StepEval.start r.desc) r'.evals n).fault = some (Trap.mk' f.cause c.own [f.lane] f.addr f.level)

/-- R216, R229 and R313: an access that passes its checks has one hit for each element, in their order. It has changed nothing but what
its translation does: A, and for a write D, in the entries of the translations that it used, and what is cached; in a body a load
also holds the lines that it reads. -/
def Says.ResolvedAccesses : Prop :=
  ∀ (s s1 : State) (c : Ctx) (sp : Space) (sc : Scope) (els : List Elem) (k : Checks) (hits : List Hit), Settled s →
    s.resolve c sp sc els k = .ok s1 hits →
    hits.map (·.e) = els ∧ Settled s1 ∧ s1.grids = s.grids ∧ s1.ctxs = s.ctxs ∧ s1.cores = s.cores ∧ s1.work = s.work ∧
      s1.dev = s.dev ∧ s1.order = { s.order with tlb := s1.order.tlb, nodes := s1.order.nodes } ∧
      s1.sched = { s.sched with fresh := s1.sched.fresh } ∧
      (∀ g, (s1.group g).map stillGroup = (s.group g).map stillGroup) ∧
      (s.bodyOf c.gid c.g = none ∨ k.bodyLoad = false → s1.teams = s.teams) ∧
      ∀ a, memByte s1.mem a ≠ memByte s.mem a →
        memByte s1.mem a = memByte s.mem a ||| (if k.kind.writes then 0xC0 else 0x40) ∧
        ∃ t ∈ s1.order.tlb, t.entry = a ∧ t.ctx = c.g.id.ctx ∧
          ∃ e ∈ els, e.spad = none ∧ t.va ≤ e.va.toNat % 2 ^ 57 ∧ e.va.toNat % 2 ^ 57 < t.va + t.bytes

/-- R216 to R218: a translation that is found covers the address and gives the rights that the access needs; it leaves memory as it
was, but for A and, for a write, D in the entry that it read, and moves nothing else while nothing waits to move. -/
def Says.Translation : Prop :=
  ∀ (s s' : State) (ctx va : Nat) (k : Kind) (mt0 : Bool) (t : Tlb), Settled s → s.translate ctx va k mt0 = .ok s' t →
    t.va ≤ va % 2 ^ 57 ∧ va % 2 ^ 57 < t.va + t.bytes ∧ (k.writes → t.w) ∧ (k = .fetch → t.x) ∧
    (∀ g, (s'.group g).map stillGroup = (s.group g).map stillGroup) ∧ s'.teams = s.teams ∧ Settled s' ∧
    (s'.mem = s.mem ∨ ∃ x : Nat, s'.mem = memPuts s.mem t.entry (leOf 8 x) ∧
      x.testBit 6 = true ∧ x.testBit 7 = (k.writes || (leVal (s.readBytes t.entry 8)).testBit 7) ∧
      ∀ i, i ≠ 6 → i ≠ 7 → x.testBit i = (leVal (s.readBytes t.entry 8)).testBit i)

/-- R215 to R218, R220, R222, R223, R227, R309 and R232: the first check of Table 7 that an element fails traps before any
element performs; a translation that is found covers the address with its rights, and changes only A and D in its entry;
`tlbinv` removes the cached translations of its range. -/
def Obligations.TranslationAndAddresses : Prop :=
  Says.BadAddressesTrap ∧ Says.FailingChecks ∧ Says.ResolvedAccesses ∧ Says.Translation ∧ Says.TranslationInvalidate

/-- The integer operations of R271 Table 2 on words of k bits: M is the old value, B the operand, D the compare value. -/
def atomicResult {k : Nat} (aop : Nat) (m b d : BitVec k) : BitVec k :=
  match aop with
  | 0 => m + b
  | 1 => if b.slt m then b else m
  | 2 => if m.slt b then b else m
  | 3 => m &&& b
  | 4 => m ||| b
  | 5 => m ^^^ b
  | 6 => b
  | 7 => if m = d then b else m
  | 8 => if b ≤ m then 0 else m + 1
  | 9 => if m < b then m else b
  | _ => if m < b then b else m

/-- Atomics of some elements performed in M in the order of their lanes (R273): the memory they leave, and what each found. -/
def atomicsRun (s : State) (c : Ctx) (w : MWord) (hits : List Hit) : State × List (Hit × Nat) :=
  hits.foldl (fun (p : State × List (Hit × Nat)) h =>
    let m := leVal (p.1.readBytes h.pa h.e.bytes)
    let x := aopNew w.aop h.e.bytes m (c.atomB w h.e.lane).toNat (c.atomD w h.e.lane).toNat
    ({ p.1 with mem := memPuts p.1.mem h.pa (leOf h.e.bytes x) }, p.2 ++ [(h, m)])) (s, [])

/-- R271 to R274: `atom` commits with D empty, and its producer receives each old value of M, while M takes the new ones in the order of
the lanes; with one s register for several lanes the last lane's value is what D keeps, which is the model's choice (log 87). `red` to
an MT 00 line of a device-bias page joins F and writes nothing yet; one to an uncached page performs at once, and one to a page in
host bias or of another MT is queued, where a deterministic `fadd` to a line of a window keeps the window's anchor, which is the
model's choice (log 70). The integer operations are those of Table 2. -/
def Obligations.Atomics : Prop :=
  (∀ (aop k : Nat) (m b d : BitVec (8 * k)), aop < 11 → 0 < k →
    aopNew aop k m.toNat b.toNat d.toNat = (atomicResult aop m b d).toNat) ∧
  (∀ (s : State) (c : Ctx) (w : MWord) (s1 : State) (hits : List Hit), MOp.atom.wf w → Runs s (MOp.front .atom w) c →
    s.resolve c w.space w.scope (c.elems w (MOp.uniform .atom w))
      { once := MOp.uniform .atom w, kind := .both, nondet := fun _ _ => c.g.id.det } = .ok s1 hits →
    let keys := hits.flatMap (c.oldKeys w hits)
    let kind := fun (h : Hit) => AccKind.rmw w.aop (c.atomB w h.e.lane) (c.atomD w h.e.lane)
    let run := atomicsRun s1 c w hits
    ((w.d.isS = false ∨ hits.length ≤ 1) → ∀ h ∈ hits, c.oldKeys w hits h = c.datumKeys w h) ∧
    ∃ t g' ws, exec (.atom w) s = .next t ∧ Accessed s1 t c g' (MOp.front .atom w) (keys.filter isReg) ∧
      (⟨s1.sched.nextId, c.gid, ws⟩ : Producer) ∈ t.work.producers ∧ ws.map (·.1) = keys ∧
      (∀ h ∈ hits, Queued s1 t c h (kind h) s1.sched.nextId (c.oldKeys w hits h)) ∧
      (Settled s1 → (∀ h ∈ hits, (∃ pa mt, h.reach = .glob pa mt .m) ∧ Accepted s1 c .both h) →
        t.mem = run.1.mem ∧ t.order = s1.order ∧ t.teams = s1.teams ∧
        (keys.Nodup → ∀ p ∈ run.2, ∀ j x, (c.oldKeys w hits p.1)[j]? = some x →
          (x, some (BitVec.ofNat 32 (p.2 / 2 ^ (32 * j)))) ∈ ws))) ∧
  ∀ (s : State) (c : Ctx) (w : MWord) (s1 : State) (hits : List Hit), MOp.red.wf w → Runs s (MOp.front .red w) c →
    s.resolve c w.space w.scope (c.elems w (MOp.uniform .red w))
      { once := MOp.uniform .red w, kind := .both, nondet := fun s hits => s.redNondet w c.g.id hits } = .ok s1 hits →
    let anchor := fun (pa : Nat) => if w.aop = 11 then s1.anchorOf pa else none
    ∃ t g', exec (.red w) s = .next t ∧ Accessed s1 t c g' (MOp.front .red w) [] ∧
      ((∀ h ∈ hits, ∃ pa p, h.reach = .glob pa 0 p ∧ p ≠ .h) →
        t.mem = s1.mem ∧ t.teams = s1.teams ∧
        t.order = { s1.order with reds := s1.order.reds ++ hits.map fun h =>
          ⟨c.gid, c.g.id.ctx, logical c.g.id.core, w.aop, h.pa, h.e.bytes, c.atomB w h.e.lane, anchor h.pa, s1.sched.nextId⟩ }) ∧
      (∀ h ∈ hits, (h.mt ≠ 0 ∨ ∃ pa, h.reach = .glob pa 0 .h) →
        Queued s1 t c h (match h.mt, anchor h.pa with
          | 0, some e => .red w.aop (c.atomB w h.e.lane) e
          | _, _ => .rmw w.aop (c.atomB w h.e.lane) 0) 0 []) ∧
      (w.aop ≠ 7 → Settled s1 → (∀ h ∈ hits, (∃ pa mt, h.reach = .glob pa mt .m ∧ mt ≠ 0) ∧ Accepted s1 c .both h) →
        t.mem = (atomicsRun s1 c w hits).1.mem ∧ t.order = s1.order ∧ t.teams = s1.teams)

/-! ### Ordered atomics, waits, queues, futures, barriers and fences (R262-R266, R276-R287) -/

/-- The value of an integer over registers whose producer is in flight: the words that the producer holds. -/
def holdsWords (t : State) (id gid : Nat) (writes : List (Nat × Word)) : Prop :=
  (⟨id, gid, writes.map fun p => (p.1, some p.2)⟩ : Producer) ∈ t.work.producers

/-- R276 to R278: once its earlier writes have performed, `aord` sends every lane's arrival and waits in the instruction with D empty.
An arrival with the cell's ticket performs, advancing VALUE and NEXT together, then a held arrival whose ticket is the new NEXT performs,
and the `aord` commits with its last lane, once an acquire of device scope is over. An early arrival is held, one that finds the buffer
full is sent again 256 cycles later, and one that comes late, or whose ticket is already held for the cell, is refused. -/
def Obligations.OrderedAtomics : Prop :=
  (∀ (s : State) (c : Ctx) (w : MWord) (s1 : State) (hits : List Hit), MOp.aord.wf w → Runs s (MOp.front .aord w) c →
    s.resolve c w.space w.scope (c.objects w (MOp.uniform .aord w) 16 16)
      { once := MOp.uniform .aord w, kind := .both, mt0 := true } = .ok s1 hits → s1.released c.gid .device →
    ∃ t g' tk, exec (.aord w) s = .next t ∧ t.group c.gid = some g' ∧ g'.wait = some (.ticket s1.sched.nextId) ∧
      g'.fibres = c.g.fibres ∧ (∀ k, g'.reg k = c.g.reg k) ∧
      (∀ h ∈ hits, ∀ j < w.width.regs, g'.isFull (c.g.key w.d h.e.lane j) = false) ∧
      t.mem = s1.mem ∧ t.order = s1.order ∧ t.work.tickets = s1.work.tickets ++ [tk] ∧
      tk.id = s1.sched.nextId ∧ tk.gid = c.gid ∧ tk.own = c.own ∧ tk.batch = c.batch ∧ tk.aop = w.aop ∧ tk.bytes = w.width.bits / 8 ∧
      tk.lanes.map (fun l => (l.lane, l.pa, l.ticket, l.b, l.st)) =
        hits.map fun h => (h.e.lane, h.pa, c.g.rdWord w.d h.e.lane, c.atomB w h.e.lane, .sent)) ∧
  (∀ (s : State) (tk : Ticket) (l : TicketLane) (g : Group), s.work.tickets = [tk] → tk.lanes = [l] → l.st = .sent → Settled s →
    s.running tk.ctx → s.aordWaits tk l = false → s.allowed (s.targetAt l.pa 0) tk.ctx l.pa 16 .both → s.poisoned l.pa 16 = false →
    s.group tk.gid = some g → g.wait = some (.ticket tk.id) →
    let d := (l.ticket - BitVec.ofNat 32 (leVal (s.readBytes l.pa 4))).toNat
    let m := leVal (s.readBytes (l.pa + 8) tk.bytes)
    let now := fun (x : TicketSt) => { s with work := { s.work with tickets := [{ tk with lanes := [{ l with st := x }] }] } }
    let performed := memPuts (memPuts s.mem (l.pa + 8) (leOf tk.bytes (aopNew tk.aop tk.bytes m l.b.toNat 0))) l.pa
      (leOf 4 (l.ticket + 1).toNat)
    (d = 0 → s.acquired tk.gid .device → l.keys.Nodup → g.halt = none → (∀ f ∈ g.fibres, f.held = false) →
      ∃ t g', exec (.aordArrival tk.id l.lane) s = .next t ∧ t.group tk.gid = some g' ∧ g'.wait = none ∧ t.work.tickets = [] ∧
        t.mem = performed ∧
        (∀ j k, l.keys[j]? = some k → g'.reg k = BitVec.ofNat 32 (m % 2 ^ 64 / 2 ^ (32 * j)) ∧ g'.isFull k = true) ∧
        (∀ k, k ∉ l.keys → g'.reg k = g.reg k ∧ g'.isFull k = g.isFull k) ∧
        g'.fibres = g.fibres.map fun f => if f.lane ∈ tk.batch then { f with pc := tk.own + 12 } else f) ∧
    (d = 0 → s.acquired tk.gid .device = false → ∃ t, exec (.aordArrival tk.id l.lane) s = .next t ∧ t.mem = performed ∧
      t.group tk.gid = some g ∧ t.work.tickets = [{ tk with lanes := [{ l with value := BitVec.ofNat 64 m, st := .done }] }]) ∧
    (0 < d → d < 2 ^ 31 → exec (.aordArrival tk.id l.lane) s = .next (now .held)) ∧
    (2 ^ 31 ≤ d → s.acquired tk.gid .device → ∃ s' : State, s'.mem = s.mem ∧ s'.work.tickets = [] ∧ exec (.aordArrival tk.id l.lane) s = .next (s'.raise tk.gid
      { Trap.mk' .aordtkt tk.own (if tk.once then tk.act else [l.lane]) with resume := true }) ∧
      s'.group tk.gid = some { (g.setFull l.keys) with wait := none }) ∧
    exec (.aordRetry tk.id l.lane) s = .next s ∧
    ∀ at_ : Nat, exec (.aordRetry tk.id l.lane) (now (.retry at_)) = .next (if at_ ≤ s.dev.clk then s else now (.retry at_))) ∧
  (∀ (s : State) (op lane : Nat) (tk : Ticket) (l : TicketLane), s.work.tickets.find? (·.id == op) = some tk →
    tk.lanes.find? (fun x => x.lane == lane && x.st == .sent) = some l → Settled s → s.running tk.ctx →
    s.aordWaits tk l = false → s.allowed (s.targetAt l.pa 0) tk.ctx l.pa 16 .both → s.poisoned l.pa 16 = false →
    let d := (l.ticket - BitVec.ofNat 32 (leVal (s.readBytes l.pa 4))).toNat
    let now := fun (st : TicketSt) => { s with work := { s.work with tickets := s.work.tickets.map fun x =>
      if x.id = op then { x with lanes := x.lanes.map fun y => if y.lane = lane then { y with st := st } else y } else x } }
    (0 < d → d < 2 ^ 31 → s.heldAt l.pa l.ticket = none →
      exec (.aordArrival op lane) s =
        .next (now (if s.heldCount (s.sliceOf tk.ctx l.pa) < 64 then .held else .retry (s.dev.clk + 256)))) ∧
    ((2 ^ 31 ≤ d ∨ (0 < d ∧ (s.heldAt l.pa l.ticket).isSome)) → (∃ y ∈ tk.lanes, y.lane ≠ lane ∧ y.st ≠ .done ∧ y.st ≠ .refused) →
      exec (.aordArrival op lane) s = .next (now .refused))) ∧
  ∀ (s : State) (tk tk' : Ticket) (l l' : TicketLane), s.work.tickets = [tk, tk'] → tk.id ≠ tk'.id → tk.lanes = [l] → tk'.lanes = [l'] →
    l.st = .sent → l'.st = .held → l'.pa = l.pa → l'.ticket = l.ticket + 1 → Settled s → s.running tk.ctx → s.aordWaits tk l = false →
    s.allowed (s.targetAt l.pa 0) tk.ctx l.pa 16 .both → s.poisoned l.pa 16 = false →
    l.ticket = BitVec.ofNat 32 (leVal (s.readBytes l.pa 4)) → s.acquired tk.gid .device = false → s.acquired tk'.gid .device = false →
    let found := fun (s : State) (x : Ticket) => leVal (s.readBytes (l.pa + 8) x.bytes)
    let after := fun (s : State) (x : Ticket) (y : TicketLane) =>
      let value := memPuts s.mem (l.pa + 8) (leOf x.bytes (aopNew x.aop x.bytes (found s x) y.b.toNat 0))
      { s with mem := memPuts value l.pa (leOf 4 (y.ticket + 1).toNat) }
    let done := fun (s : State) (x : Ticket) (y : TicketLane) =>
      { x with lanes := [{ y with value := BitVec.ofNat 64 (found s x), st := .done }] }
    ∃ t, exec (.aordArrival tk.id l.lane) s = .next t ∧ t.mem = (after (after s tk l) tk' l').mem ∧
      t.work.tickets = [done s tk l, done (after s tk l) tk' l']

/-- An instruction has issued and waits with its destination empty (R146): the producer of `keys` has no value yet, the other
registers and the fibres are as they were, and the wait knows which of them were empty before. -/
structure Owes (s t : State) (c : Ctx) (g' : Group) (keys : List Nat) (d : Due) : Prop where
  group : t.group c.gid = some g'
  fibres : g'.fibres = c.g.fibres
  regs : ∀ k, g'.reg k = c.g.reg k
  bits : ∀ k, g'.isFull k = (c.g.isFull k && !keys.contains k)
  producer : (⟨d.prod, c.gid, keys.map fun k => (k, none)⟩ : Producer) ∈ t.work.producers
  was : d.was = keys.filter fun k => !c.g.isFull k
  mem : t.mem = s.mem
  order : t.order = s.order

/-- The producer of such a wait has got the words of its registers. -/
def Pays (s t : State) (gid prod : Nat) (words : List Word) : Prop :=
  ∀ ks : List Nat, ks.length ≤ words.length → (⟨prod, gid, ks.map fun k => (k, none)⟩ : Producer) ∈ s.work.producers →
    holdsWords t prod gid (ks.zip words)

/-- A read that a wait makes may perform now (R196, R221, R260, R389). -/
def CanRead (s : State) (gid : Nat) (g : Group) (pa n mt : Nat) : Prop :=
  s.running g.id.ctx ∧ s.notYet gid g.id.core pa n mt false = false ∧ s.allowed (s.targetAt pa mt) g.id.ctx pa n .read ∧
    s.poisoned pa n = false ∧ Settled s

/-- R279 and R280: `waitc` reads its word and commits with it when the comparison holds and an acquire of its scope is over; else it
waits with D empty, parked while the comparison is false, with a monitor while one is free for its line. A write that makes the
comparison true is kept, and MONITOR_WAKE, WAITC_TIMEOUT and WAIT_REREAD give the group the value with which it resumes; a read through MT 11
flips its page to host bias (R100). -/
def Obligations.WaitsOnWords : Prop :=
  (∀ (s : State) (c : Ctx) (w : MWord) (s1 : State) (h : Hit) (rest : List Hit), MOp.waitc.wf w →
    Runs s (MOp.front .waitc w (resumes := true)) c → (∀ x d, c.g.wait ≠ some (.word x d)) →
    let n := w.width.bits / 8
    let tmo := (c.g.reg (c.g.key w.b 0 2)).toNat
    s.resolveNow c w.space w.scope (c.objects w true n n)
      { once := true, kind := .read, nondet := fun _ _ => tmo != 0 && c.g.id.det } = .ok s1 (h :: rest) →
    Settled s1 →
    let m := leVal (s1.readBytes h.pa n)
    let v := c.g.rd w.b 0 (if n = 8 then .n64 else .n32)
    let keys := c.g.keys w.d 2 [0]
    let x : WordWait := ⟨h.pa, n, h.mt, w.opx.toNat, BitVec.ofNat 64 v, if tmo = 0 then none else some (s1.dev.clk + tmo), false,
      none, none, false⟩
    (condU w.opx.toNat m v = true → s1.acquired c.gid w.scope →
      ∃ t g', exec (.waitc w) s = .next t ∧ Accessed s1 t c g' (MOp.front .waitc w (resumes := true)) keys ∧
        holdsWords t s1.sched.nextId c.gid (c.g.split w.d 2 0 m) ∧ t.mem = s1.mem ∧ t.order = s1.order) ∧
    (condU w.opx.toNat m v = true → s1.acquired c.gid w.scope = false →
      ∃ t g' d, exec (.waitc w) s = .next t ∧ Owes s1 t c g' keys d ∧
        g'.wait = some (.word { x with woke := some (BitVec.ofNat 64 m) } d)) ∧
    (condU w.opx.toNat m v = false →
      ∃ t g' d, exec (.waitc w) s = .next t ∧ Owes s1 t c g' keys d ∧
        g'.wait = some (.word { x with monitored := s1.watchable h.pa h.mt && s1.monitorFree c.g.id.ctx h.pa } d))) ∧
  (∀ (s : State) (c : Ctx) (w : MWord) (x : WordWait) (d : Due) (m : DWord), MOp.waitc.wf w →
    Runs s (MOp.front .waitc w (resumes := true)) c → c.g.wait = some (.word x d) → x.woke = some m → s.acquired c.gid w.scope →
    ∃ t g', exec (.waitc w) s = .next t ∧ Accessed s t c g' (MOp.front .waitc w (resumes := true)) [] ∧
      Pays s t c.gid d.prod [m.setWidth 32, m.extractLsb' 32 32] ∧ t.mem = s.mem ∧ t.order = s.order) ∧
  ∀ (s : State) (gid : Nat) (g : Group) (x : WordWait) (d : Due), s.group gid = some g → x.peel = false → x.woke = none →
    g.wait = some (.word x d) →
    let with_ := fun (y : WordWait) => { g with wait := some (.word y d) }
    let now := fun (s : State) => BitVec.ofNat 64 (leVal (s.readBytes x.pa x.bytes))
    let read := if x.mt = 3 then s.flip x.pa else s
    (∀ m, x.monitored → x.hit = some m → g.place = .slot →
      ∃ t, exec (.monitorWake gid) s = .next t ∧ t.group gid = some (with_ { x with monitored := false, woke := some m }) ∧
        SameOutside gid s t) ∧
    (∀ m k0 k1 own, x.monitored → x.hit = some m → g.place ≠ .slot → g.ended = false → g.halt = none →
      (∀ f ∈ g.fibres, f.held = false) → g.pc = some own → k0 ≠ k1 → g.holdsKey k0 → g.holdsKey k1 →
      s.work.producers = [⟨d.prod, gid, [(k0, none), (k1, none)]⟩] →
      ∃ t g', exec (.monitorWake gid) s = .next t ∧ t.group gid = some g' ∧ t.work.producers = [] ∧ g'.wait = none ∧
        g'.reg k0 = m.setWidth 32 ∧ g'.reg k1 = m.extractLsb' 32 32 ∧ (∀ k, k ≠ k0 → k ≠ k1 → g'.reg k = g.reg k) ∧
        g'.fibres = g.fibres.map fun f => if f.lane ∈ g.batch own then { f with pc := own + 12 } else f) ∧
    (∀ (a : Nat) (b : List Byte), x.monitored → x.hit = none → x.pa < a + b.length → a < x.pa + x.bytes →
      let t := s.writeM a b
      t.group gid =
        some (if condU x.cond (leVal (t.readBytes x.pa x.bytes)) x.val.toNat then with_ { x with hit := some (now t) } else g)) ∧
    (∀ e : Nat, x.deadline = some e → x.hit = none → e ≤ s.dev.clk → CanRead s gid g x.pa x.bytes x.mt → g.place = .slot →
      ∃ t, exec (.waitcTimeout gid) s = .next t ∧ t.group gid = some (with_ { x with monitored := false, woke := some (now s) }) ∧
        SameOutside gid read t) ∧
    (x.monitored = false → CanRead s gid g x.pa x.bytes x.mt → g.place = .slot →
      ∃ t, exec (.waitReread gid) s = .next t ∧ SameOutside gid read t ∧
        t.group gid = some (with_ (if condU x.cond (leVal (s.readBytes x.pa x.bytes)) x.val.toNat then { x with woke := some (now s) }
          else { x with monitored := s.watchable x.pa x.mt && s.monitorFree g.id.ctx x.pa })))

/-- R283, R284 and R287: `qpush` hands its item to the oldest waiting popper of an empty queue, else writes it at TAIL and advances TAIL,
else parks; `qpop` reads the item at HEAD and advances HEAD, with D empty until write-back, and wakes the oldest waiting pusher, else
parks with D empty, and resumes with the item it was handed. -/
def Says.Queues : Prop :=
  (∀ (s : State) (c : Ctx) (w : MWord) (s1 : State) (h : Hit) (rest : List Hit), MOp.qpush.wf w →
    Runs s (MOp.front .qpush w (resumes := true)) c → (∀ o k m, c.g.wait ≠ some (.push o k m false)) →
    s.resolveNow c w.space w.scope (c.objects w true 64 64)
      { once := true, kind := .both, mt0 := true, nondet := fun _ _ => c.g.id.det } = .ok s1 (h :: rest) →
    let n := w.width.bits / 8
    let q := s1.queueObj h.pa
    let v := c.g.rd w.b 0 (if n = 8 then .n64 else .n32)
    Settled s1 → 1 ≤ q.log2 → q.log2 ≤ 24 → q.ring % n = 0 → s1.released c.gid .device →
    (q.tail = q.head → ∀ p pg o mon d, p ≠ c.gid → s1.oldestPopper h.pa = some p → s1.group p = some pg → pg.place = .slot →
      pg.wait = some (.pop h.pa o mon none false d) →
      ∃ t g', exec (.qpush w) s = .next t ∧ t.group c.gid = some g' ∧
        KeepsGroup c.g g' [] (c.g.luKeys (MOp.front .qpush w (resumes := true)) c.act) ∧ c.GoesTo g' c.nextPc ∧
        t.group p = some { pg with wait := some (.pop h.pa o false (some (BitVec.ofNat 64 v)) false d) } ∧ t.mem = s1.mem ∧
        t.order = s1.order) ∧
    ((q.tail = q.head → s1.oldestPopper h.pa = none) → (q.tail + (2 ^ 64 - q.head)) % 2 ^ 64 < 2 ^ q.log2 →
      ∀ (s2 : State) (e : Hit) (es : List Hit), s1.queueElem c q q.tail n .write = .ok s2 (e :: es) → Settled s2 →
      ∃ t g', exec (.qpush w) s = .next t ∧ Accessed s2 t c g' (MOp.front .qpush w (resumes := true)) [] ∧ t.order = s2.order ∧
        t.mem = memPuts (memPuts s2.mem e.pa (leOf n v)) (h.pa + 8) (leOf 8 ((q.tail + 1) % 2 ^ 64))) ∧
    (q.tail ≠ q.head → 2 ^ q.log2 ≤ (q.tail + (2 ^ 64 - q.head)) % 2 ^ 64 →
      ∃ t g', exec (.qpush w) s = .next t ∧ t.group c.gid = some g' ∧ g'.fibres = c.g.fibres ∧
        g'.wait = some (.push h.pa s1.sched.nextId (s1.monitorFree c.g.id.ctx h.pa) false) ∧ t.mem = s1.mem ∧ t.order = s1.order)) ∧
  (∀ (s : State) (c : Ctx) (w : MWord) (s1 : State) (h : Hit) (rest : List Hit), MOp.qpop.wf w →
    Runs s (MOp.front .qpop w (resumes := true)) c → (∀ o k m i b d, c.g.wait = some (.pop o k m i b d) → i = none ∧ b = true) →
    s.resolveNow c w.space w.scope (c.objects w true 64 64)
      { once := true, kind := .both, mt0 := true, nondet := fun _ _ => c.g.id.det } = .ok s1 (h :: rest) →
    let n := w.width.bits / 8
    let q := s1.queueObj h.pa
    let keys := c.g.keys w.d w.width.regs [0]
    let due := c.g.wait.bind Wait.due
    Settled s1 → 1 ≤ q.log2 → q.log2 ≤ 24 → q.ring % n = 0 →
    ((q.tail + (2 ^ 64 - q.head)) % 2 ^ 64 ≠ 0 →
      ∀ (s2 : State) (e : Hit) (es : List Hit), s1.queueElem c q q.head n .read = .ok s2 (e :: es) → Settled s2 →
      s2.acquired c.gid .device →
      let m := leVal (s2.readBytes e.pa n)
      ∃ t g', exec (.qpop w) s = .next t ∧
        Accessed s2 t c g' (MOp.front .qpop w (resumes := true)) (if due.isNone then keys else []) ∧
        (due = none → holdsWords t s2.sched.nextId c.gid (c.g.split w.d w.width.regs 0 m)) ∧
        (∀ d, due = some d → Pays s2 t c.gid d.prod [BitVec.ofNat 32 m, BitVec.ofNat 32 (m / 2 ^ 32)]) ∧
        (∀ p pg o mon, s2.oldestPusher h.pa = some p → p ≠ c.gid → s2.group p = some pg → pg.wait = some (.push h.pa o mon false) →
          t.group p = some { pg with wait := some (.push h.pa o false true) }) ∧
        t.mem = memPuts s2.mem h.pa (leOf 8 ((q.head + 1) % 2 ^ 64)) ∧ t.order = s2.order) ∧
    ((q.tail + (2 ^ 64 - q.head)) % 2 ^ 64 = 0 →
      ∃ t g' d, exec (.qpop w) s = .next t ∧ t.group c.gid = some g' ∧
        g'.wait = some (.pop h.pa s1.sched.nextId (s1.monitorFree c.g.id.ctx h.pa) none false d) ∧
        (due = none → Owes s1 t c g' keys d) ∧
        (∀ d', due = some d' → d = d' ∧ g'.fibres = c.g.fibres ∧ (∀ k, g'.isFull k = c.g.isFull k) ∧ t.work = s1.work))) ∧
  ∀ (s : State) (c : Ctx) (w : MWord) (obj o : Nat) (mon b : Bool) (v : DWord) (d : Due), MOp.qpop.wf w →
    Runs s (MOp.front .qpop w (resumes := true)) c → c.g.wait = some (.pop obj o mon (some v) b d) → s.acquired c.gid .device →
    ∃ t g', exec (.qpop w) s = .next t ∧ Accessed s t c g' (MOp.front .qpop w (resumes := true)) [] ∧
      Pays s t c.gid d.prod [v.setWidth 32, v.extractLsb' 32 32] ∧ t.mem = s.mem

/-- The lanes of an `fset` at their cells, in order, where no `fget` waits: the memory they leave, and each lane's status (R285). -/
def fsetRun (s : State) (c : Ctx) (w : MWord) (hits : List Hit) : State × List (Nat × Nat) :=
  hits.foldl (fun (p : State × List (Nat × Nat)) h =>
    if leVal (p.1.readBytes (h.pa + 8) 4) = 0 then
      ({ p.1 with mem := memPuts (memPuts p.1.mem h.pa (leOf 8 (c.g.rdDWord w.b h.e.lane).toNat)) (h.pa + 8) (leOf 4 1) },
        p.2 ++ [(h.e.lane, 0)])
    else (p.1, p.2 ++ [(h.e.lane, 1)])) (s, [])

/-- The lanes of an `fget` at their cells, in order: the memory they leave, and what each lane has got (R286). -/
def fgetRun (s : State) (keep : Bool) (hits : List Hit) : State × List FutLane :=
  hits.foldl (fun (p : State × List FutLane) h =>
    if leVal (p.1.readBytes (h.pa + 8) 4) = 0 then (p.1, p.2 ++ [⟨h.e.lane, h.pa, keep, none⟩])
    else
      let v := BitVec.ofNat 64 (leVal (p.1.readBytes h.pa 8))
      ({ p.1 with mem := if keep then p.1.mem else memPuts p.1.mem (h.pa + 8) (leOf 4 0) },
        p.2 ++ [⟨h.e.lane, h.pa, keep, some v⟩])) (s, [])

/-- R285 and R286: each lane of `fset`, in order, writes VALUE and the full flag of an empty cell and reports 0, or leaves a full cell as
it is and reports 1, which raises OVERWR after commit under OVW; a waiting `fget` gets the value, and with KEEP 0 leaves the cell
empty. Each lane of `fget` reads VALUE of a full cell, emptying it unless KEEP; with a lane whose cell is empty it parks, with D empty. -/
def Says.Futures : Prop :=
  (∀ (s : State) (c : Ctx) (w : MWord) (s1 : State) (hits : List Hit), MOp.fset.wf w → Runs s (MOp.front .fset w) c →
    s.resolveNow c w.space w.scope (c.objects w (MOp.uniform .fset w) 16 16)
      { once := MOp.uniform .fset w, kind := .both, mt0 := true } = .ok s1 hits →
    Settled s1 → s1.released c.gid w.scope →
    ((∀ h ∈ hits, s1.oldestFget h.pa = none) ∨ (∀ h ∈ hits, leVal (s1.readBytes (h.pa + 8) 4) ≠ 0)) →
    let run := fsetRun s1 c w hits
    let status := run.2.flatMap fun p => c.g.wr w.d p.1 .n32 p.2
    let full := (run.2.filter fun p => p.2 == 1).map (·.1)
    (full = [] ∨ w.hints.tea = false →
      ∃ t g', exec (.fset w) s = .next t ∧ Accessed s1 t c g' (MOp.front .fset w) (status.map (·.1)) ∧
        holdsWords t s1.sched.nextId c.gid status ∧ t.order = s1.order ∧ t.mem = run.1.mem) ∧
    (full ≠ [] → w.hints.tea = true →
      ∃ s2, exec (.fset w) s = .next (s2.raise c.gid
          { Trap.mk' .overwr c.own (if MOp.uniform .fset w then c.act else full) with resume := true }) ∧
        holdsWords s2 s1.sched.nextId c.gid status ∧ s2.mem = run.1.mem)) ∧
  (∀ (s : State) (c : Ctx) (w : MWord) (s1 : State) (h : Hit) (p : Nat) (pg : Group) (x : FutLane) (o : Nat) (d : Due), MOp.fset.wf w →
    Runs s (MOp.front .fset w) c →
    s.resolveNow c w.space w.scope (c.objects w (MOp.uniform .fset w) 16 16)
      { once := MOp.uniform .fset w, kind := .both, mt0 := true } = .ok s1 [h] →
    Settled s1 → s1.released c.gid w.scope → leVal (s1.readBytes (h.pa + 8) 4) = 0 →
    s1.oldestFget h.pa = some p → p ≠ c.gid → s1.group p = some pg → pg.place = .slot → pg.wait = some (.future [x] o true d) →
    (∀ q ∈ s1.groups, q = (p, pg) ∨ ∀ l n m e, q.2.wait = some (.future l n m e) → ∀ y ∈ l, y.pa ≠ h.pa) →
    let v := c.g.rdDWord w.b h.e.lane
    ∃ t g', exec (.fset w) s = .next t ∧ Accessed s1 t c g' (MOp.front .fset w) ((c.g.wr w.d h.e.lane .n32 0).map (·.1)) ∧
      t.group p = some { pg with wait := some (.future [{ x with got := some v }] o true d) } ∧
      t.mem = memPuts (memPuts s1.mem h.pa (leOf 8 v.toNat)) (h.pa + 8) (leOf 4 (if x.keep then 1 else 0))) ∧
  (∀ (s : State) (c : Ctx) (w : MWord) (s1 : State) (hits : List Hit), MOp.fget.wf w →
    Runs s (MOp.front .fget w (resumes := true)) c → (∀ l o m d, c.g.wait ≠ some (.future l o m d)) →
    s.resolveNow c w.space w.scope (c.objects w (MOp.uniform .fget w) 16 16)
      { once := MOp.uniform .fget w, kind := .both, mt0 := true } = .ok s1 hits →
    Settled s1 →
    let run := fgetRun s1 (w.opx.getLsbD 0) hits
    let keys := hits.flatMap fun h => (List.range 2).map fun j => c.g.key w.d h.e.lane j
    let words := run.2.flatMap fun x => let v := x.got.getD 0; [v.setWidth 32, v.extractLsb' 32 32]
    let all := ∀ x ∈ run.2, x.got.isSome = true
    (all → s1.acquired c.gid w.scope →
      ∃ t g' id, exec (.fget w) s = .next t ∧ Accessed s1 t c g' (MOp.front .fget w (resumes := true)) keys ∧
        holdsWords t id c.gid (keys.zip words) ∧ t.order = s1.order ∧ t.mem = run.1.mem) ∧
    (¬all ∨ s1.acquired c.gid w.scope = false →
      ∃ t g' d m, exec (.fget w) s = .next t ∧ Owes { s1 with mem := run.1.mem } t c g' keys d ∧
        (m = true ↔ ∀ x ∈ run.2, x.got = none → s1.monitorFree c.g.id.ctx x.pa = true) ∧
        g'.wait = some (.future run.2 s1.sched.nextId m d))) ∧
  ∀ (s : State) (c : Ctx) (w : MWord) (x : FutLane) (v : DWord) (o : Nat) (mon : Bool) (d : Due), MOp.fget.wf w →
    Runs s (MOp.front .fget w (resumes := true)) c → c.g.wait = some (.future [x] o mon d) → x.got = some v →
    s.acquired c.gid w.scope →
    ∃ t g', exec (.fget w) s = .next t ∧ Accessed s t c g' (MOp.front .fget w (resumes := true)) [] ∧
      Pays s t c.gid d.prod [v.setWidth 32, v.extractLsb' 32 32] ∧ t.mem = s.mem

/-- R283 to R287: the queue instructions hand items over in order or park, and the future instructions fill and empty a cell or
park. -/
def Obligations.QueuesAndFutures : Prop :=
  Says.Queues ∧ Says.Futures

/-- R281 and R282: COUNT arrivals for each active lane join the barrier's count, which wraps at THREADS, each wrap flipping PHASE and
waking the groups that wait for the phase that came. A COUNT of 0 is no well-formed `arrive`: its word is ILLOP. -/
def Says.BarrierArrivals : Prop :=
  (∀ (b : Barrier) (target n : Nat), 0 < target → b.count < target →
    let r := b.arrive target n
    r.1.count < target ∧ b.count + n = r.2 * target + r.1.count ∧ r.1.phase = (b.phase ^^ decide (r.2 % 2 = 1))) ∧
  ∀ (s : State) (c : Ctx) (w : XWord) (tm : Team), COp.arrive.wf w → Runs s ((View.c .arrive w).front s) c →
    s.team c.g.id.grid c.g.id.team = some tm → s.released c.gid (scopeOf (w.f 19 18)) →
    let bar := w.f 17 12
    let r := (smGet ⟨0, false⟩ tm.barriers bar).arrive (s.threads c.g.id) (w.f 11 0 * c.act.length)
    ∃ t g', exec (.arrive w) s = .next t ∧ t.group c.gid = some g' ∧
      KeepsGroup c.g g' [] (c.g.luKeys ((View.c .arrive w).front s) c.act) ∧ c.GoesTo g' c.nextPc ∧
      t.team c.g.id.grid c.g.id.team = some { tm with barriers := smSet tm.barriers bar r.1 } ∧
      t.mem = s.mem ∧ t.order = s.order ∧ t.work = s.work ∧ t.cores = s.cores ∧
      ∀ k g, k ≠ c.gid → s.group k = some g →
        t.group k = some (match g.wait with
          | some (.barrier b ph false) =>
            if g.id.grid = c.g.id.grid ∧ g.id.team = c.g.id.team ∧ b = bar ∧ (r.2 = 1 ∧ ph = r.1.phase ∨ 2 ≤ r.2) then
              { g with wait := some (.barrier b ph true) }
            else g
          | _ => g)

/-- R282 and R262 to R264: `waitb` goes on when the barrier's phase is the one it names, or when it was woken, and an acquire is over,
and parks else; `fence` goes on when what its scope and order wait for has happened, and until then stays at the instruction. -/
def Says.BarrierWaitsAndFences : Prop :=
  (∀ (s : State) (c : Ctx) (w : XWord), COp.waitb.wf w → Runs s ((View.c .waitb w).front s) c →
    let bar := w.f 17 12
    let ph := w.f 20 20 == 1
    let there := (s.barrier c.g.id bar).phase = ph ∨ ∃ b q, c.g.wait = some (.barrier b q true)
    (there → s.acquired c.gid (scopeOf (w.f 19 18)) →
      ∃ t g', exec (.waitb w) s = .next t ∧ Wrote s t c g' [] (c.g.luKeys ((View.c .waitb w).front s) c.act) 0 c.nextPc) ∧
    (¬there → ∃ t g', exec (.waitb w) s = .next t ∧ t.group c.gid = some g' ∧ g'.wait = some (.barrier bar ph false) ∧
      g'.fibres = c.g.fibres ∧ (∀ k, g'.reg k = c.g.reg k) ∧ SameOutside c.gid s t)) ∧
  (∀ (s : State) (gid : Nat) (sc : Scope),
    (s.released gid sc ↔ (∀ w ∈ s.order.tc, gid ∉ w.gids) ∧
      (sc = .device ∨ sc = .system → (∀ q ∈ s.order.qch, ∀ a ∈ q.2, a.gid ≠ gid) ∧ (∀ r ∈ s.order.reds, r.gid ≠ gid)) ∧
      (sc = .system → ∀ a ∈ s.order.h, a.gid ≠ gid)) ∧
    (s.acquired gid sc ↔
      (sc = .device ∨ sc = .system → ∀ q ∈ s.order.qch, ∀ a ∈ q.2, a.gid = gid → a.kind ≠ .load) ∧
      (sc = .system → ∀ a ∈ s.order.h, a.gid = gid → a.kind ≠ .load))) ∧
  ∀ (s : State) (c : Ctx) (w : XWord), COp.fence.wf w → Runs s (ctlFront w (body := false)) c →
    let sc := scopeOf (w.f 1 0)
    let settled := (w.f 3 2 ≠ 0 → s.released c.gid sc) ∧ (w.f 3 2 ≠ 1 → s.acquired c.gid sc)
    (settled → ∃ t g', exec (.fence w) s = .next t ∧ Wrote s t c g' [] [] 0 c.nextPc) ∧ (¬settled → exec (.fence w) s = .next s)

/-- R262 to R264, R281 and R282: arrivals flip the phase of a barrier and wake its waiters; `waitb` and `fence` go on when what
they wait for has come. -/
def Obligations.BarriersAndFences : Prop :=
  Says.BarrierArrivals ∧ Says.BarrierWaitsAndFences

/-! ### Long-latency results and the moves of the memory order (R146, R178, R179, R187, R256-R261) -/

/-- R146, R178, R179 and R187: `kcg` and `sfu` commit with D empty; `kcg` has a producer with the four words of every lane, and `sfu`
leaves its results in the core's queue, whose entries start in order and write back in order, joining their flags to FPMODE; a
producer that has every value writes them back, and the registers are full; what is due to the registers of a fibre that has ended is
discarded. -/
def Obligations.LongLatencyResults : Prop :=
  (∀ (s : State) (c : Ctx) (w : RWord), ROp.kcg.wf w → Runs s (ROp.kcg.front w) c →
    let keys := (c.lanesOf (ROp.kcg.uniform w)).flatMap fun l => (List.range 4).map fun j => c.g.key w.d l j
    ∃ t g' ws, exec (.kcg w) s = .next t ∧ Accessed s t c g' (ROp.kcg.front w) keys ∧ t.mem = s.mem ∧ t.order = s.order ∧
      (⟨s.sched.nextId, c.gid, ws⟩ : Producer) ∈ t.work.producers ∧ ws.map (·.1) = keys ∧
      ∀ l ∈ c.lanesOf (ROp.kcg.uniform w),
        let seed := c.g.rdDWord w.b l
        let x := fun (j : Nat) => c.g.reg (c.g.key w.a l j)
        let y := kcg (seed.setWidth 32) (seed.extractLsb' 32 32) (x 0) (x 1) (x 2) (x 3)
        ∀ p ∈ [(0, y.x0), (1, y.x1), (2, y.x2), (3, y.x3)], (c.g.key w.d l p.1, some p.2) ∈ ws) ∧
  (∀ (s : State) (c : Ctx) (w : RWord), ROp.sfu.wf w → Runs s (ROp.sfu.front w) c → s.bodyOf c.gid c.g = none →
    let lanes := c.lanesOf (ROp.sfu.uniform w)
    let mode := c.g.rounding w.rnd
    let res := fun (l : Nat) =>
      sfuBits (w.opx.toNat % 16) w.ty (c.g.rd w.a l w.ty) mode w.sat (s.rho c (ROp.sfu.uniform w) mode l)
    let flags := lanes.map fun l => (l, (res l).2)
    flagTrap (fpEnables c.g.fpmode) flags = none → (s.core c.g.id.core).sfu.length + 4 ≤ 32 →
    ∃ t g' es, exec (.sfu w) s = .next t ∧ t.group c.gid = some g' ∧ SameOutside c.gid s t ∧ t.order = s.order ∧ t.work = s.work ∧
      (∀ k, g'.reg k = c.g.reg k) ∧ g'.fpmode = c.g.fpmode ∧ c.GoesTo g' c.nextPc ∧
      t.core c.g.id.core = { s.core c.g.id.core with sfu := (s.core c.g.id.core).sfu ++ es } ∧
      (∀ e ∈ es, e.gid = c.gid ∧ e.started = none ∧ e.trap = none ∧ (∀ p ∈ e.writes, g'.isFull p.1 = false) ∧
        e.flags = if e.last then allFlags flags else 0) ∧
      (∀ l ∈ lanes.take 64, ∀ p ∈ c.g.wr w.d l w.ty (res l).1, ∃ e ∈ es, p ∈ e.writes)) ∧
  (∀ (s : State) (k : Nat) (pre post : List SfuEntry) (e : SfuEntry), (s.core k).sfu = pre ++ e :: post →
    (∀ x ∈ pre, x.started.isSome) → e.started = none →
    ∃ t, exec (.sfuEntryStart k) s = .next t ∧
      t.core k = { s.core k with sfu := pre ++ { e with started := some s.dev.clk } :: post } ∧
      (∀ j, j ≠ k → t.core j = s.core j) ∧ t.groups = s.groups ∧ t.mem = s.mem) ∧
  (∀ (s : State) (k n : Nat) (e : SfuEntry) (rest : List SfuEntry) (g : Group), (s.core k).sfu = e :: rest → e.started = some n →
    s.group e.gid = some g → g.ended = false → (e.writes.map (·.1)).Nodup →
    ∃ t g', (exec (.sfuWriteback k) s = .next (match e.trap with | some x => t.raise e.gid x | none => t)) ∧
      t.core k = { s.core k with sfu := rest } ∧ t.group e.gid = some g' ∧ SameOutside e.gid s t ∧
      g'.fpmode = g.fpmode ||| (e.flags.setWidth 32 <<< 8) ∧ g'.fibres = g.fibres ∧
      (∀ p ∈ e.writes, g.holdsKey p.1 → g'.reg p.1 = p.2 ∧ g'.isFull p.1 = true) ∧
      ∀ j, (j ∉ e.writes.map (·.1) ∨ g.holdsKey j = false) → g'.reg j = g.reg j ∧ g'.isFull j = g.isFull j) ∧
  ∀ (s : State) (id gid : Nat) (ws : List (Nat × Word)) (g : Group),
    s.work.producers.find? (fun p => p.id == id) = some ⟨id, gid, ws.map fun p => (p.1, some p.2)⟩ → s.group gid = some g →
    g.ended = false → (ws.map (·.1)).Nodup →
    ∃ t g', exec (.longLatencyWriteback id) s = .next t ∧ t.group gid = some g' ∧ SameOutside gid s t ∧ t.order = s.order ∧
      t.work.producers = s.work.producers.filter (fun p => p.id != id) ∧ g'.fibres = g.fibres ∧ g'.fpmode = g.fpmode ∧
      (∀ p ∈ ws, g.holdsKey p.1 → g'.reg p.1 = p.2 ∧ g'.isFull p.1 = true) ∧
      ∀ j, (j ∉ ws.map (·.1) ∨ g.holdsKey j = false) → g'.reg j = g.reg j ∧ g'.isFull j = g.isFull j

/-- R256, R258, R259 and R261: TC_DRAIN writes the oldest write of a line of a core into M, QCH_PERFORM the head of a channel,
H_PERFORM an entry of H with no older one of its core and line, and RED_ACCUMULATE moves a `red` to its core's partial. A write
that the target's access table refuses by then is logged and not made (R222). Which target checks which move, a slice T_c and `red`, an
HBM controller Q_ch and a port H, is the model's choice (log 68), as is the window's anchor that an fadd `red` on H keeps (log 70). -/
def Says.OrderMoves : Prop :=
  (∀ (s : State) (core line : Nat) (pre post : List TcWrite) (x : TcWrite), s.order.tc = pre ++ x :: post →
    (∀ y ∈ pre, ¬(y.core = core ∧ lineOf y.pa = line)) → x.core = core → lineOf x.pa = line →
    (∀ l ∈ linesOf x.pa x.bytes.length, s.takenFor .other l = false ∧
      s.regionHeld (match x.gids with | g :: _ => .group g x.ord | [] => .other) l = false) →
    ∃ t, exec (.tcDrain core line) s = .next t ∧ t.order = { s.order with tc := pre ++ post } ∧ t.cores = s.cores ∧
      t.teams = s.teams ∧
      if s.allowed .slice x.ctx x.pa x.bytes.length .write then
        t.mem = memPuts s.mem x.pa x.bytes ∧ t.dev = s.cleared x.pa x.bytes.length
      else t.mem = s.mem ∧ t.dev = { s.dev with refusals := s.dev.refusals ++ [⟨.slice, x.ctx, x.pa, .write⟩] }) ∧
  (∀ (s : State) (a : Access) (go : Instr) (order : Order) (tg : Target), Settled s → s.accessWaits a = false → s.accessBad a = false →
    (a.body = true → a.kind = .load) →
    (∃ ch rest, tg = .hbm ∧ go = .qchPerform ch ∧ smGet [] s.order.qch ch = a :: rest ∧
      order = { s.order with qch := smPut [] s.order.qch ch rest }) ∨
    (∃ pre post, tg = .port ∧ go = .hPerform pre.length ∧ s.order.h = pre ++ a :: post ∧
      (∀ b ∈ pre, ¬(b.core = a.core ∧ lineOf b.pa = lineOf a.pa)) ∧ order = { s.order with h := pre ++ post }) →
    let m := leVal (s.readBytes a.pa a.bytes)
    let give := fun (v : Nat) => s.work.producers.map fun p =>
      if p.id = a.prod then
        { p with writes := p.writes.map fun w => (w.1, match a.keys.findIdx? (· == w.1) with
          | some j => some (BitVec.ofNat 32 (v / 2 ^ (32 * j)))
          | none => w.2) }
      else p
    ∃ t, exec go s = .next t ∧ t.cores = s.cores ∧ (a.body = false → t.teams = s.teams) ∧
      ((∀ aop b e, a.kind ≠ .red aop b e) → t.order = order) ∧
      if s.allowed tg a.ctx a.pa a.bytes a.kind.kind then
        match a.kind with
        | .load => t.mem = s.mem ∧ t.dev = s.dev ∧ t.work.producers = give m
        | .store b => t.mem = memPuts s.mem a.pa b ∧ t.dev = s.cleared a.pa b.length ∧ t.work = s.work
        | .rmw aop b d =>
          t.mem = memPuts s.mem a.pa (leOf a.bytes (aopNew aop a.bytes m b.toNat d.toNat)) ∧ t.dev = s.cleared a.pa a.bytes ∧
            t.work.producers = give m
        | .red aop b e =>
          t.mem = s.mem ∧ t.dev = s.dev ∧ t.work = s.work ∧ t.order = { order with partials :=
            [⟨logical a.core, [a.ctx], a.pa, a.bytes, aop, some e,
              (accumulate 0 (decode (if a.bytes = 8 then .f64 else .f32) b.toNat) e).1⟩] }
        | .cell σ key chk =>
          let at_ := fun (o n : Nat) => leVal (s.readBytes (a.pa + o) n)
          t.dev = s.dev ∧ t.work = s.work ∧
            t.mem = memPuts (memPuts (memPuts s.mem a.pa (leOf 4 (BitVec.ofNat 32 (at_ 0 4) + σ).toNat))
              (a.pa + 8) (leOf 8 (BitVec.ofNat 64 (at_ 8 8) ^^^ key).toNat))
              (a.pa + 16) (leOf 8 (BitVec.ofNat 64 (at_ 16 8) ^^^ chk).toNat)
      else t.mem = s.mem ∧ t.order = order ∧ t.work.producers = give 0 ∧
        t.dev = { s.dev with refusals := s.dev.refusals ++ [⟨tg, a.ctx, a.pa, a.kind.kind⟩] }) ∧
  ∀ (s : State) (i : Nat) (r : RedInFlight), s.order.reds[i]? = some r → s.redWaits r = false →
    s.allowed .slice r.ctx r.pa r.bytes .both → r.anchor = none → s.order.partials = [] →
    ∃ t, exec (.redAccumulate i) s = .next t ∧ t.mem = s.mem ∧
      t.order = { s.order with
        reds := s.order.reds.eraseIdx i
        partials := [⟨r.core, [r.ctx], r.pa, r.bytes, r.aop, none, r.b.toNat⟩] }

/-- R99 to R101 and R257: a host access on a port with the host personality reads M, writes it, or changes it as one locked
read-modify-write, under the port's master id, flipping a page of device memory in device bias; BIAS_SET_REQUEST returns the page; a
refused access is logged and changes nothing. Which addresses are host memory (log 6), and that the port itself checks the access
(log 68), are the model's choice. -/
def Says.HostAccesses : Prop :=
  (∀ (s : State) (r : HostReq) (master : Nat), s.dev.prov.ports.find? (fun p => p.1 == r.port) = some (r.port, master) → Settled s →
    r.bytes ∈ [1, 2, 4, 8] → r.pa % r.bytes = 0 → r.pa < 2 ^ 51 →
    let k := match r.op with | .load => Kind.read | .store => Kind.write | .amo _ => Kind.both
    s.blocked r.pa r.bytes k.writes = false →
    let m := leVal (s.readBytes r.pa r.bytes)
    let cut := fun (x : DWord) => x.toNat % 2 ^ (8 * r.bytes)
    ∃ t, exec (.hostAccess r) s = .next t ∧ t.order = s.order ∧ t.teams = s.teams ∧ t.work = s.work ∧
      if (s.hostMem r.pa = true ∨ s.allowed .port master r.pa r.bytes k = true) ∧ ¬(k.writes = true ∧ inJournal r.pa r.bytes = true) then
        t.dev = { (if k.writes then s.cleared r.pa r.bytes else s.dev) with
          bias := if s.hostMem r.pa then s.dev.bias else keyAdd s.dev.bias (r.pa / 4096) } ∧
        (s.hostMem r.pa = true ∨ t.hostBias r.pa = true) ∧
        t.mem = match r.op with
          | .load => s.mem
          | .store => memPuts s.mem r.pa (leOf r.bytes r.value.toNat)
          | .amo aop => memPuts s.mem r.pa (leOf r.bytes (aopNew aop r.bytes m (cut r.value) (cut r.cmp)))
      else t.mem = s.mem ∧ t.dev = { s.dev with refusals := s.dev.refusals ++ [⟨.port, master, r.pa, k⟩] }) ∧
  ∀ (s : State) (frame : Nat), ∃ t, exec (.biasSetRequest frame) s = .next t ∧
    t = { s with dev := { s.dev with bias := t.dev.bias } } ∧ ∀ f, f ∈ t.dev.bias ↔ f ∈ s.dev.bias ∧ f ≠ frame

/-- R99, R100, R222 and R256 to R261: writes, reads and atomics on their way perform in M in their order, as do the accesses of
the host; a refused one is logged and changes nothing. -/
def Obligations.OrderAndHostMoves : Prop :=
  Says.OrderMoves ∧ Says.HostAccesses

/-- R253 and R255 with R4: a byte of memory reads as the last byte written there, and a write leaves every other byte alone; the n
bytes of a value and the value of n bytes are each other's inverse, lowest byte first. -/
def Obligations.MemoryReadAfterWrite : Prop :=
  (∀ (m : List Host.Cell) (a : Nat) (l : List Byte) (b : Nat),
    memByte (memPuts m a l) b = if a ≤ b then l.getD (b - a) (memByte m b) else memByte m b) ∧
  (∀ (m : List Host.Cell) (a : Nat) (l : List Byte), Memory.wf m → Memory.wf (memPuts m a l)) ∧
  (∀ (m k : List Host.Cell), Memory.wf m → Memory.wf k → (∀ a, memByte m a = memByte k a) → m = k) ∧
  (∀ n x : Nat, leVal (leOf n x) = x % 256 ^ n) ∧ ∀ l : List Byte, leOf l.length (leVal l) = l

/-! ### The matrix engine (R188-R210, R393) -/

/-- An instruction has committed, and the core of its group is as `k` says; the other cores are as they were. -/
def CommitsOn (o : Host.Outcome State Fault Refusal) (s : State) (c : Ctx) (f : Front) (k : Core → Prop) : Prop :=
  ∃ t g', o = .next t ∧ Wrote { s with cores := t.cores } t c g' (c.g.dstKeys f c.act) (c.g.luKeys f c.act) 0 c.nextPc ∧
    k (t.core c.g.id.core) ∧ ∀ j, j ≠ c.g.id.core → t.core j = s.core j

/-- R192 to R194, R202 and R210: `macq` makes its group the owner of an engine without one, clearing the sticky flags, and the slices when the
context changes and nothing is queued; with another owner, or behind groups that wait for the engine, it waits in the owner queue. `marel` gives the engine up, with every convergence register, to the
head of that queue, whose `macq` commits. `mcvr` declares a register; `mstat` reads the status word, and CLR clears its flags. -/
def Says.EngineOwnership : Prop :=
  (∀ (s : State) (c : Ctx) (w : XWord), XOp.macq.wf w → Runs s (xFront w (ports := [.mxp])) c →
    let e := (s.core c.g.id.core).engine
    (e.owner = some c.gid → CommitsOn (exec (.macq w) s) s c (xFront w (ports := [.mxp])) (· = s.core c.g.id.core)) ∧
    (e.owner = none → e.ownerQ = [] → s.engineAwaited c.g.id.core = false →
      CommitsOn (exec (.macq w) s) s c (xFront w (ports := [.mxp])) fun k =>
        k.engine.owner = some c.gid ∧ k.engine.ownerQ = [] ∧ k.engine.flags = 0 ∧ k.engine.ops = e.ops ∧
        k.engine.lastCtx = some c.g.id.ctx ∧
        k.engine.slices = if e.lastCtx ≠ none ∧ e.lastCtx ≠ some c.g.id.ctx ∧ e.ops = [] then [] else e.slices) ∧
    (e.owner ≠ some c.gid → (e.owner ≠ none ∨ e.ownerQ ≠ [] ∨ s.engineAwaited c.g.id.core = true) → e.ownerQ.length < 16 →
      ∃ t g', exec (.macq w) s = .next t ∧ t.group c.gid = some g' ∧ g'.wait = some .engine ∧ g'.fibres = c.g.fibres ∧
        (t.core c.g.id.core).engine = { e with ownerQ := e.ownerQ ++ [c.gid] } ∧ SameOutside c.gid s t)) ∧
  (∀ (s : State) (c : Ctx) (w : XWord), XOp.marel.wf w → Runs s ((View.x .marel w).front s) c →
    s.engineAwaited c.g.id.core = false →
    let e := (s.core c.g.id.core).engine
    (e.ownerQ = [] → CommitsOn (exec (.marel w) s) s c ((View.x .marel w).front s)
      fun k => k.engine = { e with owner := none, conv := [] }) ∧
    (∀ q rest qg own, e.ownerQ = q :: rest → q ≠ c.gid → s.group q = some qg → qg.wait = some .engine → qg.pc = some own →
      qg.halt = none → (∀ f ∈ qg.fibres, f.held = false) →
      ∃ t qg', exec (.marel w) s = .next t ∧ t.group q = some qg' ∧ qg'.wait = none ∧
        (t.core c.g.id.core).engine.owner = some q ∧ (t.core c.g.id.core).engine.ownerQ = rest ∧
        (t.core c.g.id.core).engine.conv = [] ∧
        qg'.fibres = qg.fibres.map fun f => if f.lane ∈ qg.batch own then { f with pc := own + 12 } else f)) ∧
  (∀ (s : State) (c : Ctx) (w : XWord), XOp.mcvr.wf w → Runs s (mxFront w) c →
    let e := (s.core c.g.id.core).engine
    (∀ v, smFind e.conv (w.f 15 12) = some v → v.arrived = []) →
    CommitsOn (exec (.mcvr w) s) s c (mxFront w)
      fun k => k.engine = { e with conv := smSet e.conv (w.f 15 12) ⟨w.f 11 0, 0, [], none, none⟩ }) ∧
  ∀ (s : State) (c : Ctx) (w : XWord), XOp.mstat.wf w → Runs s ((View.x .mstat w).front s) c →
    let e := (s.core c.g.id.core).engine
    let word := (if e.owner = some c.gid then 1 else 0) + (if s.ownsEngine c.gid c.g false then 2 else 0) +
      (if c.g.id.det then 0 else 4 * e.ops.length + 2 ^ 8 * e.ownerQ.length) + 2 ^ 16 * e.flags.toNat
    let cleared := { e with flags := if w.f 1 1 = 1 then 0 else e.flags }
    (w.f 0 0 = 0 → CommitsOn (exec (.mstat w) s) s c ((View.x .mstat w).front s) (·.engine = cleared) ∧
      ∃ t g', exec (.mstat w) s = .next t ∧ t.group c.gid = some g' ∧ g'.reg (c.g.key w.d 0 0) = BitVec.ofNat 32 word) ∧
    (w.f 0 0 = 1 →
      ∃ t g', exec (.mstat w) s = .next t ∧ t.group c.gid = some g' ∧ c.GoesTo g' c.nextPc ∧ (∀ k, g'.reg k = c.g.reg k) ∧
        g'.isFull (c.g.key w.d 0 0) = false ∧ t.mem = s.mem ∧
        (e.ops = [] → holdsWords t s.sched.nextId c.gid [(c.g.key w.d 0 0, BitVec.ofNat 32 word)] ∧
          (t.core c.g.id.core).engine = cleared) ∧
        (e.ops ≠ [] → (t.core c.g.id.core).engine = { e with
          stats := e.stats ++ [⟨c.gid, s.sched.nextId, c.g.key w.d 0 0, e.ops.map (·.id), w.f 1 1 == 1⟩] }))

/-- An engine operation has entered the queue of the group's core at its end, with the lines that it will write absent (R195, R196),
and the instruction has committed. -/
structure EntersQueue (s t : State) (c : Ctx) (f : Front) (kind : EngKind) (emptied : List Nat) (o : EngOp) : Prop where
  group : ∃ g', t.group c.gid = some g' ∧ KeepsGroup c.g g' [] (emptied ++ c.g.luKeys f c.act) ∧
    (∀ k ∈ emptied, g'.isFull k = false) ∧ c.GoesTo g' c.nextPc ∧ g'.wait = none
  queued : (t.core c.g.id.core).engine.ops = (s.core c.g.id.core).engine.ops ++ [o]
  slices : (t.core c.g.id.core).engine.slices = (s.core c.g.id.core).engine.slices
  kinds : o.kind = kind
  names : (o.gid, o.grid, o.team, o.ctx, o.own, o.act) = (c.gid, c.g.id.grid, c.g.id.team, c.g.id.ctx, c.own, c.act)
  waiting : o.running = false ∧ o.sent = false ∧ o.dst = []
  absent : ∀ p ∈ o.spadDst, ∀ sh, t.share c.g.id.grid c.g.id.team p.1 = some sh → p.2 ∈ sh.absent
  mem : t.mem = s.mem
  order : t.order = s.order

/-- R195, R197, R203 to R205, R207 to R209 and R393: with a place in the queue and its operands in order, each engine operation enters the
queue of its core and its instruction commits. A convergent `mma` before the last arrival of its round only joins the count, and the
last enters the operation; one that would be the last and finds the queue full waits, and while it stands there no other arrival is
counted, which by the model's choice is noted with its group and PC (log 91). -/
def Says.EngineOperationsEnter : Prop :=
  (∀ (s : State) (c : Ctx) (w : XWord) (v : Conv), XOp.mma.wf w → Runs s (mxFront w (aRegs := 2) (bRegs := 2)) c → w.f 20 20 = 1 →
    smFind (s.core c.g.id.core).engine.conv (w.f 19 16) = some v → c.gid ∉ v.arrived →
    (∀ q, s.closer v = some q → q ≠ c.gid → exec (.mma w) s = .next s) ∧
    (16 ≤ (s.core c.g.id.core).engine.ops.length → s.closer v = none → v.count + c.act.length = v.n →
      (∀ x, v.op = some x → x = (BitVec.ofNat 8 w.d.idx, w.m, (c.mmaWords w).map fun p => BitVec.ofNat 32 p.1)) →
      ∃ t, exec (.mma w) s = .next t ∧ t.groups = s.groups ∧ t.mem = s.mem ∧
        (t.core c.g.id.core).engine = { (s.core c.g.id.core).engine with
          conv := smSet (s.core c.g.id.core).engine.conv (w.f 19 16) { v with closing := some (c.gid, c.own) } }) ∧
    (∀ q own qg, v.closing = some (q, own) → s.group q = some qg →
      (s.closer v = some q ↔ qg.pc = some own ∧ qg.pending = none ∧ qg.ended = false))) ∧
  ∀ (s : State) (c : Ctx), (s.core c.g.id.core).engine.ops.length < 16 →
    let k := c.g.id.core
    let reg := fun (x : Operand) (j : Nat) => (c.g.reg (c.g.key x 0 j)).toNat
    let pair := fun (x : Operand) => BitVec.ofNat 64 (c.g.bits x 2 0)
    (∀ (w : XWord), XOp.mzero.wf w → Runs s (mxFront w) c →
      ∃ t o, exec (.mzero w) s = .next t ∧ EntersQueue s t c (mxFront w) (.mzero w.d.idx (w.f 7 0 + 1)) [] o) ∧
    (∀ (w : XWord), XOp.mcopy.wf w → Runs s (mxFront w) c →
      ∃ t o, exec (.mcopy w) s = .next t ∧ EntersQueue s t c (mxFront w) (.mcopy w.d.idx w.a.idx (w.f 7 0 + 1)) [] o) ∧
    (∀ (w : XWord), XOp.mfill.wf w → Runs s (mxFront w (aRegs := 2)) c →
      let n := w.f 7 0 + 1
      (w.f 8 8 = 1 → reg w.a 1 = 0 → ∀ p, s.spadOps c.g.id [(reg w.a 0, [(0, 16384 * n)])] = .inr [p] →
        s.sourceFail c [p] = none →
        ∃ t o, exec (.mfill w) s = .next t ∧ EntersQueue s t c (mxFront w (aRegs := 2)) (.mfill w.d.idx n (.spad p.place)) [] o) ∧
      (w.f 8 8 = 0 → (pair w.a).toNat % 4 = 0 → badRow (pair w.a).toNat [(0, 16384 * n)] = none →
        let x := (rowParts (pair w.a).toNat [(0, 16384 * n)]).foldl (PageWalk.part c .read) ⟨s, [], [], false⟩
        x.fails = [] → x.blocked = false →
        ∃ t o, exec (.mfill w) s = .next t ∧
          EntersQueue x.s t c (mxFront w (aRegs := 2)) (.mfill w.d.idx n (.glob (pair w.a).toNat)) [] o)) ∧
    (∀ (w : XWord) (ops : List SpadOp), XOp.mma.wf w → Runs s (mxFront w (aRegs := 2) (bRegs := 2)) c →
      s.spadOps c.g.id (c.mmaWords w) = .inr ops → s.sourceFail c ops = none →
      let f := mxFront w (aRegs := 2) (bRegs := 2)
      let sig := (BitVec.ofNat 8 w.d.idx, w.m, (c.mmaWords w).map fun p => BitVec.ofNat 32 p.1)
      (w.f 20 20 = 0 → ∃ t o, exec (.mma w) s = .next t ∧ EntersQueue s t c f (mmaKind w ops) [] o) ∧
      ∀ v, w.f 20 20 = 1 → smFind (s.core k).engine.conv (w.f 19 16) = some v → c.gid ∉ v.arrived → (∀ x, v.op = some x → x = sig) →
        (∀ q, s.closer v = some q → q = c.gid) →
        (v.count + c.act.length = v.n → ∃ t o, exec (.mma w) s = .next t ∧ EntersQueue s t c f (mmaKind w ops) [] o ∧
          smFind (t.core k).engine.conv (w.f 19 16) = some ⟨v.n, 0, [], none, none⟩) ∧
        (v.count + c.act.length < v.n → CommitsOn (exec (.mma w) s) s c f fun x => x.engine = { (s.core k).engine with
          conv := smSet (s.core k).engine.conv (w.f 19 16) ⟨v.n, v.count + c.act.length, v.arrived ++ [c.gid], some sig, none⟩ }) ∧
        (v.n < v.count + c.act.length → exec (.mma w) s = .next (s.raise c.gid (Trap.mk' .mxmismatch c.own c.act)))) ∧
    (∀ (w : XWord), XOp.mld.wf w → Runs s (mxFront w (aRegs := 8) (dSrc := 1)) c →
      let f := mxFront w (aRegs := 8) (dSrc := 1)
      let a := c.mldArgs w
      let cnt := s.twc c.g.id.ctx (w.f 26 19)
      a.badShape = false → a.misaligned = false →
      (∀ src dst extra, a.ssp = true → a.src.toNat < 2 ^ 32 →
        s.spadOps c.g.id ((a.src.toNat, a.srcRows) :: (a.dst, a.dstRows) :: a.extra) = .inr (src :: dst :: extra) →
        a.clash [src] dst extra = false → s.sourceFail c (src :: a.sources extra) = none →
        ∃ t o, exec (.mld w) s = .next t ∧
          EntersQueue s t c f (a.kind w (c.engRnd (w.f 10 8)) cnt (.spad src.place) dst extra) [] o) ∧
      (∀ dst extra, a.ssp = false → badRow a.src.toNat a.srcRows = none →
        s.spadOps c.g.id ((a.dst, a.dstRows) :: a.extra) = .inr (dst :: extra) →
        let x := (rowParts a.src.toNat a.srcRows).foldl (PageWalk.part c .read) ⟨s, [], [], false⟩
        x.fails = [] → x.blocked = false → a.clash [] dst extra = false → x.s.sourceFail c (a.sources extra) = none →
        ∃ t o, exec (.mld w) s = .next t ∧
          EntersQueue x.s t c f (a.kind w (c.engRnd (w.f 10 8)) cnt (.glob a.src.toNat) dst extra) [] o)) ∧
    ∀ (w : XWord), XOp.mdrain.wf w → Runs s (drainFront w s.curWidth) c →
      let f := drainFront w s.curWidth
      let rnd := c.engRnd (w.f 6 4)
      let cnt := s.twc c.g.id.ctx (w.f 24 17)
      let row := BitVec.ofNat 32 (reg w.b 1)
      let col := BitVec.ofNat 32 (reg w.b 2)
      let rises := fun (t : State) => t.twc c.g.id.ctx (w.f 24 17) = if rnd = .sr ∧ (s.ctx c.g.id.ctx).isSome then cnt + 1 else cnt
      let rows := rowsOf 64 (reg w.b 0) ((if w.f 13 13 = 1 then 32 else 64) * (w.f 16 14 + 1) * ((tyOf (w.f 3 0)).width / 8))
      let toMem := fun (place : Loc) =>
        EngKind.mdrainMem w.a.idx (w.f 16 14 + 1) (w.f 13 13 == 1) (tyOf (w.f 3 0)) rnd (w.f 7 7 == 1) (scopeOf (w.f 12 11))
          (w.f 24 17) cnt place (reg w.b 0) row col
      (w.f 9 8 = 0 → w.f 10 10 = 1 → reg w.d 1 = 0 → ∀ p, s.spadOps c.g.id [(reg w.d 0, rows)] = .inr [p] →
        ∃ t o, exec (.mdrain w) s = .next t ∧ EntersQueue s t c f (toMem (.spad p.place)) [] o ∧ rises t) ∧
      (w.f 9 8 = 0 → w.f 10 10 = 0 → badRow (pair w.d).toNat rows = none →
        let x := (rowParts (pair w.d).toNat rows).foldl (PageWalk.part c .write) ⟨s, [], [], false⟩
        x.fails = [] → x.blocked = false →
        ∃ t o, exec (.mdrain w) s = .next t ∧ EntersQueue x.s t c f (toMem (.glob (pair w.d).toNat)) [] o ∧ rises t ∧
          o.dstLines = partLines x.pages (rowParts (pair w.d).toNat rows)) ∧
      (w.f 9 8 = 1 →
        let keys := c.act.flatMap fun l => (List.range (64 * (64 / c.g.id.width))).map fun j => c.g.key w.d l j
        ∃ t o, exec (.mdrain w) s = .next t ∧ rises t ∧
          (⟨s.sched.nextId, c.gid, keys.map fun x => (x, none)⟩ : Producer) ∈ t.work.producers ∧
          EntersQueue s t c f (.mdrainReg w.a.idx (tyOf (w.f 3 0)) rnd (w.f 7 7 == 1) (w.f 24 17) cnt row col w.d.idx c.act
            s.sched.nextId) keys o) ∧
      (2 ≤ w.f 9 8 → reg w.b 0 < 192 → reg w.b 0 ≠ c.g.id.core % 192 →
        ∃ t o, exec (.mdrain w) s = .next t ∧ rises t ∧
          EntersQueue s t c f (.mdrainPeer w.d.idx w.a.idx (w.f 16 14 + 1) (w.f 13 13 == 1) rnd (w.f 7 7 == 1) (w.f 24 17) cnt
            (reg w.b 0)) [] o)

/-- R192 to R197, R202 to R205, R207 to R210: engines are owned by one group at a time, and each engine operation enters the
queue of its core in order. -/
def Obligations.EngineInstructions : Prop :=
  Says.EngineOwnership ∧ Says.EngineOperationsEnter

/-- An engine operation whose destination is memory or scratchpad. -/
def writesMemory : EngKind → Bool
  | .mld _ _ _ _ _ _ _ _ _ _ _ _ _ _ _ _ _ _ _ => true
  | .mdrainMem _ _ _ _ _ _ _ _ _ _ _ _ _ => true
  | _ => false

/-- Element (r, x) of a slice. -/
def sliceAt (e : Engine) (a r x : Nat) : Word := smGet 0 e.slices (4096 * a + 64 * r + x)

/-- R195 to R198, R205, R208, R209, R227 and R260: the head of the queue starts when its sources are present; one whose destination is
memory then reads its sources, forms its lines and completes them one by one, each as one write that its target still accepts; at its
end its slices or registers receive their values and it leaves the queue. A peer add joins the queue of the peer's engine, when its
owner is of the same context, and is refused else. That an operation to memory forms its bytes at its start, and one to slices reads
its sources at its end (log 63), which target checks a line (log 68), and the order of its lines with the accesses in a channel's
queue (log 72) are the model's choice. -/
def Obligations.EngineRuns : Prop :=
  (∀ (s : State) (o : EngOp), Settled s → (∀ p ∈ o.pages, s.pageRefused o p = false) →
    (s.readSources o).1 = o ∧ (s.readSources o).2 = { s with dev := { s.dev with bias := (s.readSources o).2.dev.bias } }) ∧
  ∀ (s : State) (k : Nat) (o : EngOp) (rest : List EngOp), (s.core k).engine.ops = o :: rest → s.engineRuns o = true →
    let e := (s.core k).engine
    let src := s.readSources o
    let put := fun (x : EngOp) => { e with ops := (o :: rest).map fun y => if y.id = o.id then x else y }
    let ends := fun (t : State) => (t.core k).engine.ops = rest.filter fun y => y.id != o.id
    (o.running = false → s.opPresence o = .present → writesMemory o.kind = false → (∀ y ∈ rest, y.id ≠ o.id) →
      ∃ t, exec (.engineOpStart k) s = .next t ∧ (t.core k).engine = put { o with running := true } ∧ t.mem = s.mem) ∧
    (o.running = false → s.opPresence o = .present → writesMemory o.kind = true → s.srcBlocked o = false → s.srcBad o = false →
      Settled s → (∀ p ∈ o.pages, s.pageRefused o p = false) → (∀ y ∈ rest, y.id ≠ o.id) →
      let formed := src.2.byteOp e o
      ∃ t, exec (.engineOpStart k) s = .next t ∧ t.mem = s.mem ∧
        (t.core k).engine = put { o with
          running := true
          dst := (byLine formed.1).filter fun p => o.dstLines.contains p.1 || o.spadDst.contains (p.1 / 16384, p.1 % 16384)
          flags := formed.2 }) ∧
    (∀ key bytes, o.running = true → o.dst.find? (fun p => p.1 == key) = some (key, bytes) → (∀ y ∈ rest, y.id ≠ o.id) →
      let left := { o with dst := o.dst.filter fun p => p.1 != key }
      let mt := o.mtOf key
      let place := (key / 16384, key % 16384)
      (o.spadDst.contains place = false → s.blockedFor (.unit o.id) (128 * key) 128 true = false →
        s.barred (.unit o.id) (128 * key) mt = false → Settled s →
        ∃ t, exec (.engineLineComplete k key) s = .next t ∧
          (t.core k).engine = put { left with dstLines := keyDel o.dstLines key } ∧
          if s.allowed (s.targetAt (128 * key) mt) o.ctx (128 * key) 128 .write then
            t.mem = bytes.foldl (fun m p => memPut m p.1 p.2) s.mem ∧ (mt = 3 → t.hostBias (128 * key) = true)
          else t.mem = s.mem ∧ t.dev.refusals = s.dev.refusals ++ [⟨s.targetAt (128 * key) mt, o.ctx, 128 * key, .write⟩]) ∧
      (∀ sh, o.spadDst.contains place = true → s.regionSpad o.grid o.team place.1 place.2 = false →
        s.share o.grid o.team place.1 = some sh →
        ∃ t, exec (.engineLineComplete k key) s = .next t ∧ t.mem = s.mem ∧
          (t.core k).engine = put { left with spadDst := o.spadDst.filter fun p => p != place } ∧
          t.share o.grid o.team place.1 =
            some (({ sh with bytes := bytes.foldl (fun m p => memPuts m p.1 [p.2]) sh.bytes } : Share).land [place.2]))) ∧
    (o.running = true → o.dst = [] → s.srcBlocked o = false → s.srcBad o = false → Settled s →
      (∀ p ∈ o.pages, s.pageRefused o p = false) → o.id ∉ e.zeroAfter →
      (∀ d n, o.kind = .mzero d n → ∃ t, exec (.engineOpEnd k) s = .next t ∧ ends t ∧
        ∀ a i j, i < 64 → j < 64 → sliceAt (t.core k).engine a i j = if d ≤ a ∧ a < d + n then 0 else sliceAt e a i j) ∧
      (∀ d a n, o.kind = .mcopy d a n → ∃ t, exec (.engineOpEnd k) s = .next t ∧ ends t ∧
        ∀ b i j, i < 64 → j < 64 →
          sliceAt (t.core k).engine b i j = if d ≤ b ∧ b < d + n then sliceAt e (a + (b - d)) i j else sliceAt e b i j) ∧
      (∀ d n p, o.kind = .mfill d n p → ∃ t, exec (.engineOpEnd k) s = .next t ∧ ends t ∧
        ∀ a i j, i < 64 → j < 64 → sliceAt (t.core k).engine a i j =
          if d ≤ a ∧ a < d + n then BitVec.ofNat 32 (src.2.engNat o.pages p (4 * (4096 * (a - d) + 64 * i + j)) 4)
          else sliceAt e a i j) ∧
      (∀ d ta tb n a b sa sb, o.kind = .mma d ta tb n a b sa sb → ta ≠ .f64 → ∃ t, exec (.engineOpEnd k) s = .next t ∧ ends t ∧
        ∀ i j, i < 64 → j < 192 →
          sliceAt (t.core k).engine (d + j / 64) i (j % 64) = BitVec.ofNat 32 (src.2.mmaElem e d ta tb n a b sa sb i j).1) ∧
      (∀ a ty rnd sat tns cnt row col dr lanes prod p g, o.kind = .mdrainReg a ty rnd sat tns cnt row col dr lanes prod →
        s.work.producers = [p] → p.id = prod → s.group o.gid = some g → e.stats = [] →
        ∃ t, exec (.engineOpEnd k) s = .next t ∧ ends t ∧ (t.core k).engine.slices = e.slices ∧
          t.work.producers = [{ p with writes := p.writes.map fun w =>
            match ((p.writes.map (·.1)).zip ((s.regValues e o.ctx a ty rnd sat tns cnt row col lanes g.id.width).map fun v =>
              BitVec.ofNat 32 v.1)).find? (fun v => v.1 == w.1) with
            | some v => (w.1, some v.2)
            | none => w }])) ∧
    (∀ d a n f64 rnd sat tns cnt peer, o.kind = .mdrainPeer d a n f64 rnd sat tns cnt peer → o.running = true → o.sent = false →
      let pk := k / 192 * 192 + peer
      s.engineSaved o.ctx pk = false → pk ≠ k → (∀ y ∈ rest, y.id ≠ o.id) →
      (∀ q qg, (s.core pk).engine.owner = some q → s.group q = some qg → s.running qg.id.ctx = true → qg.id.ctx = o.ctx →
        (s.core pk).engine.ops.length < 16 →
        ∃ t x, exec (.peerAdd k) s = .next t ∧ (t.core k).engine = put { o with sent := true } ∧
          (t.core pk).engine = { (s.core pk).engine with ops := (s.core pk).engine.ops ++ [x] } ∧
          x.kind = .peerAdd d n f64 rnd sat tns cnt (e.peerValues f64 a n) ∧ x.ctx = o.ctx) ∧
      ((s.core pk).engine.owner = none ∨ (∃ q qg, (s.core pk).engine.owner = some q ∧ s.group q = some qg ∧
          s.running qg.id.ctx = true ∧ qg.id.ctx ≠ o.ctx) →
        ∃ t, exec (.peerAdd k) s = .next t ∧ (t.core pk) = s.core pk ∧
          (t.core k).engine = { put { o with sent := true } with flags := if e.epoch = o.epoch then e.flags ||| 16 else e.flags }))

/-! ### Handles, rings and copies (R233-R251) -/

/-- R241, R245 and R246: `bwait` commits with the handle's state word in D when that state is in MASK, parks while it is not, and raises
COPYFAULT for a FAULTED handle outside MASK; an unbound handle, or one of another team, raises HANDLE. -/
def Says.HandleWaits : Prop :=
  ∀ (s : State) (c : Ctx) (w : XWord), XOp.bwait.wf w → Runs s ((View.x .bwait w).front s) c →
    (∀ core b, s.namedHandle c.g.id w false = some (core, some b) →
      let code := match b.state with | .free => 0 | .filling => 1 | .full => 2 | .draining => 3 | .faulted => 4
      ((w.f 20 16).testBit code = true →
        Commits (exec (.bwait w) s) s c ((View.x .bwait w).front s) 0 fun g' l => g'.bits w.d 1 l = 8 + code) ∧
      ((w.f 20 16).testBit code = false → b.state ≠ .faulted →
        ∃ t g', exec (.bwait w) s = .next t ∧ t.group c.gid = some g' ∧ g'.wait = some (.retry false) ∧ g'.fibres = c.g.fibres ∧
          (∀ k, g'.reg k = c.g.reg k) ∧ SameOutside c.gid s t) ∧
      ((w.f 20 16).testBit code = false → b.state = .faulted →
        exec (.bwait w) s = .next (s.raise c.gid (Trap.mk' .copyfault c.own c.act (BitVec.ofNat 64 (w.f 7 0)))))) ∧
    ((∀ core b, s.namedHandle c.g.id w false ≠ some (core, some b)) →
      exec (.bwait w) s = .next (s.raise c.gid (Trap.mk' .handle c.own c.act)))

/-- R242 Table 5 and R246: after a release of cluster scope `bset` makes its transition when it applies, changes nothing when it does
not, and leaves the state word from before in D. BIND names a range of a share by the team's handle, FREE. -/
def Says.HandleTransitions : Prop :=
  ∀ (s : State) (c : Ctx) (w : XWord), XOp.bset.wf w → Runs s ((View.x .bset w).front s) c → s.released c.gid .cluster →
    ∀ core b, s.namedHandle c.g.id w (w.f 18 16 = 3) = some (core, b) →
      let named := fun (t : State) => (t.handle c.g.id.ctx core (w.f 7 0)).bind (·.bound)
      let committed := fun (after : State → Prop) => ∃ t g', exec (.bset w) s = .next t ∧ t.group c.gid = some g' ∧
        KeepsGroup c.g g' (c.g.dstKeys ((View.x .bset w).front s) c.act) (c.g.luKeys ((View.x .bset w).front s) c.act) ∧
        c.GoesTo g' c.nextPc ∧ (∀ l ∈ c.act, g'.bits w.d 1 l = stateWord b) ∧ t.mem = s.mem ∧ t.order = s.order ∧ after t
      (w.f 18 16 ≠ 3 → ∀ x, b = some x →
        committed fun t => match w.f 18 16, x.state with
          | 0, .free => named t = some { x with state := .full }
          | 1, .full => named t = some { x with state := .free }
          | 2, .faulted => named t = some { x with state := .free } ∧
              ∀ sh, s.share x.grid x.team x.shareCore = some sh →
                t.share x.grid x.team x.shareCore = some { sh with
                  absent := sh.absent.filter fun l => !(linesOf x.ofs x.len).contains l
                  faulted := sh.faulted.filter fun l => !(linesOf x.ofs x.len).contains l }
          | 4, .free => named t = none
          | _, _ => t.work = s.work ∧ t.teams = s.teams) ∧
      (w.f 18 16 = 3 →
        let base := c.g.reg (c.g.key w.a 0 0)
        let len := (c.g.reg (c.g.key w.a 0 1)).toNat
        ((s.spadPlace c.g.id base.toNat len = none ∨ len % 128 ≠ 0 ∨ len < 128 ∨ 2097152 < len) →
          exec (.bset w) s = .next (s.raise c.gid (Trap.mk' .addr c.own c.act (base.setWidth 64)))) ∧
        ∀ p, s.spadPlace c.g.id base.toNat len = some p → len % 128 = 0 → 128 ≤ len → len ≤ 2097152 →
          (b = none → (s.handle c.g.id.ctx core (w.f 7 0)).isSome ∨ s.poolFree core = true →
            committed fun t => named t = some ⟨p.grid, p.team, p.core, p.ofs, len, .free⟩) ∧
          ∀ x, b = some x → committed fun t => named t =
            if x.state = .free then some ⟨p.grid, p.team, p.core, p.ofs, len, .free⟩ else named s)

/-- R247 and R248: `srnext` advances the cursor that it names when ADV asks for it, and waits while the ring is full or empty; D
receives the handle of the cursor's stage, its phase and its index. DEPTH takes any value from min to max. -/
def Says.StageRings : Prop :=
  (∀ (s : State) (c : Ctx) (w : XWord) (tm : Team) (r : Ring) (before after : List Ring), XOp.srnext.wf w →
    Runs s ((View.x .srnext w).front s) c →
    s.team c.g.id.grid c.g.id.team = some tm →
    let j := if w.f 7 7 = 1 then w.f 6 5 else c.g.id.t % c.g.id.cores
    tm.rings[j]? = some (before ++ r :: after) → (∀ x ∈ before ++ after, x.entry.sg ≠ w.f 3 0) → r.entry.sg = w.f 3 0 →
    let consumer := w.f 4 4 = 1
    let adv := w.f 8 8 = 1
    let cur := if consumer then r.c else r.p
    let next := if cur.idx + 1 = r.entry.count then ⟨0, !cur.phase, cur.lap + 1⟩ else { cur with idx := cur.idx + 1 }
    let ahead := (r.p.lap * r.entry.count + r.p.idx) - (r.c.lap * r.entry.count + r.c.idx)
    let may := if consumer then 0 < ahead else ahead < r.depth
    let new := if adv then next else cur
    (adv → ¬may → exec (.srnext w) s = .next s) ∧
    ((adv → may) →
      ∃ t g', exec (.srnext w) s = .next t ∧ t.group c.gid = some g' ∧ c.GoesTo g' c.nextPc ∧
        KeepsGroup c.g g' (c.g.dstKeys ((View.x .srnext w).front s) c.act) [] ∧
        (∀ l ∈ c.act, g'.bits w.d 1 l = (r.entry.first + new.idx + (if new.phase then 2 ^ 8 else 0) + 2 ^ 9 * new.idx) % 2 ^ 32) ∧
        t.mem = s.mem ∧ t.order = s.order ∧ t.work = s.work ∧ t.cores = s.cores ∧
        t.team c.g.id.grid c.g.id.team = some { tm with
          rings := tm.rings.set j (before ++ (if consumer then { r with c := new } else { r with p := new }) :: after) })) ∧
  ∀ (s : State) (i core sg depth : Nat) (pre post : List Team) (tm : Team) (r : Ring), s.teams = pre ++ tm :: post → i = pre.length →
    (∀ x ∈ pre ++ post, ¬(x.grid = tm.grid ∧ x.n = tm.n)) → tm.rings[core]? = some [r] → r.entry.sg = sg →
    let r' := if r.entry.min ≤ depth ∧ depth ≤ r.entry.max then { r with depth := depth } else r
    exec (.ringDepthAdjust i core sg depth) s =
      .next { s with teams := pre ++ { tm with rings := tm.rings.set core [r'] } :: post }

/-- R241, R242 and R245 to R248: `bwait` waits for the state of a handle, `bset` makes a transition, and `srnext` advances a
cursor of a ring. -/
def Obligations.HandlesAndRings : Prop :=
  Says.HandleWaits ∧ Says.HandleTransitions ∧ Says.StageRings

/-- R102, R233, R242, R243, R251 and R353: `cpq` completes when its header's page can be read and written and nothing stands in its
way, the handles that it names are ready, a release of device scope is over, and the queue has a free slot: it claims the slot, hands
its packet to the copy port, moves the handles that it names on its own core, and leaves the slot's number in D. That RING, a virtual
address of the context, is that of the queue's registration (log 42), and for an unregistered header the header's own (log 74), is the
model's choice. -/
def Says.CopyPackets : Prop :=
  ∀ (s s1 : State) (c : Ctx) (w : MWord) (l : Nat) (more : List Nat) (tr : Tlb), MOp.cpq.wf w → Runs s (cpqFront w) c →
    c.act = l :: more →
    let va := c.g.globalAddr w l
    canonical va = true → va.toNat % 64 = 0 → s.access c.g.id.ctx va.toNat 64 .both false = .ok s1 tr → Settled s1 →
    let pa := tr.addr (va.toNat % 2 ^ 57)
    (w.d = .zero ∨ c.g.id.det = false) →
    (∀ x p, s1.ctx c.g.id.ctx = some x → p ∈ x.watch → p.2.space = .global → (p.2.read ∨ p.2.write) →
      p.2.base + p.2.size ≤ va.toNat ∨ va.toNat + 64 ≤ p.2.base) →
    s1.allowed (s1.targetAt pa tr.mt) c.g.id.ctx pa 64 .both → s1.notYet c.gid c.g.id.core pa 64 tr.mt true = false →
    s1.poisoned pa 64 = false →
    let bytes := c.packetBytes w
    let p := Packet.ofBytes bytes
    let dst := s.teamHandle c.g.id p.dsth p.dcore p.dk
    let src := s.teamHandle c.g.id p.srch p.score p.sk
    let here := fun (x : Option HandleEntry) => x.any fun e => e.core == c.g.id.core
    HandleEntry.isIn dst .free → HandleEntry.isIn src .full → s.released c.gid .device →
    let n := leVal (s1.readBytes pa 8)
    let ring := s1.ringOf c.g.id.ctx pa
    (n + 2 ^ 64 - leVal (s1.readBytes (pa + 16) 8)) % 2 ^ 64 < 2 ^ ring.2 →
    ∃ t g', exec (.cpq w) s = .next t ∧ t.group c.gid = some g' ∧ c.GoesTo g' c.nextPc ∧
      KeepsGroup c.g g' (c.g.dstKeys (cpqFront w) c.act) (c.g.luKeys (cpqFront w) c.act) ∧
      (w.d ≠ .zero → ∀ l ∈ c.act, g'.bits w.d 2 l = n) ∧
      t.mem = memPuts s1.mem pa (leOf 8 ((n + 1) % 2 ^ 64)) ∧ t.order = s1.order ∧
      t.work.ports = s1.work.ports ++
        [⟨c.g.id.core, c.g.id.ctx, c.gid, c.g.id.grid, w.scope, pa, n, BitVec.ofNat 64 (ring.1 + 64 * (n % 2 ^ ring.2)), bytes⟩] ∧
      t.work.moved = s1.work.moved ++
        [⟨c.g.id.ctx, pa, n, c.g.id.grid, (dst.toList ++ src.toList).map fun x => (x.core, x.k), here dst, here src⟩] ∧
      (∀ x b, dst = some x → here dst → s1.handle x.ctx x.core x.k = some x → x.bound = some b →
        (t.handle x.ctx x.core x.k).bind (·.bound) = some { b with state := .filling } ∧
        ∀ sh, s1.share b.grid b.team b.shareCore = some sh →
          t.share b.grid b.team b.shareCore = some (sh.claim (linesOf b.ofs b.len))) ∧
      (∀ x b, src = some x → here src → s1.handle x.ctx x.core x.k = some x → x.bound = some b →
        (t.handle x.ctx x.core x.k).bind (·.bound) = some { b with state := .draining }) ∧
      (dst = none → src = none → t.work.handles = s1.work.handles)

/-- R221, R222, R233 and R251: the copy port publishes the packet of a running context whose slot's number is WRITE: it stores the packet's
bytes in its slot, and then WRITE goes on to the next slot. That the slot is found by the context's translation and rights (log 42),
and that a packet whose header the target refuses is discarded (log 74), are the model's choice. -/
def Says.CopyPacketsPublished : Prop :=
  ∀ (s : State) (core : Nat) (p : PortPacket), Settled s →
    s.work.ports.find? (fun x => x.core == core && s.running x.ctx && leVal (s.readBytes (x.header + 8) 8) == x.n) = some p →
    s.blocked p.header 64 true = false →
    let gone := fun (s : State) => { s.work with ports := s.work.ports.filter fun x => !(x.header == p.header && x.n == p.n) }
    let tg := s.targetAt p.header 0
    (s.allowed tg p.ctx p.header 64 .both = false →
      ∃ t, exec (.cpqPublish core) s = .next t ∧ t.mem = s.mem ∧ t.order = s.order ∧ t.work = gone s ∧
        t.dev = { s.dev with refusals := s.dev.refusals ++ [⟨tg, p.ctx, p.header, .both⟩] }) ∧
    ∀ (s1 : State) (tr : Tlb), s.allowed tg p.ctx p.header 64 .both = true → s.poisoned p.header 64 = false → canonical p.slot = true →
    s.access p.ctx p.slot.toNat p.packet.length .write false = .ok s1 tr → Settled s1 →
    let pa := tr.addr (p.slot.toNat % 2 ^ 57)
    s1.blocked pa p.packet.length true = false → s1.barred .other pa tr.mt = false →
    s1.allowed (s1.targetAt pa tr.mt) p.ctx pa p.packet.length .write →
    ∃ t, exec (.cpqPublish core) s = .next t ∧
      t.mem = memPuts (memPuts s1.mem pa p.packet) (p.header + 8) (leOf 8 ((p.n + 1) % 2 ^ 64)) ∧ t.order = s1.order ∧
      t.work = gone s1

/-- R102, R233, R242, R243 and R251: `cpq` writes its packet in a slot that it claims and hands it to the copy port, which takes
the handles and publishes it. -/
def Obligations.CopyPackets : Prop :=
  Says.CopyPackets ∧ Says.CopyPacketsPublished

/-- A copy may read some bytes of its source now: no earlier packet of its queue is still to write their lines (R238, R337). -/
def mayRead (c : Copy) (s : State) (is : List Nat) : Prop :=
  ∀ l ∈ s.unreadOf c is, (∀ x ∈ s.before c, l ∉ x.unlanded) ∧ ∀ x ∈ s.collsBefore c.ctx c.queue c.id, x.meets l = false

/-- A copy may land a line now, from some bytes of its source: no line of an earlier packet of its queue stands in its way (R238). -/
def mayLand (c : Copy) (s : State) (line : CLine) (is : List Nat) : Prop :=
  line ∈ c.unlanded ∧ (∀ x ∈ s.before c, line ∉ x.unlanded ∧ line ∉ s.unread x) ∧
    (∀ x ∈ s.collsBefore c.ctx c.queue c.id, x.meets line = false) ∧ mayRead c s is

/-- A line of a copy has moved: its class has spent the line's tokens, and nothing else of the contexts has changed (R250). -/
def Spent (s t : State) (c : Copy) : Prop :=
  ∀ k, t.ctx k = if k = c.ctx then (s.ctx k).map fun x => { x with buckets := x.buckets.map fun y =>
    if y.cls = c.packet.tbc ∧ y.collective = false then { y with tokens := y.tokens - 128 } else y } else s.ctx k

/-- R234 to R242 and R250: a packet is taken in order, its READ index advancing, and a destination handle becomes FILLING. The source
lines are read one by one, each spending tokens; then a destination line receives its bytes, and the last makes a handle FULL; with the
last source line a DRAINING handle becomes FREE; the copy completes, and its counter receives 1. A source byte that cannot be read
fails the copy, and the fault fields of its queue say why. The model's choice are the tokens that a line leaves and that a class keeps
when it is set (log 21), a source line read as one access of 128 bytes (log 62), and a slot found by the context's translation
(log 42). -/
def Obligations.CopyMoves : Prop :=
  (∀ (s s1 : State) (ctx num : Nat) (q : Queue) (b : List Byte) (e : HandleEntry) (bd : Binding), s.queue ctx num true = some q →
    q.faulted = false → s.running ctx → Settled s → s.blocked q.header 64 true = false →
    s.allowed (s.targetAt q.header 0) ctx q.header 64 .both → s.poisoned q.header 64 = false → 0 < s.queueCount q →
    s.queueCount q ≤ 2 ^ q.log2 →
    let n := leVal (s.readBytes (q.header + 16) 8)
    s.unitRead .other ctx (q.slot n) 64 = .ok s1 b → Settled s1 →
    let p := Packet.ofBytes b
    packetBad b p = false → p.opc = 1 → p.dsth = true → p.srch = false → p.shp = false →
    (∀ x ∈ s1.work.moved, ¬(x.header = q.header ∧ x.n = n)) →
    s1.sideHandle ctx true p.dcore p.dk = some (some e) → s1.handle e.ctx e.core e.k = some e → e.bound = some bd →
    bd.state = .free → p.shape.toNat ≤ bd.len →
    ∃ t x, exec (.copyPacketTake ctx num) s = .next t ∧ t.mem = memPuts s1.mem (q.header + 16) (leOf 8 ((n + 1) % 2 ^ 64)) ∧
      t.work.copies = s1.work.copies ++ [x] ∧ x.packet = p ∧ x.ctx = ctx ∧ x.queue = q.num ∧ x.slot = n ∧ x.dstHandle = some e ∧
      x.srcHandle = none ∧ x.srcDone = false ∧ x.landed = [] ∧ (t.handle e.ctx e.core e.k).bind (·.bound) = some { bd with state := .filling }) ∧
  (∀ (s s1 : State) (c : Copy) (o : Instr) (va : DWord) (b : List Byte), s.work.copies = [c] →
    ((∃ line pl, o = .copyLineLand c.id line ∧ mayLand c s pl ((c.lineBytes line).map (·.2)) ∧
        pl = (match HandleEntry.range c.dstHandle with | some b => .spad b.grid b.team b.shareCore line | none => .glob line) ∧
        c.missing ((c.lineBytes line).map (·.2)) = some va) ∨
      o = .copySourceReadDone c.id ∧ c.srcDone = false ∧ mayRead c s (List.range c.size) ∧
        c.missing (List.range c.size) = some va) →
    let lo := BitVec.ofNat 64 (va.toNat / 128 * 128)
    s.tokens c.ctx c.packet.tbc false = true → s.unitRead (.unit c.id) c.ctx lo 128 = .ok s1 b → s1.work = s.work →
    ∃ t, exec o s = .next t ∧ t.mem = s1.mem ∧ t.order = s1.order ∧ Spent s1 t c ∧
      t.work.copies = [{ c with srcRead := c.srcRead ++ (List.range 128).map fun j => (lo.toNat + j, b.getD j 0) }]) ∧
  (∀ (s : State) (c : Copy) (line : Nat) (e : HandleEntry) (bd : Binding) (sh : Share), s.work.copies = [c] →
    c.dstHandle = some e → e.bound = some bd →
    mayLand c s (.spad bd.grid bd.team bd.shareCore line) ((c.lineBytes line).map (·.2)) →
    s.tokens c.ctx c.packet.tbc false = true →
    c.missing ((c.lineBytes line).map (·.2)) = none → s.regionSpad bd.grid bd.team bd.shareCore line = false →
    s.share bd.grid bd.team bd.shareCore = some sh → s.handle e.ctx e.core e.k = some e →
    ∃ t, exec (.copyLineLand c.id line) s = .next t ∧ t.mem = s.mem ∧ t.order = s.order ∧
      t.share bd.grid bd.team bd.shareCore = some (({ sh with
        bytes := (c.lineBytes line).foldl (fun m x => memPuts m x.1 [s.copyByte c x.2]) sh.bytes } : Share).land [line]) ∧
      ∃ c', t.work.copies = [c'] ∧ c' = { c with landed := c'.landed } ∧ (∀ l, l ∈ c'.landed ↔ l = line ∨ l ∈ c.landed) ∧
        (t.handle e.ctx e.core e.k).bind (·.bound) =
          some (if ∀ l ∈ linesOf bd.ofs bd.len, l = line ∨ l ∈ c.landed then { bd with state := .full } else bd)) ∧
  (∀ (s : State) (c : Copy) (line : Nat), s.work.copies = [c] → c.dstHandle = none → mayLand c s (.glob line) ((c.lineBytes line).map (·.2)) →
    c.missing ((c.lineBytes line).map (·.2)) = none → s.tokens c.ctx c.packet.tbc false = true →
    let pa := 128 * line
    let mt := smGet 0 c.dstMt line
    s.blockedFor (.unit c.id) pa 128 true = false → s.barred (.unit c.id) pa mt = false →
    s.allowed (s.targetAt pa mt) c.ctx pa 128 .write → Settled s →
    ∃ t, exec (.copyLineLand c.id line) s = .next t ∧
      t.mem = (c.lineBytes line).foldl (fun m x => memPut m x.1 (s.copyByte c x.2)) s.mem ∧ t.order = s.order ∧ Spent s t c ∧
      t.dev.bias = (if mt = 3 then s.flip pa else s).dev.bias ∧
      ∃ c', t.work.copies = [c'] ∧ c' = { c with landed := c'.landed, dstLines := c'.dstLines } ∧
        (∀ l, l ∈ c'.landed ↔ l = line ∨ l ∈ c.landed) ∧ ∀ l, l ∈ c'.dstLines ↔ l ≠ line ∧ l ∈ c.dstLines) ∧
  (∀ (s : State) (c : Copy), s.work.copies = [c] → c.srcDone = false → c.missing (List.range c.size) = none →
    mayRead c s (List.range c.size) → (c.srcHandle.isSome → s.tokens c.ctx c.packet.tbc false = true) →
    ∃ t x, exec (.copySourceReadDone c.id) s = .next t ∧ t.mem = s.mem ∧ t.order = s.order ∧ t.work.copies = [x] ∧
      x = { c with srcRead := x.srcRead, srcDone := true } ∧ (c.srcHandle = none → x.srcRead = c.srcRead) ∧
      ∀ e bd, c.srcHandle = some e → e.bound = some bd → s.handle e.ctx e.core e.k = some e →
        (t.handle e.ctx e.core e.k).bind (·.bound) = some { bd with state := .free } ∧
        x.srcRead = (List.range c.size).map fun i => (i, s.copyByte c i)) ∧
  (∀ (s s1 : State) (c : Copy), s.work.copies.find? (·.id == c.id) = some c → c.srcDone = true → c.unlanded = [] →
    let left : State := { s with work := { s.work with copies := s.work.copies.filter (·.id != c.id) } }
    (if c.packet.comp = 0 then s1 = left else ∃ old, left.unitAdd .other c.ctx c.packet.comp 1 = .ok s1 old) →
    ∃ t, exec (.copyComplete c.id) s = .next t ∧ t.mem = s1.mem ∧ t.order = s1.order ∧ t.work.copies = s1.work.copies) ∧
  (∀ (s s1 : State) (c : Copy) (addr level : Nat) (cause : Cause), s.work.copies.find? (·.id == c.id) = some c → c.srcDone = false →
    c.srcHandle = none → c.dstHandle = none → (∀ p ∈ c.srcRead, p.1 ≠ addr) →
    (∃ i < c.size, c.srcVa i = some (BitVec.ofNat 64 addr)) →
    s.unitWalk c.ctx (BitVec.ofNat 64 addr) 1 .read = .fault s1 cause level → c.packet.comp = 0 →
    let code := if cause = .access then 4 else 3
    (s1.queue c.ctx c.queue true = none →
      ∃ t, exec (.copyFault c.id code addr) s = .next t ∧ t.mem = s1.mem ∧
        t.work.copies = s1.work.copies.filter (·.id != c.id)) ∧
    ∀ q, s1.queue c.ctx c.queue true = some q → Settled s1 → (∀ x ∈ s1.work.copies, x.id = c.id) →
      s1.blocked q.header 64 true = false → s1.allowed (s1.targetAt q.header 0) c.ctx q.header 64 .both →
      s1.poisoned q.header 64 = false → c.dstLines = [] → s1.readByte (q.header + 0x22) = 0 → isAlias (q.header + 0x28) = false →
      ∃ t, exec (.copyFault c.id code addr) s = .next t ∧ t.work.copies = [] ∧
        t.mem = memPuts (memPuts (memPuts (memPuts s1.mem (q.header + 0x28)
          (leOf 8 ((leVal (s1.readBytes (q.header + 0x28) 8) + 1) % 2 ^ 64))) (q.header + 0x22) (leOf 1 code))
          (q.header + 0x30) (leOf 8 c.slot)) (q.header + 0x38) (leOf 8 (BitVec.ofNat 64 addr).toNat)) ∧
  ∀ (s : State) (ctx cls rate burst : Nat) (coll : Bool) (x : Context), s.ctx ctx = some x → cls < 8 →
    (∃ t y old, exec (.tokenBucketSet ctx cls coll rate burst) s = .next t ∧ t.ctx ctx = some y ∧ t = { s with ctxs := t.ctxs } ∧
      ({ y with buckets := x.buckets } : Context) = x ∧
      (∀ b, b ∈ y.buckets ↔ b = ⟨cls, coll, rate, burst, min burst old⟩ ∨ b ∈ x.buckets ∧ ¬(b.cls = cls ∧ b.collective = coll)) ∧
      ((∀ b ∈ x.buckets, ¬(b.cls = cls ∧ b.collective = coll)) → old = 0) ∧
      ∀ b, x.buckets.filter (fun b => b.cls = cls ∧ b.collective = coll) = [b] → old = b.tokens) ∧
    ∃ t y, exec (.tokenBucketRefill ctx cls coll) s = .next t ∧ t.ctx ctx = some y ∧ t = { s with ctxs := t.ctxs } ∧
      ({ y with buckets := x.buckets } : Context) = x ∧
      y.buckets = x.buckets.map fun b =>
        if b.cls = cls ∧ b.collective = coll then { b with tokens := min b.burst (b.tokens + b.rate) } else b

/-! ### Reserving loops (R290-R303) -/

/-- R292 and R293: an item of a wave is admitted exactly when no signature bit of its write claims is a bit of a lower item's claims, and
none of its read claims is a bit of a lower item's write claims; so two items that claim one granule, one of them to write it, are
never both admitted. -/
def Says.WaveAdmission : Prop :=
  ∀ (pre post : List (Nat × List Claim)) (x : Nat × List Claim), ((pre ++ x :: post).map (·.1)).Nodup →
    let a := admitWave ((pre ++ x :: post).map fun p => some p.1) ((pre ++ x :: post).map (·.2))
    let meets := fun (p q : List Nat) => ∃ b ∈ p, b ∈ q
    let conflict := fun (low cs : List Claim) =>
      meets (bitsOf cs true) (bitsOf low true) ∨ meets (bitsOf cs true) (bitsOf low false) ∨ meets (bitsOf cs false) (bitsOf low true)
    (x.1 ∈ a.admitted ↔ ∀ y ∈ pre, ¬conflict y.2 x.2) ∧
    (x.1 ∈ a.admitted → ∀ y ∈ pre, ∀ p ∈ x.2, ∀ q ∈ y.2, p.granule = q.granule → p.write = false ∧ q.write = false)

/-- A group that waited in an instruction goes on: its wait ends, and its batch stands at the next instruction (said of a group none of
whose lanes is held and that is not halted). -/
def WentOn (g g' : Group) : Prop :=
  g'.wait = none ∧ ∀ own, g.pc = some own → g.halt = none → (∀ f ∈ g.fibres, f.held = false) →
    g'.fibres = g.fibres.map fun f => if f.lane ∈ g.batch own then { f with pc := own + 12 } else f

/-- The slots of some participants: one for each lane that holds a fibre, in ascending order of (RIDX, lane) (R290, R306). -/
def DealtTo (parts : List (Nat × Group)) (slots : List Slot) : Prop :=
  (∀ x : Slot, x ∈ slots ↔ ∃ p ∈ parts, p.1 = x.gid ∧ ∃ f ∈ p.2.fibres, f.lane = x.lane) ∧
  slots.Pairwise fun x y => ∀ p ∈ parts, ∀ q ∈ parts, p.1 = x.gid → q.1 = y.gid →
    p.2.id.ridx < q.2.id.ridx ∨ p.2.id.ridx = q.2.id.ridx ∧ x.lane < y.lane

/-- R290, R291, R298 and R302: `rlbeg` waits before the last arrival; at it the loop opens, dealing the lowest items to the first slots, in
every participant, or raises RLSTATE in each when W is no width for its slots. With a loop open, in a spawn bin's group
(the model's choice, log 56), or with no such claim set it raises RLSTATE, and with other values than the first arrival's RLMISMATCH. -/
def Says.LoopsOpen : Prop :=
  ∀ (s : State) (c : Ctx) (w : XWord) (gr : Grid), XOp.rlbeg.wf w → Runs s (rlFront .rlbeg w) c → s.grid c.g.id.grid = some gr →
    let parts := s.roleGroups c.g.id.grid c.g.id.team c.g.id.role
    let n := c.g.rd w.a 0 .n32
    let wd := c.g.rd w.b 0 .n32
    let stale := c.g.id.bin = true ∨ s.loopOf c.g.id ≠ none ∨ s.brokenLoop c.gid c.g.id = true ∨ gr.kernel.claims.length ≤ w.f 7 0
    (stale → exec (.rlbeg w) s = .next (s.raise c.gid (Trap.mk' .rlstate c.own c.act))) ∧
    (¬stale → ∀ a, (∃ p ∈ parts, p.2.loopWord .rlbeg ≠ none) → (∀ p ∈ parts, ∀ v, p.2.loopWord .rlbeg = some v → p.2.loopArgs v = a) →
      a ≠ c.g.loopArgs w → exec (.rlbeg w) s = .next (s.raise c.gid (Trap.mk' .rlmismatch c.own c.act))) ∧
    (¬stale → (∀ k, s.inFlight c.gid c.g.id.core k = false) →
      (∀ p ∈ parts, ∀ v, p.2.loopWord .rlbeg = some v → p.2.loopArgs v = c.g.loopArgs w) →
      ((∃ p ∈ parts, p.1 ≠ c.gid ∧ p.2.inLoop .rlbeg = false) →
        ∃ t g', exec (.rlbeg w) s = .next t ∧ t.group c.gid = some g' ∧ g'.wait = some (.loop .rlbeg w) ∧ g'.fibres = c.g.fibres ∧
          (∀ k, g'.reg k = c.g.reg k) ∧ t.teams = s.teams ∧ SameOutside c.gid s t) ∧
      ∀ word : Nat → XWord, word c.gid = w → (∀ p ∈ parts, p.1 ≠ c.gid → p.2.wait = some (.loop .rlbeg (word p.1))) →
        c.g.ended = false → (s.groups.map (·.1)).Nodup → (parts.map (·.2.id.ridx)).Nodup → (∀ p ∈ parts, s.formerFree p.2.id = true) →
        let s1 := s.modGroup c.gid fun g => { g with wait := some (.loop .rlbeg w), issued := true }
        let size := (parts.map fun p => (keyUnion [] (p.2.fibres.map (·.lane))).length).sum
        (wd = 0 ∨ 1024 < wd ∨ size < wd →
          exec (.rlbeg w) s = .next (parts.foldl (fun u p => u.raiseIn p.1 (word p.1).guard .rlstate) s1)) ∧
        (1 ≤ wd → wd ≤ 1024 → wd ≤ size → (s.team c.g.id.grid c.g.id.team).isSome →
          (∀ p ∈ parts, p.2.pc ≠ none ∧ XOp.rlbeg.wf (word p.1) ∧ ∀ f ∈ p.2.fibres, f.lane < 64) →
          let item := fun (q : Nat) => if q < min wd n then some q else none
          ∃ t l, exec (.rlbeg w) s = .next t ∧ t.loopOf c.g.id = some l ∧ l.n = n ∧ l.w = wd ∧ l.cset = w.f 7 0 ∧
            DealtTo parts l.slots ∧ l.slots.length = size ∧ l.items = (List.range size).map item ∧ l.deferred = List.range (min wd n) ∧
            l.next = min wd n ∧ l.claims = List.replicate size [] ∧ (l.waves, l.false_, l.defer) = (0, 0, 0) ∧
            t.mem = s.mem ∧ t.order = s.order ∧
            ∀ p ∈ parts, ∃ g', t.group p.1 = some g' ∧ WentOn p.2 g' ∧ g'.stat.rlstat = 0x8000000000000000#64 ∧
              ∀ q x, l.slots[q]? = some x → x.gid = p.1 →
                g'.reg (p.2.key (word p.1).d x.lane 0) = match item q with | some i => BitVec.ofNat 32 i | none => 0xFFFFFFFF#32))

/-- R292 and R299: `claim` appends a claim to the slot of each active lane that holds an item, and takes its address as it stands; it raises
RLSTATE with no loop open, ADDR for an address that is not canonical, and CLAIMOVF for a lane whose slot is full. -/
def Says.Claims : Prop :=
  (∀ (s : State) (c : Ctx) (w : MWord), MOp.claim.wf w → Runs s (MOp.front .claim w) c →
    (s.brokenLoop c.gid c.g.id = true ∨ s.loopOf c.g.id = none →
      exec (.claim w) s = .next (s.raise c.gid (Trap.mk' .rlstate c.own c.act))) ∧
    ∀ l, s.brokenLoop c.gid c.g.id = false → s.loopOf c.g.id = some l →
      let cs := s.claimSet c.g.id l.cset
      let bad := c.act.filter fun x => !canonical (c.g.globalAddr w x)
      let full := c.act.filter fun x => decide (min 8 cs.count ≤ (l.claimsOf c.gid x).length)
      (∀ x ∈ bad, (∀ y ∈ bad, x ≤ y) → exec (.claim w) s = .next (s.raise c.gid (Trap.mk' .addr c.own bad (c.g.globalAddr w x)))) ∧
      (bad = [] → full = [] → ∃ t g', exec (.claim w) s = .next t ∧ Accessed s t c g' (MOp.front .claim w) [] ∧ t.mem = s.mem ∧ t.order = s.order ∧
        t.loopOf c.g.id = some (c.act.foldl (fun l x => l.post c.gid x cs.kinds (c.g.globalAddr w x).toNat) l)) ∧
      (bad = [] → full ≠ [] → exec (.claim w) s = .next (s.raise c.gid (Trap.mk' .claimovf c.own full)))) ∧
  ∀ (l : Loop) (pre post : List Slot) (gid lane va : Nat) (kinds : BitVec 8), l.slots = pre ++ ⟨gid, lane⟩ :: post →
    (∀ x ∈ pre, ¬(x.gid = gid ∧ x.lane = lane)) → l.claims.length = l.slots.length →
    let q := pre.length
    let l' := l.post gid lane kinds va
    l'.items = l.items ∧ l'.slots = l.slots ∧
    l'.claims = if (l.items[q]?).join = none then l.claims
      else l.claims.set q (l.claims.getD q [] ++ [⟨va / 64 % 2 ^ 51, kinds.getLsbD (l.claims.getD q []).length⟩])

/-- R300, R301 and R302: `rwave` arrives and waits; `rlend` waits for the last participant's, and then the loop is closed for every one of
them. Without an open loop, or with a lane elsewhere, `rwave` raises RLSTATE; when its loop closed under it, `rlend` commits at once. -/
def Says.LoopsWaveAndEnd : Prop :=
  (∀ (s : State) (c : Ctx) (w : XWord), XOp.rwave.wf w → Runs s (rlFront .rwave w) c →
    let ready := s.brokenLoop c.gid c.g.id = false ∧ s.myLoop c.gid c.g.id ≠ none ∧ ∀ x ∈ c.g.fibres, x.held = false ∧ x.pc = c.own
    (¬ready → exec (.rwave w) s = .next (s.raise c.gid (Trap.mk' .rlstate c.own c.act))) ∧
    (ready → s.released c.gid .device = false → exec (.rwave w) s = .next s) ∧
    (ready → s.released c.gid .device = true →
      ∃ t, exec (.rwave w) s = .next t ∧ t.group c.gid = some { c.g with wait := some (.loop .rwave w), issued := true } ∧
        SameOutside c.gid s t ∧ Quiet s t ∧ t.teams = s.teams)) ∧
  ∀ (s : State) (c : Ctx) (w : XWord), XOp.rlend.wf w → Runs s (rlFront .rlend w) c →
    (s.brokenLoop c.gid c.g.id = true →
      ∃ t g', exec (.rlend w) s = .next t ∧ t.group c.gid = some g' ∧ g'.wait = none ∧ c.GoesTo g' c.nextPc ∧ (∀ k, g'.reg k = c.g.reg k) ∧
        g'.stat = c.g.stat ∧ t.brokenLoop c.gid c.g.id = false ∧ t.mem = s.mem ∧ t.order = s.order) ∧
    (s.brokenLoop c.gid c.g.id = false → s.myLoop c.gid c.g.id = none →
      exec (.rlend w) s = .next (s.raise c.gid (Trap.mk' .rlstate c.own c.act))) ∧
    ∀ l, s.brokenLoop c.gid c.g.id = false → s.myLoop c.gid c.g.id = some l →
      let parts := s.loopParts c.g.id.grid c.g.id.team c.g.id.role l
      ((∃ p ∈ parts, p.1 ≠ c.gid ∧ p.2.inLoop .rlend = false) →
        ∃ t g', exec (.rlend w) s = .next t ∧ t.group c.gid = some g' ∧ g'.wait = some (.loop .rlend w) ∧ g'.fibres = c.g.fibres ∧
          t.teams = s.teams) ∧
      ((∀ p ∈ parts, p.1 ≠ c.gid → p.2.inLoop .rlend = true) → (∀ p ∈ parts, p.2.pc ≠ none) → (s.groups.map (·.1)).Nodup →
        c.g.ended = false → c.g.id.bin = false →
        ∃ t, exec (.rlend w) s = .next t ∧ t.loopOf c.g.id = none ∧ t.mem = s.mem ∧ t.order = s.order ∧ (c.gid, c.g) ∈ parts ∧
          ∀ p ∈ parts, ∃ g', t.group p.1 = some g' ∧ WentOn p.2 g' ∧ g'.stat.rlstat = p.2.stat.rlstat &&& 0x7FFFFFFFFFFFFFFF#64 ∧
            ∀ k, g'.reg k = p.2.reg k)

/-- R290 to R292 and R298 to R302: `rlbeg` opens a loop with its last arrival, `claim` posts claims, `rwave` arrives, and
`rlend` closes the loop; each raises the traps of its rule. -/
def Obligations.ReservingLoops : Prop :=
  Says.LoopsOpen ∧ Says.Claims ∧ Says.LoopsWaveAndEnd

/-- R291, R293, R296, R300 and R302: WAVE_DECIDE decides a wave whose arrivals are complete, and no other: an item that is not admitted stays
pending, WAVES, FALSE and DEFER gain theirs, and in every participant each slot's v0 bit says whether its item was admitted, and the
next items and the two counts are delivered. -/
def Says.WaveDecisions : Prop :=
  ∀ (s : State) (i role : Nat) (tm : Team) (pre post : List Team) (l : Loop) (word : Nat → XWord),
    s.teams = pre ++ tm :: post → i = pre.length → (∀ x ∈ pre, ¬(x.grid = tm.grid ∧ x.n = tm.n)) → s.running tm.ctx = true → role < 4 →
    smFind tm.loops role = some l → (s.groups.map (·.1)).Nodup →
    let parts := s.loopParts tm.grid tm.n (roleOf role) l
    let a := admitWave l.items l.claims
    let left := l.deferred.filter fun x => !a.admitted.contains x
    let next := min l.n (l.next + (l.w - left.length))
    let pend := left ++ (List.range (next - l.next)).map (l.next + ·)
    let items := (List.range l.slots.length).map fun q => if q < l.w then pend[q]? else none
    ((∃ p ∈ parts, p.2.inLoop .rwave = false ∨ s.acquired p.1 .device = false) → exec (.waveDecide i role) s = .next s) ∧
    (parts ≠ [] → (∀ p ∈ parts, p.2.wait = some (.loop .rwave (word p.1)) ∧ XOp.rwave.wf (word p.1) ∧ s.acquired p.1 .device = true ∧
        p.2.pc ≠ none) → (∀ x ∈ l.slots, x.lane < 64) →
      ∃ t l', exec (.waveDecide i role) s = .next t ∧ (t.team tm.grid tm.n).bind (fun x => smFind x.loops role) = some l' ∧ t.mem = s.mem ∧
        l'.items = items ∧ l'.deferred = pend ∧ l'.next = next ∧
        (l'.n, l'.w, l'.cset, l'.slots) = (l.n, l.w, l.cset, l.slots) ∧ l'.claims = l.slots.map (fun _ => []) ∧
        l'.waves = min 65535 (l.waves + 1) ∧ l'.false_ = min 65535 (l.false_ + a.false_) ∧
        l'.defer = min (2 ^ 31 - 1) (l.defer + a.deferred) ∧
        ∀ p ∈ parts, ∃ g', t.group p.1 = some g' ∧ WentOn p.2 g' ∧ g'.stat.rlstat = l'.stat ∧
          g'.reg (p.2.key (word p.1).d 0 0) = BitVec.ofNat 32 a.admitted.length ∧
          g'.reg (p.2.key (word p.1).d 0 1) = BitVec.ofNat 32 (left.length + (l.n - l.next)) ∧
          ∀ x ∈ l.slots, x.gid = p.1 →
            let k := p.2.key (.v 0) x.lane 0
            let bit := 1#32 <<< (word p.1).f 4 0
            g'.reg k = (match l.itemOf p.1 x.lane with
              | some n => if n ∈ a.admitted then p.2.reg k ||| bit else p.2.reg k &&& ~~~bit
              | none => p.2.reg k &&& ~~~bit) ∧
            g'.reg (p.2.key (.v (BitVec.ofNat 8 ((word p.1).f 15 8))) x.lane 0) = itemWord (l'.itemOf p.1 x.lane))

/-- R291, R293, R295, R296, R300 and R302: a wave decides the items of its slots in order by their claims, and deals the next
ones. -/
def Obligations.Waves : Prop :=
  Says.WaveAdmission ∧ Says.WaveDecisions

/-! ### Relaxation regions (R306-R328) -/

/-- The region of a group's team. -/
def regionOf (t : State) (g : Group) : Option Region := (t.team g.id.grid g.id.team).bind (·.region)

/-- R310, R311, R314, R324 and R325: in the body of an open region `rxin` reads a component of the step's starting state, the step or
the pass; `rxout` and `rxjac` leave raw bits in the step's F and J; `rxst` records a store, or holds RXFAULT at a step whose store
buffer is full (R318); and `rxend` holds its lanes. Outside a body, and with an index beyond m, they raise RXFAULT. -/
def Obligations.RelaxationBodies : Prop :=
  (∀ (s : State) (c : Ctx) (op : XOp) (w : XWord), op ∈ [.rxin, .rxout, .rxjac, .rxend] → op.wf w → Runs s ((View.x op w).front s) c →
    (s.bodyOf c.gid c.g = none ∨ (∃ r, s.bodyOf c.gid c.g = some r ∧ (op = .rxin ∧ w.f 5 4 = 0 ∧ r.desc.m ≤ w.f 2 0 ∨
      op = .rxout ∧ r.desc.m ≤ w.f 2 0 ∨
      op = .rxjac ∧ (r.desc.m ≤ w.f 2 0 ∨ r.desc.m ≤ w.f 5 3 ∨ r.desc.dense = false ∧ w.f 2 0 ≠ w.f 5 3))) →
      exec (op.instr w) s = .next (s.raise c.gid (Trap.mk' .rxfault c.own c.act))) ∧
    ∀ r, s.bodyOf c.gid c.g = some r → op = .rxend → c.own.toNat + 12 ≠ r.hi →
      exec (op.instr w) s = .next (s.raise c.gid (Trap.mk' .rxbody c.own c.act))) ∧
  (∀ (s : State) (c : Ctx) (l n : Nat) (tr : Trap) (r : Region) (g : Group), s.bodyOf c.gid c.g = some r → s.group c.gid = some g →
    g.id = c.g.id → r.stepOf c.gid l = some n →
    let t := s.holdFault c l tr
    let old := smGet (StepEval.start r.desc) r.evals n
    ∃ r' g', regionOf t c.g = some r' ∧ t.group c.gid = some g' ∧ t.mem = s.mem ∧ t.order = s.order ∧
      smGet (StepEval.start r.desc) r'.evals n = { old with fault := match old.fault with
        | some x => some x
        | none => some { tr with lanes := laneMask [l] } } ∧
      (∀ k, k ≠ n → smGet (StepEval.start r.desc) r'.evals k = smGet (StepEval.start r.desc) r.evals k) ∧
      ∀ f ∈ g'.fibres, f.lane = l → f.held = true ∧ f.pc = BitVec.ofNat 64 (r.hi - 12)) ∧
  (∀ (s : State) (c : Ctx) (w : XWord) (r : Region), XOp.rxin.wf w → Runs s ((View.x .rxin w).front s) c →
    s.bodyOf c.gid c.g = some r → (w.f 5 4 = 0 → w.f 2 0 < r.desc.m) →
    Commits (exec (.rxin w) s) s c ((View.x .rxin w).front s) 0 fun g' l =>
      let t := (r.stepOf c.gid l).getD 0
      g'.bits w.d 1 l = (match w.f 5 4 with
        | 0 => ((if t = 1 then r.s0 else r.sPrev.getD (t - 2) []).getD (w.f 2 0) 0).toNat
        | 1 => t
        | _ => r.pass) % 2 ^ 32) ∧
  (∀ (s : State) (c : Ctx) (op : XOp) (w : XWord) (r : Region), op ∈ [.rxout, .rxjac] → op.wf w → Runs s ((View.x op w).front s) c →
    s.bodyOf c.gid c.g = some r →
    let row := w.f 2 0
    let col := w.f 5 3
    let m := r.desc.m
    row < m → (op = .rxjac → col < m ∧ (r.desc.dense = false → row = col)) →
    let i := if r.desc.dense then row * m + col else row
    let val := fun (l : Nat) => some (BitVec.ofNat 32 (c.g.rd w.a l .f32))
    let old := fun (n : Nat) => smGet (StepEval.start r.desc) r.evals n
    ∃ t g' r', exec (op.instr w) s = .next t ∧ Accessed s t c g' ((View.x op w).front s) [] ∧ t.mem = s.mem ∧ t.order = s.order ∧
      t.work = s.work ∧ regionOf t c.g = some r' ∧ { r' with evals := r.evals } = r ∧
      (∀ l ∈ c.act, ∀ n, r.stepOf c.gid l = some n → smGet (StepEval.start r.desc) r'.evals n =
        if op = .rxout then { old n with f := (old n).f.set row (val l) } else { old n with j := (old n).j.set i (val l) }) ∧
      ∀ n, (∀ l ∈ c.act, r.stepOf c.gid l ≠ some n) → smGet (StepEval.start r.desc) r'.evals n = old n) ∧
  (∀ (s : State) (c : Ctx) (w : MWord) (r : Region) (s1 : State) (hits : List Hit), MOp.rxst.wf w → Runs s (MOp.front .rxst w) c →
    s.bodyOf c.gid c.g = some r →
    s.resolve c w.space w.scope (c.elems w false) { once := false, kind := .write, record := true } = .ok s1 hits →
    let old := fun (n : Nat) => smGet (StepEval.start r.desc) r.evals n
    let full := c.act.filter fun l => match r.stepOf c.gid l with
      | some n => decide (r.desc.sps ≤ (old n).stores.length)
      | none => r.desc.sps = 0
    (full ≠ [] → exec (.rxst w) s = .next (full.foldl (fun u l => u.holdFault c l (Trap.mk' .rxfault c.own [l])) s1)) ∧
    (full = [] → ∃ t g' r', exec (.rxst w) s = .next t ∧ Accessed s1 t c g' (MOp.front .rxst w) [] ∧ t.mem = s1.mem ∧ t.order = s1.order ∧
      regionOf t c.g = some r' ∧
      ∀ n, (smGet (StepEval.start r.desc) r'.evals n).stores = (old n).stores ++
        (hits.filter fun h => r.stepOf c.gid h.e.lane == some n).filterMap fun h => match h.reach with
          | .glob pa mt _ => some ⟨h.e.va, pa, mt, w.scope, leOf h.e.bytes (c.datum w h), c.gid⟩
          | .spad _ _ => none)) ∧
  ∀ (s : State) (c : Ctx) (w : XWord) (r : Region), XOp.rxend.wf w → Runs s (rxFront .rxend w) c → s.bodyOf c.gid c.g = some r →
    c.own.toNat + 12 = r.hi → c.g.halt = none → (∀ f ∈ c.g.fibres, f.held = true → f.pc = c.own) →
    ∃ t g', exec (.rxend w) s = .next t ∧ t.group c.gid = some g' ∧ SameOutside c.gid s t ∧ Quiet s t ∧ (∀ k, g'.reg k = c.g.reg k) ∧
      g'.fibres = c.g.fibres.map fun f => if f.lane ∈ c.act then { f with pc := c.own, held := true } else f

/-- R306 to R310, R321 and R323: `rxbeg` waits before the last arrival; with it the region opens in every participant, with the guess that
GUESS names and the first steps dealt to the slots. With a region that is not IDLE, in a spawn bin's group or for no region of the
kernel it raises RXFAULT. The model's choices: the descriptor must lie on 32 bytes and the guess on 4 (log 76), RXRES and RXPASS are 0
at the opening (log 57), and it waits while an `rxcmt` of the team waits for its writes (log 90). -/
def Says.RelaxationRegions : Prop :=
  ∀ (s : State) (c : Ctx) (w : XWord) (gr : Grid), XOp.rxbeg.wf w → Runs s (rxFront .rxbeg w) c → s.grid c.g.id.grid = some gr →
    let parts := s.roleGroups c.g.id.grid c.g.id.team c.g.id.role
    let s0 := s.modGroup c.gid fun g => { g with wait := some (.region .rxbeg w), issued := true }
    let bad := s.regionBusy c.g.id.grid c.g.id.team = true ∨ c.g.id.bin = true ∨ gr.kernel.regions.length ≤ w.f 7 0
    (s.committing c.g.id.grid c.g.id.team = true → exec (.rxbeg w) s = .next s) ∧
    (s.committing c.g.id.grid c.g.id.team = false → bad →
      exec (.rxbeg w) s = .next (s.raise c.gid (Trap.mk' .rxfault c.own c.act))) ∧
    (s.committing c.g.id.grid c.g.id.team = false → ¬bad → s.released c.gid .device = true →
      (∀ a, (∃ p ∈ parts, p.2.regionWord .rxbeg ≠ none) → (∀ p ∈ parts, ∀ v, p.2.regionWord .rxbeg = some v → p.2.regionArgs v = a) →
        a ≠ c.g.regionArgs w → exec (.rxbeg w) s = .next (s.raise c.gid (Trap.mk' .rxfault c.own c.act))) ∧
      ((∃ p ∈ parts, p.1 ≠ c.gid ∧ p.2.regionWord .rxbeg = none) →
        (∀ p ∈ parts, ∀ v, p.2.regionWord .rxbeg = some v → p.2.regionArgs v = c.g.regionArgs w) →
        exec (.rxbeg w) s = .next s0) ∧
      ∀ (s1 : State) (b : List Byte) (d : RegionDesc) (s2 : State) (guess : List (List Word)) (lead : Nat × Group) (e : RegionEntry)
        (word : Nat → XWord), word c.gid = w → c.g.ended = false → (s.groups.map (·.1)).Nodup →
        (∀ p ∈ parts, p.1 ≠ c.gid → p.2.wait = some (.region .rxbeg (word p.1))) →
        (∀ p ∈ parts, p.2.regionArgs (word p.1) = c.g.regionArgs w ∧ p.2.id.ctx = c.g.id.ctx ∧ s.acquired p.1 .device = true ∧
          p.2.pc ≠ none ∧ (w.b = .zero ↔ (word p.1).b = .zero)) →
        s.quiet (parts.map (·.1)) = true → lead ∈ parts → (∀ p ∈ parts, p.2.id.ridx = lead.2.id.ridx → p = lead) →
        (∀ p ∈ parts, lead.2.id.ridx ≤ p.2.id.ridx) → (parts.map (·.2.id.ridx)).Nodup → gr.kernel.regions[w.f 7 0]? = some e →
        (c.g.rdDWord w.a 0).toNat % 32 = 0 →
        s0.unitReadLong .other c.g.id.ctx (c.g.rdDWord w.a 0) 2 32 = .ok s1 b → (∀ p ∈ parts, s2.group p.1 = s0.group p.1) →
        RegionDesc.ofBytes b (fun word n => s1.spadPlace lead.2.id word n) = some d →
        (if d.guess = 1 then
          w.b ≠ .zero ∧ (c.g.rdDWord w.b 0).toNat % 4 = 0 ∧ s2.teams = s1.teams ∧
            ∃ b', s1.unitReadLong .other c.g.id.ctx (c.g.rdDWord w.b 0) (2 + 4 * d.m * d.t / 4096) (4 * d.m * d.t) = .ok s2 b' ∧
              guess = vecsOf d.m d.t (wordsOf b')
        else s2 = s1 ∧ guess = if d.guess = 0 then List.replicate d.t ((s1.readStates c.g.id.grid c.g.id.team d 0 1).getD 0 [])
          else s1.readStates c.g.id.grid c.g.id.team d 1 d.t) →
        (s.team c.g.id.grid c.g.id.team).isSome → s1.teams = s.teams → s1.grids = s.grids →
        ∃ t r, exec (.rxbeg w) s = .next t ∧ regionOf t c.g = some r ∧
          r.st = .opened ∧ r.lo = e.lo ∧ r.hi = e.hi ∧ r.desc = d ∧ r.parts = parts.map (·.1) ∧ r.pass = 1 ∧ r.round = 0 ∧
          r.sPrev = guess ∧ r.s0 = (s1.readStates c.g.id.grid c.g.id.team d 0 1).getD 0 [] ∧
          DealtTo parts r.slots ∧ t.mem = s2.mem ∧
          ∀ p ∈ parts, ∃ g', t.group p.1 = some g' ∧ g'.wait = none ∧ (g'.stat.rxstat, g'.stat.rxres, g'.stat.rxpass) = (8, 0, 0) ∧
            g'.fibres.map (fun f => (f.lane, f.pc, f.held)) = p.2.fibres.map fun f =>
              if (r.stepOf p.1 f.lane).isSome then (f.lane, BitVec.ofNat 64 e.lo, false) else (f.lane, BitVec.ofNat 64 (e.hi - 12), true))

/-- R314, R320 and R326: `rxcmt` acts at the last arrival: it writes the states of the first n steps, performs their stores in ascending
order, adds their flags, zeroes the machine's areas and leaves the region IDLE; while one of its stores is still on its way the region
stays PENDING with its work done, and PASS_END closes it then (the model's choice, log 90). It raises RXFAULT unless the region is
PENDING with n at most P. `rxabort` leaves the region IDLE with OUTCOME ABORTED, in every participant. -/
def Says.RelaxationCommits : Prop :=
  (∀ (s : State) (c : Ctx) (w : XWord), XOp.rxcmt.wf w → Runs s (rxFront .rxcmt w) c →
    let n := c.g.rd w.a 0 .n32
    let may := fun (r : Region) => r.st = .pending ∧ c.gid ∈ r.parts ∧ n ≤ c.g.stat.rxstat.toNat / 2 ^ 32 % 2 ^ 17
    ((∀ r, regionOf s c.g = some r → ¬may r) → exec (.rxcmt w) s = .next (s.raise c.gid (Trap.mk' .rxfault c.own c.act))) ∧
    ∀ r, regionOf s c.g = some r → may r → c.g.ended = false → (s.groups.map (·.1)).Nodup →
      let parts := s.liveOf r.parts
      let s0 := s.modGroup c.gid fun g => { g with wait := some (.region .rxcmt w), issued := true }
      (∀ m, (∃ p ∈ parts, p.2.regionWord .rxcmt ≠ none) → (∀ p ∈ parts, ∀ v, p.2.regionWord .rxcmt = some v → p.2.rd v.a 0 .n32 = m) →
        m ≠ n → exec (.rxcmt w) s = .next (s.raise c.gid (Trap.mk' .rxfault c.own c.act))) ∧
      ((∀ p ∈ parts, ∀ v, p.2.regionWord .rxcmt = some v → p.2.rd v.a 0 .n32 = n) →
        (∃ p ∈ parts, p.1 ≠ c.gid ∧ p.2.regionWord .rxcmt = none) → exec (.rxcmt w) s = .next s0) ∧
      ∀ (word : Nat → XWord) (tm : Team), word c.gid = w → (∀ p ∈ parts, p.1 ≠ c.gid → p.2.wait = some (.region .rxcmt (word p.1))) →
        (∀ p ∈ parts, p.2.rd (word p.1).a 0 .n32 = n ∧ p.2.pc ≠ none) → r.performed = false →
        s.team c.g.id.grid c.g.id.team = some tm → (tm.grid, tm.n) = (c.g.id.grid, c.g.id.team) →
        let l := r.last.take n
        let d := r.desc
        let stores := l.flatMap (·.stores)
        let path := fun (x : RecStore) => s.pathOf .global x.pa x.mt x.scope
        (∀ x ∈ stores, s0.storeWaits x = false) → (∀ x ∈ stores, x.gid ∈ r.parts ∧ (path x = .m ∨ path x = .qch)) →
        ((∃ x ∈ stores, path x = .qch) → ∃ t r', exec (.rxcmt w) s = .next t ∧ regionOf t c.g = some r' ∧ r'.st = .pending ∧
          r'.performed = true ∧ ∀ p ∈ parts, ∃ g', t.group p.1 = some g' ∧ g'.wait = some (.region .rxcmt (word p.1))) ∧
        ∀ sh, (∀ x ∈ stores, path x = .m ∧ s.allowed (targetOf .m x.mt) tm.ctx x.pa x.bytes.length .write = true) → Settled s →
          (∀ p ∈ parts, s.released p.1 .device = true ∧ s.acquired p.1 .device = true) →
          (∀ q ∈ s.order.qch, ∀ a ∈ q.2, a.gid ∉ r.parts) → (∀ a ∈ s.order.h, a.gid ∉ r.parts) →
          s.share c.g.id.grid c.g.id.team d.bufCore = some sh →
          ∃ t r', exec (.rxcmt w) s = .next t ∧ regionOf t c.g = some r' ∧ r'.st = .idle ∧ t.order = s.order ∧
            t.mem = stores.foldl (fun m x => memPuts m x.pa x.bytes) s.mem ∧
            t.share c.g.id.grid c.g.id.team d.bufCore = some { sh with
              bytes := memPuts (memPuts sh.bytes (d.bufOfs + 4 * d.m) ((l.map (·.state)).flatten.flatMap fun x => leOf 4 x.toNat))
                (d.bufOfs + d.stateBytes) (List.replicate (d.workBytes + d.storeBytes) 0) } ∧
            ∀ p ∈ parts, ∃ g', t.group p.1 = some g' ∧ WentOn p.2 g' ∧ (∀ k, g'.reg k = p.2.reg k) ∧
              g'.fpmode = p.2.fpmode ||| ((l.foldl (fun (a : FpFlags) x => a ||| x.flags) 0).setWidth 32 <<< 8)) ∧
  (∀ (s : State) (i : Nat) (tm : Team) (pre post : List Team) (r : Region) (word : Nat → XWord), s.teams = pre ++ tm :: post → i = pre.length →
    (∀ x ∈ pre, ¬(x.grid = tm.grid ∧ x.n = tm.n)) → s.running tm.ctx = true → tm.region = some r → r.st = .pending → r.performed = true →
    (s.groups.map (·.1)).Nodup → s.liveOf r.parts ≠ [] →
    (∀ p ∈ s.liveOf r.parts, p.2.wait = some (.region .rxcmt (word p.1)) ∧ p.2.pc ≠ none ∧ s.released p.1 .device = true ∧
      s.acquired p.1 .device = true) →
    (∀ q ∈ s.order.qch, ∀ a ∈ q.2, a.gid ∉ r.parts) → (∀ a ∈ s.order.h, a.gid ∉ r.parts) →
    ∃ t r', exec (.passEnd i) s = .next t ∧ (t.team tm.grid tm.n).bind (·.region) = some r' ∧ r'.st = .idle ∧ t.mem = s.mem ∧
      t.order = s.order ∧ ∀ p ∈ s.liveOf r.parts, ∃ g', t.group p.1 = some g' ∧ WentOn p.2 g' ∧ g'.fpmode = p.2.fpmode) ∧
  ∀ (s : State) (c : Ctx) (w : XWord) (tm : Team), XOp.rxabort.wf w → Runs s (rxFront .rxabort w) c → (s.groups.map (·.1)).Nodup →
    s.team c.g.id.grid c.g.id.team = some tm → (tm.grid, tm.n) = (c.g.id.grid, c.g.id.team) →
    let parts := s.abortParts tm c.g.id.role
    let opened := ∃ r, tm.region = some r ∧ r.st = .opened
    (opened → exec (.rxabort w) s = .next (s.raise c.gid (Trap.mk' .rxfault c.own c.act))) ∧
    (¬opened → (c.gid, c.g) ∈ parts →
      ((∃ p ∈ parts, p.1 ≠ c.gid ∧ p.2.regionWord .rxabort = none) →
        exec (.rxabort w) s = .next (s.modGroup c.gid fun g => { g with wait := some (.region .rxabort w), issued := true })) ∧
      ((∀ p ∈ parts, p.1 ≠ c.gid → p.2.regionWord .rxabort ≠ none) → (∀ p ∈ parts, p.2.pc ≠ none) →
        ∃ t, exec (.rxabort w) s = .next t ∧ t.mem = s.mem ∧ t.order = s.order ∧ (∀ r, regionOf t c.g = some r → r.st = .idle) ∧
          ∀ p ∈ parts, ∃ g', t.group p.1 = some g' ∧ WentOn p.2 g' ∧ (∀ k, g'.reg k = p.2.reg k) ∧ g'.stat.rxstat.toNat % 2 ^ 5 = 5 ∧
            g'.fpmode = p.2.fpmode))

/-- R310, R315, R317, R319 to R321 and R325: PASS_END deals the next round of a pass to the slots; at the end of a pass it goes on to the
next, or closes the region in every participant as the first row of R319 that applies says: CONVERGED commits every step, a fault is
raised in the group whose slot had the step. In every pass the first step is settled and its state is its F. -/
def Says.RelaxationPasses : Prop :=
  (∀ (r : Region) (x : StepOut), r.runPass[0]? = some x →
    x.t = 1 ∧ x.settled = true ∧ x.before = List.replicate r.desc.m 0 ∧ x.state = x.f ∧ 1 ≤ settledPrefix r.runPass) ∧
  ∀ (s : State) (i : Nat) (tm : Team) (r : Region) (pre post : List Team), s.teams = pre ++ tm :: post → i = pre.length →
    (∀ x ∈ pre, ¬(x.grid = tm.grid ∧ x.n = tm.n)) → s.running tm.ctx = true → tm.region = some r → r.st = .opened →
    r.arrivedAll s = true → s.quiet r.parts = true → r.snaps.map (·.gid) = r.parts → r.parts.Nodup →
    (∀ p ∈ r.parts, (s.group p).isSome) →
    let now := fun (t : State) => (t.team tm.grid tm.n).bind (·.region)
    let out := r.runPass
    let big := largestDelta out
    let rInf := if notFinite big.1 then 0x7F800000#32 else big.1
    let decided := r.decidePass out rInf
    let last := out.map (fun x => (⟨x.state, x.eval.stores, x.eval.flags⟩ : StepLast))
    let left := fun (t : State) (stat : DWord) => ∀ p ∈ r.parts, ∃ g', t.group p = some g' ∧ g'.stat.rxstat = stat ∧
      ∀ f ∈ g'.fibres, f.pc = BitVec.ofNat 64 r.hi ∧ f.held = false
    ((r.round + 1) * r.slots.length < r.desc.t →
      ∃ t, exec (.passEnd i) s = .next t ∧ now t = some { r with round := r.round + 1 } ∧ t.mem = s.mem ∧
        ∀ p ∈ r.parts, ∃ g', t.group p = some g' ∧
          ∀ f ∈ g'.fibres, f.held = (({ r with round := r.round + 1 } : Region).stepOf p f.lane).isNone) ∧
    (r.desc.t ≤ (r.round + 1) * r.slots.length →
      (decided = .more → ∃ t r', exec (.passEnd i) s = .next t ∧ now t = some r' ∧ t.mem = s.mem ∧
        r'.st = .opened ∧ r'.pass = r.pass + 1 ∧ r'.round = 0 ∧ r'.sPrev = out.map (·.state) ∧ r'.settled = out.map (·.settled) ∧
        r'.evals = [] ∧ ∀ p ∈ r.parts, ∃ g', t.group p = some g' ∧ g'.stat.rxstat = rxstatOf 0 .opened r.pass (settledPrefix out)) ∧
      (decided = .limit ∨ decided = .stalled ∨ decided = .diverged →
        ∃ t r', exec (.passEnd i) s = .next t ∧ now t = some r' ∧ t.mem = s.mem ∧ r'.st = .pending ∧ r'.last = last ∧
          left t (rxstatOf (if decided = .limit then 1 else if decided = .stalled then 2 else 3) .pending r.pass (settledPrefix out))) ∧
      (decided = .converged → s.storesWait tm r out = true → exec (.passEnd i) s = .next s) ∧
      (decided = .converged → s.storesWait tm r out = false → Settled s →
        (∀ x ∈ last.flatMap (·.stores), s.pathOf .global x.pa x.mt x.scope = .m ∧
          s.allowed (targetOf .m x.mt) tm.ctx x.pa x.bytes.length .write = true) →
        ∃ t r', exec (.passEnd i) s = .next t ∧ now t = some r' ∧ r'.st = .idle ∧
          t.mem = (last.flatMap (·.stores)).foldl (fun m x => memPuts m x.pa x.bytes) s.mem ∧
          left t (rxstatOf 0 .idle r.pass (settledPrefix out)) ∧
          ∀ p ∈ r.parts, ∀ g, s.group p = some g → ∃ g', t.group p = some g' ∧
            g'.fpmode = g.fpmode ||| ((last.foldl (fun (a : FpFlags) x => a ||| x.flags) 0).setWidth 32 <<< 8)) ∧
      ∀ x tr q, decided = .fault x → x.eval.fault = some tr → r.slots[(x.t - 1) % r.slots.length]? = some q →
        ∃ s' r', exec (.passEnd i) s = .next (s'.raise q.gid { tr with body := true, resume := false, after := BitVec.ofNat 64 r.hi }) ∧
          now s' = some r' ∧ s'.mem = s.mem ∧ r'.st = .pending ∧ r'.last = last ∧
          left s' (rxstatOf 4 .pending r.pass (x.t - 1)))

/-- R306 to R310, R315, R317, R319 to R321, R323, R325 and R326: a region opens with its last arrival, runs its passes, and
closes; `rxcmt` and `rxabort` leave it IDLE. -/
def Obligations.RelaxationRegions : Prop :=
  Says.RelaxationRegions ∧ Says.RelaxationCommits ∧ Says.RelaxationPasses

/-! ### Sketches, collective copies and launches (R101-R118, R333-R351) -/

/-- R342 to R345: `skins` and `skdel` move three cells for every lane, one for each hash of its key, each in one move that changes COUNT by 1
or −1 and XORs the key into KEYSUM and its check into CHECK; a deletion undoes an insertion. A set class that the kernel lacks
raises SKSTATE, and a base that is not a multiple of 64 raises ALIGN. A cell of a page in host bias goes by H (R223, R261). That the
cells lie in pages of MT 00 is the model's choice (log 61). -/
def Says.SketchMoves : Prop :=
  (∀ (s : State) (c : Ctx) (op : XOp) (w : XWord), op ∈ [.skins, .skdel] → op.wf w → Runs s (skFront w) c →
    let base := c.g.rdDWord w.b 0
    (s.setClass c.g.id (w.f 7 0) = none → exec (op.instr w) s = .next (s.raise c.gid (Trap.mk' .skstate c.own c.act))) ∧
    ∀ x, s.setClass c.g.id (w.f 7 0) = some x →
      (base.toNat % 64 ≠ 0 → exec (op.instr w) s = .next (s.raise c.gid (Trap.mk' .align c.own c.act base))) ∧
      (base.toNat % 64 = 0 →
        let els := (c.lanesOf w.a.isS).flatMap fun l => (List.range 3).map fun j =>
          let va := base + BitVec.ofNat 64 (32 * (x.h (c.g.rdDWord w.a l) j % 2 ^ x.log2n))
          (⟨l, j, 32, va.toNat, false, va, none, va, true⟩ : Elem)
        ∀ (s1 : State) (hits : List Hit),
          s.resolveNow c .global .device els { once := w.a.isS, kind := .both, mt0 := true } = .ok s1 hits →
          let σ := if op = .skins then 1#32 else 0xFFFFFFFF#32
          let key := fun (h : Hit) => c.g.rdDWord w.a h.e.lane
          ∃ t g', exec (op.instr w) s = .next t ∧ Accessed s1 t c g' (skFront w) [] ∧
            (∀ h ∈ hits, Queued s1 t c h (.cell σ (key h) (x.chk (key h))) 0 []) ∧
            (Settled s1 → (∀ h ∈ hits, Direct h ∧ Accepted s1 c .both h) → t.order = s1.order ∧ t.work = s1.work ∧
            t.mem = (hits.foldl (fun (u : State) h =>
              let b := u.readBytes h.pa 32
              let count := BitVec.ofNat 32 (leVal (b.take 4)) + σ
              let keysum := BitVec.ofNat 64 (leVal ((b.drop 8).take 8)) ^^^ key h
              let check := BitVec.ofNat 64 (leVal ((b.drop 16).take 8)) ^^^ x.chk (key h)
              let m := memPuts (memPuts u.mem h.pa (leOf 4 count.toNat)) (h.pa + 8) (leOf 8 keysum.toNat)
              { u with mem := memPuts m (h.pa + 16) (leOf 8 check.toNat) }) s1).mem))) ∧
  ∀ (y : SketchCell) (x : SetClass) (σ : Word) (k : DWord), (y.enter x σ k).enter x (0 - σ) k = y

/-- `skpeel` may read the fields of an exchange record from RESULT on: nothing holds them back, their target accepts the reads, and no
word of them carries an error. -/
def MayPeel (s : State) (c : Ctx) (pa mt : Nat) : Prop :=
  s.notYet c.gid c.g.id.core pa 8 mt false = false ∧ s.poisoned (pa - 0x18) 32 = false ∧
  s.allowed (s.targetAt (pa + 4) mt) c.g.id.ctx (pa + 4) 4 .read = true ∧
  s.allowed (s.targetAt (pa - 0x18) mt) c.g.id.ctx (pa - 0x18) 8 .read = true

/-- R346 and R350: `skxch` takes the record that A names and enters its exchange at the die of the core (the model's choice, logs 16 and
61), with RESULT 1 and ENTRIES 0; a running exchange and a set class that the kernel lacks raise SKSTATE. `skpeel` parks while the exchange runs, raises SKSTATE, PEELFAIL or COPYFAULT as RESULT says,
and else leaves a K, COUNT pair of the list in each lane's D triple, zero beyond ENTRIES, and the two words in SKSTAT. -/
def Says.SketchExchanges : Prop :=
  (∀ (s : State) (c : Ctx) (w : XWord), XOp.skxch.wf w → Runs s (xFront w (aRegs := 2)) c →
    let a := c.g.rdDWord w.a 0
    (a.toNat % 64 ≠ 0 → exec (.skxch w) s = .next (s.raise c.gid (Trap.mk' .align c.own c.act a))) ∧
    (a.toNat % 64 = 0 → s.setClass c.g.id (w.f 7 0) = none →
      exec (.skxch w) s = .next (s.raise c.gid (Trap.mk' .skstate c.own c.act)))) ∧
  (∀ (s : State) (c : Ctx) (w : XWord) (x : SetClass) (s1 : State) (h : Hit) (rest : List Hit), XOp.skxch.wf w →
    Runs s (xFront w (aRegs := 2)) c → s.setClass c.g.id (w.f 7 0) = some x →
    let a := c.g.rdDWord w.a 0
    a.toNat % 64 = 0 →
    s.resolveNow c .global .device [{ recordElem a 0 64 with lane := lowest 0 c.act }]
      { once := true, kind := .both, mt0 := true } = .ok s1 (h :: rest) → Settled s1 →
    let b := s1.readBytes h.pa 64
    (leField b 0x30 4 % 8 = 1 → exec (.skxch w) s = .next (s1.raise c.gid (Trap.mk' .skstate c.own c.act))) ∧
    (leField b 0x30 4 % 8 ≠ 1 → (s1.work.exchanges.filter (fun y => y.die == s1.dieOf c.g.id.core)).length < 64 →
      s1.released c.gid .device →
      ∃ t g' y, exec (.skxch w) s = .next t ∧ Accessed s1 t c g' (xFront w (aRegs := 2)) [] ∧ t.order = s1.order ∧
        t.mem = memPuts (memPuts s1.mem (h.pa + 0x30) (leOf 4 1)) (h.pa + 0x34) (leOf 4 0) ∧
        t.work = { s1.work with exchanges := s1.work.exchanges ++ [y] } ∧
        (y.ctx, y.grid, y.die, y.va, y.pa, y.cls, y.rounds) = (c.g.id.ctx, c.g.id.grid, s1.dieOf c.g.id.core, a, h.pa, x, 0) ∧
        y.localBase = BitVec.ofNat 64 (leField b 0 8) ∧ y.remoteBase = BitVec.ofNat 64 (leField b 8 8) ∧
        (y.peer, y.n, y.grow, y.maxr, y.tbc) =
          (leField b 0x10 2, leField b 0x12 1, leField b 0x13 1, leField b 0x14 1, leField b 0x15 1) ∧
        y.diff = BitVec.ofNat 64 (leField b 0x18 8) ∧ y.dcap = leField b 0x20 4 ∧
        y.comp = BitVec.ofNat 64 (leField b 0x28 8))) ∧
  (∀ (s : State) (c : Ctx) (w : XWord) (s1 : State) (h : Hit) (rest : List Hit), XOp.skpeel.wf w → Runs s (skpeelFront w) c →
    (∀ x d, c.g.wait ≠ some (.word x d)) →
    let a := c.g.rdDWord w.a 0
    a.toNat % 64 = 0 →
    s.resolveNow c .global .device [{ recordElem a 0x30 4 with lane := lowest 0 c.act }]
      { once := true, kind := .read, mt0 := true, nondet := fun _ _ => c.g.id.det && c.g.id.bin } = .ok s1 (h :: rest) →
    Settled s1 → MayPeel s1 c h.pa h.mt →
    let res := leVal (s1.readBytes h.pa 4)
    let entries := leVal (s1.readBytes (h.pa + 4) 4)
    let s2 := s1.modGroup c.gid fun g =>
      { g with stat := { g.stat with skstat := BitVec.ofNat 64 (res % 2 ^ 32 + 2 ^ 32 * entries) } }
    (res % 8 = 0 → exec (.skpeel w) s = .next (s1.raise c.gid (Trap.mk' .skstate c.own c.act))) ∧
    (res % 8 = 3 → exec (.skpeel w) s = .next (s2.raise c.gid (Trap.mk' .peelfail c.own c.act))) ∧
    (res % 8 = 4 → exec (.skpeel w) s = .next (s2.raise c.gid (Trap.mk' .copyfault c.own c.act a))) ∧
    (res % 8 = 1 → ∃ t g' d, exec (.skpeel w) s = .next t ∧ Owes s1 t c g' (c.g.keys w.d 3 c.act) d ∧
      g'.wait = some (.word ⟨h.pa, 4, h.mt, 1, 1, none, s1.watchable h.pa h.mt && s1.monitorFree c.g.id.ctx h.pa, none, none, true⟩ d)) ∧
    (res % 8 = 2 → s1.acquired c.gid .device → ∀ (s3 : State) (hits : List Hit),
      s2.resolveNow c .global .device (c.peelElems w (BitVec.ofNat 64 (leVal (s1.readBytes (h.pa - 0x18) 8))) entries)
        { once := false, kind := .read } = .ok s3 hits → Settled s3 →
      let entry := fun (l : Nat) => match hits.find? fun y => y.e.lane == l with
        | some y => leVal (s3.readBytes y.pa 16)
        | none => 0
      let writes := c.act.flatMap fun l => c.g.split w.d 3 l (entry l % 2 ^ 96)
      ∃ t g', exec (.skpeel w) s = .next t ∧ t.group c.gid = some g' ∧ g'.wait = none ∧ c.GoesTo g' c.nextPc ∧
        holdsWords t s3.sched.nextId c.gid writes ∧ (∀ p ∈ writes, g'.isFull p.1 = false) ∧ (∀ k, g'.reg k = c.g.reg k) ∧
        g'.stat.skstat = BitVec.ofNat 64 (res % 2 ^ 32 + 2 ^ 32 * entries) ∧ t.mem = s3.mem ∧ t.order = s3.order)) ∧
  ∀ (s : State) (c : Ctx) (w : XWord) (x : WordWait) (d : Due) (v : DWord), XOp.skpeel.wf w → Runs s (skpeelFront w) c →
    c.g.wait = some (.word x d) → x.woke = some v → Settled s → MayPeel s c x.pa x.mt →
    let entries := leVal (s.readBytes (x.pa + 4) 4)
    let stat := BitVec.ofNat 64 (v.toNat % 2 ^ 32 + 2 ^ 32 * entries)
    let s2 := s.modGroup c.gid fun g => { g with stat := { g.stat with skstat := stat } }
    (v.toNat % 8 = 0 → exec (.skpeel w) s = .next (s2.raise c.gid (Trap.mk' .skstate c.own c.act))) ∧
    (v.toNat % 8 = 3 → exec (.skpeel w) s = .next (s2.raise c.gid (Trap.mk' .peelfail c.own c.act))) ∧
    (v.toNat % 8 = 4 → exec (.skpeel w) s = .next (s2.raise c.gid (Trap.mk' .copyfault c.own c.act (c.g.rdDWord w.a 0)))) ∧
    (s.acquired c.gid .device → v.toNat % 8 = 2 → ∀ (s3 : State) (hits : List Hit),
      s2.resolveNow c .global .device (c.peelElems w (BitVec.ofNat 64 (leVal (s.readBytes (x.pa - 0x18) 8))) entries)
        { once := false, kind := .read } = .ok s3 hits → Settled s3 →
      let entry := fun (l : Nat) => match hits.find? fun y => y.e.lane == l with
        | some y => leVal (s3.readBytes y.pa 16)
        | none => 0
      ∃ t g', exec (.skpeel w) s = .next t ∧ t.group c.gid = some g' ∧ g'.wait = none ∧ c.GoesTo g' c.nextPc ∧
        Pays s3 t c.gid d.prod (c.act.flatMap fun l => (List.range 3).map fun j => BitVec.ofNat 32 (entry l / 2 ^ (32 * j))) ∧
        (∀ k, g'.reg k = c.g.reg k) ∧ g'.stat.skstat = stat ∧ t.mem = s3.mem ∧ t.order = s3.order)

/-- R342 to R346 and R350: insertions and deletions move the cells of a sketch, `skxch` starts an exchange and `skpeel` reads
its list. -/
def Obligations.Sketches : Prop :=
  Says.SketchMoves ∧ Says.SketchExchanges

/-- R346 to R348 and R351: peeling loses nothing: entering each entry of the list back into the cells that are left gives the cells that
it began with, and the list holds at most DCAP entries. A round that decodes writes the list, ENTRIES and RESULT and ends the
exchange; one that does not folds finer in the next round. The end adds to COMP, if there is one. A bad record ends with FAULTED, with
ROUNDS and NLAST 0 (the model's choice, log 61). The fold of another rank is an argument of the event (log 18), and a round waits for
its class's tokens, which the fold spends (log 21). -/
def Obligations.ExchangeRounds : Prop :=
  (∀ (x : SetClass) (n dcap fuel : Nat) (cells : List SketchCell),
    let p := Peel.run ⟨cells, [], false, false⟩ x n dcap fuel
    p.list.foldl (fun cs e => (List.range 3).foldl (fun cs j =>
      cs.modify (x.h e.1 j % 2 ^ n) fun y => y.enter x e.2 e.1) cs) p.cells = cells ∧ p.list.length ≤ dcap) ∧
  ∀ (s : State) (x : Exchange) (peer : PeerFold), s.work.exchanges.find? (·.id == x.id) = some x → s.running x.ctx →
    (∀ y ∈ s.work.exchanges, y.die = x.die → x.id ≤ y.id) → s.tokens x.ctx x.tbc true = true →
    let mayEnd := fun (s' : State) => s'.blocked (x.pa + 0x30) 8 true = false ∧ Settled s' ∧
      s'.allowed (s'.targetAt (x.pa + 0x34) 0) x.ctx (x.pa + 0x34) 4 .write ∧
      s'.allowed (s'.targetAt (x.pa + 0x30) 0) x.ctx (x.pa + 0x30) 4 .write
    let ends := fun (s' : State) (state rounds nlast code entries : Nat) =>
      let res := state + 2 ^ 8 * rounds + 2 ^ 12 * nlast + 2 ^ 24 * code
      let u := (s'.performWrite (x.pa + 0x34) (leOf 4 entries)).performWrite (x.pa + 0x30) (leOf 4 res)
      let t : State := { u with work := { u.work with exchanges := u.work.exchanges.filter (·.id != x.id) } }
      t.work.exchanges = s'.work.exchanges.filter (·.id != x.id) ∧ t.order = s'.order ∧
        t.mem = memPuts (memPuts s'.mem (x.pa + 0x34) (leOf 4 entries)) (x.pa + 0x30) (leOf 4 res) ∧
        (x.comp = 0 → exec (.exchangeRound x.id peer) s = .next t) ∧
        (x.comp ≠ 0 → ∀ u b, t.unitAdd .other x.ctx x.comp (if state = 2 then 1 else 1 + 2 ^ 32) = .ok u b →
          exec (.exchangeRound x.id peer) s = .next u)
    (x.bad = true → mayEnd s → ends s 4 0 0 1 0) ∧
    ∀ (s1 s2 : State) (mine other : List SketchCell), x.bad = false →
      s.readSketch x.ctx x.localBase x.cls.log2n = .ok s1 mine →
      (if s1.ownPeer x then
        ∃ cells, s1.readSketch x.ctx x.remoteBase x.cls.log2n = .ok s2 cells ∧ other = foldSketch x.n cells
      else peer = .cells other ∧ other.length = 2 ^ x.n ∧ s2 = s1.spendFor x.ctx x.tbc true (32 * 2 ^ x.n)) →
      let p := Peel.run ⟨((foldSketch x.n mine).zip other).map (fun p => p.1.diff p.2), [], false, false⟩
        x.cls x.n x.dcap (x.dcap + 1)
      let decoded := ∀ y ∈ p.cells, y = SketchCell.zero
      (p.full = false → decoded → ∀ s3 b, s2.unitWriteLong x.ctx x.diff (x.dcap / 256 + 2) (listBytes p.list) = .ok s3 b →
        mayEnd s3 → ends s3 2 (x.rounds + 1) x.n 0 p.list.length) ∧
      (p.full = true → mayEnd s2 → ends s2 (3 + 2 ^ 3 * 2) (x.rounds + 1) x.n 0 0) ∧
      (p.full = false → ¬decoded → x.rounds + 1 = x.maxr ∨ x.n = x.cls.log2n → mayEnd s2 →
        ends s2 (3 + 2 ^ 3) (x.rounds + 1) x.n 0 0) ∧
      (p.full = false → ¬decoded → x.rounds + 1 ≠ x.maxr → x.n ≠ x.cls.log2n →
        exec (.exchangeRound x.id peer) s = .next { s2 with work := { s2.work with exchanges := s2.work.exchanges.map fun y =>
          if y.id = x.id then { x with n := min (x.n + x.grow) x.cls.log2n, rounds := x.rounds + 1 } else y } })

/-- R337 and R113: `tcopy` gives its packet to the collective engine and moves its handle, FREE to FILLING for a get and FULL to DRAINING for
a put; `launch` appends the record to its core's pending-launch queue, adds 1 to LC and leaves the new grid's SERIAL in D, and
parks while that queue holds four. -/
def Obligations.CopiesAndLaunchesEnter : Prop :=
  (∀ (s : State) (c : Ctx) (w : XWord) (core : Nat) (b : Binding) (e : HandleEntry), XOp.tcopy.wf w → Runs s (tcopyFront w) c →
    s.namedHandle c.g.id w false = some (core, some b) → s.handle c.g.id.ctx core (w.f 7 0) = some e → e.bound = some b →
    let dir := w.f 12 11
    let comp := BitVec.ofNat 64 (c.g.bits w.d 2 0)
    let rec_ := c.g.rdDWord w.a 0
    canonical rec_ = true → canonical comp = true → rec_.toNat % 64 = 0 → comp.toNat % 8 = 0 → s.released c.gid .device →
    b.state = (if dir = 1 then .free else .full) →
    ∃ t g' x, exec (.tcopy w) s = .next t ∧ t.group c.gid = some g' ∧ c.GoesTo g' c.nextPc ∧ (∀ k, g'.reg k = c.g.reg k) ∧
      t.mem = s.mem ∧ t.order = s.order ∧ t.work.packets = s.work.packets ++ [x] ∧ x.ctx = c.g.id.ctx ∧ x.handle = some e ∧
      (x.grid, x.packet.shape, x.packet.comp, x.packet.dir, x.packet.tbc) = (some c.g.id.grid, rec_, comp, dir, w.f 15 13) ∧
      x.origin = (let y := fun (j : Nat) => c.g.reg (c.g.key w.b 0 j)
        [(y 0).toInt, (y 1).toInt, (y 2).toInt, ((y 3).extractLsb' 0 16).toInt, ((y 3).extractLsb' 16 16).toInt]) ∧
      (t.handle e.ctx e.core e.k).bind (·.bound) = some { b with state := if dir = 1 then .filling else .draining }) ∧
  ∀ (s : State) (c : Ctx) (w : MWord) (gr : Grid), MOp.launch.wf w → Runs s (MOp.front .launch w) c →
    s.grid c.g.id.grid = some gr → s.released c.gid .device →
    let els := c.objects w true 64 64
    (∀ e ∈ els, canonical e.va = true ∧ e.misaligned = false) →
    let pq := (s.core c.g.id.core).pq
    let due := c.g.wait.bind Wait.due
    (pq.length < 4 → ∀ (s1 : State) (h : Hit) (rest : List Hit),
      s.resolveNow c .global w.scope els { once := true, kind := .read } = .ok s1 (h :: rest) → Settled s1 →
      let serial := (kcg gr.serial c.g.id.grpid c.g.lc 0 0 0x4C4E4348).x0
      ∃ t g', exec (.launch w) s = .next t ∧ t.group c.gid = some g' ∧ g'.wait = none ∧ c.GoesTo g' c.nextPc ∧ g'.lc = c.g.lc + 1 ∧
        (∀ k, g'.reg k = c.g.reg k) ∧ t.mem = s1.mem ∧ t.order = s1.order ∧
        (due = none → holdsWords t s1.sched.nextId c.gid (c.g.split w.d 1 0 serial.toNat) ∧
          ∀ k ∈ c.g.keys w.d 1 [0], g'.isFull k = false) ∧
        (∀ d, due = some d → Pays s1 t c.gid d.prod [serial]) ∧
        t.core c.g.id.core = { s1.core c.g.id.core with
          pq := (s1.core c.g.id.core).pq ++ [⟨c.g.id.ctx, s1.readBytes h.pa 64, serial, h.e.va, c.g.id.grpid, c.g.lc⟩] }) ∧
    (4 ≤ pq.length → due = none →
      ∃ t g' d, exec (.launch w) s = .next t ∧ Owes s t c g' (c.g.keys w.d 1 [0]) d ∧ g'.wait = some (.launch false d) ∧
        g'.lqfull = countUp c.g.lqfull)

/-! ### Launch queues, placement and the pick (R102-R149) -/

/-- A queue's header may be served for its context: its line is free, its target accepts the accesses, and it carries no error. -/
def HeaderOpen (s : State) (ctx header : Nat) : Prop :=
  s.blocked header 64 true = false ∧ s.allowed (s.targetAt header 0) ctx header 64 .both = true ∧ s.poisoned header 64 = false

/-- R103, R104, R107 to R109 and R114: an appender fills the slot that CLAIM names and publishes it; a take advances READ and makes a grid
of a record that passes the checks, with SERIAL the low half of the record's index, or that of the pending launch; the record that is
taken next ranks first of those that wait. An overfull queue has a fault. The model's choices: slots are found by the context's
translation, under the appender's rights (log 42), a queue whose header is refused is never served (log 73), and text that is not
mapped is captured as log 13 says. -/
def Obligations.LaunchQueues : Prop :=
  (∀ (s s1 : State) (port master ctx num : Nat) (copy : Bool) (record : List Byte) (q : Queue) (tr : Tlb),
    s.dev.prov.ports.find? (fun p => p.1 == port) = some (port, master) → s.queue ctx num copy = some q → record.length = 64 → Settled s →
    let n := leVal (s.readBytes q.header 8)
    (n + 2 ^ 64 - leVal (s.readBytes (q.header + 16) 8)) % 2 ^ 64 < 2 ^ q.log2 → leVal (s.readBytes (q.header + 8) 8) = n →
    canonical (q.slot n) = true → s.translate ctx (q.slot n).toNat .read false = .ok s1 tr → Settled s1 →
    let pa := tr.addr ((q.slot n).toNat % 2 ^ 57)
    s1.blocked pa 64 true = false → s1.blocked q.header 64 true = false → s1.hostMay master q.header 64 .both →
    s1.hostMay master pa 64 .write →
    ∃ t, exec (.hostAppend ctx num copy ⟨port, record⟩) s = .next t ∧ t.order = s1.order ∧ t.work = s1.work ∧
      t.dev.bias = ((s1.hostFlip q.header).hostFlip pa).dev.bias ∧
      t.mem = memPuts (memPuts (memPuts s1.mem q.header (leOf 8 ((n + 1) % 2 ^ 64))) pa record) (q.header + 8)
        (leOf 8 ((n + 1) % 2 ^ 64))) ∧
  (∀ (s : State) (h : Head), s.nextHead = some h →
    h ∈ s.queueHeads ++ s.pendingHeads ∧ ∀ x ∈ s.queueHeads ++ s.pendingHeads, lexLt x.rank h.rank = false) ∧
  (∀ (b : List Byte) (m n : Nat), 64 ≤ b.length →
    headRank b m n = [65536 - ((b.getD 0x38 0).toNat / 4 % 4 * 256 + (b.getD 0x3A 0).toNat), m, n]) ∧
  (∀ (s s0 s1 s2 : State) (go : Instr) (b text : List Byte) (serial : Word) (addr : DWord) (ctx : Nat) (k : Kernel),
    (∃ num q h, go = .launchQueueTake ctx num ∧ s.queue ctx num false = some q ∧ q.faulted = false ∧ s.running ctx ∧
      Settled s ∧ HeaderOpen s ctx q.header ∧ s.queueCount q ≤ 2 ^ q.log2 ∧ s.nextHead = some h ∧ h.ctx = ctx ∧ h.queue = some num ∧
      s.unitRead .other ctx (q.slot (leVal (s.readBytes (q.header + 16) 8))) 64 = .ok s0 b ∧ Settled s0 ∧
      serial = BitVec.ofNat 32 (leVal (s.readBytes (q.header + 16) 8)) ∧ addr = q.slot (leVal (s.readBytes (q.header + 16) 8)) ∧
      s1 = s0.performWrite (q.header + 16) (leOf 8 ((leVal (s.readBytes (q.header + 16) 8) + 1) % 2 ^ 64))) ∨
    (∃ core x rest h, go = .pendingLaunchTake core ∧ (s.core core).pq = x :: rest ∧ s.nextHead = some h ∧ h.queue = none ∧
      h.core = core ∧ ctx = x.ctx ∧ b = x.record ∧ serial = x.serial ∧ addr = x.recaddr ∧
      s1 = s.modCore core fun c => { c with pq := rest }) →
    let r := LaunchRec.ofBytes b
    badRec b r = false → (s1.ctx ctx).bind (·.kernel r.kdesc) = some k → r.coll = 0 → r.total ≠ 0 →
    s1.captureText ctx k.textLo (k.textLen / 4096 + 2) k.textLen = .ok s2 text →
    ∃ t g, exec go s = .next t ∧ t.mem = s2.mem ∧ t.order = s2.order ∧ t.cores = s2.cores ∧ t.groups = s2.groups ∧
      t.grid s2.sched.nextId = some g ∧ (∀ i, i ≠ s2.sched.nextId → t.grid i = s2.grid i) ∧
      (g.ctx, g.serial, g.recaddr, g.record, g.kernel) = (ctx, serial, addr, r, k) ∧ (g.admitted, g.groups, g.started) = ([], 0, false) ∧
      g.det = (k.det || (b.getD 0x38 0).getLsbD 0) ∧ g.text = text) ∧
  ∀ (s s1 : State) (ctx num : Nat) (q : Queue) (x : Context) (b : List Byte), s.queue ctx num false = some q → q.faulted = false →
    s.running ctx → s.ctx ctx = some x → x.completion = none → Settled s → HeaderOpen s ctx q.header →
    (2 ^ q.log2 < s.queueCount q →
      exec (.launchQueueTake ctx num) s = .next (s.modQueue ctx q.num q.copy fun q => { q with faulted := true })) ∧
    (s.queueCount q ≤ 2 ^ q.log2 → (s.nextHead.map fun h => (h.ctx, h.queue)) = some (ctx, some num) →
      let n := leVal (s.readBytes (q.header + 16) 8)
      s.unitRead .other ctx (q.slot n) 64 = .ok s1 b → Settled s1 → s1.ctxs = s.ctxs → badRec b (LaunchRec.ofBytes b) = true →
      (LaunchRec.ofBytes b).succ = 0 →
      ∃ t, exec (.launchQueueTake ctx num) s = .next t ∧ t.grids = s1.grids ∧
        t.mem = memPuts s1.mem (q.header + 16) (leOf 8 ((n + 1) % 2 ^ 64)))

/-- R117 and R118: a grid that is over retires once its context's paths have emptied (all of them: the model's choice, log 62): its successor
word, if it has one, is decremented, and its completion record takes the slot of WRITE, which the context's translation finds (the
model's choice, log 42), or adds to OVERFLOW when the queue is full. -/
def Obligations.GridsRetire : Prop :=
  ∀ (s s1 s2 : State) (id : Nat) (g : Grid), s.grid id = some g → s.gridOver id g → s.running g.ctx → s.flushCtx g.ctx = .made s1 →
    (if g.record.succ = 0 then s2 = { s1 with grids := smErase s1.grids id }
      else ∃ old, ({ s1 with grids := smErase s1.grids id } : State).unitAdd .other g.ctx g.record.succ (2 ^ 64 - 1) = .ok s2 old) →
    ∀ x, s2.ctx g.ctx = some x →
    (x.completion = none → exec (.gridRetire id) s = .next s2) ∧
    ∀ q, x.completion = some q → HeaderOpen s2 g.ctx q.header → Settled s2 →
      let w := leVal (s2.readBytes (q.header + 8) 8)
      let free := (w + 2 ^ 64 - leVal (s2.readBytes (q.header + 16) 8)) % 2 ^ 64 ≠ 2 ^ q.log2
      let status := if g.trapped then 3 else if g.status = .collFail then 4 else 0
      let record := leOf 8 g.recaddr.toNat ++ leOf 4 g.serial.toNat ++ leOf 2 status ++ leOf 2 g.source.toNat ++
        leOf 8 g.origin.toNat ++ leOf 4 g.groups ++ leOf 4 0
      (¬free → ∃ t, exec (.gridRetire id) s = .next t ∧ t.grid id = none ∧ t.mem = memPuts s2.mem (q.header + 0x28)
        (leOf 8 ((leVal (s2.readBytes (q.header + 0x28) 8) + 1) % 2 ^ 64))) ∧
      (free → ∀ s3 old, s2.unitWrite .other g.ctx (q.ring + BitVec.ofNat 64 (32 * (w % 2 ^ q.log2))) record = .ok s3 old → Settled s3 →
        ∃ t, exec (.gridRetire id) s = .next t ∧ t.grid id = none ∧
          t.mem = memPuts s3.mem (q.header + 8) (leOf 8 ((w + 1) % 2 ^ 64)))

/-- R119 to R129 and R133: a team that is not admitted goes, in free mode and while its context runs, to a home whose cores have room for
its shares. A team whose
cores are ready is admitted whole: each group stands in a slot of its core at ENTRY with a fibre in every lane, its registers
zero but for ARGS, with its place and its identity; no other group changes. -/
def Obligations.Placement : Prop :=
  (∀ (s : State) (grid n home : Nat) (g : Grid), s.grid grid = some g → n < g.record.total → n ∉ g.admitted →
    (g.det = true ∨ s.running g.ctx = false → exec (.teamSteal grid n home) s = .next s) ∧
    (g.det = false → s.running g.ctx = true → home < 192 → (∀ c ∈ s.coresAt g home, s.shareFree c g.kernel.shareBytes = true) →
      ∃ t g', exec (.teamSteal grid n home) s = .next t ∧ t.grid grid = some g' ∧ g'.home n = home ∧
        (∀ m, m ≠ n → g'.home m = g.home m) ∧ ({ g' with homes := g.homes } : Grid) = g ∧ t.groups = s.groups ∧ t.teams = s.teams)) ∧
  (∀ (seed : DWord) (serial : Word) (n j : Nat),
    homeOf seed n serial < 192 ∧ teamCoreAt (homeOf seed n serial) j / 8 = homeOf seed n serial / 8) ∧
  ∀ (s : State) (grid n : Nat) (g : Grid), s.grid grid = some g → n < g.record.total → n ∉ g.admitted → s.running g.ctx →
    let k := g.kernel
    let cores := s.coresOf g n
    ((∃ j core, cores[j]? = some core ∧ (s.coreReady g j core = false ∨ s.heads core (teamKey g n) = false)) →
      exec (.teamAdmission grid n) s = .next s) ∧
    ((∀ j core, cores[j]? = some core → s.coreReady g j core = true ∧ s.heads core (teamKey g n) = true) →
      ∃ t tm, exec (.teamAdmission grid n) s = .next t ∧ t.mem = s.mem ∧ t.order = s.order ∧ t.cores = s.cores ∧
        (t.grid grid).map (·.admitted) = some (g.admitted ++ [n]) ∧ t.teams = s.teams ++ [tm] ∧
        (tm.grid, tm.n, tm.ctx, tm.cores) = (grid, n, g.ctx, cores) ∧
        t.work = { s.work with handles := s.work.handles ++ g.reserve grid n cores } ∧ tm.shares = cores.map (fun _ => ⟨[], [], [], []⟩) ∧
        tm.barriers = (List.range k.nbar).map (fun b => (b, ⟨0, false⟩)) ∧
        (∀ i, i < s.sched.nextId ∨ s.sched.nextId + k.groups.length ≤ i → t.group i = s.group i) ∧
        ∀ i < k.groups.length, ∃ x r, t.group (s.sched.nextId + i) = some x ∧ k.groups[i]? = some r ∧
          x.id.core = cores.getD (i % k.cores) 0 ∧ (x.id.grid, x.id.team, x.id.t, x.id.role, x.id.ridx) = (grid, n, i, r.1.role, r.2) ∧
          (x.id.vBud, x.id.oBud, x.id.sBud, x.id.det) = (r.1.v, r.1.o, r.1.s, g.det) ∧
          x.id.grpid = BitVec.ofNat 32 (n * k.groups.length + i) ∧
          x.fibres.map (fun f => (f.lane, f.pc, f.fibid, f.held)) = (List.range k.width).map (fun l =>
            (l, BitVec.ofNat 64 k.textLo, BitVec.ofNat 32 ((n * 2048 + i * k.width + l) % 2 ^ 31), false)) ∧
          x.fpmode = 0 ∧ x.lc = 0 ∧ x.wait = none ∧ x.place = .slot ∧ (∀ j, x.isFull j = true) ∧
          ∀ j, x.reg j = (if 2 ≤ r.1.s ∧ j = regKey 1 0 0 then g.record.args.setWidth 32
            else if 2 ≤ r.1.s ∧ j = regKey 1 0 1 then (g.record.args >>> 32).setWidth 32 else 0))

/-- Memory is as it was outside an area of a context. -/
def SameBut (s t : State) (a : Area) : Prop :=
  ∀ i, i < a.base ∨ a.base + a.size ≤ i → memByte t.mem i = memByte s.mem i

/-- R134 to R136 and R380: a group leaves its slot only as R134 lets it, and its context's paths empty first; its swap area is written,
and it keeps its registers, its PCs and its wait. A woken group that comes first on its core (the place of a restored context's groups is
the model's choice, log 94) takes a free slot, as the youngest of the core. The bytes of the area are free (log 19). -/
def Says.SwapOutAndIn : Prop :=
  (∀ (s : State) (gid : Nat) (g : Group), s.group gid = some g →
    (s.maySwap gid g = false → exec (.swapOut gid) s = .next s) ∧
    (s.maySwap gid g = true → ∀ s1 g1 x, s.flushCtx g.id.ctx = .made s1 → s1.group gid = some g1 → s1.ctx g.id.ctx = some x → Settled s1 →
      ∃ t, exec (.swapOut gid) s = .next t ∧
        (t.group gid).map stillGroup = some (stillGroup { g1 with place := .swapped, reserved := false }) ∧
        (∀ k, k ≠ gid → (t.group k).map stillGroup = (s1.group k).map stillGroup) ∧ SameBut s1 t x.swapArea ∧
        t.order = s1.order ∧ t.cores = s1.cores ∧ t.work = s1.work ∧ t.grids = s1.grids ∧ t.ctxs = s1.ctxs) ∧
    (s.maySwap gid g = true → g.wait.isSome ∧ g.swaptmo ≠ 0 ∧ g.parkedAt + g.swaptmo.toNat < s.dev.clk ∧ g.halt = none ∧
      (s.core g.id.core).engine.owner ≠ some gid ∧
      (∀ p ∈ s.work.producers, p.gid = gid → ∃ d, g.wait.bind Wait.due = some d ∧ p.id = d.prod) ∧ s.bodyOf gid g = none ∧
      s.myLoop gid g.id = none)) ∧
  ∀ (s : State) (gid : Nat) (g : Group), s.group gid = some g → g.place = .swapped → s.running g.id.ctx →
    (s.woken gid g = false → exec (.swapIn gid) s = .next s) ∧
    (s.woken gid g = true → s.heads g.id.core (s.returnKey g) = true → s.slotsFree g.id.core g.id.ctx [g.window] = true →
      ∃ t r, exec (.swapIn gid) s = .next t ∧ t.group gid = some { g with place := .slot, age := s.sched.nextId, reserved := r } ∧
        SameOutside gid s t ∧ Quiet s t)

/-- R148 and R149: a bin closes when its timer has expired; a closed bin becomes a group of its fibres when its core has a slot for it,
with the spawned arguments in v1 and up, and is else written to the swap area, to come back after the groups that return (the model's
choice, log 94). -/
def Says.SpawnBinsClose : Prop :=
  (∀ (s : State) (core : Nat) (pre post : List Bin) (b : Bin), (s.core core).bins = pre ++ b :: post → s.running b.ctx →
    ∃ t, exec (.binTimeout core pre.length) s = .next t ∧ t.groups = s.groups ∧ t.mem = s.mem ∧
      t.core core = { s.core core with
        bins := pre ++ (if b.deadline ≤ s.dev.clk then { b with closed := true } else b) :: post }) ∧
  ∀ (s : State) (core : Nat) (pre post : List Bin) (b : Bin), (s.core core).bins = pre ++ b :: post → s.running b.ctx →
    let free := s.slotsFree core b.ctx [windowOf b.ident.vBud b.ident.width] && s.heads core (if b.out then [0, 1, b.opened] else [0, 2])
    (b.closed = false → exec (.binFormGroup core pre.length) s = .next s) ∧
    (b.closed = true → free = true → (∀ x ∈ b.fibres, x.args.length < 256) →
      ∃ t g, exec (.binFormGroup core pre.length) s = .next t ∧ t.group s.sched.nextId = some g ∧
        (∀ i, i ≠ s.sched.nextId → t.group i = s.group i) ∧ t.mem = s.mem ∧ t.order = s.order ∧
        t.core core = { s.core core with bins := pre ++ post } ∧ g.id.bin = true ∧ g.id.grpid = 0xFFFFFFFF#32 ∧ g.id.ridx = 0 ∧
        g.id.core = b.ident.core ∧ g.fibres.map (fun f => (f.pc, f.fibid, f.held)) = b.fibres.map (fun x => (b.entry, x.fibid, false)) ∧
        (∀ i x j a, b.fibres[i]? = some x → x.args[j]? = some a → g.reg (regKey 0 i (j + 1)) = a) ∧ (∀ k, g.isFull k = true)) ∧
    (b.closed = true → free = false → b.out = false → s.swapRoom b.ctx = true → Settled s →
      ∃ t, exec (.binFormGroup core pre.length) s = .next t ∧ (∀ k, (t.group k).map stillGroup = (s.group k).map stillGroup) ∧
        (∀ x, s.ctx b.ctx = some x → SameBut s t x.swapArea) ∧ t.order = s.order ∧
        t.core core = { s.core core with bins := pre ++ { b with out := true } :: post })

/-- R134 to R136, R148 and R149: a parked group leaves its slot and a woken one takes it again; a bin closes and becomes a
group. -/
def Obligations.SwapAndBins : Prop :=
  Says.SwapOutAndIn ∧ Says.SpawnBinsClose

/-- R40, R142, R144, R145, R366 and R369: a pick takes at most two groups of the core that may issue, the oldest first, and two only
when they do not conflict; it takes none only when none may issue. A group whose instruction fails one of the first checks traps,
and takes no pick. A halt request takes effect when the group stands at a safe point, before the instruction issues. Of the cores
only the counts and the lists of tags change. -/
def Obligations.Picks : Prop :=
  ∀ (s : State) (core : Nat), (s.awake = false → exec (.issuePick core) s = .next s) ∧
    (s.awake = true → ∃ (s' t : State) (traps p : List Nat),
      exec (.issuePick core) s = .next t ∧ t.sched.picks = traps ++ p ∧
      t.mem = s.mem ∧ t.order = s.order ∧ t.teams = s.teams ∧ t.work = s.work ∧ s.dev.clk ≤ s'.dev.clk ∧ t.dev = s'.dev ∧
      t.groups = s'.groups ∧ (∀ k, t.core k = { s.core k with tagIn := (t.core k).tagIn, tagged := (t.core k).tagged }) ∧
      s'.cores = s.cores ∧
      (∀ k g, s.group k = some g → s'.group k = some (if g.id.core = core ∧ g.haltReq = true ∧ g.halt = none ∧ g.wait = none ∧
          g.pending = none ∧ g.place = .slot ∧ g.ended = false ∧ s.sfuHolds k core = false ∧ s.atSafePoint g = true
        then { g with haltReq := false, halt := some ⟨[], none, false⟩ } else g)) ∧
      p.length ≤ 2 ∧ (∀ gid ∈ p, ∃ g, (gid, g) ∈ s'.groups ∧ g.id.core = core ∧ s'.mayIssue gid g = true) ∧
      (p = [] → ∀ q ∈ s'.groups, q.2.id.core = core → s'.mayIssue q.1 q.2 = false) ∧
      (∀ gid, gid ∈ traps ↔ ∃ g, (gid, g) ∈ s'.groups ∧ g.id.core = core ∧ s'.considered g = true ∧ s'.standing gid = .traps) ∧
      (∀ a rest, p = a :: rest → ∃ g, (a, g) ∈ s'.groups ∧
        ∀ q ∈ s'.groups, q.2.id.core = core → s'.mayIssue q.1 q.2 = true → g.age ≤ q.2.age) ∧
      ∀ a b, p = [a, b] → a ≠ b ∧ s'.conflict a b = false ∧ s'.takesBoth a = false)

/-! ### Collectives (R333-R341) -/

/-- The collective of a grid. -/
def collOf (t : State) (grid : Nat) : Option Coll := (t.grid grid).bind (·.coll)

/-- R335, R336 and R338: every position above 0 is the child of exactly one. A message waits until the collective has started; then a
child's vector, the result or a gathered vector is taken once. At the end of its groups a rank reads its contribution; the value of
position 0 is its own combined with its children's in the order of the levels, on the left; and the finish writes the result at
DST. A message takes the bytes of its elements in its port's buffer, where it also waits while its grid's record is not taken yet:
the model's choices (log 60). -/
def Says.CollectiveExchange : Prop :=
  (∀ p ranks : Nat, ranks ≤ 1024 → p < ranks → 0 < p →
    ∃ q, q < ranks ∧ p ∈ childrenOf q ranks ∧ ∀ r, p ∈ childrenOf r ranks → r = q) ∧
  (∀ (s : State) (port k grid : Nat) (g : Grid) (c : Coll) (m : RankMsg), s.grid grid = some g → grid < s.sched.nextId → g.coll = some c → c.finished = false →
    let pl := s.collPlace g.ctx c.desc
    let room := s.earlyUsed port + msgBytes c.desc m ≤ 262144
    (c.started = false ∨ s.running g.ctx = false →
      (room → ∃ t, exec (.collectiveMessage grid ⟨port, k, m⟩) s = .next t ∧ collOf t grid = some { c with early := c.early ++ [(port, m)] } ∧
        t.mem = s.mem ∧ t.ctxs = s.ctxs) ∧
      (¬room → exec (.collectiveMessage grid ⟨port, k, m⟩) s = .next s)) ∧
    (c.started = true → s.running g.ctx → c.early = [] → ∀ v : List Int, v.length = c.desc.count →
      (∀ q ∈ childrenOf pl.pos pl.ranks, m = .up q v → c.desc.kind ≤ 2 → (∀ x ∈ c.taken, x.1 ≠ q) →
        ∃ t, exec (.collectiveMessage grid ⟨port, k, m⟩) s = .next t ∧ t.mem = s.mem ∧
          collOf t grid = some { c with taken := c.taken ++ [(q, some v)], last := s.dev.clk }) ∧
      (m = .down v → pl.pos ≠ 0 → c.result = none → c.desc.kind = 1 ∨ c.desc.kind = 3 →
        ∃ t, exec (.collectiveMessage grid ⟨port, k, m⟩) s = .next t ∧ t.mem = s.mem ∧
          collOf t grid = some { c with result := some v, last := s.dev.clk }) ∧
      ∀ r, m = .gather r v → c.desc.kind = 4 → r ≠ pl.rank → r < pl.ranks → (∀ x ∈ c.gathered, x.1 ≠ r) →
        ∃ t, exec (.collectiveMessage grid ⟨port, k, m⟩) s = .next t ∧ t.mem = s.mem ∧
          collOf t grid = some { c with gathered := c.gathered ++ [(r, v)], last := s.dev.clk })) ∧
  (∀ (s : State) (grid : Nat) (m : PortMsg), s.grid grid = none → s.sched.nextId ≤ grid →
    exec (.collectiveMessage grid m) s = .next (if s.earlyUsed m.port + portBytes m ≤ 262144 then
      { s with work := { s.work with early := s.work.early ++ [(grid, m)] } } else s)) ∧
  (∀ (s : State) (grid : Nat) (g : Grid) (c : Coll), s.grid grid = some g → g.coll = some c → c.started = true → c.finished = false →
    c.vals = none → c.early = [] → s.running g.ctx →
    (s.groupsEnded grid g = false → exec (.collectiveContribute grid) s = .next s) ∧
    (s.groupsEnded grid g = true →
    let n := c.desc.count * (c.desc.ety.width / 8)
    let id := c.id.getD s.sched.nextId
    let s0 := if c.id.isSome then s else s.newId.2.modColl grid fun c => { c with id := some id }
    let va := c.desc.src + BitVec.ofNat 64 c.src.length
    let k := min (n - c.src.length) (128 - va.toNat % 128)
    s0.tokens g.ctx c.desc.tbc true = true → (∀ r ∈ s0.order.reds, r.ctx = g.ctx → id < r.ord) →
      (∀ w tr s1 b, s0.unitWalk g.ctx va k .read = .ok w tr → s0.unitRead (.unit id) g.ctx va k = .ok s1 b →
        s1.grid grid = s0.grid grid →
        ∃ t c', exec (.collectiveContribute grid) s = .next t ∧ t.mem = s1.mem ∧ t.order = s1.order ∧ collOf t grid = some c' ∧
          c'.id = some id ∧ c'.src = c.src ++ b ∧ c'.srcLines = keyAdd c.srcLines (lineOf (tr.addr (va.toNat % 2 ^ 57))) ∧
          c'.vals = (if (c.src ++ b).length = n then some (c.desc.elems (c.src ++ b)) else none) ∧
          ({ c' with id := c.id, src := c.src, srcLines := c.srcLines, vals := c.vals, since := c.since, last := c.last } : Coll) = c) ∧
      (∀ s1 cause l, s0.unitRead (.unit id) g.ctx va k = .fault s1 cause l → s1.grid grid = s0.grid grid →
        ∃ t, exec (.collectiveContribute grid) s = .next t ∧
          collOf t grid = some { c with id := some id, finished := true, failed := true }))) ∧
  (∀ (c : Coll) (pl : Place3) (v : List Int) (val : Nat → List Int), c.vals = some v → pl.pos = 0 → c.desc.kind ∈ [1, 2] →
    (∀ q ∈ childrenOf 0 pl.ranks, (c.taken.find? fun x => x.1 == q) = some (q, some (val q))) →
    c.outcome pl = some [(0, c.desc.bytes ((childrenOf 0 pl.ranks).foldl (fun a q => combVals c.desc a (val q)) v))]) ∧
  ∀ (s : State) (grid : Nat) (g : Grid) (c : Coll) (id : Nat), s.grid grid = some g → g.coll = some c → c.id = some id →
    c.finished = false → c.early = [] → s.running g.ctx →
    (c.dst = none → c.outcome (s.collPlace g.ctx c.desc) = none → exec (.collectiveFinish grid) s = .next s) ∧
    (∀ o b s1 lines, c.dst = none → c.outcome (s.collPlace g.ctx c.desc) = some [(o, b)] →
      s.dstLinesOf g.ctx (b.length / 128 + 2) (c.desc.dst + BitVec.ofNat 64 o) b = .ok s1 lines → s1.grid grid = s.grid grid →
      ∃ t, exec (.collectiveFinish grid) s = .next t ∧ t.mem = s1.mem ∧ t.order = s1.order ∧
        collOf t grid = some { c with dst := some lines, finished := lines.isEmpty }) ∧
    ∀ line mt a y more rest, c.dst = some ((line, mt, (a, y) :: more) :: rest) → s.tokens g.ctx c.desc.tbc true = true →
      let bytes := (a, y) :: more
      s.blockedFor (.unit id) a bytes.length true = false → s.barred (.unit id) a mt = false →
      s.allowed (s.targetAt a mt) g.ctx a bytes.length .write → Settled s →
      ∃ t, exec (.collectiveFinish grid) s = .next t ∧ t.mem = bytes.foldl (fun m x => memPut m x.1 x.2) s.mem ∧ t.order = s.order ∧
        collOf t grid = some { c with dst := some rest, finished := rest.isEmpty }

/-- R339 to R341: in free mode a position that waited TIMEOUT cycles takes its missing children as absent and counts in FLUSH; a message
from one of them is refused and counts in LATE. In deterministic mode the watchdog, or another rank's abort, ends the collective and
counts in HUNG. The counts stop at their greatest values. A message of a flushed child counts once in LATE, also after its grid has gone
(the model's choice, log 60). -/
def Says.CollectiveTimeouts : Prop :=
  (∀ (x : Word), (cstatUp x 0 12).toNat % 2 ^ 12 = min 4095 (x.toNat % 2 ^ 12 + 1) ∧
    (cstatUp x 12 12).toNat / 2 ^ 12 % 2 ^ 12 = min 4095 (x.toNat / 2 ^ 12 % 2 ^ 12 + 1) ∧
    (cstatUp x 24 8).toNat / 2 ^ 24 = min 255 (x.toNat / 2 ^ 24 + 1)) ∧
  (∀ (s : State) (port k grid q ctx : Nat) (v : List Int) (x : Context), s.grid grid = none → grid < s.sched.nextId → s.ctx ctx = some x → s.running ctx →
    s.ctxs.findSome? (fun p => (p.2.flushed.find? fun y => y.1 == grid && y.2.1 == q).map fun y => (p.1, y.2.2)) = some (ctx, 0) →
    ∃ t y, exec (.collectiveMessage grid ⟨port, k, .up q v⟩) s = .next t ∧ t.mem = s.mem ∧ t.ctx ctx = some y ∧
      y.cstat = cstatUp x.cstat 0 12 ∧ ∀ z, z ∈ y.flushed ↔ z ∈ x.flushed ∧ ¬(z.1 = grid ∧ z.2.1 = q)) ∧
  ∀ (s : State) (port k grid : Nat) (g : Grid) (c : Coll) (x : Context), s.grid grid = some g → grid < s.sched.nextId → g.coll = some c → c.started = true →
    c.finished = false → c.early = [] → s.ctx g.ctx = some x → s.running g.ctx →
    let pl := s.collPlace g.ctx c.desc
    let miss := (childrenOf pl.pos pl.ranks).filter fun q => !c.taken.any (·.1 == q)
    let counts := fun (t : State) (lo width : Nat) => (t.ctx g.ctx).map (·.cstat) = some (cstatUp x.cstat lo width)
    (g.det = false → c.desc.timeout ≠ 0 → c.desc.kind ≤ 2 → c.vals.isSome → miss ≠ [] → c.since + c.desc.timeout ≤ s.dev.clk →
      ∃ t, exec (.collectiveTimeoutFlush grid) s = .next t ∧ t.mem = s.mem ∧ counts t 12 12 ∧
        (t.ctx g.ctx).map (·.flushed) = some (x.flushed ++ miss.map fun q => (grid, q, c.desc.event)) ∧
        collOf t grid = some { c with taken := c.taken ++ miss.map (fun q => (q, none)), last := s.dev.clk }) ∧
    (∀ q v, q ∈ childrenOf pl.pos pl.ranks → (c.taken.find? fun y => y.1 == q) = some (q, none) → v.length = c.desc.count →
      c.desc.kind ≤ 2 → c.desc.event = 0 →
      ∃ t, exec (.collectiveMessage grid ⟨port, k, .up q v⟩) s = .next t ∧ t.mem = s.mem ∧ counts t 0 12 ∧ collOf t grid = some c) ∧
    (g.det = true ∧ c.last + x.watchdog ≤ s.dev.clk →
      ∃ t, exec (.collectiveWatchdog grid) s = .next t ∧ t.mem = s.mem ∧ counts t 24 8 ∧
        collOf t grid = some { c with finished := true, failed := true }) ∧
    (g.det = false ∨ s.dev.clk < c.last + x.watchdog → exec (.collectiveWatchdog grid) s = .next s) ∧
    ∃ t, exec (.collectiveAbort grid) s = .next t ∧ t.mem = s.mem ∧ counts t 24 8 ∧
      collOf t grid = some { c with finished := true, failed := true }

/-- R335, R336 and R338 to R341: a collective contributes, combines along its tree and writes its result, or flushes, or ends
with COLLHUNG. -/
def Obligations.CollectiveExchange : Prop :=
  Says.CollectiveExchange ∧ Says.CollectiveTimeouts

/-- R337: the target ranks of a packet are those whose coordinates the record names, all along a replicated axis. A packet whose record is
bad fails, its handle FAULTED; a get within this rank lands the box and makes the handle FULL, and a put writes the box and makes it
FREE; the end adds to COMP. That a packet runs as one move and spends the tokens of its lines at once is the model's choice (log 60). -/
def Obligations.CollectivePackets : Prop :=
  (∀ (x : Shape) (d : Domain) (l : List Nat), targets x d = some l →
    l.Pairwise (· < ·) ∧ ∀ r, r ∈ l ↔ r < d.gx * d.gy * d.gz ∧ (x.rep % 2 = 1 ∨ r % d.gx = x.cx) ∧
      (x.rep / 2 % 2 = 1 ∨ r / d.gx % d.gy = x.cy) ∧ (x.rep / 4 % 2 = 1 ∨ r / (d.gx * d.gy) = x.cz)) ∧
  ∀ (s s1 : State) (x : CollPacket) (answer : RemoteAnswer) (d : Domain) (ctx : Context) (b : List Byte) (e : HandleEntry)
    (bd : Binding), s.work.packets.find? (·.id == x.id) = some x → s.running x.ctx → s.tokens x.ctx x.packet.tbc true = true →
    s.collEarly x = false → s.ctx x.ctx = some ctx → ctx.domain = some d → s.unitReadLong .other x.ctx x.packet.shape 2 128 = .ok s1 b → x.handle = some e →
    e.bound = some bd →
    let stands := fun (s' : State) => s'.handle e.ctx e.core e.k = some e ∧
      ∃ p ∈ s'.groups, p.2.id.grid = bd.grid ∧ p.2.id.team = bd.team ∧ p.2.ended = false
    stands s1 →
    let sh := Shape.ofBytes b
    let ends := fun (t s' : State) (st : HState) => t.mem = s'.mem ∧ t.order = s'.order ∧
      t.work.packets = s'.work.packets.filter (·.id != x.id) ∧
      (t.handle e.ctx e.core e.k).bind (·.bound) = some { bd with state := st } ∧
      (st ≠ .faulted → t.share bd.grid bd.team bd.shareCore = s'.share bd.grid bd.team bd.shareCore)
    let done := fun (s' : State) (st : HState) =>
      let u : State := { s' with work := { s'.work with packets := s'.work.packets.filter (·.id != x.id) } }
      let mid := if st = .faulted then u.faultHandle x.handle (if x.packet.dir = 1 then some [] else none) else u.setHandle e st
      (x.packet.comp = 0 → ∃ t, exec (.collectivePacketTake x.id answer) s = .next t ∧ ends t s' st) ∧
      (x.packet.comp ≠ 0 → ∀ v b, mid.unitAdd .other x.ctx x.packet.comp (if st = .faulted then 1 + 2 ^ 32 else 1) = .ok v b →
        exec (.collectivePacketTake x.id answer) s = .next v.reap)
    (collShapeBad b sh x.packet.dir = true → done s1 .faulted) ∧
    (collShapeBad b sh x.packet.dir = false → sh.size ≤ bd.len → targets sh d = some [d.rank] →
      let sp := s1.spendFor x.ctx x.packet.tbc true sh.size
      (x.packet.dir = 1 → ∀ s2 box y, sp.localGet x sh = .ok s2 box → box.length = sh.size →
        stands s2 → s2.share bd.grid bd.team bd.shareCore = some y → s2.landWaits x.handle = false →
        done (s2.landGet x.handle box) .full ∧ (s2.landGet x.handle box).mem = s2.mem ∧
          (s2.landGet x.handle box).share bd.grid bd.team bd.shareCore =
            some (({ y with bytes := memPuts y.bytes bd.ofs box } : Share).land (linesOf bd.ofs bd.len))) ∧
      (x.packet.dir ≠ 1 → ∀ s2 r, sp.localPut x sh d.rank (sp.spadRead bd.grid bd.team bd.shareCore bd.ofs sh.size) = .ok s2 r →
        stands s2 → done s2 .free))

/-! ### Contexts, debugging, errors and the device (R11, R60-R72, R96-R102, R110, R357-R372, R383-R392) -/

/-- Nothing of a context is left. -/
structure Gone (t : State) (ctx : Nat) : Prop where
  context : t.ctx ctx = none
  groups : ∀ p ∈ t.groups, p.2.id.ctx ≠ ctx
  grids : ∀ p ∈ t.grids, p.2.ctx ≠ ctx
  teams : ∀ x ∈ t.teams, x.ctx ≠ ctx
  handles : ∀ x ∈ t.work.handles, x.ctx ≠ ctx
  units : (∀ x ∈ t.work.copies, x.ctx ≠ ctx) ∧ (∀ x ∈ t.work.packets, x.ctx ≠ ctx) ∧ (∀ x ∈ t.work.exchanges, x.ctx ≠ ctx) ∧
    (∀ x ∈ t.work.ports, x.ctx ≠ ctx) ∧ ∀ x ∈ t.work.moved, x.ctx ≠ ctx
  access : ∀ target, smGet [] t.dev.access (tableKey ctx target) = []
  spared : ctx ∉ t.dev.doomed

/-- R96, R97, R118, R215, R340 and R383 to R385: a new context starts with its counters zero and its completion queue registered. Its
end leaves nothing of it, changes no register of another context's group, and, when no write of it is on its way and the journal has no
open entry, no byte of memory; a context whose grids have all retired and whose units are idle retires once its paths are empty, and
any other is killed. -/
def Says.ContextsBeginAndEnd : Prop :=
  (∀ (s : State) (r : CtxReq),
    let ring := leVal (s.readBytes (r.completion + 0x18) 8)
    let log2 := (s.readByte (r.completion + 0x20)).toNat
    (s.ctx r.id ≠ none ∨ 4096 ≤ r.id ∨ r.root % 4096 ≠ 0 ∨ r.watchdog < 1250000 ∨ 75000000000 < r.watchdog →
      exec (.contextCreate r) s = .next s) ∧
    (s.awake = true → r.id < 4096 → s.ctx r.id = none → r.root % 4096 = 0 → 1250000 ≤ r.watchdog → r.watchdog ≤ 75000000000 →
      (s.dev.partitions.getD (smGet 0 s.dev.partOf r.id) []) ≠ [] → areaOk r.swapArea = true → areaOk r.saveArea = true →
      Settled s → s.blocked r.completion 64 false = false → s.runtimeMay r.completion 64 .read = true → r.completion % 64 = 0 → ring % 64 = 0 → 4 ≤ log2 → log2 ≤ 16 →
      ∃ t c, exec (.contextCreate r) s = .next t ∧ t = { s with ctxs := t.ctxs } ∧ t.ctx r.id = some c ∧
        (∀ k, k ≠ r.id → t.ctx k = s.ctx k) ∧ (c.srKey, c.root, c.swaptmo, c.watchdog, c.run) = (r.srKey, r.root, r.swaptmo, r.watchdog, .running) ∧
        (∀ i, smGet 0 c.twc i = 0) ∧ c.cstat = 0 ∧ c.queues = [] ∧ c.images = [] ∧ c.domain = none ∧
        c.completion = some ⟨0, 0, false, r.completion, BitVec.ofNat 64 ring, log2, false⟩)) ∧
  (∀ (s : State) (ctx : Nat) (c : Context), s.ctx ctx = some c →
    ∃ t, exec (.contextKill ctx) s = .next t ∧ Gone t ctx ∧ (∀ k, k ≠ ctx → t.ctx k = s.ctx k) ∧ t.dev.journal.opened = none ∧
      (∀ k g, s.group k = some g → g.id.ctx ≠ ctx → ∃ g', t.group k = some g' ∧ ∀ r, g'.reg r = g.reg r) ∧
      ((∀ w ∈ s.order.tc, w.ctx ≠ ctx) → (∀ q ∈ s.order.qch, ∀ a ∈ q.2, a.ctx ≠ ctx) → (∀ r ∈ s.order.reds, r.ctx ≠ ctx) →
        (∀ a ∈ s.order.h, a.ctx ≠ ctx) → s.order.partials = [] → s.dev.journal.opened = none → t.mem = s.mem)) ∧
  ∀ (s : State) (ctx : Nat) (c : Context), s.ctx ctx = some c →
    (s.allRetired ctx c = false → exec (.contextDestroy ctx) s = exec (.contextKill ctx) s) ∧
    (s.allRetired ctx c = true → s.unitsBusy ctx c = true → exec (.contextDestroy ctx) s = .next s) ∧
    (s.allRetired ctx c = true → s.unitsBusy ctx c = false → ∀ s1, s.flushCtx ctx = .made s1 →
      ∃ t, exec (.contextDestroy ctx) s = .next t ∧ Gone t ctx ∧ (∀ k, k ≠ ctx → t.ctx k = s1.ctx k) ∧ t.mem = s1.mem)

/-- R137, R164, R328, R358, R363 and R364: pre-emption stops issuing for the context and writes the journal's open entry; a save, once
its paths are empty, its producers have written back and the end-of-pass work of its regions is done, moves its groups off their
slots with their registers and PCs, and writes its save area; a restore puts them back when everything fits at once and no group
woken earlier comes first, and waits else. The model's choices: what a save leaves in the paths (log 92), an owner queue beyond its
size (log 93), the place among the groups that return (log 94), and free bytes in the area (log 19). -/
def Says.ContextsSaveAndRestore : Prop :=
  (∀ (s : State) (ctx : Nat) (c : Context), s.ctx ctx = some c → c.run = .running →
    ∃ t x, exec (.preemptRequest ctx) s = .next t ∧ t.ctx ctx = some x ∧ x.run = .stopped ∧
      (∀ k, k ≠ ctx → t.ctx k = s.ctx k) ∧ (∀ k ∈ t.sched.picks, ∃ g, t.group k = some g ∧ g.id.ctx ≠ ctx) ∧
      t.dev.journal.opened = none ∧
      (s.dev.journal.opened = none → t.mem = s.mem ∧ ∀ k g, s.group k = some g → g.pending = none → t.group k = some g)) ∧
  (∀ (s s1 : State) (ctx : Nat) (c : Context), s.ctx ctx = some c → c.run = .stopped → ctx ∉ s.dev.doomed →
    s.flushCtx ctx true = .made s1 →
    let s2 := s1.writeBackAll ctx
    let due := ∃ tm ∈ s2.teams, tm.ctx = ctx ∧ s2.passDue tm = true
    (s2.producersReady ctx = false ∨ due → exec (.contextSave ctx) s = .next (s.doomsOf s2)) ∧
    (s2.producersReady ctx = true → ¬due → Settled s2 →
      (∀ tm ∈ s2.teams, tm.ctx = ctx → ∀ r, tm.region = some r → r.st ≠ .opened) →
      ∃ t x, exec (.contextSave ctx) s = .next t ∧ t.ctx ctx = some x ∧ x.run = .saved ∧ t.order = s2.order ∧
        (∀ i, i < c.saveArea.base ∨ c.saveArea.base + c.saveArea.size ≤ i → memByte t.mem i = memByte s2.mem i) ∧
        (∀ k g, s2.group k = some g → ∃ g', t.group k = some g' ∧ (∀ r, g'.reg r = g.reg r) ∧
          (g.id.ctx = ctx → g'.place = (if g.place = .slot then .saved else g.place) ∧ g'.fibres = g.fibres)) ∧
        ∀ k, (∀ b ∈ (t.core k).bins, b.ctx ≠ ctx) ∧ ∀ p ∈ (t.core k).pq, p.ctx ≠ ctx)) ∧
  ∀ (s : State) (ctx : Nat) (c : Context), s.ctx ctx = some c → c.run = .saved ∨ c.run = .restoring →
    let first := (s.modCtx ctx fun c => { c with run := .restoring }).returnsFirst ctx
    (s.enginesFree c = true → s.restoreFits ctx c = true → first = true →
      ∃ t x, exec (.contextRestore ctx) s = .next t ∧ t.ctx ctx = some x ∧ x.run = .running ∧ x.saved = [] ∧ t.mem = s.mem ∧
        ∀ k g, s.group k = some g → ∃ g', t.group k = some g' ∧ (∀ r, g'.reg r = g.reg r) ∧
          (g.id.ctx = ctx → g.place = .saved → g'.place = .slot)) ∧
    (s.enginesFree c = false ∨ s.restoreFits ctx c = false ∨ first = false →
      ∃ t x, exec (.contextRestore ctx) s = .next t ∧ t.ctx ctx = some x ∧ x.run = .restoring ∧ t.groups = s.groups ∧ t.mem = s.mem)

/-- R96, R97, R118, R137, R358, R363, R364 and R383 to R385: a context begins with its completion queue registered, keeps its
groups through save and restore, and leaves nothing at its end. -/
def Obligations.Contexts : Prop :=
  Says.ContextsBeginAndEnd ∧ Says.ContextsSaveAndRestore

/-- R11, R102, R109, R110, R118, R221, R222, R233 and R333: the runtime registers a queue by its header, whose QNUM is written where the
runtime's own windows reach, grants a context reserved slots, joins it to a domain and gives whole dies to a partition; a request that
breaks a rule changes nothing, and one that a target refuses is logged. A completion queue is registered again while no launch of
the context is pending. The model's choices: RING is a virtual address (log 42), the runtime's id and the target of its accesses
(log 68), and a copy queue's fault fields that start at zero (log 30). -/
def Says.Registrations : Prop :=
  (∀ (s : State) (ctx num header : Nat) (copy : Bool) (cluster : Nat) (c : Context), s.ctx ctx = some c → Settled s → num < 64 →
    s.blocked header 64 true = false → (copy = true → cluster < 24 ∧ s.engineQueues c.part cluster ctx num < 64) →
    let ring := leVal (s.readBytes (header + 0x18) 8)
    let log2 := (s.readByte (header + 0x20)).toNat
    let go := if copy then Instr.queueRegister (.copy ctx cluster num header) else .queueRegister (.launch ctx num header)
    (s.runtimeMay header 64 .both = false → exec go s = .next (s.refuse .slice Config.runtimeId header .both)) ∧
    (s.runtimeMay header 64 .both = true → header % 64 = 0 → ring % 64 = 0 → 4 ≤ log2 → log2 ≤ 16 →
      ∃ t, exec go s = .next t ∧ t.order = s.order ∧
        t.queue ctx num copy = some ⟨num, if copy then cluster else 0, copy, header, BitVec.ofNat 64 ring, log2, false⟩ ∧
        (∀ n k, ¬(n = num ∧ k = copy) → t.queue ctx n k = s.queue ctx n k) ∧
        t.mem = memPuts s.mem (header + 0x21) (BitVec.ofNat 8 num :: if copy then List.replicate 30 0 else [])) ∧
    (s.runtimeMay header 64 .both = true → ¬(header % 64 = 0 ∧ ring % 64 = 0 ∧ 4 ≤ log2 ∧ log2 ≤ 16) → exec go s = .next s)) ∧
  (∀ (s : State) (ctx header : Nat) (c : Context), s.ctx ctx = some c → Settled s → s.blocked header 64 false = false →
    let ring := leVal (s.readBytes (header + 0x18) 8)
    let log2 := (s.readByte (header + 0x20)).toNat
    (s.launchPending ctx c = true → exec (.queueRegister (.completion ctx header)) s = .next s) ∧
    (s.launchPending ctx c = false → s.runtimeMay header 64 .read = false →
      exec (.queueRegister (.completion ctx header)) s = .next (s.refuse .slice Config.runtimeId header .read)) ∧
    (s.launchPending ctx c = false → s.runtimeMay header 64 .read = true → header % 64 = 0 → ring % 64 = 0 → 4 ≤ log2 → log2 ≤ 16 →
      ∃ t, exec (.queueRegister (.completion ctx header)) s = .next t ∧ t.mem = s.mem ∧
        (t.ctx ctx).bind (·.completion) = some ⟨0, 0, false, header, BitVec.ofNat 64 ring, log2, false⟩)) ∧
  (∀ (s : State) (ctx slots kib : Nat) (c : Context), s.ctx ctx = some c →
    ∃ t, exec (.reservationGrant ctx slots kib) s = .next t ∧ t = { s with ctxs := t.ctxs } ∧ (∀ k, k ≠ ctx → t.ctx k = s.ctx k) ∧
      t.ctx ctx = some (if 1 ≤ slots ∧ slots ≤ 8 ∧ kib ≤ 16 then { c with resSlots := slots, resKib := kib } else c)) ∧
  (∀ (s : State) (ctx rank gx gy gz : Nat) (c : Context), s.ctx ctx = some c →
    let n := gx * gy * gz
    let may := 1 ≤ n ∧ n ≤ 1024 ∧ rank < n ∧ ∀ p ∈ s.ctxs, p.1 ≠ ctx → p.2.domain = none
    ∃ t, exec (.domainJoin ctx rank gx gy gz) s = .next t ∧ t = { s with ctxs := t.ctxs } ∧ (∀ k, k ≠ ctx → t.ctx k = s.ctx k) ∧
      (may → t.ctx ctx = some { c with domain := some ⟨rank, gx, gy, gz⟩ }) ∧ (¬may → t = s)) ∧
  ∀ (s : State) (dies ctxs : List Nat), dies.Nodup → (∀ d ∈ dies, d < 8) → dies.length ∈ [1, 2, 4, 8] →
    (∀ c ∈ ctxs, s.placed c = false) → (∀ p ∈ s.ctxs, p.1 ∉ ctxs → ∀ d ∈ s.dev.partitions.getD p.2.part [], d ∉ dies) →
    ∃ t, exec (.partitionAssign dies ctxs) s = .next t ∧ t.mem = s.mem ∧ t.groups = s.groups ∧
      t.dev.partitions = s.dev.partitions.map (fun p => if ∃ d ∈ p, d ∈ dies then [] else p) ++ [dies] ∧
      ∀ c, smFind t.dev.partOf c = (if c ∈ ctxs then some s.dev.partitions.length else smFind s.dev.partOf c) ∧
        t.ctx c = (s.ctx c).map fun x => if c ∈ ctxs then { x with part := s.dev.partitions.length } else x

/-- R357, R361, R365 to R369 and R373: a debugger's halt request takes effect at a safe point before an instruction issues; the program
buffer of a core takes up to sixteen words for a halted group, and the debugger may write DBGDATA of any group of its context; once
the buffer is empty, the group issues its halted instruction, or after `brk` the next one. A context has four watchpoints. A scheduler tags every instruction that is
picked when its count ends, and the record of a tagged instruction has its distance from the last safe point. -/
def Obligations.Debugging : Prop :=
  (∀ (s : State) (ctx index interval : Nat) (b : Bool) (w : Option Watchpoint) (c : Context), s.ctx ctx = some c →
    let becomes := fun (i : Instr) (c' : Context) => ∃ t, exec i s = .next t ∧ t = { s with ctxs := t.ctxs } ∧ t.ctx ctx = some c' ∧
      ∀ k, k ≠ ctx → t.ctx k = s.ctx k
    becomes (.debuggerAttach ctx b) { c with debugger := some b } ∧
    becomes (.profilingEnable ctx interval)
      (if 256 ≤ interval ∧ interval ≤ 2 ^ 20 then { c with profile := some interval } else c) ∧
    ∃ c', becomes (.watchpointSet ctx index w) c' ∧ { c' with watch := c.watch } = c ∧
      (∀ i, i ≠ index → smFind c'.watch i = smFind c.watch i) ∧
      smFind c'.watch index = if index < 4 then
        match w with
        | none => none
        | some x => if (∃ n ∈ List.range 22, 2 ≤ n ∧ x.size = 2 ^ n) ∧ x.base % x.size = 0 ∧ (x.read ∨ x.write) then some x
          else smFind c.watch index
        else smFind c.watch index) ∧
  (∀ (s : State) (gid : Nat) (g : Group), s.group gid = some g → g.ended = false → s.debugged g.id.ctx = true →
    ∃ t, exec (.debugHaltRequest gid) s = .next t ∧ SameOutside gid s t ∧ Quiet s t ∧ t.group gid = some
      (if g.halt = none ∧ g.wait = none ∧ g.pending = none ∧ g.place = .slot ∧ s.sfuHolds gid g.id.core = false ∧ s.atSafePoint g = true then
        { g with haltReq := false, halt := some ⟨[], none, false⟩ } else { g with haltReq := true })) ∧
  (∀ (s : State) (gid : Nat) (g : Group) (data : Option DWord), s.group gid = some g →
    (s.debugged g.id.ctx = true → ∃ t, exec (.programBufferStart gid ⟨[], data⟩) s = .next t ∧ SameOutside gid s t ∧ Quiet s t ∧
      t.group gid = some { g with stat := { g.stat with dbgdata := data.getD g.stat.dbgdata } }) ∧
    (s.debugged g.id.ctx = false → exec (.programBufferStart gid ⟨[], data⟩) s = .next s)) ∧
  (∀ (s : State) (gid : Nat) (g : Group) (h : Halt) (words : List IWord96) (data : Option DWord) (own : DWord), s.group gid = some g →
    g.halt = some h → g.pc = some own → words ≠ [] →
    let may := g.place = .slot ∧ s.bufferUsed g.id.core = false ∧ words.length ≤ 16
    ((may → ∃ t, exec (.programBufferStart gid ⟨words, data⟩) s = .next t ∧ SameOutside gid s t ∧ Quiet s t ∧
        t.group gid = some { g with
          halt := some { h with buffer := words, report := none }
          stat := { g.stat with dbgdata := data.getD g.stat.dbgdata } }) ∧
      (¬may → exec (.programBufferStart gid ⟨words, data⟩) s = .next s)) ∧
    (h.buffer ≠ [] → exec (.debugResume gid) s = .next s) ∧
    (h.buffer = [] → ∃ t g', exec (.debugResume gid) s = .next t ∧ SameOutside gid s t ∧ Quiet s t ∧ t.group gid = some g' ∧
      (h.skip = false → g' = { g with halt := none }) ∧
      (h.skip = true → (∀ f ∈ g.fibres, f.held = false) → g' = { g with
        halt := none
        fibres := g.fibres.map fun f => if f.lane ∈ g.batch own then { f with pc := own + 12 } else f }))) ∧
  (∀ (s : State) (gid : Nat) (g : Group) (own : DWord) (gr : Grid) (n left : Nat), s.group gid = some g → g.pc = some own →
    (s.ctx g.id.ctx).bind (·.profile) = some n → s.grid g.id.grid = some gr → smFind (s.core g.id.core).tagIn g.id.ctx = some left →
    let k := s.core g.id.core
    let lanes := (g.decodeLanes (guardOf (gr.wordAt g.id.textLo own.toNat)) (g.batch own)).length
    (1 < left → (s.countTag gid).core g.id.core = { k with tagIn := smSet k.tagIn g.id.ctx (left - 1) }) ∧
    (left ≤ 1 → ∃ next, n - n / 2 ≤ next ∧ next ≤ n + n / 2 ∧ (s.countTag gid).core g.id.core = { k with
      tagIn := smSet k.tagIn g.id.ctx next
      tagged := k.tagged ++ [⟨g.id.ctx, gr.kernel.index, own.toNat, lanes, gr.kernel.lastSafePoint own.toNat⟩] })) ∧
  (∀ (k : Kernel) (pc : Nat) (p : SafePoint), p ∈ k.safepts → p.pc ≤ pc → (∀ q ∈ k.safepts, q.pc ≤ pc → q.pc ≤ p.pc ∧ (q.pc = p.pc → q = p)) →
    k.lastSafePoint pc = some p) ∧
  ∀ (s : State) (core : Nat) (m : ProfileMeasure) (x : Tagged) (rest : List Tagged) (c : Context), (s.core core).tagged = x :: rest →
    s.ctx x.ctx = some c →
    ∃ t b, exec (.profileSample core m) s = .next t ∧ t.ctx x.ctx = some { c with samples := c.samples ++ [b] } ∧
      t.core core = { s.core core with tagged := rest } ∧ b.length = 32 ∧ b.take 2 = leOf 2 x.kernel ∧ (b.drop 20).take 2 = leOf 2 x.lanes ∧
      ∀ p, x.safept = some p → (b.drop 2).take 6 = leOf 2 ((x.pc - p.pc) / 12) ++ leOf 4 p.ordinal

/-- R386 to R390: an event whose fields are as the tables give them opens an entry, joins the open one that it is like within 2^20 cycles,
or else first has it written; an entry is one write of 64 bytes, whose first 16 bytes of SHA-256 the next entry carries; the open
entry is written when its count is full, and 2^20 cycles after its time; a full journal counts the event as lost; JSTAT gives NEXT
and LOST; and an uncorrectable error in M stays there and dooms what it reaches, while one elsewhere kills the context that it
reaches, as the machine kills a doomed one before all else. The model's choices: the event names its victim (log 78), an error stays
in its words until they are written whole (log 71), the journal's base (log 7), and SHA-256 as its standard has it (log 22). -/
def Obligations.ErrorsAndJournal : Prop :=
  (∀ m : List Byte, (sha256 m).length = 32) ∧
  (∀ (s : State) (r : ErrorReq), errorOk r = false → exec (.errorEvent r) s = .next s) ∧
  (∀ (s : State) (r : ErrorReq), errorOk r = true → r.synd ≠ 15 → Settled s →
    let j := s.dev.journal
    let same := fun (t : State) => { t.dev with journal := j, poison := s.dev.poison } = s.dev ∧ t.order = s.order ∧
      t.ctxs = s.ctxs ∧ t.groups.map (·.1) = s.groups.map (·.1)
    (j.opened = none → j.next < 1048576 → ∃ t, exec (.errorEvent r) s = .next t ∧ same t ∧ t.mem = s.mem ∧
      t.dev.journal = { j with opened := some ⟨s.dev.clk, r.unit, r.kind, r.synd, 1, r.loc⟩ }) ∧
    (j.opened = none → 1048576 ≤ j.next → ∃ t, exec (.errorEvent r) s = .next t ∧ same t ∧ t.mem = s.mem ∧
      t.dev.journal = { j with lost := min (j.lost + 1) 4294967295 }) ∧
    ∀ e, j.opened = some e →
      let like := (e.unit, e.kind, e.synd, e.loc) = (r.unit, r.kind, r.synd, r.loc) ∧ s.dev.clk < e.time + 2 ^ 20
      let b := fun (count : Nat) => leOf 8 j.next ++ leOf 8 e.time ++ leOf 2 e.unit.toNat ++ leOf 2 e.kind.toNat ++ leOf 2 e.synd.toNat ++
        leOf 2 count ++ leOf 8 e.loc.toNat ++ j.chain ++ List.replicate 16 0
      let written := fun (count : Nat) (o : Option OpenEntry) =>
        { j with next := j.next + 1, chain := (sha256 (b count)).take 16, opened := o }
      let wrote := fun (t : State) (count : Nat) => t.mem = memPuts s.mem (journalBase + 64 * j.next) (b count)
      (like → e.count + 1 < 65535 → ∃ t, exec (.errorEvent r) s = .next t ∧ same t ∧ t.mem = s.mem ∧
        t.dev.journal = { j with opened := some { e with count := e.count + 1 } }) ∧
      (like → 65535 ≤ e.count + 1 → ∃ t, exec (.errorEvent r) s = .next t ∧ same t ∧ wrote t (e.count + 1) ∧
        t.dev.journal = written (e.count + 1) none) ∧
      (¬like → j.next + 1 < 1048576 → ∃ t, exec (.errorEvent r) s = .next t ∧ same t ∧ wrote t e.count ∧
        t.dev.journal = written e.count (some ⟨s.dev.clk, r.unit, r.kind, r.synd, 1, r.loc⟩)) ∧
      (s.dev.clk < e.time + 2 ^ 20 → exec .journalEntryTimeout s = .next s) ∧
      (e.time + 2 ^ 20 ≤ s.dev.clk → ∃ t, exec .journalEntryTimeout s = .next t ∧ same t ∧ wrote t e.count ∧
        t.dev.journal = written e.count none)) ∧
  (∀ (s : State) (r : ErrorReq), errorOk r = true → r.synd = 15 →
    (r.kind = 1 → ∃ t, exec (.errorEvent r) s = .next t ∧ t.ctxs = s.ctxs ∧ r.loc.toNat / 32 ∈ t.dev.poison) ∧
    (r.kind = 2 → ∃ t, exec (.errorEvent r) s = .next t ∧ t.ctxs = s.ctxs ∧ ∀ i < 4, r.loc.toNat / 32 + i ∈ t.dev.poison) ∧
    ∀ ctx, r.victim = some ctx → r.kind ≠ 1 → r.kind ≠ 2 → ∃ t, exec (.errorEvent r) s = .next t ∧ t.ctx ctx = none) ∧
  (∀ (s : State) (ctx : Nat) (rest : List Nat), s.dev.doomed = ctx :: rest → s.defaultMove = some (.contextKill ctx)) ∧
  ∀ s : State, s.dev.journal.next < 2 ^ 21 → s.dev.journal.lost < 2 ^ 32 →
    s.jstat.toNat = s.dev.journal.next + 2 ^ 32 * s.dev.journal.lost

/-- R99, R100, R188, R221, R224, R370, R372 and R387 to R392: power-on leaves the machine as at reset, but for the provisioning state; a
reset writes the journal's open entry, starts CLK at 0, stops everything and puts every page in device bias, and keeps the journal, the
errors in memory and the provisioning state; the provisioning state takes a write only in reset, under the strap; the access table of a
master at a target takes aligned windows, from the firmware only inside the provisioned or the standing ones, and the firmware lowers
the power cap at any time; format windows do not overlap; the clock is lowered and restored; and a core samples lines into its 32
tag registers, which count in the histograms. The model's choices: what a power-on and a reset keep (log 5), the reset line and the
strap as arguments (log 25), and the journal's base in the check of windows (log 7). -/
def Obligations.DeviceManagement : Prop :=
  (∀ (s : State) (held strap : Bool), ∃ t, exec (.powerOn held strap) s = .next t ∧ t.mem = [] ∧ t.groups = [] ∧ t.grids = [] ∧ t.ctxs = [] ∧
    t.teams = [] ∧ t.cores = [] ∧ t.work = State.reset.work ∧ t.order = State.reset.order ∧ t.sched.picks = [] ∧
    t.dev = { State.reset.dev with prov := s.dev.prov, inReset := held, strap := strap }) ∧
  (∀ (s : State) (held : Bool), ∃ t, exec (.deviceReset held) s = .next t ∧ t.groups = [] ∧ t.grids = [] ∧ t.ctxs = [] ∧ t.teams = [] ∧
    t.cores = [] ∧ t.work = State.reset.work ∧ t.order = State.reset.order ∧ t.sched.picks = [] ∧ t.dev.clk = 0 ∧ t.dev.bias = [] ∧
    t.mem = s.writeJournal.mem ∧ t.dev.journal = s.writeJournal.dev.journal ∧ t.dev.poison = s.writeJournal.dev.poison ∧
    t.dev.journal.opened = none ∧ (s.dev.journal.opened = none → t.mem = s.mem ∧ t.dev.journal = s.dev.journal) ∧
    t.dev.prov = s.dev.prov ∧ t.dev.strap = s.dev.strap ∧ t.dev.inReset = held) ∧
  (∀ (s : State) (cap : Nat), exec (.provisioningWrite (.firmware cap)) s = .next
    { s with dev := { s.dev with prov := { s.dev.prov with powerCap := min cap 2600 } } }) ∧
  (∀ (s : State) (p : Provision), exec (.provisioningWrite (.module p)) s = .next
    (if s.dev.inReset = true ∧ s.dev.strap = true ∧ p.ports.length ≤ 4 ∧ ∀ x ∈ p.ports, x.1 < 18 then
      { s with dev := { s.dev with prov := { p with powerCap := min p.powerCap 2600 } } } else s)) ∧
  (∀ s : State, exec .clockLower s = .next { s with dev := { s.dev with fullClock := false } } ∧
    exec .clockRestore s = .next { s with dev := { s.dev with fullClock := true } }) ∧
  (∀ (s : State) (r : AccessReq),
    let l := r.windows ++ if r.byFirmware then [] else s.imageWindows r.master r.target
    let ok := l.length ≤ 64 ∧ ∀ w ∈ r.windows, w.lo % 4096 = 0 ∧ w.hi % 4096 = 0 ∧ w.lo < w.hi ∧ (w.read ∨ w.write) ∧
      (w.write → ¬(w.lo < journalBase + 2 ^ 26 ∧ journalBase < w.hi)) ∧
      (r.byFirmware → ∃ x : Window, ((∃ p, s.dev.prov.windows.find? (fun p => p.1 == r.master) = some p ∧ x ∈ p.2) ∨
          x ∈ smGet [] s.dev.access (tableKey r.master r.target)) ∧
        x.lo ≤ w.lo ∧ w.hi ≤ x.hi ∧ (w.read → x.read) ∧ (w.write → x.write))
    (¬ok → exec (.accessTableWrite r) s = .next s) ∧
    (ok → ∃ t, exec (.accessTableWrite r) s = .next t ∧ t = { s with ctxs := t.ctxs, dev := { s.dev with access := t.dev.access } } ∧
      (r.byFirmware = false → t.ctxs = s.ctxs) ∧
      ∀ k, smGet [] t.dev.access k = if k = tableKey r.master r.target then l else smGet [] s.dev.access k)) ∧
  (∀ (s : State) (stack index : Nat) (words : List DWord), stack < 8 → index < 32 → words.length = 5 →
    let w := FmtWindow.ofWords words
    let others := ({ s with dev := { s.dev with fmt := smErase s.dev.fmt (32 * stack + index) } } : State).fmtWindows
    let live := w.nsize ≠ 0 ∧ w.fmt ≤ 4 ∧ (w.fmt = 4 → w.exp = true)
    let clash := ∃ x ∈ others, (w.nbase < x.nbase + x.nsize ∧ x.nbase < w.nbase + w.nsize) ∨
      (w.fmt ≠ 0 ∧ x.fmt ≠ 0 ∧ w.xbase < x.xbase + x.aliasBytes ∧ x.xbase < w.xbase + w.aliasBytes)
    (¬(live ∧ clash) → ∃ t, exec (.formatWindowWrite stack index words) s = .next t ∧
      t = { s with dev := { s.dev with fmt := t.dev.fmt } } ∧
      ∀ k, smFind t.dev.fmt k = if k = 32 * stack + index then some words else smFind s.dev.fmt k) ∧
    (live → clash → exec (.formatWindowWrite stack index words) s = .next s)) ∧
  (∀ (s : State) (core line : Nat),
    let may := (s.core core).reuse.length < 32 ∧ ∀ x ∈ (s.core core).reuse, x.line ≠ line
    (¬may → exec (.reuseSample ⟨core, line⟩) s = .next s) ∧
    (may → ∃ t, exec (.reuseSample ⟨core, line⟩) s = .next t ∧ t = { s with cores := t.cores } ∧
      (∀ k, t.core k = if k = core then { s.core core with reuse := (s.core core).reuse ++ [⟨line, []⟩] } else s.core k))) ∧
  ∀ (s : State) (id : Ident) (line : Nat) (gr : Grid), s.grid id.grid = some gr →
    let old := (s.core id.core).reuse
    let t := s.noteLine id line
    let count := fun (x : State) (b : Nat) => (((x.dev.histograms.find? fun h =>
      h.die == s.dieOf id.core && h.ctx == id.ctx && h.kdesc == gr.record.kdesc.toNat).map (·.buckets)).getD (List.replicate 16 0)).getD b 0
    (∀ x ∈ (t.core id.core).reuse, x.line ≠ line ∧ line ∈ x.seen ∧ ∃ y ∈ old, y.line = x.line ∧ x.seen = keyAdd y.seen line) ∧
    ((∀ x ∈ old, x.line ≠ line) → t.dev = s.dev) ∧
    ∀ x, old.find? (·.line == line) = some x → (∀ h ∈ s.dev.histograms, h.buckets.length = 16) →
      ∃ b, b ≤ 15 ∧ 2 ^ b ≤ x.seen.length + 1 ∧ (b < 15 → x.seen.length + 1 < 2 ^ (b + 1)) ∧
        ∀ i, count t i = count s i + if i = b then 1 else 0

/-- R60 and R70 to R72: an image whose checks fail changes nothing but the loader's status, which says which check failed first; one that
passes, in a place that is free, gives the context its kernels and its windows at every target, when the runtime's own windows let it
write the image. An unload withdraws the image at once, and removes it with its windows, where they still stand, when no grid of it
is left. The model's choices: the windows at every target and the frames of tables that no later image may take (log 27), the runtime's
id and target (log 68), and the statuses of checks that the manual's table does not name (log 79). -/
def Says.Images : Prop :=
  (∀ (s : State) (r : ImageReq) (c : Context), s.ctx r.ctx = some c →
    let x := Bko.ofFile r.file
    let n := ceilDiv x.extent 4096 * 4096
    let clear := fun (a m b k : Nat) => b + k ≤ a ∨ a + m ≤ b
    let free := clear r.frames n r.pool (16384 * x.pages.length) ∧
      (∀ i ∈ c.images, clear r.base n i.base (ceilDiv i.size 4096 * 4096)) ∧
      (∀ p ∈ s.ctxs, ∀ i ∈ p.2.images, clear r.frames n i.frames (ceilDiv i.size 4096 * 4096) ∧
        clear r.pool (16384 * x.pages.length) i.frames (ceilDiv i.size 4096 * 4096)) ∧
      ∀ p ∈ s.ctxs, ∀ i ∈ p.2.tables, clear r.frames n i.1 i.2 ∧ clear r.pool (16384 * x.pages.length) i.1 i.2
    let fits := r.base % 2 ^ 21 = 0 ∧ r.frames % 4096 = 0 ∧ r.pool % 4096 = 0 ∧ free ∧
      (∀ w ∈ x.windows r.frames, w.write = true → inJournal w.lo (w.hi - w.lo) = false) ∧
      ∀ target, (smGet [] s.dev.access (tableKey r.ctx target)).length + (x.windows r.frames).length ≤ 64
    (x.check ≠ 0 → exec (.imageLoad r) s = .next { s with dev := { s.dev with loader := x.check } }) ∧
    (x.check = 0 → ¬fits → exec (.imageLoad r) s = .next s) ∧
    (x.check = 0 → fits →
      let refused := (s.placeImage r c x).dev.refusals.length ≠ s.dev.refusals.length
      (refused → ∃ t, exec (.imageLoad r) s = .next t ∧ t = { s with dev := { s.dev with refusals := t.dev.refusals } }) ∧
      (¬refused → ∃ t i made, exec (.imageLoad r) s = .next t ∧
        t.ctx r.ctx = some { c with images := c.images ++ [i], tables := c.tables ++ made } ∧
        (∀ y ∈ made, y.1 = r.pool ∧ y.2 ≤ 16384 * x.pages.length) ∧
        (i.base, i.frames, i.withdrawn, i.windows) = (r.base, r.frames, false, x.windows r.frames) ∧
        i.kernels = x.descs.zipIdx.map (fun p => x.kernel r.base p.2 p.1) ∧ t.dev.loader = 0 ∧
        (∀ target, smGet [] t.dev.access (tableKey r.ctx target) =
          smGet [] s.dev.access (tableKey r.ctx target) ++ x.windows r.frames) ∧
        ∀ k, k ≠ r.ctx → t.ctx k = s.ctx k ∧
          ∀ target, smGet [] t.dev.access (tableKey k target) = smGet [] s.dev.access (tableKey k target)))) ∧
  ∀ (s : State) (ctx image : Nat) (c : Context) (i : Image), s.ctx ctx = some c → c.images.find? (fun x => x.id == image) = some i →
    let busy := ∃ p ∈ s.grids, p.2.ctx = ctx ∧ ∃ k ∈ i.kernels, k.addr = p.2.kernel.addr
    (busy → ∃ t, exec (.imageUnload ctx image) s = .next t ∧ t.mem = s.mem ∧ t.dev = s.dev ∧
      t.ctx ctx = some { c with images := c.images.map fun x => if x.id = image then { x with withdrawn := true } else x }) ∧
    (¬busy → i.held.Nodup → ∃ t, exec (.imageUnload ctx image) s = .next t ∧
      t.ctx ctx = some { c with images := c.images.filter fun x => x.id != image } ∧
      ∀ target, smGet [] t.dev.access (tableKey ctx target) =
        if targetCode target ∈ i.held then i.windows.foldl (fun l w => l.erase w) (smGet [] s.dev.access (tableKey ctx target))
        else smGet [] s.dev.access (tableKey ctx target))

/-- R11, R60, R70 to R72, R102, R110, R118, R233 and R333: what the runtime registers takes effect when its rules hold, and
changes nothing else. -/
def Obligations.RegistrationsAndImages : Prop :=
  Says.Registrations ∧ Says.Images

/-! ### The instruction word, the shared checks and whole steps (R14-R41, R132, R133, R372) -/

/-- R22, R30 to R33, R36 and R39: the decoder reads back every well-formed instruction from its word, with every operand at every value;
a word that decodes is the word of its instruction, which is well formed; and every other word is ILLOP or ILLPAIR. -/
def Obligations.EncodingRoundTrip : Prop :=
  (∀ (i : Instr) (v : View), i.view = some v → v.wf = true → v.instr = i ∧ decodeWord v.encode = .ok i) ∧
  (∀ (x : IWord96) (i : Instr), decodeWord x = .ok i → i.wf = true ∧ encode i = some x) ∧
  (∀ x : IWord96, (∃ i, decodeWord x = .ok i) ∨ decodeWord x = .illop ∨ ∃ w, decodeWord x = .illpair w ∧ x.extractLsb' 93 3 = 5) ∧
  ∀ (i : Instr) (x : IWord96) (rest : List Byte), encode i = some x → i.wf = true →
    decodeBytes (leBytes 12 x.toNat ++ rest) = (.ok i, rest)

/-- R22 to R36: words that the manual's layouts give, field by field, decode to the instructions that they stand for. -/
def Obligations.WorkedWords : Prop :=
  let off : Guard := ⟨false, false, false, 0, 0⟩
  let no : Hints := ⟨false, false, false, false, false, false, false⟩
  decodeWord 0x46040130170028800102804#96 = .ok (.fma ⟨.v 8, .v 9, .o 2, ⟨true, true, true, 0, 5⟩,
    ⟨false, false, false, true, false, false, false⟩, 0, some (.v 10), false, .rne, .f32⟩) ∧
  decodeWord 0x202020080000000000000001#96 = .ok (.addImm ⟨.v 4, .v 4, off, no, 1⟩) ∧
  decodeWord 0x40e020040300000010200000#96 = .ok (.aord ⟨.v 4, .v 2, .v 6, off, no, 0, .device, .global, .w32, 0⟩) ∧
  decodeWord 0x609802308d00000000000177#96 = .ok (.mma ⟨.a 0, .s 24, .s 26, off, no, 0x177⟩) ∧
  decodeWord 0x802000000050010000fffffe#96 = .ok (.bra ⟨.v 0, .v 0, .v 0, ⟨true, false, true, 0, 2⟩, no, 0xFFFFFE⟩) ∧
  decodeWord 0xa08202831a0e101200000010#96 = .ok (.pairedWord ⟨⟨.add, 4, 5, 6, .i32⟩, ⟨.and, 7, 8, 9, .n32⟩, off, no⟩) ∧
  decodeWord 0xc0e820000000000000000105#96 = .ok (.twc ⟨.s 4, .v 0, .v 0, off, no, 0x105⟩)

/-- R19 to R21, R39, R40, R142 and R159: a step of a picked group fetches the twelve bytes at its PC, lowest byte first, and is the
execution of the instruction that they decode to, counted when it is the group's first; a PC off the kernel's text raises ALIGN and
a word that is not assigned ILLOP. With no group picked the next event of the agenda happens, and with none the machine's next move;
after each step a group that is swapped out keeps the wakes that came (R135). The model's choices: the agenda and the machine's own
move (log 1), and the lanes that ILLOP names while the guard cannot be read (log 33). -/
def Obligations.StepRunsTheInstruction : Prop :=
  (∀ (s s1 : State) (gid : Nat) (rest : List Nat) (g : Group) (own : DWord) (gr : Grid) (tr : Tlb), s.sched.picks = gid :: rest →
    s.group gid = some g → g.pc = some own → g.halt = none → g.id.isStart own.toNat = true → canonical own = true →
    let s0 := { s with sched := { s.sched with picks := rest, cur := some gid } }
    s0.access g.id.ctx own.toNat 1 .fetch true = .ok s1 tr → s1.grid g.id.grid = some gr →
    let bytes := (gr.text.drop (own.toNat - g.id.textLo)).take 12
    bytes.length = 12 →
    (∀ i, (decodeBytes bytes).1 = .ok i → ∀ t, exec i s1 = .next t → step s = .next (t.noteIssue gid (some g)).keepWakes) ∧
    ((decodeBytes bytes).1 = .illop → step s = .next ((s1.raise gid (Trap.mk' .illop own
      (g.decodeLanes (guardOf (BitVec.ofNat 96 (leNat bytes))) (g.batch own)))).noteIssue gid (some g)).keepWakes)) ∧
  (∀ (s : State) (gid : Nat) (rest : List Nat) (g : Group) (own : DWord), s.sched.picks = gid :: rest → s.group gid = some g →
    g.pc = some own → g.halt = none → g.id.isStart own.toNat = false →
    let s0 := { s with sched := { s.sched with picks := rest, cur := some gid } }
    step s = .next ((s0.raise gid (Trap.mk' .align own (g.batch own) own)).noteIssue gid (some g)).keepWakes) ∧
  (∀ (s : State) (gid : Nat) (rest : List Nat) (g : Group) (own : DWord) (h : Halt) (x : IWord96) (xs : List IWord96) (i : Instr),
    s.sched.picks = gid :: rest → s.group gid = some g → g.pc = some own → g.halt = some h → h.buffer = x :: xs → decodeWord x = .ok i →
    (∀ op w, i.view ≠ some (.c op w)) → (∀ w, i.view ≠ some (.y .trap w) ∧ i.view ≠ some (.y .eret w) ∧ i.view ≠ some (.y .brk w)) →
    ∀ t, exec i { s with sched := { s.sched with picks := rest, cur := some gid } } = .next t →
      step s = .next (t.noteIssue gid (some g)).keepWakes) ∧
  (∀ (s t : State) (i : Instr) (rest : List Instr), s.sched.picks = [] → s.sched.agenda = i :: rest → i.view = none →
    exec i { s with sched := { s.sched with agenda := rest, cur := none } } = .next t → step s = .next t.keepWakes) ∧
  ∀ (s t : State) (i : Instr), s.sched.picks = [] → s.sched.agenda = [] → s.awake = true → s.defaultMove = some i → i.view = none →
    exec i s.turn = .next t → step s = .next t.keepWakes

/-- R17, R27, R28, R40, R131, R144, R147 and R192: every instruction makes the same checks first, and the first that fails decides: a
register outside the budget is ILLOP, a port that the group's role may not use is ROLE, an engine that its team does not own is MXOWN,
then the guard and the sources, then a destination that is still in flight holds it; with no active lane it commits nothing and its
batch goes on. That TRAPLANES holds the whole batch while the guard cannot be read is the model's choice (log 33). -/
def Says.SharedChecks : Prop :=
  ∀ (s : State) (gid : Nat) (g : Group) (own : DWord) (v : View), s.sched.cur = some gid → s.group gid = some g → g.pc = some own →
    (∀ x, g.wait = some x → x.retries = true ∧ x.due = none) →
    let f := v.front s
    let batch := g.batch own
    let act := g.active f.guard batch
    let lanes := if g.guardFull f.guard batch then act else batch
    let trap := fun (c : Cause) (l : List Nat) => exec v.instr s = .next (s.raise gid (Trap.mk' c own l))
    let beyond := (∃ p ∈ f.named, g.within p.1 p.2 = false) ∨ f.illop g = true
    let barred := ∃ p ∈ f.ports, g.id.role.may p = false
    let foreign := f.mx = true ∧ s.ownsEngine gid g f.mxSole = false
    (beyond → trap .illop lanes) ∧ (¬beyond → barred → trap .role lanes) ∧ (¬beyond → ¬barred → foreign → trap .mxown lanes) ∧
    (¬beyond → ¬barred → ¬foreign →
      (∀ k t, s.guardCheck gid g own f.guard batch = some (.trap k t) → exec v.instr s = .next (s.raise k t)) ∧
      (s.guardCheck gid g own f.guard batch = none →
        (∀ k t, s.readySrcs gid g own act f.srcs = some (.trap k t) → exec v.instr s = .next (s.raise k t)) ∧
        (s.readySrcs gid g own act f.srcs = none →
          (s.dstBusy gid g f = true → exec v.instr s = .next s) ∧
          (s.dstBusy gid g f = false → act = [] → (s.bodyOf gid g = none) →
            exec v.instr s = .next (s.commit ⟨gid, g, own, batch, act⟩ f) ∧
            ∃ g', (s.commit ⟨gid, g, own, batch, act⟩ f).group gid = some g' ∧ (∀ k, g'.reg k = g.reg k ∧ g'.isFull k = g.isFull k) ∧
              (g.halt = none → (∀ x ∈ g.fibres, x.held = false) →
                g'.fibres = g.fibres.map fun x => if x.lane ∈ batch then { x with pc := own + 12 } else x)))))

/-- R146 and R147: of the registers that a source reads, an empty one raises REGEMPTY under its trap-empty hint; else one with no
producer in flight, in any lane, raises ORPHAN; else one that waits for its producer holds the instruction. -/
def Says.Readiness : Prop :=
  ∀ (s : State) (gid : Nat) (g : Group) (own : DWord) (act : List Nat) (x : Src), act ≠ [] → x.n = 1 → x.x.hasBit = true →
    let empty := (regLanes x.x act).filter fun l => !g.isFull (g.key x.x l 0)
    let fly := s.inFlight gid g.id.core (g.key x.x 0 0)
    let named := if x.x.isS then act else empty
    (empty = [] → s.readySrcs gid g own act [x] = none) ∧
    (empty ≠ [] → x.te = true → s.readySrcs gid g own act [x] = some (.trap gid (Trap.mk' .regempty own named))) ∧
    (x.te = false → empty ≠ [] → fly = false → s.readySrcs gid g own act [x] = some (.trap gid (Trap.mk' .orphan own named))) ∧
    (x.te = false → empty ≠ [] → fly = true → s.readySrcs gid g own act [x] = some .stall)

/-- R17, R27, R28, R40, R131, R144, R146, R147 and R192: the first check that fails decides; with no active lane an instruction
commits nothing. -/
def Obligations.SharedChecks : Prop :=
  Says.SharedChecks ∧ Says.Readiness

/-- R1 and R14: no step stops. In every state the machine answers a next state, whatever instruction or event is its turn. -/
def Obligations.NoStepStops : Prop := ∀ s : State, s.GoesOn

/-- R253: memory keeps its canonical form through every step, so that equal memories are equal data. -/
def Obligations.MemoryStaysCanonical : Prop := ∀ s t : State, s.MemOk → step s = .next t → t.MemOk

/-- R133: the identity of a group does not change while it runs, and no step gives a new group the number of one that stands. -/
def Obligations.IdentitiesStay : Prop :=
  let numbered := fun (s : State) => (s.groups.map (·.1)).Pairwise (· < ·) ∧ ∀ p ∈ s.groups, p.1 < s.sched.nextId
  ∀ s t : State, numbered s → step s = .next t →
    numbered t ∧ ∀ k g g', s.group k = some g → t.group k = some g' → g'.id = g.id

/-- R100, R224, R372, R386 and R390: after reset every page is in device bias, no format window is enabled, CLK is 0, and the journal is
empty, with NEXT and LOST 0. Memory has its canonical form. That no word carries an error (log 5) and that no group and no grid
stands (log 11) are the model's choices. -/
def Obligations.ResetState : Prop :=
  let s := State.reset
  s.MemOk ∧ (∀ frame, s.hostBias frame = false) ∧ s.fmtWindows = [] ∧ s.dev.clk = 0 ∧ s.jstat = 0 ∧
    s.dev.journal.opened = none ∧ s.dev.poison = [] ∧ s.groups = [] ∧ s.grids = []
end

