-- ==== Sys2Proof/Laws/Maps.lean ====
section
/-! SUPPORT. Sparse maps: what a key reads after each update, and that every update of a map in canonical form leaves it in
canonical form. -/

namespace Sys2Proof

variable {α : Type}

/-! ### Reading after an update -/

@[simp] theorem smFind_nil (k : Nat) : smFind ([] : SMap α) k = none := rfl

@[simp] theorem smFind_smSet_self (m : SMap α) (k : Nat) (x : α) : smFind (smSet m k x) k = some x := by
  induction m with
  | nil => simp [smSet, smFind]
  | cons c m ih =>
    obtain ⟨j, y⟩ := c
    simp only [smSet]
    split
    · simp [smFind]
    · split
      · simp [smFind]
      · simp [smFind, *]

theorem smFind_smSet_ne (m : SMap α) {k j : Nat} (x : α) (h : j ≠ k) : smFind (smSet m k x) j = smFind m j := by
  induction m with
  | nil => simp [smSet, smFind, h.symm]
  | cons c m ih =>
    obtain ⟨i, y⟩ := c
    simp only [smSet]
    split
    · simp [smFind, h.symm]
    · split
      · next h1 => subst h1; simp [smFind, h.symm]
      · simp [smFind, ih]

@[simp] theorem smFind_smErase_self (m : SMap α) (k : Nat) : smFind (smErase m k) k = none := by
  induction m with
  | nil => rfl
  | cons c m ih =>
    obtain ⟨j, y⟩ := c
    simp only [smErase, List.filter_cons] at *
    by_cases h : j = k <;> simp [h, smFind, ih]

theorem smFind_smErase_ne (m : SMap α) {k j : Nat} (h : j ≠ k) : smFind (smErase m k) j = smFind m j := by
  induction m with
  | nil => rfl
  | cons c m ih =>
    obtain ⟨i, y⟩ := c
    simp only [smErase, List.filter_cons] at *
    by_cases hi : i = k
    · subst hi; simp [smFind, ih, h.symm]
    · simp [hi, smFind, ih]

theorem smFind_smModify (m : SMap α) (k j : Nat) (f : α → α) :
    smFind (smModify m k f) j = if j = k then (smFind m j).map f else smFind m j := by
  induction m with
  | nil => simp [smModify, smFind]
  | cons c m ih =>
    obtain ⟨i, y⟩ := c
    simp only [smModify, List.map_cons] at *
    by_cases hi : i = k <;> by_cases hj : i = j
    · subst hi; subst hj; simp [smFind]
    · subst hi; simp [smFind, hj, ih, Ne.symm hj]
    · subst hj; simp [smFind, hi]
    · simp [smFind, hi, hj, ih]

@[simp] theorem smFind_smModify_self (m : SMap α) (k : Nat) (f : α → α) :
    smFind (smModify m k f) k = (smFind m k).map f := by simp [smFind_smModify]

theorem smFind_smModify_ne (m : SMap α) {k j : Nat} (f : α → α) (h : j ≠ k) :
    smFind (smModify m k f) j = smFind m j := by simp [smFind_smModify, h]

variable [DecidableEq α]

@[simp] theorem smGet_smPut_self (d : α) (m : SMap α) (k : Nat) (x : α) : smGet d (smPut d m k x) k = x := by
  unfold smPut smGet
  split
  · simp [*]
  · simp

theorem smGet_smPut_ne (d : α) (m : SMap α) {k j : Nat} (x : α) (h : j ≠ k) : smGet d (smPut d m k x) j = smGet d m j := by
  unfold smPut smGet
  split
  · rw [smFind_smErase_ne _ h]
  · rw [smFind_smSet_ne _ _ h]

/-! ### The canonical form -/

omit [DecidableEq α] in
theorem smWf_nil (d : α) : smWf d ([] : SMap α) := by simp [smWf]

omit [DecidableEq α] in
theorem smWf_smErase {d : α} {m : SMap α} (k : Nat) (h : smWf d m) : smWf d (smErase m k) :=
  ⟨h.1.filter _, fun c hc => h.2 c ((List.mem_filter.1 hc).1)⟩

omit [DecidableEq α] in
theorem mem_smSet {m : SMap α} {k : Nat} {x : α} {c : Nat × α} (h : c ∈ smSet m k x) : c = (k, x) ∨ c ∈ m := by
  induction m with
  | nil => simpa [smSet] using h
  | cons a m ih =>
    obtain ⟨j, y⟩ := a
    simp only [smSet] at h
    split at h
    · simpa using h
    · split at h
      · rcases List.mem_cons.1 h with h | h
        · exact .inl h
        · exact .inr (List.mem_cons_of_mem _ h)
      · rcases List.mem_cons.1 h with h | h
        · exact .inr (h ▸ List.mem_cons_self)
        · exact (ih h).imp id (List.mem_cons_of_mem _)

omit [DecidableEq α] in
theorem smWf_smSet {d : α} {m : SMap α} {k : Nat} {x : α} (hx : x ≠ d) (h : smWf d m) : smWf d (smSet m k x) := by
  refine ⟨?_, fun c hc => ?_⟩
  · induction m with
    | nil => simp [smSet]
    | cons a m ih =>
      obtain ⟨j, y⟩ := a
      obtain ⟨hm, hd⟩ := h
      rw [List.pairwise_cons] at hm
      simp only [smSet]
      split
      · next hk =>
        refine List.pairwise_cons.2 ⟨fun c hc => ?_, List.pairwise_cons.2 hm⟩
        rcases List.mem_cons.1 hc with rfl | hc
        · exact hk
        · exact Nat.lt_trans hk (hm.1 c hc)
      · split
        · next hj => subst hj; exact List.pairwise_cons.2 hm
        · next h1 h2 =>
          refine List.pairwise_cons.2 ⟨fun c hc => ?_, ih ⟨hm.2, fun c hc => hd c (List.mem_cons_of_mem _ hc)⟩⟩
          rcases mem_smSet hc with rfl | hc
          · simp only; omega
          · exact hm.1 c hc
  · rcases mem_smSet hc with rfl | hc
    · exact hx
    · exact h.2 c hc

/-- A write keeps the canonical form. -/
theorem smWf_smPut {d : α} {m : SMap α} (k : Nat) (x : α) (h : smWf d m) : smWf d (smPut d m k x) := by
  unfold smPut
  split
  · exact smWf_smErase k h
  · next hx => exact smWf_smSet hx h

/-! ### Lists of keys -/

theorem mem_keyDel {l : List Nat} {k j : Nat} : j ∈ keyDel l k ↔ j ∈ l ∧ j ≠ k := by simp [keyDel]

theorem mem_keyAdd {l : List Nat} {k j : Nat} : j ∈ keyAdd l k ↔ j = k ∨ j ∈ l := by
  induction l with
  | nil => simp [keyAdd]
  | cons i l ih =>
    simp only [keyAdd]
    split
    · simp
    · split
      · next h => subst h; simp
      · simp only [List.mem_cons, ih]
        exact or_left_comm

theorem mem_keyUnion {l ks : List Nat} {j : Nat} : j ∈ keyUnion l ks ↔ j ∈ l ∨ j ∈ ks := by
  induction ks generalizing l with
  | nil => simp [keyUnion]
  | cons k ks ih =>
    have : keyUnion l (k :: ks) = keyUnion (keyAdd l k) ks := rfl
    rw [this, ih, mem_keyAdd, List.mem_cons, or_assoc, or_left_comm]

end Sys2Proof
end

