-- ==== Sys2Proof/Laws/State.lean ====
section
/-! SUPPORT. What each plain update of the state, and of a group, leaves alone: one lemma for each field. -/

namespace Sys2Proof.Machine

/-! ### Updates of the state -/

@[simp] theorem State.setGroup_mem (s : State) (gid : Nat) (g : Group) : (s.setGroup gid g).mem = s.mem := rfl
@[simp] theorem State.setGroup_order (s : State) (gid : Nat) (g : Group) : (s.setGroup gid g).order = s.order := rfl
@[simp] theorem State.setGroup_grids (s : State) (gid : Nat) (g : Group) : (s.setGroup gid g).grids = s.grids := rfl
@[simp] theorem State.setGroup_teams (s : State) (gid : Nat) (g : Group) : (s.setGroup gid g).teams = s.teams := rfl
@[simp] theorem State.setGroup_cores (s : State) (gid : Nat) (g : Group) : (s.setGroup gid g).cores = s.cores := rfl
@[simp] theorem State.setGroup_ctxs (s : State) (gid : Nat) (g : Group) : (s.setGroup gid g).ctxs = s.ctxs := rfl
@[simp] theorem State.setGroup_work (s : State) (gid : Nat) (g : Group) : (s.setGroup gid g).work = s.work := rfl
@[simp] theorem State.setGroup_dev (s : State) (gid : Nat) (g : Group) : (s.setGroup gid g).dev = s.dev := rfl
@[simp] theorem State.setGroup_sched (s : State) (gid : Nat) (g : Group) : (s.setGroup gid g).sched = s.sched := rfl

@[simp] theorem State.modGroup_mem (s : State) (gid : Nat) (f : Group → Group) : (s.modGroup gid f).mem = s.mem := rfl
@[simp] theorem State.modGroup_order (s : State) (gid : Nat) (f : Group → Group) : (s.modGroup gid f).order = s.order := rfl
@[simp] theorem State.modGroup_grids (s : State) (gid : Nat) (f : Group → Group) : (s.modGroup gid f).grids = s.grids := rfl
@[simp] theorem State.modGroup_teams (s : State) (gid : Nat) (f : Group → Group) : (s.modGroup gid f).teams = s.teams := rfl
@[simp] theorem State.modGroup_cores (s : State) (gid : Nat) (f : Group → Group) : (s.modGroup gid f).cores = s.cores := rfl
@[simp] theorem State.modGroup_ctxs (s : State) (gid : Nat) (f : Group → Group) : (s.modGroup gid f).ctxs = s.ctxs := rfl
@[simp] theorem State.modGroup_work (s : State) (gid : Nat) (f : Group → Group) : (s.modGroup gid f).work = s.work := rfl
@[simp] theorem State.modGroup_dev (s : State) (gid : Nat) (f : Group → Group) : (s.modGroup gid f).dev = s.dev := rfl
@[simp] theorem State.modGroup_sched (s : State) (gid : Nat) (f : Group → Group) : (s.modGroup gid f).sched = s.sched := rfl

@[simp] theorem State.modCore_mem (s : State) (k : Nat) (f : Core → Core) : (s.modCore k f).mem = s.mem := rfl
@[simp] theorem State.modCore_order (s : State) (k : Nat) (f : Core → Core) : (s.modCore k f).order = s.order := rfl
@[simp] theorem State.modCore_groups (s : State) (k : Nat) (f : Core → Core) : (s.modCore k f).groups = s.groups := rfl
@[simp] theorem State.modCore_grids (s : State) (k : Nat) (f : Core → Core) : (s.modCore k f).grids = s.grids := rfl
@[simp] theorem State.modCore_teams (s : State) (k : Nat) (f : Core → Core) : (s.modCore k f).teams = s.teams := rfl
@[simp] theorem State.modCore_ctxs (s : State) (k : Nat) (f : Core → Core) : (s.modCore k f).ctxs = s.ctxs := rfl
@[simp] theorem State.modCore_work (s : State) (k : Nat) (f : Core → Core) : (s.modCore k f).work = s.work := rfl
@[simp] theorem State.modCore_dev (s : State) (k : Nat) (f : Core → Core) : (s.modCore k f).dev = s.dev := rfl
@[simp] theorem State.modCore_sched (s : State) (k : Nat) (f : Core → Core) : (s.modCore k f).sched = s.sched := rfl

@[simp] theorem State.modGrid_mem (s : State) (k : Nat) (f : Grid → Grid) : (s.modGrid k f).mem = s.mem := rfl
@[simp] theorem State.modGrid_order (s : State) (k : Nat) (f : Grid → Grid) : (s.modGrid k f).order = s.order := rfl
@[simp] theorem State.modGrid_groups (s : State) (k : Nat) (f : Grid → Grid) : (s.modGrid k f).groups = s.groups := rfl
@[simp] theorem State.modGrid_teams (s : State) (k : Nat) (f : Grid → Grid) : (s.modGrid k f).teams = s.teams := rfl
@[simp] theorem State.modGrid_cores (s : State) (k : Nat) (f : Grid → Grid) : (s.modGrid k f).cores = s.cores := rfl
@[simp] theorem State.modGrid_ctxs (s : State) (k : Nat) (f : Grid → Grid) : (s.modGrid k f).ctxs = s.ctxs := rfl
@[simp] theorem State.modGrid_work (s : State) (k : Nat) (f : Grid → Grid) : (s.modGrid k f).work = s.work := rfl
@[simp] theorem State.modGrid_dev (s : State) (k : Nat) (f : Grid → Grid) : (s.modGrid k f).dev = s.dev := rfl
@[simp] theorem State.modGrid_sched (s : State) (k : Nat) (f : Grid → Grid) : (s.modGrid k f).sched = s.sched := rfl

@[simp] theorem State.modCtx_mem (s : State) (k : Nat) (f : Context → Context) : (s.modCtx k f).mem = s.mem := rfl
@[simp] theorem State.modCtx_order (s : State) (k : Nat) (f : Context → Context) : (s.modCtx k f).order = s.order := rfl
@[simp] theorem State.modCtx_groups (s : State) (k : Nat) (f : Context → Context) : (s.modCtx k f).groups = s.groups := rfl
@[simp] theorem State.modCtx_grids (s : State) (k : Nat) (f : Context → Context) : (s.modCtx k f).grids = s.grids := rfl
@[simp] theorem State.modCtx_teams (s : State) (k : Nat) (f : Context → Context) : (s.modCtx k f).teams = s.teams := rfl
@[simp] theorem State.modCtx_cores (s : State) (k : Nat) (f : Context → Context) : (s.modCtx k f).cores = s.cores := rfl
@[simp] theorem State.modCtx_work (s : State) (k : Nat) (f : Context → Context) : (s.modCtx k f).work = s.work := rfl
@[simp] theorem State.modCtx_dev (s : State) (k : Nat) (f : Context → Context) : (s.modCtx k f).dev = s.dev := rfl
@[simp] theorem State.modCtx_sched (s : State) (k : Nat) (f : Context → Context) : (s.modCtx k f).sched = s.sched := rfl

@[simp] theorem State.modTeam_mem (s : State) (k n : Nat) (f : Team → Team) : (s.modTeam k n f).mem = s.mem := rfl
@[simp] theorem State.modTeam_order (s : State) (k n : Nat) (f : Team → Team) : (s.modTeam k n f).order = s.order := rfl
@[simp] theorem State.modTeam_groups (s : State) (k n : Nat) (f : Team → Team) : (s.modTeam k n f).groups = s.groups := rfl
@[simp] theorem State.modTeam_grids (s : State) (k n : Nat) (f : Team → Team) : (s.modTeam k n f).grids = s.grids := rfl
@[simp] theorem State.modTeam_cores (s : State) (k n : Nat) (f : Team → Team) : (s.modTeam k n f).cores = s.cores := rfl
@[simp] theorem State.modTeam_ctxs (s : State) (k n : Nat) (f : Team → Team) : (s.modTeam k n f).ctxs = s.ctxs := rfl
@[simp] theorem State.modTeam_work (s : State) (k n : Nat) (f : Team → Team) : (s.modTeam k n f).work = s.work := rfl
@[simp] theorem State.modTeam_dev (s : State) (k n : Nat) (f : Team → Team) : (s.modTeam k n f).dev = s.dev := rfl
@[simp] theorem State.modTeam_sched (s : State) (k n : Nat) (f : Team → Team) : (s.modTeam k n f).sched = s.sched := rfl

@[simp] theorem State.newId_mem (s : State) : s.newId.2.mem = s.mem := rfl
@[simp] theorem State.newId_order (s : State) : s.newId.2.order = s.order := rfl
@[simp] theorem State.newId_groups (s : State) : s.newId.2.groups = s.groups := rfl
@[simp] theorem State.newId_grids (s : State) : s.newId.2.grids = s.grids := rfl
@[simp] theorem State.newId_teams (s : State) : s.newId.2.teams = s.teams := rfl
@[simp] theorem State.newId_cores (s : State) : s.newId.2.cores = s.cores := rfl
@[simp] theorem State.newId_ctxs (s : State) : s.newId.2.ctxs = s.ctxs := rfl
@[simp] theorem State.newId_work (s : State) : s.newId.2.work = s.work := rfl
@[simp] theorem State.newId_dev (s : State) : s.newId.2.dev = s.dev := rfl

@[simp] theorem State.draw_mem (s : State) : s.draw.2.mem = s.mem := rfl
@[simp] theorem State.draw_order (s : State) : s.draw.2.order = s.order := rfl
@[simp] theorem State.draw_groups (s : State) : s.draw.2.groups = s.groups := rfl
@[simp] theorem State.draw_grids (s : State) : s.draw.2.grids = s.grids := rfl
@[simp] theorem State.draw_teams (s : State) : s.draw.2.teams = s.teams := rfl
@[simp] theorem State.draw_cores (s : State) : s.draw.2.cores = s.cores := rfl
@[simp] theorem State.draw_ctxs (s : State) : s.draw.2.ctxs = s.ctxs := rfl
@[simp] theorem State.draw_work (s : State) : s.draw.2.work = s.work := rfl
@[simp] theorem State.draw_dev (s : State) : s.draw.2.dev = s.dev := rfl

@[simp] theorem State.modRegion_mem (s : State) (g : Group) (f : Region → Region) : (s.modRegion g f).mem = s.mem := rfl
@[simp] theorem State.modRegion_order (s : State) (g : Group) (f : Region → Region) : (s.modRegion g f).order = s.order := rfl
@[simp] theorem State.modRegion_groups (s : State) (g : Group) (f : Region → Region) : (s.modRegion g f).groups = s.groups := rfl
@[simp] theorem State.modRegion_grids (s : State) (g : Group) (f : Region → Region) : (s.modRegion g f).grids = s.grids := rfl
@[simp] theorem State.modRegion_cores (s : State) (g : Group) (f : Region → Region) : (s.modRegion g f).cores = s.cores := rfl
@[simp] theorem State.modRegion_ctxs (s : State) (g : Group) (f : Region → Region) : (s.modRegion g f).ctxs = s.ctxs := rfl
@[simp] theorem State.modRegion_work (s : State) (g : Group) (f : Region → Region) : (s.modRegion g f).work = s.work := rfl
@[simp] theorem State.modRegion_dev (s : State) (g : Group) (f : Region → Region) : (s.modRegion g f).dev = s.dev := rfl
@[simp] theorem State.modRegion_sched (s : State) (g : Group) (f : Region → Region) : (s.modRegion g f).sched = s.sched := rfl

@[simp] theorem State.dropInFlight_mem (s : State) (l : List Nat) : (s.dropInFlight l).mem = s.mem := rfl
@[simp] theorem State.dropInFlight_order (s : State) (l : List Nat) : (s.dropInFlight l).order = s.order := rfl
@[simp] theorem State.dropInFlight_groups (s : State) (l : List Nat) : (s.dropInFlight l).groups = s.groups := rfl
@[simp] theorem State.dropInFlight_grids (s : State) (l : List Nat) : (s.dropInFlight l).grids = s.grids := rfl
@[simp] theorem State.dropInFlight_teams (s : State) (l : List Nat) : (s.dropInFlight l).teams = s.teams := rfl
@[simp] theorem State.dropInFlight_ctxs (s : State) (l : List Nat) : (s.dropInFlight l).ctxs = s.ctxs := rfl
@[simp] theorem State.dropInFlight_dev (s : State) (l : List Nat) : (s.dropInFlight l).dev = s.dev := rfl
@[simp] theorem State.dropInFlight_sched (s : State) (l : List Nat) : (s.dropInFlight l).sched = s.sched := rfl

@[simp] theorem State.park_mem (s : State) (gid : Nat) (w : Wait) : (s.park gid w).mem = s.mem := rfl
@[simp] theorem State.park_order (s : State) (gid : Nat) (w : Wait) : (s.park gid w).order = s.order := rfl
@[simp] theorem State.park_grids (s : State) (gid : Nat) (w : Wait) : (s.park gid w).grids = s.grids := rfl
@[simp] theorem State.park_teams (s : State) (gid : Nat) (w : Wait) : (s.park gid w).teams = s.teams := rfl
@[simp] theorem State.park_cores (s : State) (gid : Nat) (w : Wait) : (s.park gid w).cores = s.cores := rfl
@[simp] theorem State.park_ctxs (s : State) (gid : Nat) (w : Wait) : (s.park gid w).ctxs = s.ctxs := rfl
@[simp] theorem State.park_work (s : State) (gid : Nat) (w : Wait) : (s.park gid w).work = s.work := rfl
@[simp] theorem State.park_dev (s : State) (gid : Nat) (w : Wait) : (s.park gid w).dev = s.dev := rfl
@[simp] theorem State.park_sched (s : State) (gid : Nat) (w : Wait) : (s.park gid w).sched = s.sched := rfl

@[simp] theorem State.hold_mem (s : State) (gid : Nat) (w : Wait) : (s.hold gid w).mem = s.mem := rfl
@[simp] theorem State.hold_order (s : State) (gid : Nat) (w : Wait) : (s.hold gid w).order = s.order := rfl
@[simp] theorem State.hold_grids (s : State) (gid : Nat) (w : Wait) : (s.hold gid w).grids = s.grids := rfl
@[simp] theorem State.hold_teams (s : State) (gid : Nat) (w : Wait) : (s.hold gid w).teams = s.teams := rfl
@[simp] theorem State.hold_cores (s : State) (gid : Nat) (w : Wait) : (s.hold gid w).cores = s.cores := rfl
@[simp] theorem State.hold_ctxs (s : State) (gid : Nat) (w : Wait) : (s.hold gid w).ctxs = s.ctxs := rfl
@[simp] theorem State.hold_work (s : State) (gid : Nat) (w : Wait) : (s.hold gid w).work = s.work := rfl
@[simp] theorem State.hold_dev (s : State) (gid : Nat) (w : Wait) : (s.hold gid w).dev = s.dev := rfl
@[simp] theorem State.hold_sched (s : State) (gid : Nat) (w : Wait) : (s.hold gid w).sched = s.sched := rfl

@[simp] theorem State.fill_mem (s : State) (p : Nat) (l : List (Nat × Word)) : (s.fill p l).mem = s.mem := rfl
@[simp] theorem State.fill_order (s : State) (p : Nat) (l : List (Nat × Word)) : (s.fill p l).order = s.order := rfl
@[simp] theorem State.fill_groups (s : State) (p : Nat) (l : List (Nat × Word)) : (s.fill p l).groups = s.groups := rfl
@[simp] theorem State.fill_grids (s : State) (p : Nat) (l : List (Nat × Word)) : (s.fill p l).grids = s.grids := rfl
@[simp] theorem State.fill_teams (s : State) (p : Nat) (l : List (Nat × Word)) : (s.fill p l).teams = s.teams := rfl
@[simp] theorem State.fill_cores (s : State) (p : Nat) (l : List (Nat × Word)) : (s.fill p l).cores = s.cores := rfl
@[simp] theorem State.fill_ctxs (s : State) (p : Nat) (l : List (Nat × Word)) : (s.fill p l).ctxs = s.ctxs := rfl
@[simp] theorem State.fill_dev (s : State) (p : Nat) (l : List (Nat × Word)) : (s.fill p l).dev = s.dev := rfl
@[simp] theorem State.fill_sched (s : State) (p : Nat) (l : List (Nat × Word)) : (s.fill p l).sched = s.sched := rfl

@[simp] theorem State.produce_mem (s : State) (gid : Nat) (l : List (Nat × Option Word)) : (s.produce gid l).2.mem = s.mem := rfl
@[simp] theorem State.produce_order (s : State) (gid : Nat) (l : List (Nat × Option Word)) : (s.produce gid l).2.order = s.order := rfl
@[simp] theorem State.produce_grids (s : State) (gid : Nat) (l : List (Nat × Option Word)) : (s.produce gid l).2.grids = s.grids := rfl
@[simp] theorem State.produce_teams (s : State) (gid : Nat) (l : List (Nat × Option Word)) : (s.produce gid l).2.teams = s.teams := rfl
@[simp] theorem State.produce_cores (s : State) (gid : Nat) (l : List (Nat × Option Word)) : (s.produce gid l).2.cores = s.cores := rfl
@[simp] theorem State.produce_ctxs (s : State) (gid : Nat) (l : List (Nat × Option Word)) : (s.produce gid l).2.ctxs = s.ctxs := rfl
@[simp] theorem State.produce_dev (s : State) (gid : Nat) (l : List (Nat × Option Word)) : (s.produce gid l).2.dev = s.dev := rfl

@[simp] theorem State.refuse_mem (s : State) (t : Target) (m pa : Nat) (k : Kind) : (s.refuse t m pa k).mem = s.mem := rfl
@[simp] theorem State.refuse_order (s : State) (t : Target) (m pa : Nat) (k : Kind) : (s.refuse t m pa k).order = s.order := rfl
@[simp] theorem State.refuse_groups (s : State) (t : Target) (m pa : Nat) (k : Kind) : (s.refuse t m pa k).groups = s.groups := rfl
@[simp] theorem State.refuse_grids (s : State) (t : Target) (m pa : Nat) (k : Kind) : (s.refuse t m pa k).grids = s.grids := rfl
@[simp] theorem State.refuse_teams (s : State) (t : Target) (m pa : Nat) (k : Kind) : (s.refuse t m pa k).teams = s.teams := rfl
@[simp] theorem State.refuse_cores (s : State) (t : Target) (m pa : Nat) (k : Kind) : (s.refuse t m pa k).cores = s.cores := rfl
@[simp] theorem State.refuse_ctxs (s : State) (t : Target) (m pa : Nat) (k : Kind) : (s.refuse t m pa k).ctxs = s.ctxs := rfl
@[simp] theorem State.refuse_work (s : State) (t : Target) (m pa : Nat) (k : Kind) : (s.refuse t m pa k).work = s.work := rfl
@[simp] theorem State.refuse_sched (s : State) (t : Target) (m pa : Nat) (k : Kind) : (s.refuse t m pa k).sched = s.sched := rfl

@[simp] theorem State.doom_mem (s : State) (ctx : Nat) : (s.doom ctx).mem = s.mem := rfl
@[simp] theorem State.doom_order (s : State) (ctx : Nat) : (s.doom ctx).order = s.order := rfl
@[simp] theorem State.doom_groups (s : State) (ctx : Nat) : (s.doom ctx).groups = s.groups := rfl
@[simp] theorem State.doom_grids (s : State) (ctx : Nat) : (s.doom ctx).grids = s.grids := rfl
@[simp] theorem State.doom_teams (s : State) (ctx : Nat) : (s.doom ctx).teams = s.teams := rfl
@[simp] theorem State.doom_cores (s : State) (ctx : Nat) : (s.doom ctx).cores = s.cores := rfl
@[simp] theorem State.doom_ctxs (s : State) (ctx : Nat) : (s.doom ctx).ctxs = s.ctxs := rfl
@[simp] theorem State.doom_work (s : State) (ctx : Nat) : (s.doom ctx).work = s.work := rfl
@[simp] theorem State.doom_sched (s : State) (ctx : Nat) : (s.doom ctx).sched = s.sched := rfl

@[simp] theorem State.doomsOf_mem (s : State) (s2 : State) : (s.doomsOf s2).mem = s.mem := rfl
@[simp] theorem State.doomsOf_order (s : State) (s2 : State) : (s.doomsOf s2).order = s.order := rfl
@[simp] theorem State.doomsOf_groups (s : State) (s2 : State) : (s.doomsOf s2).groups = s.groups := rfl
@[simp] theorem State.doomsOf_grids (s : State) (s2 : State) : (s.doomsOf s2).grids = s.grids := rfl
@[simp] theorem State.doomsOf_teams (s : State) (s2 : State) : (s.doomsOf s2).teams = s.teams := rfl
@[simp] theorem State.doomsOf_cores (s : State) (s2 : State) : (s.doomsOf s2).cores = s.cores := rfl
@[simp] theorem State.doomsOf_ctxs (s : State) (s2 : State) : (s.doomsOf s2).ctxs = s.ctxs := rfl
@[simp] theorem State.doomsOf_work (s : State) (s2 : State) : (s.doomsOf s2).work = s.work := rfl
@[simp] theorem State.doomsOf_sched (s : State) (s2 : State) : (s.doomsOf s2).sched = s.sched := rfl

@[simp] theorem State.flip_mem (s : State) (pa : Nat) : (s.flip pa).mem = s.mem := rfl
@[simp] theorem State.flip_order (s : State) (pa : Nat) : (s.flip pa).order = s.order := rfl
@[simp] theorem State.flip_groups (s : State) (pa : Nat) : (s.flip pa).groups = s.groups := rfl
@[simp] theorem State.flip_grids (s : State) (pa : Nat) : (s.flip pa).grids = s.grids := rfl
@[simp] theorem State.flip_teams (s : State) (pa : Nat) : (s.flip pa).teams = s.teams := rfl
@[simp] theorem State.flip_cores (s : State) (pa : Nat) : (s.flip pa).cores = s.cores := rfl
@[simp] theorem State.flip_ctxs (s : State) (pa : Nat) : (s.flip pa).ctxs = s.ctxs := rfl
@[simp] theorem State.flip_work (s : State) (pa : Nat) : (s.flip pa).work = s.work := rfl
@[simp] theorem State.flip_sched (s : State) (pa : Nat) : (s.flip pa).sched = s.sched := rfl

@[simp] theorem State.qchAppend_mem (s : State) (a : Access) : (s.qchAppend a).mem = s.mem := rfl
@[simp] theorem State.qchAppend_groups (s : State) (a : Access) : (s.qchAppend a).groups = s.groups := rfl
@[simp] theorem State.qchAppend_grids (s : State) (a : Access) : (s.qchAppend a).grids = s.grids := rfl
@[simp] theorem State.qchAppend_teams (s : State) (a : Access) : (s.qchAppend a).teams = s.teams := rfl
@[simp] theorem State.qchAppend_cores (s : State) (a : Access) : (s.qchAppend a).cores = s.cores := rfl
@[simp] theorem State.qchAppend_ctxs (s : State) (a : Access) : (s.qchAppend a).ctxs = s.ctxs := rfl
@[simp] theorem State.qchAppend_work (s : State) (a : Access) : (s.qchAppend a).work = s.work := rfl
@[simp] theorem State.qchAppend_dev (s : State) (a : Access) : (s.qchAppend a).dev = s.dev := rfl
@[simp] theorem State.qchAppend_sched (s : State) (a : Access) : (s.qchAppend a).sched = s.sched := rfl

@[simp] theorem State.hAppend_mem (s : State) (a : Access) : (s.hAppend a).mem = s.mem := rfl
@[simp] theorem State.hAppend_groups (s : State) (a : Access) : (s.hAppend a).groups = s.groups := rfl
@[simp] theorem State.hAppend_grids (s : State) (a : Access) : (s.hAppend a).grids = s.grids := rfl
@[simp] theorem State.hAppend_teams (s : State) (a : Access) : (s.hAppend a).teams = s.teams := rfl
@[simp] theorem State.hAppend_cores (s : State) (a : Access) : (s.hAppend a).cores = s.cores := rfl
@[simp] theorem State.hAppend_ctxs (s : State) (a : Access) : (s.hAppend a).ctxs = s.ctxs := rfl
@[simp] theorem State.hAppend_work (s : State) (a : Access) : (s.hAppend a).work = s.work := rfl
@[simp] theorem State.hAppend_dev (s : State) (a : Access) : (s.hAppend a).dev = s.dev := rfl
@[simp] theorem State.hAppend_sched (s : State) (a : Access) : (s.hAppend a).sched = s.sched := rfl

@[simp] theorem State.modShare_mem (s : State) (k n j : Nat) (f : Share → Share) : (s.modShare k n j f).mem = s.mem := rfl
@[simp] theorem State.modShare_order (s : State) (k n j : Nat) (f : Share → Share) : (s.modShare k n j f).order = s.order := rfl
@[simp] theorem State.modShare_groups (s : State) (k n j : Nat) (f : Share → Share) : (s.modShare k n j f).groups = s.groups := rfl
@[simp] theorem State.modShare_grids (s : State) (k n j : Nat) (f : Share → Share) : (s.modShare k n j f).grids = s.grids := rfl
@[simp] theorem State.modShare_cores (s : State) (k n j : Nat) (f : Share → Share) : (s.modShare k n j f).cores = s.cores := rfl
@[simp] theorem State.modShare_ctxs (s : State) (k n j : Nat) (f : Share → Share) : (s.modShare k n j f).ctxs = s.ctxs := rfl
@[simp] theorem State.modShare_work (s : State) (k n j : Nat) (f : Share → Share) : (s.modShare k n j f).work = s.work := rfl
@[simp] theorem State.modShare_dev (s : State) (k n j : Nat) (f : Share → Share) : (s.modShare k n j f).dev = s.dev := rfl
@[simp] theorem State.modShare_sched (s : State) (k n j : Nat) (f : Share → Share) : (s.modShare k n j f).sched = s.sched := rfl

@[simp] theorem State.spadWrite_mem (s : State) (k n j o : Nat) (b : List Byte) : (s.spadWrite k n j o b).mem = s.mem := rfl
@[simp] theorem State.spadWrite_order (s : State) (k n j o : Nat) (b : List Byte) : (s.spadWrite k n j o b).order = s.order := rfl
@[simp] theorem State.spadWrite_groups (s : State) (k n j o : Nat) (b : List Byte) : (s.spadWrite k n j o b).groups = s.groups := rfl
@[simp] theorem State.spadWrite_grids (s : State) (k n j o : Nat) (b : List Byte) : (s.spadWrite k n j o b).grids = s.grids := rfl
@[simp] theorem State.spadWrite_cores (s : State) (k n j o : Nat) (b : List Byte) : (s.spadWrite k n j o b).cores = s.cores := rfl
@[simp] theorem State.spadWrite_ctxs (s : State) (k n j o : Nat) (b : List Byte) : (s.spadWrite k n j o b).ctxs = s.ctxs := rfl
@[simp] theorem State.spadWrite_work (s : State) (k n j o : Nat) (b : List Byte) : (s.spadWrite k n j o b).work = s.work := rfl
@[simp] theorem State.spadWrite_dev (s : State) (k n j o : Nat) (b : List Byte) : (s.spadWrite k n j o b).dev = s.dev := rfl
@[simp] theorem State.spadWrite_sched (s : State) (k n j o : Nat) (b : List Byte) : (s.spadWrite k n j o b).sched = s.sched := rfl

@[simp] theorem State.modLane_mem (s : State) (op lane : Nat) (f : TicketLane → TicketLane) : (s.modLane op lane f).mem = s.mem := rfl
@[simp] theorem State.modLane_order (s : State) (op lane : Nat) (f : TicketLane → TicketLane) : (s.modLane op lane f).order = s.order := rfl
@[simp] theorem State.modLane_groups (s : State) (op lane : Nat) (f : TicketLane → TicketLane) : (s.modLane op lane f).groups = s.groups := rfl
@[simp] theorem State.modLane_grids (s : State) (op lane : Nat) (f : TicketLane → TicketLane) : (s.modLane op lane f).grids = s.grids := rfl
@[simp] theorem State.modLane_teams (s : State) (op lane : Nat) (f : TicketLane → TicketLane) : (s.modLane op lane f).teams = s.teams := rfl
@[simp] theorem State.modLane_cores (s : State) (op lane : Nat) (f : TicketLane → TicketLane) : (s.modLane op lane f).cores = s.cores := rfl
@[simp] theorem State.modLane_ctxs (s : State) (op lane : Nat) (f : TicketLane → TicketLane) : (s.modLane op lane f).ctxs = s.ctxs := rfl
@[simp] theorem State.modLane_dev (s : State) (op lane : Nat) (f : TicketLane → TicketLane) : (s.modLane op lane f).dev = s.dev := rfl
@[simp] theorem State.modLane_sched (s : State) (op lane : Nat) (f : TicketLane → TicketLane) : (s.modLane op lane f).sched = s.sched := rfl

@[simp] theorem State.wakeBarrier_mem (s : State) (id : Ident) (b : Nat) (ph : Bool) : (s.wakeBarrier id b ph).mem = s.mem := rfl
@[simp] theorem State.wakeBarrier_order (s : State) (id : Ident) (b : Nat) (ph : Bool) : (s.wakeBarrier id b ph).order = s.order := rfl
@[simp] theorem State.wakeBarrier_grids (s : State) (id : Ident) (b : Nat) (ph : Bool) : (s.wakeBarrier id b ph).grids = s.grids := rfl
@[simp] theorem State.wakeBarrier_teams (s : State) (id : Ident) (b : Nat) (ph : Bool) : (s.wakeBarrier id b ph).teams = s.teams := rfl
@[simp] theorem State.wakeBarrier_cores (s : State) (id : Ident) (b : Nat) (ph : Bool) : (s.wakeBarrier id b ph).cores = s.cores := rfl
@[simp] theorem State.wakeBarrier_ctxs (s : State) (id : Ident) (b : Nat) (ph : Bool) : (s.wakeBarrier id b ph).ctxs = s.ctxs := rfl
@[simp] theorem State.wakeBarrier_work (s : State) (id : Ident) (b : Nat) (ph : Bool) : (s.wakeBarrier id b ph).work = s.work := rfl
@[simp] theorem State.wakeBarrier_dev (s : State) (id : Ident) (b : Nat) (ph : Bool) : (s.wakeBarrier id b ph).dev = s.dev := rfl
@[simp] theorem State.wakeBarrier_sched (s : State) (id : Ident) (b : Nat) (ph : Bool) : (s.wakeBarrier id b ph).sched = s.sched := rfl

@[simp] theorem State.setCopy_mem (s : State) (c : Copy) : (s.setCopy c).mem = s.mem := rfl
@[simp] theorem State.setCopy_order (s : State) (c : Copy) : (s.setCopy c).order = s.order := rfl
@[simp] theorem State.setCopy_groups (s : State) (c : Copy) : (s.setCopy c).groups = s.groups := rfl
@[simp] theorem State.setCopy_grids (s : State) (c : Copy) : (s.setCopy c).grids = s.grids := rfl
@[simp] theorem State.setCopy_teams (s : State) (c : Copy) : (s.setCopy c).teams = s.teams := rfl
@[simp] theorem State.setCopy_cores (s : State) (c : Copy) : (s.setCopy c).cores = s.cores := rfl
@[simp] theorem State.setCopy_ctxs (s : State) (c : Copy) : (s.setCopy c).ctxs = s.ctxs := rfl
@[simp] theorem State.setCopy_dev (s : State) (c : Copy) : (s.setCopy c).dev = s.dev := rfl
@[simp] theorem State.setCopy_sched (s : State) (c : Copy) : (s.setCopy c).sched = s.sched := rfl

@[simp] theorem State.spend_mem (s : State) (ctx cls : Nat) (b : Bool) : (s.spend ctx cls b).mem = s.mem := rfl
@[simp] theorem State.spend_order (s : State) (ctx cls : Nat) (b : Bool) : (s.spend ctx cls b).order = s.order := rfl
@[simp] theorem State.spend_groups (s : State) (ctx cls : Nat) (b : Bool) : (s.spend ctx cls b).groups = s.groups := rfl
@[simp] theorem State.spend_grids (s : State) (ctx cls : Nat) (b : Bool) : (s.spend ctx cls b).grids = s.grids := rfl
@[simp] theorem State.spend_teams (s : State) (ctx cls : Nat) (b : Bool) : (s.spend ctx cls b).teams = s.teams := rfl
@[simp] theorem State.spend_cores (s : State) (ctx cls : Nat) (b : Bool) : (s.spend ctx cls b).cores = s.cores := rfl
@[simp] theorem State.spend_work (s : State) (ctx cls : Nat) (b : Bool) : (s.spend ctx cls b).work = s.work := rfl
@[simp] theorem State.spend_dev (s : State) (ctx cls : Nat) (b : Bool) : (s.spend ctx cls b).dev = s.dev := rfl
@[simp] theorem State.spend_sched (s : State) (ctx cls : Nat) (b : Bool) : (s.spend ctx cls b).sched = s.sched := rfl

@[simp] theorem State.modRing_mem (s : State) (k n j sg : Nat) (f : Ring → Ring) : (s.modRing k n j sg f).mem = s.mem := rfl
@[simp] theorem State.modRing_order (s : State) (k n j sg : Nat) (f : Ring → Ring) : (s.modRing k n j sg f).order = s.order := rfl
@[simp] theorem State.modRing_groups (s : State) (k n j sg : Nat) (f : Ring → Ring) : (s.modRing k n j sg f).groups = s.groups := rfl
@[simp] theorem State.modRing_grids (s : State) (k n j sg : Nat) (f : Ring → Ring) : (s.modRing k n j sg f).grids = s.grids := rfl
@[simp] theorem State.modRing_cores (s : State) (k n j sg : Nat) (f : Ring → Ring) : (s.modRing k n j sg f).cores = s.cores := rfl
@[simp] theorem State.modRing_ctxs (s : State) (k n j sg : Nat) (f : Ring → Ring) : (s.modRing k n j sg f).ctxs = s.ctxs := rfl
@[simp] theorem State.modRing_work (s : State) (k n j sg : Nat) (f : Ring → Ring) : (s.modRing k n j sg f).work = s.work := rfl
@[simp] theorem State.modRing_dev (s : State) (k n j sg : Nat) (f : Ring → Ring) : (s.modRing k n j sg f).dev = s.dev := rfl
@[simp] theorem State.modRing_sched (s : State) (k n j sg : Nat) (f : Ring → Ring) : (s.modRing k n j sg f).sched = s.sched := rfl

@[simp] theorem State.bindHandle_mem (s : State) (ctx core k : Nat) (b : Option Binding) : (s.bindHandle ctx core k b).mem = s.mem := rfl
@[simp] theorem State.bindHandle_order (s : State) (ctx core k : Nat) (b : Option Binding) : (s.bindHandle ctx core k b).order = s.order := rfl
@[simp] theorem State.bindHandle_groups (s : State) (ctx core k : Nat) (b : Option Binding) : (s.bindHandle ctx core k b).groups = s.groups := rfl
@[simp] theorem State.bindHandle_grids (s : State) (ctx core k : Nat) (b : Option Binding) : (s.bindHandle ctx core k b).grids = s.grids := rfl
@[simp] theorem State.bindHandle_teams (s : State) (ctx core k : Nat) (b : Option Binding) : (s.bindHandle ctx core k b).teams = s.teams := rfl
@[simp] theorem State.bindHandle_cores (s : State) (ctx core k : Nat) (b : Option Binding) : (s.bindHandle ctx core k b).cores = s.cores := rfl
@[simp] theorem State.bindHandle_ctxs (s : State) (ctx core k : Nat) (b : Option Binding) : (s.bindHandle ctx core k b).ctxs = s.ctxs := rfl
@[simp] theorem State.bindHandle_dev (s : State) (ctx core k : Nat) (b : Option Binding) : (s.bindHandle ctx core k b).dev = s.dev := rfl
@[simp] theorem State.bindHandle_sched (s : State) (ctx core k : Nat) (b : Option Binding) : (s.bindHandle ctx core k b).sched = s.sched := rfl

@[simp] theorem State.modQueue_mem (s : State) (ctx num : Nat) (b : Bool) (f : Queue → Queue) : (s.modQueue ctx num b f).mem = s.mem := rfl
@[simp] theorem State.modQueue_order (s : State) (ctx num : Nat) (b : Bool) (f : Queue → Queue) : (s.modQueue ctx num b f).order = s.order := rfl
@[simp] theorem State.modQueue_groups (s : State) (ctx num : Nat) (b : Bool) (f : Queue → Queue) : (s.modQueue ctx num b f).groups = s.groups := rfl
@[simp] theorem State.modQueue_grids (s : State) (ctx num : Nat) (b : Bool) (f : Queue → Queue) : (s.modQueue ctx num b f).grids = s.grids := rfl
@[simp] theorem State.modQueue_teams (s : State) (ctx num : Nat) (b : Bool) (f : Queue → Queue) : (s.modQueue ctx num b f).teams = s.teams := rfl
@[simp] theorem State.modQueue_cores (s : State) (ctx num : Nat) (b : Bool) (f : Queue → Queue) : (s.modQueue ctx num b f).cores = s.cores := rfl
@[simp] theorem State.modQueue_work (s : State) (ctx num : Nat) (b : Bool) (f : Queue → Queue) : (s.modQueue ctx num b f).work = s.work := rfl
@[simp] theorem State.modQueue_dev (s : State) (ctx num : Nat) (b : Bool) (f : Queue → Queue) : (s.modQueue ctx num b f).dev = s.dev := rfl
@[simp] theorem State.modQueue_sched (s : State) (ctx num : Nat) (b : Bool) (f : Queue → Queue) : (s.modQueue ctx num b f).sched = s.sched := rfl

@[simp] theorem State.modEngine_mem (s : State) (k : Nat) (f : Engine → Engine) : (s.modEngine k f).mem = s.mem := rfl
@[simp] theorem State.modEngine_order (s : State) (k : Nat) (f : Engine → Engine) : (s.modEngine k f).order = s.order := rfl
@[simp] theorem State.modEngine_groups (s : State) (k : Nat) (f : Engine → Engine) : (s.modEngine k f).groups = s.groups := rfl
@[simp] theorem State.modEngine_grids (s : State) (k : Nat) (f : Engine → Engine) : (s.modEngine k f).grids = s.grids := rfl
@[simp] theorem State.modEngine_teams (s : State) (k : Nat) (f : Engine → Engine) : (s.modEngine k f).teams = s.teams := rfl
@[simp] theorem State.modEngine_ctxs (s : State) (k : Nat) (f : Engine → Engine) : (s.modEngine k f).ctxs = s.ctxs := rfl
@[simp] theorem State.modEngine_work (s : State) (k : Nat) (f : Engine → Engine) : (s.modEngine k f).work = s.work := rfl
@[simp] theorem State.modEngine_dev (s : State) (k : Nat) (f : Engine → Engine) : (s.modEngine k f).dev = s.dev := rfl
@[simp] theorem State.modEngine_sched (s : State) (k : Nat) (f : Engine → Engine) : (s.modEngine k f).sched = s.sched := rfl

@[simp] theorem State.modOp_mem (s : State) (k id : Nat) (f : EngOp → EngOp) : (s.modOp k id f).mem = s.mem := rfl
@[simp] theorem State.modOp_order (s : State) (k id : Nat) (f : EngOp → EngOp) : (s.modOp k id f).order = s.order := rfl
@[simp] theorem State.modOp_groups (s : State) (k id : Nat) (f : EngOp → EngOp) : (s.modOp k id f).groups = s.groups := rfl
@[simp] theorem State.modOp_grids (s : State) (k id : Nat) (f : EngOp → EngOp) : (s.modOp k id f).grids = s.grids := rfl
@[simp] theorem State.modOp_teams (s : State) (k id : Nat) (f : EngOp → EngOp) : (s.modOp k id f).teams = s.teams := rfl
@[simp] theorem State.modOp_ctxs (s : State) (k id : Nat) (f : EngOp → EngOp) : (s.modOp k id f).ctxs = s.ctxs := rfl
@[simp] theorem State.modOp_work (s : State) (k id : Nat) (f : EngOp → EngOp) : (s.modOp k id f).work = s.work := rfl
@[simp] theorem State.modOp_dev (s : State) (k id : Nat) (f : EngOp → EngOp) : (s.modOp k id f).dev = s.dev := rfl
@[simp] theorem State.modOp_sched (s : State) (k id : Nat) (f : EngOp → EngOp) : (s.modOp k id f).sched = s.sched := rfl

@[simp] theorem State.setLoop_mem (s : State) (id : Ident) (l : Loop) : (s.setLoop id l).mem = s.mem := rfl
@[simp] theorem State.setLoop_order (s : State) (id : Ident) (l : Loop) : (s.setLoop id l).order = s.order := rfl
@[simp] theorem State.setLoop_groups (s : State) (id : Ident) (l : Loop) : (s.setLoop id l).groups = s.groups := rfl
@[simp] theorem State.setLoop_grids (s : State) (id : Ident) (l : Loop) : (s.setLoop id l).grids = s.grids := rfl
@[simp] theorem State.setLoop_cores (s : State) (id : Ident) (l : Loop) : (s.setLoop id l).cores = s.cores := rfl
@[simp] theorem State.setLoop_ctxs (s : State) (id : Ident) (l : Loop) : (s.setLoop id l).ctxs = s.ctxs := rfl
@[simp] theorem State.setLoop_work (s : State) (id : Ident) (l : Loop) : (s.setLoop id l).work = s.work := rfl
@[simp] theorem State.setLoop_dev (s : State) (id : Ident) (l : Loop) : (s.setLoop id l).dev = s.dev := rfl
@[simp] theorem State.setLoop_sched (s : State) (id : Ident) (l : Loop) : (s.setLoop id l).sched = s.sched := rfl

@[simp] theorem State.setRegion_mem (s : State) (k n : Nat) (r : Region) : (s.setRegion k n r).mem = s.mem := rfl
@[simp] theorem State.setRegion_order (s : State) (k n : Nat) (r : Region) : (s.setRegion k n r).order = s.order := rfl
@[simp] theorem State.setRegion_groups (s : State) (k n : Nat) (r : Region) : (s.setRegion k n r).groups = s.groups := rfl
@[simp] theorem State.setRegion_grids (s : State) (k n : Nat) (r : Region) : (s.setRegion k n r).grids = s.grids := rfl
@[simp] theorem State.setRegion_cores (s : State) (k n : Nat) (r : Region) : (s.setRegion k n r).cores = s.cores := rfl
@[simp] theorem State.setRegion_ctxs (s : State) (k n : Nat) (r : Region) : (s.setRegion k n r).ctxs = s.ctxs := rfl
@[simp] theorem State.setRegion_work (s : State) (k n : Nat) (r : Region) : (s.setRegion k n r).work = s.work := rfl
@[simp] theorem State.setRegion_dev (s : State) (k n : Nat) (r : Region) : (s.setRegion k n r).dev = s.dev := rfl
@[simp] theorem State.setRegion_sched (s : State) (k n : Nat) (r : Region) : (s.setRegion k n r).sched = s.sched := rfl

@[simp] theorem State.writeStates_mem (s : State) (k n : Nat) (d : RegionDesc) (v : List (List Word)) : (s.writeStates k n d v).mem = s.mem := rfl
@[simp] theorem State.writeStates_order (s : State) (k n : Nat) (d : RegionDesc) (v : List (List Word)) : (s.writeStates k n d v).order = s.order := rfl
@[simp] theorem State.writeStates_groups (s : State) (k n : Nat) (d : RegionDesc) (v : List (List Word)) : (s.writeStates k n d v).groups = s.groups := rfl
@[simp] theorem State.writeStates_grids (s : State) (k n : Nat) (d : RegionDesc) (v : List (List Word)) : (s.writeStates k n d v).grids = s.grids := rfl
@[simp] theorem State.writeStates_cores (s : State) (k n : Nat) (d : RegionDesc) (v : List (List Word)) : (s.writeStates k n d v).cores = s.cores := rfl
@[simp] theorem State.writeStates_ctxs (s : State) (k n : Nat) (d : RegionDesc) (v : List (List Word)) : (s.writeStates k n d v).ctxs = s.ctxs := rfl
@[simp] theorem State.writeStates_work (s : State) (k n : Nat) (d : RegionDesc) (v : List (List Word)) : (s.writeStates k n d v).work = s.work := rfl
@[simp] theorem State.writeStates_dev (s : State) (k n : Nat) (d : RegionDesc) (v : List (List Word)) : (s.writeStates k n d v).dev = s.dev := rfl
@[simp] theorem State.writeStates_sched (s : State) (k n : Nat) (d : RegionDesc) (v : List (List Word)) : (s.writeStates k n d v).sched = s.sched := rfl

@[simp] theorem State.zeroAreas_mem (s : State) (k n : Nat) (d : RegionDesc) : (s.zeroAreas k n d).mem = s.mem := rfl
@[simp] theorem State.zeroAreas_order (s : State) (k n : Nat) (d : RegionDesc) : (s.zeroAreas k n d).order = s.order := rfl
@[simp] theorem State.zeroAreas_groups (s : State) (k n : Nat) (d : RegionDesc) : (s.zeroAreas k n d).groups = s.groups := rfl
@[simp] theorem State.zeroAreas_grids (s : State) (k n : Nat) (d : RegionDesc) : (s.zeroAreas k n d).grids = s.grids := rfl
@[simp] theorem State.zeroAreas_cores (s : State) (k n : Nat) (d : RegionDesc) : (s.zeroAreas k n d).cores = s.cores := rfl
@[simp] theorem State.zeroAreas_ctxs (s : State) (k n : Nat) (d : RegionDesc) : (s.zeroAreas k n d).ctxs = s.ctxs := rfl
@[simp] theorem State.zeroAreas_work (s : State) (k n : Nat) (d : RegionDesc) : (s.zeroAreas k n d).work = s.work := rfl
@[simp] theorem State.zeroAreas_dev (s : State) (k n : Nat) (d : RegionDesc) : (s.zeroAreas k n d).dev = s.dev := rfl
@[simp] theorem State.zeroAreas_sched (s : State) (k n : Nat) (d : RegionDesc) : (s.zeroAreas k n d).sched = s.sched := rfl

@[simp] theorem State.modColl_mem (s : State) (k : Nat) (f : Coll → Coll) : (s.modColl k f).mem = s.mem := rfl
@[simp] theorem State.modColl_order (s : State) (k : Nat) (f : Coll → Coll) : (s.modColl k f).order = s.order := rfl
@[simp] theorem State.modColl_groups (s : State) (k : Nat) (f : Coll → Coll) : (s.modColl k f).groups = s.groups := rfl
@[simp] theorem State.modColl_teams (s : State) (k : Nat) (f : Coll → Coll) : (s.modColl k f).teams = s.teams := rfl
@[simp] theorem State.modColl_cores (s : State) (k : Nat) (f : Coll → Coll) : (s.modColl k f).cores = s.cores := rfl
@[simp] theorem State.modColl_ctxs (s : State) (k : Nat) (f : Coll → Coll) : (s.modColl k f).ctxs = s.ctxs := rfl
@[simp] theorem State.modColl_work (s : State) (k : Nat) (f : Coll → Coll) : (s.modColl k f).work = s.work := rfl
@[simp] theorem State.modColl_dev (s : State) (k : Nat) (f : Coll → Coll) : (s.modColl k f).dev = s.dev := rfl
@[simp] theorem State.modColl_sched (s : State) (k : Nat) (f : Coll → Coll) : (s.modColl k f).sched = s.sched := rfl

@[simp] theorem State.modJournal_mem (s : State) (f : Journal → Journal) : (s.modJournal f).mem = s.mem := rfl
@[simp] theorem State.modJournal_order (s : State) (f : Journal → Journal) : (s.modJournal f).order = s.order := rfl
@[simp] theorem State.modJournal_groups (s : State) (f : Journal → Journal) : (s.modJournal f).groups = s.groups := rfl
@[simp] theorem State.modJournal_grids (s : State) (f : Journal → Journal) : (s.modJournal f).grids = s.grids := rfl
@[simp] theorem State.modJournal_teams (s : State) (f : Journal → Journal) : (s.modJournal f).teams = s.teams := rfl
@[simp] theorem State.modJournal_cores (s : State) (f : Journal → Journal) : (s.modJournal f).cores = s.cores := rfl
@[simp] theorem State.modJournal_ctxs (s : State) (f : Journal → Journal) : (s.modJournal f).ctxs = s.ctxs := rfl
@[simp] theorem State.modJournal_work (s : State) (f : Journal → Journal) : (s.modJournal f).work = s.work := rfl
@[simp] theorem State.modJournal_sched (s : State) (f : Journal → Journal) : (s.modJournal f).sched = s.sched := rfl

@[simp] theorem State.popPick_mem (s : State) (gid : Nat) (l : List Nat) : (s.popPick gid l).mem = s.mem := rfl
@[simp] theorem State.popPick_order (s : State) (gid : Nat) (l : List Nat) : (s.popPick gid l).order = s.order := rfl
@[simp] theorem State.popPick_groups (s : State) (gid : Nat) (l : List Nat) : (s.popPick gid l).groups = s.groups := rfl
@[simp] theorem State.popPick_grids (s : State) (gid : Nat) (l : List Nat) : (s.popPick gid l).grids = s.grids := rfl
@[simp] theorem State.popPick_teams (s : State) (gid : Nat) (l : List Nat) : (s.popPick gid l).teams = s.teams := rfl
@[simp] theorem State.popPick_cores (s : State) (gid : Nat) (l : List Nat) : (s.popPick gid l).cores = s.cores := rfl
@[simp] theorem State.popPick_ctxs (s : State) (gid : Nat) (l : List Nat) : (s.popPick gid l).ctxs = s.ctxs := rfl
@[simp] theorem State.popPick_work (s : State) (gid : Nat) (l : List Nat) : (s.popPick gid l).work = s.work := rfl
@[simp] theorem State.popPick_dev (s : State) (gid : Nat) (l : List Nat) : (s.popPick gid l).dev = s.dev := rfl

@[simp] theorem State.popEvent_mem (s : State) (l : List Instr) : (s.popEvent l).mem = s.mem := rfl
@[simp] theorem State.popEvent_order (s : State) (l : List Instr) : (s.popEvent l).order = s.order := rfl
@[simp] theorem State.popEvent_groups (s : State) (l : List Instr) : (s.popEvent l).groups = s.groups := rfl
@[simp] theorem State.popEvent_grids (s : State) (l : List Instr) : (s.popEvent l).grids = s.grids := rfl
@[simp] theorem State.popEvent_teams (s : State) (l : List Instr) : (s.popEvent l).teams = s.teams := rfl
@[simp] theorem State.popEvent_cores (s : State) (l : List Instr) : (s.popEvent l).cores = s.cores := rfl
@[simp] theorem State.popEvent_ctxs (s : State) (l : List Instr) : (s.popEvent l).ctxs = s.ctxs := rfl
@[simp] theorem State.popEvent_work (s : State) (l : List Instr) : (s.popEvent l).work = s.work := rfl
@[simp] theorem State.popEvent_dev (s : State) (l : List Instr) : (s.popEvent l).dev = s.dev := rfl

@[simp] theorem State.turn_mem (s : State) : s.turn.mem = s.mem := rfl
@[simp] theorem State.turn_order (s : State) : s.turn.order = s.order := rfl
@[simp] theorem State.turn_groups (s : State) : s.turn.groups = s.groups := rfl
@[simp] theorem State.turn_grids (s : State) : s.turn.grids = s.grids := rfl
@[simp] theorem State.turn_teams (s : State) : s.turn.teams = s.teams := rfl
@[simp] theorem State.turn_cores (s : State) : s.turn.cores = s.cores := rfl
@[simp] theorem State.turn_ctxs (s : State) : s.turn.ctxs = s.ctxs := rfl
@[simp] theorem State.turn_work (s : State) : s.turn.work = s.work := rfl
@[simp] theorem State.turn_dev (s : State) : s.turn.dev = s.dev := rfl

/-! ### Updates of a group -/

@[simp] theorem Group.put_id (g : Group) (k : Nat) (x : Word) : (g.put k x).id = g.id := rfl
@[simp] theorem Group.put_fibres (g : Group) (k : Nat) (x : Word) : (g.put k x).fibres = g.fibres := rfl
@[simp] theorem Group.put_fpmode (g : Group) (k : Nat) (x : Word) : (g.put k x).fpmode = g.fpmode := rfl
@[simp] theorem Group.put_lc (g : Group) (k : Nat) (x : Word) : (g.put k x).lc = g.lc := rfl
@[simp] theorem Group.put_bintmo (g : Group) (k : Nat) (x : Word) : (g.put k x).bintmo = g.bintmo := rfl
@[simp] theorem Group.put_swaptmo (g : Group) (k : Nat) (x : Word) : (g.put k x).swaptmo = g.swaptmo := rfl
@[simp] theorem Group.put_lqfull (g : Group) (k : Nat) (x : Word) : (g.put k x).lqfull = g.lqfull := rfl
@[simp] theorem Group.put_monfull (g : Group) (k : Nat) (x : Word) : (g.put k x).monfull = g.monfull := rfl
@[simp] theorem Group.put_stat (g : Group) (k : Nat) (x : Word) : (g.put k x).stat = g.stat := rfl
@[simp] theorem Group.put_trap (g : Group) (k : Nat) (x : Word) : (g.put k x).trap = g.trap := rfl
@[simp] theorem Group.put_handler (g : Group) (k : Nat) (x : Word) : (g.put k x).handler = g.handler := rfl
@[simp] theorem Group.put_pending (g : Group) (k : Nat) (x : Word) : (g.put k x).pending = g.pending := rfl
@[simp] theorem Group.put_wait (g : Group) (k : Nat) (x : Word) : (g.put k x).wait = g.wait := rfl
@[simp] theorem Group.put_parkedAt (g : Group) (k : Nat) (x : Word) : (g.put k x).parkedAt = g.parkedAt := rfl
@[simp] theorem Group.put_age (g : Group) (k : Nat) (x : Word) : (g.put k x).age = g.age := rfl
@[simp] theorem Group.put_notBefore (g : Group) (k : Nat) (x : Word) : (g.put k x).notBefore = g.notBefore := rfl
@[simp] theorem Group.put_haltReq (g : Group) (k : Nat) (x : Word) : (g.put k x).haltReq = g.haltReq := rfl
@[simp] theorem Group.put_halt (g : Group) (k : Nat) (x : Word) : (g.put k x).halt = g.halt := rfl
@[simp] theorem Group.put_place (g : Group) (k : Nat) (x : Word) : (g.put k x).place = g.place := rfl
@[simp] theorem Group.put_reserved (g : Group) (k : Nat) (x : Word) : (g.put k x).reserved = g.reserved := rfl
@[simp] theorem Group.put_issued (g : Group) (k : Nat) (x : Word) : (g.put k x).issued = g.issued := rfl
@[simp] theorem Group.put_ended (g : Group) (k : Nat) (x : Word) : (g.put k x).ended = g.ended := rfl

@[simp] theorem Group.setEmpty_id (g : Group) (l : List Nat) : (g.setEmpty l).id = g.id := rfl
@[simp] theorem Group.setEmpty_fibres (g : Group) (l : List Nat) : (g.setEmpty l).fibres = g.fibres := rfl
@[simp] theorem Group.setEmpty_regs (g : Group) (l : List Nat) : (g.setEmpty l).regs = g.regs := rfl
@[simp] theorem Group.setEmpty_fpmode (g : Group) (l : List Nat) : (g.setEmpty l).fpmode = g.fpmode := rfl
@[simp] theorem Group.setEmpty_lc (g : Group) (l : List Nat) : (g.setEmpty l).lc = g.lc := rfl
@[simp] theorem Group.setEmpty_bintmo (g : Group) (l : List Nat) : (g.setEmpty l).bintmo = g.bintmo := rfl
@[simp] theorem Group.setEmpty_swaptmo (g : Group) (l : List Nat) : (g.setEmpty l).swaptmo = g.swaptmo := rfl
@[simp] theorem Group.setEmpty_lqfull (g : Group) (l : List Nat) : (g.setEmpty l).lqfull = g.lqfull := rfl
@[simp] theorem Group.setEmpty_monfull (g : Group) (l : List Nat) : (g.setEmpty l).monfull = g.monfull := rfl
@[simp] theorem Group.setEmpty_stat (g : Group) (l : List Nat) : (g.setEmpty l).stat = g.stat := rfl
@[simp] theorem Group.setEmpty_trap (g : Group) (l : List Nat) : (g.setEmpty l).trap = g.trap := rfl
@[simp] theorem Group.setEmpty_handler (g : Group) (l : List Nat) : (g.setEmpty l).handler = g.handler := rfl
@[simp] theorem Group.setEmpty_pending (g : Group) (l : List Nat) : (g.setEmpty l).pending = g.pending := rfl
@[simp] theorem Group.setEmpty_wait (g : Group) (l : List Nat) : (g.setEmpty l).wait = g.wait := rfl
@[simp] theorem Group.setEmpty_parkedAt (g : Group) (l : List Nat) : (g.setEmpty l).parkedAt = g.parkedAt := rfl
@[simp] theorem Group.setEmpty_age (g : Group) (l : List Nat) : (g.setEmpty l).age = g.age := rfl
@[simp] theorem Group.setEmpty_notBefore (g : Group) (l : List Nat) : (g.setEmpty l).notBefore = g.notBefore := rfl
@[simp] theorem Group.setEmpty_haltReq (g : Group) (l : List Nat) : (g.setEmpty l).haltReq = g.haltReq := rfl
@[simp] theorem Group.setEmpty_halt (g : Group) (l : List Nat) : (g.setEmpty l).halt = g.halt := rfl
@[simp] theorem Group.setEmpty_place (g : Group) (l : List Nat) : (g.setEmpty l).place = g.place := rfl
@[simp] theorem Group.setEmpty_reserved (g : Group) (l : List Nat) : (g.setEmpty l).reserved = g.reserved := rfl
@[simp] theorem Group.setEmpty_issued (g : Group) (l : List Nat) : (g.setEmpty l).issued = g.issued := rfl
@[simp] theorem Group.setEmpty_ended (g : Group) (l : List Nat) : (g.setEmpty l).ended = g.ended := rfl

@[simp] theorem Group.setFull_id (g : Group) (l : List Nat) : (g.setFull l).id = g.id := rfl
@[simp] theorem Group.setFull_fibres (g : Group) (l : List Nat) : (g.setFull l).fibres = g.fibres := rfl
@[simp] theorem Group.setFull_regs (g : Group) (l : List Nat) : (g.setFull l).regs = g.regs := rfl
@[simp] theorem Group.setFull_fpmode (g : Group) (l : List Nat) : (g.setFull l).fpmode = g.fpmode := rfl
@[simp] theorem Group.setFull_lc (g : Group) (l : List Nat) : (g.setFull l).lc = g.lc := rfl
@[simp] theorem Group.setFull_bintmo (g : Group) (l : List Nat) : (g.setFull l).bintmo = g.bintmo := rfl
@[simp] theorem Group.setFull_swaptmo (g : Group) (l : List Nat) : (g.setFull l).swaptmo = g.swaptmo := rfl
@[simp] theorem Group.setFull_lqfull (g : Group) (l : List Nat) : (g.setFull l).lqfull = g.lqfull := rfl
@[simp] theorem Group.setFull_monfull (g : Group) (l : List Nat) : (g.setFull l).monfull = g.monfull := rfl
@[simp] theorem Group.setFull_stat (g : Group) (l : List Nat) : (g.setFull l).stat = g.stat := rfl
@[simp] theorem Group.setFull_trap (g : Group) (l : List Nat) : (g.setFull l).trap = g.trap := rfl
@[simp] theorem Group.setFull_handler (g : Group) (l : List Nat) : (g.setFull l).handler = g.handler := rfl
@[simp] theorem Group.setFull_pending (g : Group) (l : List Nat) : (g.setFull l).pending = g.pending := rfl
@[simp] theorem Group.setFull_wait (g : Group) (l : List Nat) : (g.setFull l).wait = g.wait := rfl
@[simp] theorem Group.setFull_parkedAt (g : Group) (l : List Nat) : (g.setFull l).parkedAt = g.parkedAt := rfl
@[simp] theorem Group.setFull_age (g : Group) (l : List Nat) : (g.setFull l).age = g.age := rfl
@[simp] theorem Group.setFull_notBefore (g : Group) (l : List Nat) : (g.setFull l).notBefore = g.notBefore := rfl
@[simp] theorem Group.setFull_haltReq (g : Group) (l : List Nat) : (g.setFull l).haltReq = g.haltReq := rfl
@[simp] theorem Group.setFull_halt (g : Group) (l : List Nat) : (g.setFull l).halt = g.halt := rfl
@[simp] theorem Group.setFull_place (g : Group) (l : List Nat) : (g.setFull l).place = g.place := rfl
@[simp] theorem Group.setFull_reserved (g : Group) (l : List Nat) : (g.setFull l).reserved = g.reserved := rfl
@[simp] theorem Group.setFull_issued (g : Group) (l : List Nat) : (g.setFull l).issued = g.issued := rfl
@[simp] theorem Group.setFull_ended (g : Group) (l : List Nat) : (g.setFull l).ended = g.ended := rfl

@[simp] theorem Group.move_id (g : Group) (l : List Nat) (pc : Nat → DWord) : (g.move l pc).id = g.id := rfl
@[simp] theorem Group.move_regs (g : Group) (l : List Nat) (pc : Nat → DWord) : (g.move l pc).regs = g.regs := rfl
@[simp] theorem Group.move_empty (g : Group) (l : List Nat) (pc : Nat → DWord) : (g.move l pc).empty = g.empty := rfl
@[simp] theorem Group.move_fpmode (g : Group) (l : List Nat) (pc : Nat → DWord) : (g.move l pc).fpmode = g.fpmode := rfl
@[simp] theorem Group.move_lc (g : Group) (l : List Nat) (pc : Nat → DWord) : (g.move l pc).lc = g.lc := rfl
@[simp] theorem Group.move_bintmo (g : Group) (l : List Nat) (pc : Nat → DWord) : (g.move l pc).bintmo = g.bintmo := rfl
@[simp] theorem Group.move_swaptmo (g : Group) (l : List Nat) (pc : Nat → DWord) : (g.move l pc).swaptmo = g.swaptmo := rfl
@[simp] theorem Group.move_lqfull (g : Group) (l : List Nat) (pc : Nat → DWord) : (g.move l pc).lqfull = g.lqfull := rfl
@[simp] theorem Group.move_monfull (g : Group) (l : List Nat) (pc : Nat → DWord) : (g.move l pc).monfull = g.monfull := rfl
@[simp] theorem Group.move_stat (g : Group) (l : List Nat) (pc : Nat → DWord) : (g.move l pc).stat = g.stat := rfl
@[simp] theorem Group.move_trap (g : Group) (l : List Nat) (pc : Nat → DWord) : (g.move l pc).trap = g.trap := rfl
@[simp] theorem Group.move_handler (g : Group) (l : List Nat) (pc : Nat → DWord) : (g.move l pc).handler = g.handler := rfl
@[simp] theorem Group.move_pending (g : Group) (l : List Nat) (pc : Nat → DWord) : (g.move l pc).pending = g.pending := rfl
@[simp] theorem Group.move_wait (g : Group) (l : List Nat) (pc : Nat → DWord) : (g.move l pc).wait = g.wait := rfl
@[simp] theorem Group.move_parkedAt (g : Group) (l : List Nat) (pc : Nat → DWord) : (g.move l pc).parkedAt = g.parkedAt := rfl
@[simp] theorem Group.move_age (g : Group) (l : List Nat) (pc : Nat → DWord) : (g.move l pc).age = g.age := rfl
@[simp] theorem Group.move_notBefore (g : Group) (l : List Nat) (pc : Nat → DWord) : (g.move l pc).notBefore = g.notBefore := rfl
@[simp] theorem Group.move_haltReq (g : Group) (l : List Nat) (pc : Nat → DWord) : (g.move l pc).haltReq = g.haltReq := rfl
@[simp] theorem Group.move_halt (g : Group) (l : List Nat) (pc : Nat → DWord) : (g.move l pc).halt = g.halt := rfl
@[simp] theorem Group.move_place (g : Group) (l : List Nat) (pc : Nat → DWord) : (g.move l pc).place = g.place := rfl
@[simp] theorem Group.move_reserved (g : Group) (l : List Nat) (pc : Nat → DWord) : (g.move l pc).reserved = g.reserved := rfl
@[simp] theorem Group.move_issued (g : Group) (l : List Nat) (pc : Nat → DWord) : (g.move l pc).issued = g.issued := rfl
@[simp] theorem Group.move_ended (g : Group) (l : List Nat) (pc : Nat → DWord) : (g.move l pc).ended = g.ended := rfl

@[simp] theorem Group.endLanes_id (g : Group) (l : List Nat) : (g.endLanes l).id = g.id := rfl
@[simp] theorem Group.endLanes_regs (g : Group) (l : List Nat) : (g.endLanes l).regs = g.regs := rfl
@[simp] theorem Group.endLanes_empty (g : Group) (l : List Nat) : (g.endLanes l).empty = g.empty := rfl
@[simp] theorem Group.endLanes_fpmode (g : Group) (l : List Nat) : (g.endLanes l).fpmode = g.fpmode := rfl
@[simp] theorem Group.endLanes_lc (g : Group) (l : List Nat) : (g.endLanes l).lc = g.lc := rfl
@[simp] theorem Group.endLanes_bintmo (g : Group) (l : List Nat) : (g.endLanes l).bintmo = g.bintmo := rfl
@[simp] theorem Group.endLanes_swaptmo (g : Group) (l : List Nat) : (g.endLanes l).swaptmo = g.swaptmo := rfl
@[simp] theorem Group.endLanes_lqfull (g : Group) (l : List Nat) : (g.endLanes l).lqfull = g.lqfull := rfl
@[simp] theorem Group.endLanes_monfull (g : Group) (l : List Nat) : (g.endLanes l).monfull = g.monfull := rfl
@[simp] theorem Group.endLanes_stat (g : Group) (l : List Nat) : (g.endLanes l).stat = g.stat := rfl
@[simp] theorem Group.endLanes_trap (g : Group) (l : List Nat) : (g.endLanes l).trap = g.trap := rfl
@[simp] theorem Group.endLanes_handler (g : Group) (l : List Nat) : (g.endLanes l).handler = g.handler := rfl
@[simp] theorem Group.endLanes_pending (g : Group) (l : List Nat) : (g.endLanes l).pending = g.pending := rfl
@[simp] theorem Group.endLanes_wait (g : Group) (l : List Nat) : (g.endLanes l).wait = g.wait := rfl
@[simp] theorem Group.endLanes_parkedAt (g : Group) (l : List Nat) : (g.endLanes l).parkedAt = g.parkedAt := rfl
@[simp] theorem Group.endLanes_age (g : Group) (l : List Nat) : (g.endLanes l).age = g.age := rfl
@[simp] theorem Group.endLanes_notBefore (g : Group) (l : List Nat) : (g.endLanes l).notBefore = g.notBefore := rfl
@[simp] theorem Group.endLanes_haltReq (g : Group) (l : List Nat) : (g.endLanes l).haltReq = g.haltReq := rfl
@[simp] theorem Group.endLanes_halt (g : Group) (l : List Nat) : (g.endLanes l).halt = g.halt := rfl
@[simp] theorem Group.endLanes_place (g : Group) (l : List Nat) : (g.endLanes l).place = g.place := rfl
@[simp] theorem Group.endLanes_reserved (g : Group) (l : List Nat) : (g.endLanes l).reserved = g.reserved := rfl
@[simp] theorem Group.endLanes_issued (g : Group) (l : List Nat) : (g.endLanes l).issued = g.issued := rfl
@[simp] theorem Group.endLanes_ended (g : Group) (l : List Nat) : (g.endLanes l).ended = g.ended := rfl

@[simp] theorem Group.holdLanes_id (g : Group) (l : List Nat) : (g.holdLanes l).id = g.id := rfl
@[simp] theorem Group.holdLanes_regs (g : Group) (l : List Nat) : (g.holdLanes l).regs = g.regs := rfl
@[simp] theorem Group.holdLanes_empty (g : Group) (l : List Nat) : (g.holdLanes l).empty = g.empty := rfl
@[simp] theorem Group.holdLanes_fpmode (g : Group) (l : List Nat) : (g.holdLanes l).fpmode = g.fpmode := rfl
@[simp] theorem Group.holdLanes_lc (g : Group) (l : List Nat) : (g.holdLanes l).lc = g.lc := rfl
@[simp] theorem Group.holdLanes_bintmo (g : Group) (l : List Nat) : (g.holdLanes l).bintmo = g.bintmo := rfl
@[simp] theorem Group.holdLanes_swaptmo (g : Group) (l : List Nat) : (g.holdLanes l).swaptmo = g.swaptmo := rfl
@[simp] theorem Group.holdLanes_lqfull (g : Group) (l : List Nat) : (g.holdLanes l).lqfull = g.lqfull := rfl
@[simp] theorem Group.holdLanes_monfull (g : Group) (l : List Nat) : (g.holdLanes l).monfull = g.monfull := rfl
@[simp] theorem Group.holdLanes_stat (g : Group) (l : List Nat) : (g.holdLanes l).stat = g.stat := rfl
@[simp] theorem Group.holdLanes_trap (g : Group) (l : List Nat) : (g.holdLanes l).trap = g.trap := rfl
@[simp] theorem Group.holdLanes_handler (g : Group) (l : List Nat) : (g.holdLanes l).handler = g.handler := rfl
@[simp] theorem Group.holdLanes_pending (g : Group) (l : List Nat) : (g.holdLanes l).pending = g.pending := rfl
@[simp] theorem Group.holdLanes_wait (g : Group) (l : List Nat) : (g.holdLanes l).wait = g.wait := rfl
@[simp] theorem Group.holdLanes_parkedAt (g : Group) (l : List Nat) : (g.holdLanes l).parkedAt = g.parkedAt := rfl
@[simp] theorem Group.holdLanes_age (g : Group) (l : List Nat) : (g.holdLanes l).age = g.age := rfl
@[simp] theorem Group.holdLanes_notBefore (g : Group) (l : List Nat) : (g.holdLanes l).notBefore = g.notBefore := rfl
@[simp] theorem Group.holdLanes_haltReq (g : Group) (l : List Nat) : (g.holdLanes l).haltReq = g.haltReq := rfl
@[simp] theorem Group.holdLanes_halt (g : Group) (l : List Nat) : (g.holdLanes l).halt = g.halt := rfl
@[simp] theorem Group.holdLanes_place (g : Group) (l : List Nat) : (g.holdLanes l).place = g.place := rfl
@[simp] theorem Group.holdLanes_reserved (g : Group) (l : List Nat) : (g.holdLanes l).reserved = g.reserved := rfl
@[simp] theorem Group.holdLanes_issued (g : Group) (l : List Nat) : (g.holdLanes l).issued = g.issued := rfl
@[simp] theorem Group.holdLanes_ended (g : Group) (l : List Nat) : (g.holdLanes l).ended = g.ended := rfl

@[simp] theorem Group.enter_id (g : Group) (t : Trap) (e : Nat) : (g.enter t e).id = g.id := rfl
@[simp] theorem Group.enter_lc (g : Group) (t : Trap) (e : Nat) : (g.enter t e).lc = g.lc := rfl
@[simp] theorem Group.enter_bintmo (g : Group) (t : Trap) (e : Nat) : (g.enter t e).bintmo = g.bintmo := rfl
@[simp] theorem Group.enter_swaptmo (g : Group) (t : Trap) (e : Nat) : (g.enter t e).swaptmo = g.swaptmo := rfl
@[simp] theorem Group.enter_lqfull (g : Group) (t : Trap) (e : Nat) : (g.enter t e).lqfull = g.lqfull := rfl
@[simp] theorem Group.enter_monfull (g : Group) (t : Trap) (e : Nat) : (g.enter t e).monfull = g.monfull := rfl
@[simp] theorem Group.enter_stat (g : Group) (t : Trap) (e : Nat) : (g.enter t e).stat = g.stat := rfl
@[simp] theorem Group.enter_parkedAt (g : Group) (t : Trap) (e : Nat) : (g.enter t e).parkedAt = g.parkedAt := rfl
@[simp] theorem Group.enter_age (g : Group) (t : Trap) (e : Nat) : (g.enter t e).age = g.age := rfl
@[simp] theorem Group.enter_notBefore (g : Group) (t : Trap) (e : Nat) : (g.enter t e).notBefore = g.notBefore := rfl
@[simp] theorem Group.enter_haltReq (g : Group) (t : Trap) (e : Nat) : (g.enter t e).haltReq = g.haltReq := rfl
@[simp] theorem Group.enter_halt (g : Group) (t : Trap) (e : Nat) : (g.enter t e).halt = g.halt := rfl
@[simp] theorem Group.enter_place (g : Group) (t : Trap) (e : Nat) : (g.enter t e).place = g.place := rfl
@[simp] theorem Group.enter_reserved (g : Group) (t : Trap) (e : Nat) : (g.enter t e).reserved = g.reserved := rfl
@[simp] theorem Group.enter_issued (g : Group) (t : Trap) (e : Nat) : (g.enter t e).issued = g.issued := rfl
@[simp] theorem Group.enter_ended (g : Group) (t : Trap) (e : Nat) : (g.enter t e).ended = g.ended := rfl

@[simp] theorem Group.leave_id (g : Group) (h : Handler) (t : DWord) : (g.leave h t).id = g.id := rfl
@[simp] theorem Group.leave_lc (g : Group) (h : Handler) (t : DWord) : (g.leave h t).lc = g.lc := rfl
@[simp] theorem Group.leave_bintmo (g : Group) (h : Handler) (t : DWord) : (g.leave h t).bintmo = g.bintmo := rfl
@[simp] theorem Group.leave_swaptmo (g : Group) (h : Handler) (t : DWord) : (g.leave h t).swaptmo = g.swaptmo := rfl
@[simp] theorem Group.leave_lqfull (g : Group) (h : Handler) (t : DWord) : (g.leave h t).lqfull = g.lqfull := rfl
@[simp] theorem Group.leave_monfull (g : Group) (h : Handler) (t : DWord) : (g.leave h t).monfull = g.monfull := rfl
@[simp] theorem Group.leave_stat (g : Group) (h : Handler) (t : DWord) : (g.leave h t).stat = g.stat := rfl
@[simp] theorem Group.leave_trap (g : Group) (h : Handler) (t : DWord) : (g.leave h t).trap = g.trap := rfl
@[simp] theorem Group.leave_pending (g : Group) (h : Handler) (t : DWord) : (g.leave h t).pending = g.pending := rfl
@[simp] theorem Group.leave_parkedAt (g : Group) (h : Handler) (t : DWord) : (g.leave h t).parkedAt = g.parkedAt := rfl
@[simp] theorem Group.leave_age (g : Group) (h : Handler) (t : DWord) : (g.leave h t).age = g.age := rfl
@[simp] theorem Group.leave_notBefore (g : Group) (h : Handler) (t : DWord) : (g.leave h t).notBefore = g.notBefore := rfl
@[simp] theorem Group.leave_haltReq (g : Group) (h : Handler) (t : DWord) : (g.leave h t).haltReq = g.haltReq := rfl
@[simp] theorem Group.leave_halt (g : Group) (h : Handler) (t : DWord) : (g.leave h t).halt = g.halt := rfl
@[simp] theorem Group.leave_place (g : Group) (h : Handler) (t : DWord) : (g.leave h t).place = g.place := rfl
@[simp] theorem Group.leave_reserved (g : Group) (h : Handler) (t : DWord) : (g.leave h t).reserved = g.reserved := rfl
@[simp] theorem Group.leave_ended (g : Group) (h : Handler) (t : DWord) : (g.leave h t).ended = g.ended := rfl

end Sys2Proof.Machine
end

