-- ==== Sys2Proof/Laws/Ops.lean ====
section
/-! SUPPORT. The shared operations over groups and registers: what a register reads after a write, what the shared checks
have found when an instruction goes on, and what a commit can do. -/

namespace Sys2Proof.Machine

/-! ### Reading a part of the state after an update -/

@[simp] theorem State.group_setGroup_self (s : State) (gid : Nat) (g : Group) : (s.setGroup gid g).group gid = some g := by
  simp [State.setGroup, State.group]

theorem State.group_setGroup_ne (s : State) {gid k : Nat} (g : Group) (h : k ≠ gid) :
    (s.setGroup gid g).group k = s.group k := by
  simp [State.setGroup, State.group, smFind_smSet_ne _ _ h]

@[simp] theorem State.group_modGroup_self (s : State) (gid : Nat) (f : Group → Group) :
    (s.modGroup gid f).group gid = (s.group gid).map f := by
  simp [State.modGroup, State.group]

theorem State.group_modGroup_ne (s : State) {gid k : Nat} (f : Group → Group) (h : k ≠ gid) :
    (s.modGroup gid f).group k = s.group k := by
  simp [State.modGroup, State.group, smFind_smModify_ne _ _ h]

@[simp] theorem State.ctx_modCtx_self (s : State) (k : Nat) (f : Context → Context) :
    (s.modCtx k f).ctx k = (s.ctx k).map f := by
  simp [State.modCtx, State.ctx]

theorem State.ctx_modCtx_ne (s : State) {k j : Nat} (f : Context → Context) (h : j ≠ k) :
    (s.modCtx k f).ctx j = s.ctx j := by
  simp [State.modCtx, State.ctx, smFind_smModify_ne _ _ h]

@[simp] theorem State.grid_modGrid_self (s : State) (k : Nat) (f : Grid → Grid) :
    (s.modGrid k f).grid k = (s.grid k).map f := by
  simp [State.modGrid, State.grid]

theorem State.grid_modGrid_ne (s : State) {k j : Nat} (f : Grid → Grid) (h : j ≠ k) :
    (s.modGrid k f).grid j = s.grid j := by
  simp [State.modGrid, State.grid, smFind_smModify_ne _ _ h]

@[simp] theorem State.core_modCore_self (s : State) (k : Nat) (f : Core → Core) :
    (s.modCore k f).core k = f (s.core k) := by
  simp [State.modCore, State.core, smGet]

theorem State.core_modCore_ne (s : State) {k j : Nat} (f : Core → Core) (h : j ≠ k) :
    (s.modCore k f).core j = s.core j := by
  simp [State.modCore, State.core, smGet, smFind_smSet_ne _ _ h]

/-- A group is read from the list of groups alone. -/
theorem State.group_of_groups {s t : State} (h : t.groups = s.groups) (k : Nat) : t.group k = s.group k := by
  simp [State.group, h]

theorem State.core_of_cores {s t : State} (h : t.cores = s.cores) (k : Nat) : t.core k = s.core k := by
  simp [State.core, h]

theorem State.ctx_of_ctxs {s t : State} (h : t.ctxs = s.ctxs) (k : Nat) : t.ctx k = s.ctx k := by
  simp [State.ctx, h]

theorem State.grid_of_grids {s t : State} (h : t.grids = s.grids) (k : Nat) : t.grid k = s.grid k := by
  simp [State.grid, h]

theorem State.team_of_teams {s t : State} (h : t.teams = s.teams) (k n : Nat) : t.team k n = s.team k n := by
  simp [State.team, h]

/-! ### Registers -/

@[simp] theorem Group.reg_put_self (g : Group) (k : Nat) (x : Word) : (g.put k x).reg k = x := by
  simp [Group.put, Group.reg]

theorem Group.reg_put_ne (g : Group) {k j : Nat} (x : Word) (h : j ≠ k) : (g.put k x).reg j = g.reg j := by
  simp [Group.put, Group.reg, smGet_smPut_ne _ _ _ h]

@[simp] theorem Group.isFull_put_self (g : Group) (k : Nat) (x : Word) : (g.put k x).isFull k = true := by
  simp [Group.put, Group.isFull, keyDel]

theorem Group.isFull_put_ne (g : Group) {k j : Nat} (x : Word) (h : j ≠ k) : (g.put k x).isFull j = g.isFull j := by
  simp [Group.put, Group.isFull, keyDel, h]

theorem Group.puts_cons (g : Group) (p : Nat × Word) (l : List (Nat × Word)) : g.puts (p :: l) = (g.put p.1 p.2).puts l := rfl

@[simp] theorem Group.puts_nil (g : Group) : g.puts [] = g := rfl

/-- Writing registers changes nothing of a group but its registers and their full/empty bits. -/
theorem Group.puts_eq (g : Group) (l : List (Nat × Word)) :
    g.puts l = { g with regs := (g.puts l).regs, empty := (g.puts l).empty } := by
  induction l generalizing g with
  | nil => rfl
  | cons p l ih => rw [Group.puts_cons, ih]; rfl

/-- A register that no pair names keeps its value. -/
theorem Group.reg_puts_of_not_mem (g : Group) {l : List (Nat × Word)} {k : Nat} (h : k ∉ l.map (·.1)) :
    (g.puts l).reg k = g.reg k := by
  induction l generalizing g with
  | nil => rfl
  | cons p l ih =>
    simp only [List.map_cons, List.mem_cons, not_or] at h
    rw [Group.puts_cons, ih _ h.2, Group.reg_put_ne _ _ h.1]

/-- A register that some pair names, every such pair with one value, has that value. -/
theorem Group.reg_puts_of_mem (g : Group) {l : List (Nat × Word)} {k : Nat} {x : Word} (h : (k, x) ∈ l)
    (ha : ∀ y, (k, y) ∈ l → y = x) : (g.puts l).reg k = x := by
  induction l generalizing g with
  | nil => simp at h
  | cons p l ih =>
    rw [Group.puts_cons]
    by_cases hk : k ∈ l.map (·.1)
    · obtain ⟨q, hq, rfl⟩ := List.mem_map.1 hk
      have hv : q.2 = x := ha q.2 (List.mem_cons_of_mem _ hq)
      exact ih _ (by rw [← hv]; exact hq) fun y hy => ha y (List.mem_cons_of_mem _ hy)
    · rw [Group.reg_puts_of_not_mem _ hk]
      rcases List.mem_cons.1 h with h | h
      · subst h; simp
      · exact absurd (List.mem_map_of_mem (f := (·.1)) h) hk

/-- A register that some pair names is full; a full one stays full. -/
theorem Group.isFull_puts (g : Group) {l : List (Nat × Word)} {k : Nat} (h : k ∈ l.map (·.1) ∨ g.isFull k = true) :
    (g.puts l).isFull k = true := by
  induction l generalizing g with
  | nil => simpa using h
  | cons p l ih =>
    rw [Group.puts_cons]
    by_cases hk : k ∈ l.map (·.1)
    · exact ih _ (.inl hk)
    · refine ih _ (.inr ?_)
      by_cases hp : k = p.1
      · subst hp; simp
      · rw [Group.isFull_put_ne _ _ hp]
        simpa [hp, hk] using h

theorem Group.isFull_setEmpty_of_not_mem (g : Group) {l : List Nat} {k : Nat} (h : k ∉ l) :
    (g.setEmpty l).isFull k = g.isFull k := by
  simp [Group.setEmpty, Group.isFull, mem_keyUnion, h]

@[simp] theorem Group.reg_setEmpty (g : Group) (l : List Nat) (k : Nat) : (g.setEmpty l).reg k = g.reg k := rfl

/-! ### The shared checks -/

/-- No check answers that an instruction goes on. -/
theorem State.checks_ne_go (s : State) (f : Front) (gid : Nat) (g : Group) (own : DWord) (c : Ctx) :
    some (Entry.go c) ∉ s.checks f gid g own := by
  simp only [State.checks, List.mem_cons, List.not_mem_nil, or_false, not_or]
  refine ⟨?_, ?_, ?_, ?_, ?_, ?_, ?_, ?_, ?_, ?_⟩
  case refine_5 =>
    split
    · simp
    · unfold State.guardCheck; split <;> simp
  case refine_6 =>
    split
    · simp
    · unfold State.readySrcs
      dsimp only
      split
      · simp
      · split
        · simp
        · split <;> simp
  all_goals split <;> simp

/-- What an instruction that goes on is given, and that every shared check has passed (R40, R147). -/
theorem State.front_go {s : State} {f : Front} {c : Ctx} (h : s.front f = .go c) :
    s.sched.cur = some c.gid ∧ s.group c.gid = some c.g ∧ c.g.pc = some c.own ∧ c.batch = c.g.batch c.own ∧
    c.act = c.g.active f.guard c.batch ∧ ∀ e ∈ s.checks f c.gid c.g c.own, e = none := by
  unfold State.front at h
  split at h
  · cases h
  next gid hc =>
    split at h
    · cases h
    next g hg =>
      split at h
      · cases h
      next own ho =>
        split at h
        · next e he =>
          subst h
          obtain ⟨_, hm, rfl⟩ := List.exists_of_findSome?_eq_some he
          exact (State.checks_ne_go _ _ _ _ _ _ hm).elim
        · next he =>
          cases h
          exact ⟨hc, hg, ho, rfl, rfl, fun e hm => List.findSome?_eq_none_iff.1 he e hm⟩

/-- When every shared check passes, the instruction goes on. -/
theorem State.front_of_checks {s : State} {f : Front} {gid : Nat} {g : Group} {own : DWord} (hc : s.sched.cur = some gid)
    (hg : s.group gid = some g) (ho : g.pc = some own) (h : ∀ e ∈ s.checks f gid g own, e = none) :
    s.front f = .go ⟨gid, g, own, g.batch own, g.active f.guard (g.batch own)⟩ := by
  unfold State.front
  simp only [hc, hg, ho]
  rw [show (s.checks f gid g own).findSome? id = none from List.findSome?_eq_none_iff.2 h]

/-- The registers that an instruction that goes on names are within its group's budgets (R17). -/
theorem State.front_within {s : State} {f : Front} {c : Ctx} (h : s.front f = .go c) :
    (∀ p ∈ f.named, c.g.within p.1 p.2 = true) ∧ f.illop c.g = false := by
  have hk := (State.front_go h).2.2.2.2.2
  have := hk _ (by simp only [State.checks]; exact List.mem_cons_of_mem _ List.mem_cons_self)
  simpa using this

/-- The group that goes on is the current one. -/
theorem State.front_group {s : State} {f : Front} {c : Ctx} (h : s.front f = .go c) : s.group c.gid = some c.g :=
  (State.front_go h).2.1

/-! ### The commit -/

/-- A release from `join` changes a group's fibres alone. -/
theorem Group.unjoin_eq (g : Group) (r : Option DWord) : g.unjoin r = { g with fibres := (g.unjoin r).fibres } := by
  unfold Group.unjoin
  dsimp only
  split
  · rfl
  · split <;> rfl

@[simp] theorem Group.settle_eq (g : Group) (r : Option DWord) :
    g.settle r = { g with fibres := (g.settle r).fibres } := by
  unfold Group.settle
  rw [Group.unjoin_eq (g.unjoin r), Group.unjoin_eq g]

/-- Going on changes a group's fibres and the rest of its program buffer, nothing else. -/
theorem Group.goOn_eq (g : Group) (b : List Nat) (pc : Nat → DWord) (r : Option DWord) :
    g.goOn b pc r = { g with fibres := (g.goOn b pc r).fibres, halt := (g.goOn b pc r).halt } := by
  unfold Group.goOn
  split
  · rfl
  · rw [Group.settle_eq]; rfl

/-- Last-use hints change full/empty bits alone. -/
theorem Group.lastUse_eq (g : Group) (act : List Nat) (f : Front) :
    g.lastUse act f = { g with empty := (g.lastUse act f).empty } := by
  unfold Group.lastUse
  dsimp only
  split <;> rfl

/-- What a commit leaves of a group. -/
theorem Group.commit_eq (g : Group) (c : Ctx) (f : Front) (pc : Nat → DWord) (r : Option DWord) :
    g.commit c f pc r = { g with
      empty := (g.lastUse c.act f).empty, wait := none, issued := true
      fibres := (g.commit c f pc r).fibres, halt := (g.commit c f pc r).halt } := by
  unfold Group.commit
  rw [Group.goOn_eq, Group.lastUse_eq]

/-- A register that the instruction writes keeps its full/empty bit over its last-use hints. -/
theorem Group.isFull_lastUse (g : Group) (act : List Nat) (f : Front) {k : Nat}
    (h : k ∈ f.dsts.flatMap fun p => g.keys p.1 p.2 act) : (g.lastUse act f).isFull k = g.isFull k := by
  unfold Group.lastUse
  dsimp only
  split
  · rfl
  · refine Group.isFull_setEmpty_of_not_mem g fun hk => ?_
    have := (List.mem_filter.1 hk).2
    simp only [Bool.not_eq_true', List.contains_eq_mem, decide_eq_false_iff_not] at this
    exact this h

/-- Where a commit leaves the state: the group committed, and an id used when YLD acts (R29, R145). -/
theorem State.commitTo_eq {s : State} {c : Ctx} {f : Front} {pc : Nat → DWord} {g : Group} (h : s.group c.gid = some g) :
    s.commitTo c f pc =
      if c.yields f then
        s.newId.2.setGroup c.gid { g.commit c f pc (s.rxendOf c.gid g) with age := s.sched.nextId }
      else s.setGroup c.gid (g.commit c f pc (s.rxendOf c.gid g)) := by
  unfold State.commitTo
  rw [h]
  rfl

/-- A commit leaves the group's registers. -/
theorem State.commitTo_group {s : State} {c : Ctx} {f : Front} {pc : Nat → DWord} {g : Group} (h : s.group c.gid = some g) :
    ∃ a, (s.commitTo c f pc).group c.gid = some { g.commit c f pc (s.rxendOf c.gid g) with age := a } := by
  rw [State.commitTo_eq h]
  split
  · exact ⟨_, State.group_setGroup_self ..⟩
  · exact ⟨_, State.group_setGroup_self ..⟩

/-- A commit changes nothing outside its group but the ids used. -/
theorem State.commitTo_frame (s : State) (c : Ctx) (f : Front) (pc : Nat → DWord) :
    (s.commitTo c f pc).mem = s.mem ∧ (s.commitTo c f pc).order = s.order ∧ (s.commitTo c f pc).grids = s.grids ∧
    (s.commitTo c f pc).teams = s.teams ∧ (s.commitTo c f pc).cores = s.cores ∧ (s.commitTo c f pc).ctxs = s.ctxs ∧
    (s.commitTo c f pc).work = s.work ∧ (s.commitTo c f pc).dev = s.dev ∧
    ∀ k, k ≠ c.gid → (s.commitTo c f pc).group k = s.group k := by
  unfold State.commitTo
  split
  · exact ⟨rfl, rfl, rfl, rfl, rfl, rfl, rfl, rfl, fun _ _ => rfl⟩
  · dsimp only
    split
    · exact ⟨rfl, rfl, rfl, rfl, rfl, rfl, rfl, rfl, fun k hk => State.group_setGroup_ne _ _ hk⟩
    · exact ⟨rfl, rfl, rfl, rfl, rfl, rfl, rfl, rfl, fun k hk => State.group_setGroup_ne _ _ hk⟩

/-! ### An attempt -/

/-- An attempt that takes effect answers that state. -/
@[simp] theorem finish_done (s : State) : finish (.done s) = .next s := rfl

@[simp] theorem finish_park (s : State) : finish (.park s) = .next s := rfl

@[simp] theorem finish_wait (s : State) : finish (.wait s) = .next s := rfl

@[simp] theorem finish_trap (gid : Nat) (t : Trap) (s : State) : finish (.trap gid t s) = .next (s.raise gid t) := rfl

/-- An instruction that passes the shared checks with an active lane has its own effect. -/
theorem State.issue_go {s : State} {f : Front} {c : Ctx} (k : Ctx → Act) (h : s.front f = .go c) (ha : c.act ≠ []) :
    s.issue f k = k c := by
  unfold State.issue
  rw [h]
  simp [ha]

/-- With no active lane the batch goes on (R28). -/
theorem State.issue_none {s : State} {f : Front} {c : Ctx} (k : Ctx → Act) (h : s.front f = .go c) (ha : c.act = []) :
    s.issue f k = .done (s.commit c f) := by
  unfold State.issue
  rw [h]
  simp [ha]

theorem State.issue_trap {s : State} {f : Front} {gid : Nat} {t : Trap} (k : Ctx → Act) (h : s.front f = .trap gid t) :
    s.issue f k = .trap gid t s := by
  unfold State.issue
  rw [h]

theorem State.issue_stall {s : State} {f : Front} (k : Ctx → Act) (h : s.front f = .stall) : s.issue f k = .wait s := by
  unfold State.issue
  rw [h]

end Sys2Proof.Machine
end

