-- ==== Sys2Proof/Laws/Commit.lean ====
section
/-! SUPPORT. What a commit with results and flags can do (R28, R29, R81), said once for every instruction that writes
registers. -/

namespace Sys2Proof.Machine

/-! ### Flags -/

@[simp] theorem orFlags_zero (r : Word) : orFlags r 0 = r := by simp [orFlags]

/-- Flags that join in a body change the region alone; elsewhere they change FPMODE alone. -/
theorem State.collectFlags_frame (s : State) (c : Ctx) (fl : List (Nat × FpFlags)) :
    (s.collectFlags c fl).mem = s.mem ∧ (s.collectFlags c fl).order = s.order ∧ (s.collectFlags c fl).grids = s.grids ∧
    (s.collectFlags c fl).cores = s.cores ∧ (s.collectFlags c fl).ctxs = s.ctxs ∧ (s.collectFlags c fl).work = s.work ∧
    (s.collectFlags c fl).dev = s.dev ∧ (s.collectFlags c fl).sched = s.sched ∧
    (∀ k, k ≠ c.gid → (s.collectFlags c fl).group k = s.group k) ∧
    (s.bodyOf c.gid c.g = none ∨ allFlags fl = 0 → (s.collectFlags c fl).teams = s.teams) := by
  unfold State.collectFlags
  split
  · simp
  · split
    · next hf hb =>
      refine ⟨?_, ?_, ?_, ?_, ?_, ?_, ?_, ?_, ?_, ?_⟩
      case refine_10 => intro h; rcases h with h | h <;> simp_all
      case refine_9 =>
        intro k _
        clear hf hb
        induction fl generalizing s with
        | nil => rfl
        | cons p l ih => rw [List.foldl_cons, ih]; rfl
      all_goals
        clear hf hb
        induction fl generalizing s with
        | nil => rfl
        | cons p l ih => rw [List.foldl_cons, ih]; rfl
    · refine ⟨rfl, rfl, rfl, rfl, rfl, rfl, rfl, rfl, fun k hk => State.group_modGroup_ne _ _ hk, fun _ => rfl⟩

/-- The group after its flags have joined. -/
theorem State.collectFlags_group {s : State} {c : Ctx} (fl : List (Nat × FpFlags)) (h : s.group c.gid = some c.g) :
    (s.collectFlags c fl).group c.gid =
      some { c.g with fpmode := if (s.bodyOf c.gid c.g).isSome then c.g.fpmode else orFlags c.g.fpmode (allFlags fl) } := by
  unfold State.collectFlags
  split
  · next hf =>
    rw [h, hf, orFlags_zero]
    split <;> rfl
  · split
    · next hf hb =>
      have : ∀ (l : List (Nat × FpFlags)) (s : State), (l.foldl (fun s p => s.modRegion c.g fun r => r.modStep c.gid p.1 fun e =>
          { e with flags := e.flags ||| p.2 }) s).group c.gid = s.group c.gid := by
        intro l
        induction l with
        | nil => intro s; rfl
        | cons p l ih => intro s; rw [List.foldl_cons, ih]; rfl
      rw [this, h]
    · next hf hb =>
      rw [State.group_modGroup_self, h]
      rfl

/-! ### The commit of an instruction that writes registers -/

/-- With no lane held, a batch that goes on moves, and nothing else (R155). -/
theorem Group.goOn_fibres {g : Group} (b : List Nat) (pc : Nat → DWord) (r : Option DWord) (hh : g.halt = none)
    (hd : ∀ f ∈ g.fibres, f.held = false) : (g.goOn b pc r).fibres = (g.move b pc).fibres := by
  unfold Group.goOn
  rw [hh]
  have hl : ∀ f ∈ (g.move b pc).live, f.held = false := by
    intro f hf
    have : f ∈ (g.move b pc).fibres := by
      unfold Group.live at hf
      split at hf
      · exact (List.mem_filter.1 hf).1
      · exact hf
    simp only [Group.move, List.mem_map] at this
    obtain ⟨x, hx, rfl⟩ := this
    have := hd x hx
    split <;> simp [this]
  have hn : (g.move b pc).live.filter (·.held) = [] := by
    rw [List.filter_eq_nil_iff]
    intro f hf
    simp [hl f hf]
  have hu : (g.move b pc).unjoin r = g.move b pc := by simp [Group.unjoin, hn]
  show ((g.move b pc).settle r).fibres = _
  rw [Group.settle, hu, hu]

@[simp] theorem Group.settle_fields (g : Group) (r : Option DWord) : ((g.settle r).fibres.map fun f => (f.lane, f.fibid, f.sc)) =
    g.fibres.map fun f => (f.lane, f.fibid, f.sc) := by
  suffices h : ∀ g : Group, ((g.unjoin r).fibres.map fun f => (f.lane, f.fibid, f.sc)) =
      g.fibres.map fun f => (f.lane, f.fibid, f.sc) from (h _).trans (h g)
  intro g
  unfold Group.unjoin
  dsimp only
  split
  · rfl
  · split
    · simp only [List.map_map]
      congr 1
      funext f
      simp only [Function.comp]
      split <;> rfl
    · rfl

/-- Going on keeps every fibre's lane, FIBID and spawn count. -/
theorem Group.goOn_fields (g : Group) (b : List Nat) (pc : Nat → DWord) (r : Option DWord) :
    ((g.goOn b pc r).fibres.map fun f => (f.lane, f.fibid, f.sc)) = g.fibres.map fun f => (f.lane, f.fibid, f.sc) := by
  unfold Group.goOn
  split
  · rfl
  · rw [Group.settle_fields]
    simp only [Group.move, List.map_map]
    congr 1
    funext f
    simp only [Function.comp]
    split <;> rfl

/-- Last-use hints empty the registers of `luKeys` that the instruction does not write (R29). -/
theorem Group.isFull_lastUse_iff (g : Group) {act : List Nat} (f : Front) (ha : act ≠ []) (k : Nat) :
    (g.lastUse act f).isFull k = true ↔ g.isFull k = true ∧ (k ∉ g.luKeys f act ∨ k ∈ g.dstKeys f act) := by
  unfold Group.lastUse
  simp only [List.isEmpty_iff, ha, if_false, Group.setEmpty, Group.isFull]
  simp only [Bool.not_eq_true', List.contains_eq_mem, decide_eq_false_iff_not, mem_keyUnion, List.mem_filter, not_or,
    not_and, Group.luKeys, Group.dstKeys]
  constructor
  · rintro ⟨h1, h2⟩
    refine ⟨h1, ?_⟩
    by_cases hk : k ∈ (List.filter (fun x => x.lu && x.x.hasBit) f.srcs).flatMap fun x => g.keys x.x x.n act
    · exact .inr (Decidable.not_not.1 (h2 hk))
    · exact .inl hk
  · rintro ⟨h1, h2⟩
    exact ⟨h1, fun hk => fun hn => hn (h2.resolve_left (fun h => h hk))⟩

theorem Group.keys_of_handler {g g' : Group} (h : g'.handler = g.handler) (x : Operand) (n : Nat) (lanes : List Nat) :
    g'.keys x n lanes = g.keys x n lanes := by
  simp [Group.keys, Group.key, h]

theorem Group.dstKeys_of_handler {g g' : Group} (h : g'.handler = g.handler) (f : Front) (act : List Nat) :
    g'.dstKeys f act = g.dstKeys f act := by
  simp [Group.dstKeys, Group.keys_of_handler h]

theorem Group.luKeys_of_handler {g g' : Group} (h : g'.handler = g.handler) (f : Front) (act : List Nat) :
    g'.luKeys f act = g.luKeys f act := by
  simp [Group.luKeys, Group.keys_of_handler h]

/-- What the commit of an instruction that writes registers can do, from a state in which its group may have a new FPMODE. -/
theorem State.putsCommit {s : State} {f : Front} {c : Ctx} {pc : Nat → DWord} {writes : List (Nat × Word)} {written used : List Nat}
    {fp : Word} (ha : c.act ≠ []) (hg : s.group c.gid = some { c.g with fpmode := fp })
    (hw : ∀ k, k ∈ writes.map (·.1) ↔ k ∈ written) (hsub : ∀ k ∈ written, k ∈ c.g.dstKeys f c.act)
    (hu : ∀ k, k ∉ written → (k ∈ used ↔ k ∈ c.g.luKeys f c.act ∧ k ∉ c.g.dstKeys f c.act)) :
    ∃ g', ((s.modGroup c.gid fun g => g.puts writes).commitTo c f pc).group c.gid = some g' ∧
      SameOutside c.gid s ((s.modGroup c.gid fun g => g.puts writes).commitTo c f pc) ∧
      Quiet s ((s.modGroup c.gid fun g => g.puts writes).commitTo c f pc) ∧
      ((s.modGroup c.gid fun g => g.puts writes).commitTo c f pc).teams = s.teams ∧
      KeepsGroup c.g g' written used ∧ (∀ k ∈ written, g'.isFull k = true) ∧
      (∀ k ∈ used, k ∉ written → g'.isFull k = false) ∧ g'.wait = none ∧ g'.fpmode = fp ∧ c.GoesTo g' pc ∧
      ∀ k, g'.reg k = (c.g.puts writes).reg k := by
  have hg2 : (s.modGroup c.gid fun g => g.puts writes).group c.gid = some (({ c.g with fpmode := fp } : Group).puts writes) := by
    rw [State.group_modGroup_self, hg]; rfl
  obtain ⟨a, hcm⟩ := State.commitTo_group (c := c) (f := f) (pc := pc) hg2
  obtain ⟨g1, g2, g3, g4, g5, g6, g7, g8, g9⟩ := State.commitTo_frame (s.modGroup c.gid fun g => g.puts writes) c f pc
  have hother : ∀ k, k ≠ c.gid → (s.modGroup c.gid fun g => g.puts writes).group k = s.group k :=
    fun k hk => State.group_modGroup_ne _ _ hk
  generalize hs2 : (s.modGroup c.gid fun g => g.puts writes) = s2 at *
  have e1 : s2.mem = s.mem ∧ s2.order = s.order ∧ s2.grids = s.grids ∧ s2.teams = s.teams ∧ s2.cores = s.cores ∧
      s2.ctxs = s.ctxs ∧ s2.work = s.work ∧ s2.dev = s.dev ∧ s2.sched = s.sched := by
    subst hs2; exact ⟨rfl, rfl, rfl, rfl, rfl, rfl, rfl, rfl, rfl⟩
  obtain ⟨k1, k2, k3, k4, k5, k6, k7, k8, k9⟩ := e1
  have hp : (({ c.g with fpmode := fp } : Group).puts writes) =
      { c.g with fpmode := fp, regs := (({ c.g with fpmode := fp } : Group).puts writes).regs,
                 empty := (({ c.g with fpmode := fp } : Group).puts writes).empty } := Group.puts_eq _ _
  have hreg : ∀ (g g' : Group), g'.regs = g.regs → ∀ k, g'.reg k = g.reg k := fun g g' h k => by simp [Group.reg, h]
  have hputs : ∀ (l : List (Nat × Word)) (g g' : Group), g'.regs = g.regs → (g'.puts l).regs = (g.puts l).regs := by
    intro l
    induction l with
    | nil => intro g g' h; exact h
    | cons p l ih => intro g g' h; rw [Group.puts_cons, Group.puts_cons]; exact ih _ _ (by simp [Group.put, h])
  have hgpf : ∀ k, k ∉ written → (({ c.g with fpmode := fp } : Group).puts writes).isFull k = c.g.isFull k := by
    intro k hk
    have hk' : k ∉ writes.map (·.1) := fun h => hk ((hw k).1 h)
    have : ∀ (l : List (Nat × Word)) (g : Group), k ∉ l.map (·.1) → (g.puts l).isFull k = g.isFull k := by
      intro l
      induction l with
      | nil => intro g _; rfl
      | cons p l ih =>
        intro g h
        simp only [List.map_cons, List.mem_cons, not_or] at h
        rw [Group.puts_cons, ih _ h.2, Group.isFull_put_ne _ _ h.1]
    rw [this _ _ hk']; rfl
  have hgpd : ∀ k, k ∈ written → (({ c.g with fpmode := fp } : Group).puts writes).isFull k = true :=
    fun k hk => Group.isFull_puts _ (.inl ((hw k).2 hk))
  have hgpr : ∀ k, (({ c.g with fpmode := fp } : Group).puts writes).reg k = (c.g.puts writes).reg k :=
    fun k => hreg _ _ (hputs writes c.g { c.g with fpmode := fp } rfl) k
  generalize (({ c.g with fpmode := fp } : Group).puts writes) = gp at *
  have hgph : gp.handler = c.g.handler := by rw [hp]
  have hfull : ∀ k, ∀ (x : Group), x.empty = (gp.lastUse c.act f).empty → x.isFull k = (gp.lastUse c.act f).isFull k := by
    intro k x h; simp [Group.isFull, h]
  have hiff := Group.isFull_lastUse_iff gp f ha
  rw [Group.dstKeys_of_handler hgph, Group.luKeys_of_handler hgph] at hiff
  rw [Group.commit_eq] at hcm
  refine ⟨_, hcm, ⟨g1.trans k1, g3.trans k3, g6.trans k6, g8.trans k8, fun k hk => (g9 k hk).trans (hother k hk)⟩,
    ⟨g2.trans k2, g5.trans k5, g7.trans k7, ?_⟩, g4.trans k4, ?_, ?_, ?_, rfl, ?_, ?_, ?_⟩
  · rw [← k9, State.commitTo_eq hg2]
    split <;> rfl
  · constructor
    case regs =>
      intro k hk
      rw [show ∀ x : Group, x.regs = gp.regs → x.reg k = gp.reg k from fun x h => hreg _ _ h k]
      · rw [hgpr, Group.reg_puts_of_not_mem]
        exact fun h => hk ((hw k).1 h)
      · rfl
    case bits =>
      intro k hk hn
      refine (hfull k _ ?_).trans ?_
      · rfl
      have := hiff k
      rw [← hgpf k hk]
      rcases h1 : gp.isFull k with _ | _
      · rcases h2 : (gp.lastUse c.act f).isFull k with _ | _
        · rfl
        · exact absurd ((this.1 h2).1) (by simp [h1])
      · refine this.2 ⟨h1, ?_⟩
        have hn' := fun h => hn ((hu k hk).2 h)
        by_cases hl : k ∈ c.g.luKeys f c.act
        · exact .inr (Decidable.not_not.1 fun hd => hn' ⟨hl, hd⟩)
        · exact .inl hl
    case fibres =>
      show ((gp.commit c f pc _).fibres.map fun f => (f.lane, f.fibid, f.sc)) = _
      unfold Group.commit
      rw [Group.goOn_fields, hp]
      rw [Group.lastUse_eq]
    all_goals rw [hp]
  · intro k hk
    refine (hfull k _ ?_).trans ?_
    · rfl
    exact (hiff k).2 ⟨hgpd k hk, .inr (hsub k hk)⟩
  · intro k hk hd
    refine (hfull k _ ?_).trans ?_
    · rfl
    obtain ⟨h3, h4⟩ := (hu k hd).1 hk
    rcases h2 : (gp.lastUse c.act f).isFull k with _ | _
    · rfl
    · exact absurd ((hiff k).1 h2).2 (by simp [h3, h4])
  · show gp.fpmode = fp
    rw [hp]
  · intro hh hd
    show (gp.commit c f pc _).fibres = _
    unfold Group.commit
    rw [Group.goOn_fibres]
    · simp only [Group.move]
      rw [Group.lastUse_eq, hp]
    · rw [Group.lastUse_eq, hp]; exact hh
    · rw [Group.lastUse_eq, hp]; exact hd
  · intro k
    rw [← hgpr k]
    exact hreg _ _ rfl k

/-- What the commit of an instruction without flags can do. -/
theorem State.putsCommit_wrote {s : State} {f : Front} {c : Ctx} {pc : Nat → DWord} {writes : List (Nat × Word)}
    {written used : List Nat} (ha : c.act ≠ []) (hg : s.group c.gid = some c.g)
    (hw : ∀ k, k ∈ writes.map (·.1) ↔ k ∈ written) (hsub : ∀ k ∈ written, k ∈ c.g.dstKeys f c.act)
    (hu : ∀ k, k ∉ written → (k ∈ used ↔ k ∈ c.g.luKeys f c.act ∧ k ∉ c.g.dstKeys f c.act)) :
    ∃ g', Wrote s ((s.modGroup c.gid fun g => g.puts writes).commitTo c f pc) c g' written used 0 pc ∧
      ∀ k, g'.reg k = (c.g.puts writes).reg k := by
  obtain ⟨g', h1, h2, h3, h4, h5, h6, h7, h8, h9, h10, h11⟩ := State.putsCommit (pc := pc) (fp := c.g.fpmode) ha hg hw hsub hu
  exact ⟨g', ⟨h1, h2, h3, h5, h6, h7, h8, fun _ => by rw [h9, orFlags_zero], fun _ => h9, fun _ => h4, h10⟩, h11⟩

/-- What the commit of an instruction that writes no register can do. -/
theorem State.commitTo_wrote {s : State} {f : Front} {c : Ctx} {pc : Nat → DWord} (ha : c.act ≠ [])
    (hg : s.group c.gid = some c.g) :
    ∃ g', Wrote s (s.commitTo c f pc) c g' [] ((c.g.luKeys f c.act).filter fun k => !(c.g.dstKeys f c.act).contains k) 0 pc ∧
      ∀ k, g'.reg k = c.g.reg k := by
  have hid : (s.modGroup c.gid fun g => g.puts []) = s := by
    simp only [Group.puts_nil, State.modGroup, smModify]
    have : (s.groups.map fun p => if p.1 = c.gid then (p.1, p.2) else p) = s.groups := by
      refine (List.map_congr_left fun p _ => ?_).trans (List.map_id s.groups)
      split <;> rfl
    rw [this]
  obtain ⟨g', h1, h2⟩ := State.putsCommit_wrote (f := f) (pc := pc) (writes := []) (written := [])
    (used := (c.g.luKeys f c.act).filter fun k => !(c.g.dstKeys f c.act).contains k) ha hg (by simp) (by simp)
    (fun k _ => by simp)
  rw [hid] at h1
  exact ⟨g', h1, h2⟩

/-- What the commit of an instruction with results and flags can do. -/
theorem State.commitFlags_wrote {s : State} {f : Front} {c : Ctx} (once : Bool) {writes : List (Nat × Word)}
    {fl : List (Nat × FpFlags)} {written used : List Nat} (hr : Runs s f c) (hw : ∀ k, k ∈ writes.map (·.1) ↔ k ∈ written)
    (hsub : ∀ k ∈ written, k ∈ c.g.dstKeys f c.act)
    (hu : ∀ k, k ∉ written → (k ∈ used ↔ k ∈ c.g.luKeys f c.act ∧ k ∉ c.g.dstKeys f c.act))
    (ht : flagTrap (fpEnables c.g.fpmode) fl = none) :
    ∃ t g', finish (s.commitFlags c f once writes fl) = .next t ∧ Wrote s t c g' written used (allFlags fl) c.nextPc ∧
      ∀ k, g'.reg k = (c.g.puts writes).reg k := by
  obtain ⟨hf, ha⟩ := hr
  have hcg := State.collectFlags_group (c := c) fl (State.front_group hf)
  obtain ⟨f1, f2, f3, f4, f5, f6, f7, f8, f9, f10⟩ := State.collectFlags_frame s c fl
  have hout : finish (s.commitFlags c f once writes fl) =
      .next (((s.collectFlags c fl).modGroup c.gid fun g => g.puts writes).commitTo c f c.nextPc) := by
    unfold State.commitFlags
    rw [ht]
    rfl
  obtain ⟨g', h1, h2, h3, h4, h5, h6, h7, h8, h9, h10, h11⟩ := State.putsCommit (pc := c.nextPc) ha hcg hw hsub hu
  refine ⟨_, g', hout, ⟨h1, ?_, ?_, h5, h6, h7, h8, fun hb => ?_, fun hb => ?_, fun hb => h4.trans (f10 hb), h10⟩, h11⟩
  · exact ⟨h2.mem.trans f1, h2.grids.trans f3, h2.ctxs.trans f5, h2.dev.trans f7, fun k hk => (h2.groups k hk).trans (f9 k hk)⟩
  · exact ⟨h3.order.trans f2, h3.cores.trans f4, h3.work.trans f6, by rw [← f8]; exact h3.sched⟩
  · rw [h9, hb]; rfl
  · rw [h9]
    have : (s.bodyOf c.gid c.g).isSome := by
      cases h : s.bodyOf c.gid c.g with
      | none => exact absurd h hb
      | some _ => rfl
    simp [this]

/-- The commit of an instruction that writes every destination it names. -/
theorem State.commitFlags_done {s : State} {f : Front} {c : Ctx} (once : Bool) {writes : List (Nat × Word)}
    {fl : List (Nat × FpFlags)} (hr : Runs s f c) (hw : ∀ k, k ∈ writes.map (·.1) ↔ k ∈ c.g.dstKeys f c.act)
    (ht : flagTrap (fpEnables c.g.fpmode) fl = none) :
    ∃ t g', finish (s.commitFlags c f once writes fl) = .next t ∧ Committed s t c g' f (allFlags fl) ∧
      ∀ k, g'.reg k = (c.g.puts writes).reg k :=
  State.commitFlags_wrote once hr hw (fun _ h => h) (fun _ hk => ⟨fun h => ⟨h, hk⟩, fun h => h.1⟩) ht

end Sys2Proof.Machine
end

