-- ==== Sys2Proof/Laws/Issue.lean ====
section
/-! SUPPORT. An instruction of a group is the shared checks and then its own effect, and what trap entry does in each of its
cases. -/

namespace Sys2Proof.Machine

/-! ### Every instruction of a group -/

/-- An instruction of a group runs the shared checks on its front, and then has its own effect (R28, R40, R147). -/
theorem exec_issue (s : State) (v : View) : ∃ k, exec v.instr s = finish (s.issue (v.front s) k) := by
  cases v with
  | p w => exact ⟨_, rfl⟩
  | r op w => cases op <;> exact ⟨_, rfl⟩
  | i op w => cases op <;> exact ⟨_, rfl⟩
  | m op w => cases op <;> exact ⟨_, rfl⟩
  | x op w => cases op <;> exact ⟨_, rfl⟩
  | c op w => cases op <;> exact ⟨_, rfl⟩
  | y op w => cases op <;> exact ⟨_, rfl⟩

/-- A check that fails decides: the instruction waits or traps, with nothing of its own effect. -/
theorem exec_trap {s : State} {v : View} {gid : Nat} {t : Trap} (h : s.front (v.front s) = .trap gid t) :
    exec v.instr s = .next (s.raise gid t) := by
  obtain ⟨k, hk⟩ := exec_issue s v
  rw [hk, State.issue_trap k h, finish_trap]

theorem exec_stall {s : State} {v : View} (h : s.front (v.front s) = .stall) : exec v.instr s = .next s := by
  obtain ⟨k, hk⟩ := exec_issue s v
  rw [hk, State.issue_stall k h, finish_wait]

/-- With no active lane every instruction commits nothing, and its batch goes on (R28). -/
theorem exec_inactive {s : State} {v : View} {c : Ctx} (h : s.front (v.front s) = .go c) (ha : c.act = []) :
    exec v.instr s = .next (s.commit c (v.front s)) := by
  obtain ⟨k, hk⟩ := exec_issue s v
  rw [hk, State.issue_none k h ha, finish_done]

/-- An answer other than that there is no group is a next state. -/
theorem finish_next {a : Act} (h : a ≠ .noGroup) : ∃ t, finish a = .next t := by
  cases a <;> simp [finish] at *

/-! ### Taking a trap -/

/-- A trap of a group that is not there does nothing. -/
theorem State.raise_none {s : State} {gid : Nat} (t : Trap) (h : s.group gid = none) : s.raise gid t = s := by
  simp [State.raise, h]

/-- A group whose wait owes no destination register loses nothing with it. -/
theorem State.cancelWait_eq {s : State} {gid : Nat} (h : (s.group gid).bind (fun g => g.wait.bind Wait.due) = none) :
    s.cancelWait gid = s := by
  simp [State.cancelWait, h]

/-- A wait that ends changes nothing but the group's registers and its producer. -/
theorem State.cancelWait_rest (s : State) (gid : Nat) :
    (s.cancelWait gid).mem = s.mem ∧ (s.cancelWait gid).order = s.order ∧ (s.cancelWait gid).grids = s.grids ∧
      (s.cancelWait gid).teams = s.teams ∧ (s.cancelWait gid).cores = s.cores ∧ (s.cancelWait gid).ctxs = s.ctxs ∧
      (s.cancelWait gid).dev = s.dev ∧ (s.cancelWait gid).sched = s.sched := by
  unfold State.cancelWait
  split <;> simp

/-- In the program buffer a trap stops the buffer and is reported (R367). -/
theorem State.raise_buffered {s : State} {gid : Nat} {g : Group} {b : Halt} (t : Trap) (h : s.group gid = some g)
    (hb : g.halt = some b) : s.raise gid t =
      (s.cancelWait gid).modGroup gid fun g => { g with wait := none, halt := some ⟨[], some t, b.skip⟩ } := by
  simp [State.raise, h, hb]

/-- Outside the program buffer and a relaxation body, a group with a handler that is not in it has the trap pending, and enters
its handler when it has a window (R354, R355). -/
theorem State.raise_handled {s : State} {gid : Nat} {g : Group} {entry : Nat} (t : Trap) (h : s.group gid = some g)
    (hb : g.halt = none) (hr : (s.cancelWait gid).bodyOf gid g = none) (hh : g.handler = none) (ha : g.id.trapAt = some entry) :
    s.raise gid t =
      State.enterHandler (((s.cancelWait gid).modGroup gid fun g => { g with issued := true, wait := none }).modGroup gid fun g =>
        { g with pending := some t, notBefore := max g.notBefore (s.dev.clk + Config.entryCycles) }) gid := by
  simp [State.raise, h, hb, hr, hh, ha, (State.cancelWait_rest s gid).2.2.2.2.2.2.1]

/-- A trap that no handler takes ends the group's fibres, and marks the grid (R357). -/
theorem State.raise_unhandled {s : State} {gid : Nat} {g : Group} (t : Trap) (h : s.group gid = some g) (hb : g.halt = none)
    (hr : (s.cancelWait gid).bodyOf gid g = none) (hh : g.handler.isSome ∨ g.id.trapAt = none)
    (hd : s.haltsOnTrap g.id.ctx = false) :
    s.raise gid t =
      (((s.cancelWait gid).modGroup gid fun g => { g with issued := true, wait := none }).modGrid g.id.grid fun gr =>
        { gr with trapped := true }).endFibres gid (g.fibres.map (·.lane)) := by
  have e : ((s.cancelWait gid).modGroup gid fun g => { g with issued := true, wait := none }).haltsOnTrap g.id.ctx = false := by
    rw [← hd]
    simp [State.haltsOnTrap, State.ctx, (State.cancelWait_rest s gid).2.2.2.2.2.1]
  have hh' : (g.handler.isSome || g.id.trapAt.isNone) = true := by simpa using hh
  simp [State.raise, h, hb, hr, hh', e]

end Sys2Proof.Machine
end

