-- ==== Sys2Proof/Laws/Memory.lean ====
section
/-! SUPPORT. Memory: what a byte reads after a write, and that every operation over memory leaves it in canonical form. -/

namespace Sys2Proof.Machine

/-! ### Bytes -/

/-- A byte that is written reads as what was written. -/
@[simp] theorem memByte_memPut_self (m : List Host.Cell) (a : Nat) (x : Byte) : memByte (memPut m a x) a = x :=
  smGet_smPut_self _ _ _ _

/-- Every other byte reads as before. -/
theorem memByte_memPut_ne (m : List Host.Cell) {a b : Nat} (x : Byte) (h : b ≠ a) : memByte (memPut m a x) b = memByte m b :=
  smGet_smPut_ne _ _ _ h

/-- A byte outside those written reads as before. -/
theorem memByte_memPuts_of_outside (m : List Host.Cell) {a b : Nat} (l : List Byte) (h : b < a ∨ a + l.length ≤ b) :
    memByte (memPuts m a l) b = memByte m b := by
  induction l generalizing m a with
  | nil => rfl
  | cons x l ih =>
    simp only [List.length_cons] at h
    simp only [memPuts]
    rw [ih _ (by omega), memByte_memPut_ne _ _ (by omega)]

/-- A byte that is written among others reads as what was written. -/
theorem memByte_memPuts (m : List Host.Cell) (a : Nat) (l : List Byte) {i : Nat} (h : i < l.length) :
    memByte (memPuts m a l) (a + i) = l[i] := by
  induction l generalizing m a i with
  | nil => simp at h
  | cons x l ih =>
    simp only [memPuts]
    cases i with
    | zero => rw [memByte_memPuts_of_outside _ _ (.inl (by omega))]; simp
    | succ i =>
      have := ih (memPut m a x) (a + 1) (i := i) (by simpa using h)
      rw [show a + (i + 1) = a + 1 + i by omega, this]; simp

/-- Bytes that were written read back. -/
@[simp] theorem memBytes_memPuts_self (m : List Host.Cell) (a : Nat) (l : List Byte) :
    memBytes (memPuts m a l) a l.length = l := by
  refine List.ext_getElem (by simp [memBytes]) fun i h1 h2 => ?_
  simp [memBytes, memByte_memPuts m a l h2]

/-- Bytes that do not meet those written read as before. -/
theorem memBytes_memPuts_of_apart (m : List Host.Cell) {a b n : Nat} (l : List Byte) (h : b + n ≤ a ∨ a + l.length ≤ b) :
    memBytes (memPuts m a l) b n = memBytes m b n := by
  refine List.map_congr_left fun i hi => memByte_memPuts_of_outside _ _ ?_
  have := List.mem_range.1 hi
  omega

@[simp] theorem leOf_length (n x : Nat) : (leOf n x).length = n := by
  induction n generalizing x with
  | zero => rfl
  | succ n ih => simp [leOf, ih]

/-- The bytes of a value give the value back, reduced to their width (R4). -/
@[simp] theorem leVal_leOf (n x : Nat) : leVal (leOf n x) = x % 256 ^ n := by
  induction n generalizing x with
  | zero => simp [leOf, leVal, Nat.mod_one]
  | succ n ih =>
    have e : x % 256 ^ (n + 1) = x % 256 + 256 * (x / 256 % 256 ^ n) := by rw [Nat.pow_succ', Nat.mod_mul]
    rw [e, leOf, leVal, ih, BitVec.toNat_ofNat]

/-- Writing bytes keeps the canonical form. -/
theorem memPut_wf {m : List Host.Cell} (a : Nat) (x : Byte) (h : Memory.wf m) : Memory.wf (memPut m a x) := smWf_smPut _ _ h

theorem memPuts_wf {m : List Host.Cell} (a : Nat) (l : List Byte) (h : Memory.wf m) : Memory.wf (memPuts m a l) := by
  induction l generalizing m a with
  | nil => exact h
  | cons x l ih => exact ih _ (memPut_wf _ _ h)

/-- Reset's memory has the canonical form. -/
theorem reset_memOk : State.reset.MemOk := smWf_nil _

/-! ### A state whose memory is as it was -/

/-- Only memory decides. -/
theorem State.memOk_of_mem {s t : State} (e : t.mem = s.mem) (h : s.MemOk) : t.MemOk := by
  unfold State.MemOk at *; rw [e]; exact h

/-- A fold of operations that keep the canonical form keeps it. -/
theorem State.memOk_foldl {β : Type} {f : State → β → State} (hf : ∀ s b, s.MemOk → (f s b).MemOk) (l : List β) {s : State}
    (h : s.MemOk) : (l.foldl f s).MemOk := by
  induction l generalizing s with
  | nil => exact h
  | cons b l ih => exact ih (hf _ _ h)

/-! ### The moves of the abstract machine -/

/-- Waking monitors changes nothing but groups. -/
theorem State.hitMonitors_eq (s : State) (pa n : Nat) : s.hitMonitors pa n = { s with groups := (s.hitMonitors pa n).groups } := by
  unfold State.hitMonitors
  dsimp only
  split <;> rfl

@[simp] theorem State.hitMonitors_mem (s : State) (pa n : Nat) : (s.hitMonitors pa n).mem = s.mem := by
  rw [State.hitMonitors_eq]

/-- A write in M writes its bytes. -/
@[simp] theorem State.writeM_mem (s : State) (pa : Nat) (l : List Byte) : (s.writeM pa l).mem = memPuts s.mem pa l := by
  simp [State.writeM]

/-- A write in M changes nothing but memory, the errors of the words that it writes whole, and groups that monitor it. -/
theorem State.writeM_eq (s : State) (pa : Nat) (l : List Byte) :
    s.writeM pa l =
      { s with mem := memPuts s.mem pa l, dev := s.cleared pa l.length, groups := (s.writeM pa l).groups } := by
  unfold State.writeM
  rw [State.hitMonitors_eq]

/-- With no word in error, a write in M leaves the device as it was. -/
@[simp] theorem State.cleared_eq {s : State} (pa n : Nat) (h : s.dev.poison = []) : s.cleared pa n = s.dev := by
  cases hd : s.dev
  simp_all [State.cleared]

/-- Bytes of a line enter M one after another, and then the monitors see them. -/
theorem State.writeEach_memOk {s : State} (l : List (Nat × Byte)) (h : s.MemOk) : (s.writeEach l).MemOk := by
  unfold State.writeEach
  dsimp only
  refine State.memOk_foldl (fun t b ht => State.memOk_of_mem (by simp) ht) _ ?_
  unfold State.MemOk at h ⊢
  dsimp only
  generalize s.mem = m at h
  induction l generalizing m with
  | nil => exact h
  | cons x l ih => exact ih _ (memPut_wf _ _ h)

theorem State.writeM_memOk {s : State} (pa : Nat) (l : List Byte) (h : s.MemOk) : (s.writeM pa l).MemOk := by
  unfold State.MemOk
  rw [State.writeM_mem]
  exact memPuts_wf _ _ h

theorem State.landWrite_memOk {s : State} (w : TcWrite) (h : s.MemOk) : (s.landWrite w).MemOk := by
  unfold State.landWrite
  split
  · exact State.writeM_memOk _ _ h
  · exact State.memOk_of_mem rfl h

theorem State.drainLine_memOk {s : State} (line : Nat) (h : s.MemOk) : (s.drainLine line).MemOk :=
  State.memOk_foldl (fun _ w h => State.landWrite_memOk w h) _ (State.memOk_of_mem rfl h)

theorem State.drainOthers_memOk {s : State} (core line : Nat) (h : s.MemOk) : (s.drainOthers core line).MemOk :=
  State.memOk_foldl (fun _ w h => State.landWrite_memOk w h) _ (State.memOk_of_mem rfl h)

theorem State.mergeLine_memOk {s : State} (line : Nat) (h : s.MemOk) : (s.mergeLine line).MemOk := by
  unfold State.mergeLine
  dsimp only
  split
  · exact h
  · refine State.writeEach_memOk _ (State.memOk_foldl (fun t p ht => ?_) _ (State.memOk_of_mem rfl (State.drainLine_memOk line h)))
    exact State.memOk_foldl (f := State.doom) (fun t c ht => State.memOk_of_mem rfl ht) _ ht

theorem State.settleLine_memOk {s : State} (line : Nat) (h : s.MemOk) : (s.settleLine line).MemOk :=
  State.mergeLine_memOk _ (State.drainLine_memOk _ h)

theorem State.settle_memOk {s : State} (pa n : Nat) (h : s.MemOk) : (s.settle pa n).MemOk :=
  State.memOk_foldl (fun _ l h => State.settleLine_memOk l h) _ h

theorem State.performRead_memOk {s : State} (pa n : Nat) (h : s.MemOk) : (s.performRead pa n).2.MemOk :=
  State.settle_memOk pa n h

theorem State.performWrite_memOk {s : State} (pa : Nat) (l : List Byte) (h : s.MemOk) : (s.performWrite pa l).MemOk :=
  State.writeM_memOk _ _ (State.settle_memOk _ _ h)

theorem State.performRmw_memOk {s : State} (aop pa n b d : Nat) (h : s.MemOk) : (s.performRmw aop pa n b d).2.MemOk :=
  State.writeM_memOk _ _ (State.performRead_memOk pa n h)

theorem State.accumulateRed_memOk {s : State} (r : RedInFlight) (h : s.MemOk) : (s.accumulateRed r).MemOk := by
  unfold State.accumulateRed
  dsimp only
  split <;> split <;> first | exact State.memOk_of_mem rfl (State.mergeLine_memOk _ h) | exact State.memOk_of_mem rfl h

theorem State.cellMove_memOk {s : State} (σ : Word) (key chk : DWord) (pa : Nat) (h : s.MemOk) : (s.cellMove σ key chk pa).MemOk :=
  State.writeEach_memOk _ (State.settle_memOk pa 32 h)

@[simp] theorem State.holdFor_mem (s : State) (gid : Nat) (l : List Nat) : (s.holdFor gid l).mem = s.mem := by
  unfold State.holdFor; split <;> simp

theorem State.performAccess_memOk {s : State} (t : Target) (a : Access) (h : s.MemOk) : (s.performAccess t a).MemOk := by
  unfold State.performAccess
  dsimp only
  split
  · exact State.memOk_of_mem (by simp) h
  · split
    · exact State.memOk_of_mem (State.fill_mem _ _ _)
        (State.performRead_memOk a.pa a.bytes (State.memOk_of_mem (State.holdFor_mem _ _ _) h))
    · split
      · exact State.memOk_of_mem (State.fill_mem _ _ _) (State.performRead_memOk a.pa a.bytes h)
      · exact State.performWrite_memOk _ _ h
      · exact State.memOk_of_mem (State.fill_mem _ _ _) (State.performRmw_memOk _ _ _ _ _ h)
      · exact State.cellMove_memOk _ _ _ _ h
      · exact State.accumulateRed_memOk _ h

theorem State.tcRead_memOk {s : State} (gid core pa n : Nat) (h : s.MemOk) : (s.tcRead gid core pa n).2.MemOk :=
  State.memOk_of_mem rfl (State.mergeLine_memOk (lineOf pa) h)

theorem State.tcWrite_memOk {s : State} (gid core ctx pa : Nat) (l : List Byte) (h : s.MemOk) :
    (s.tcWrite gid core ctx pa l).MemOk :=
  State.memOk_of_mem rfl (State.mergeLine_memOk (lineOf pa) (State.drainOthers_memOk core (lineOf pa) h))

theorem State.tcRmw_memOk {s : State} (gid core ctx aop pa n b d : Nat) (h : s.MemOk) :
    (s.tcRmw gid core ctx aop pa n b d).2.MemOk :=
  State.tcWrite_memOk _ _ _ _ _ (State.tcRead_memOk _ _ _ _ (State.mergeLine_memOk _ (State.drainOthers_memOk _ _ h)))

/-! ### Translation -/

/-- The state of an entry's read. -/
def EntryRead.state : EntryRead → State
  | .ok _ s | .refused s | .blocked s => s

/-- Reading an entry of a table writes nothing of its own. -/
theorem State.readEntry_memOk {s : State} (ctx pa : Nat) (asCtx : Bool) (h : s.MemOk) : (s.readEntry ctx pa asCtx).state.MemOk := by
  unfold State.readEntry
  dsimp only
  generalize (if asCtx = true then ctx else Config.walkerId) = m
  split
  · exact h
  · split
    · exact State.memOk_of_mem rfl h
    · split
      · exact State.memOk_of_mem rfl h
      · exact State.performRead_memOk pa 8 h

@[simp] theorem State.cacheTlb_mem (s : State) (t : Tlb) : (s.cacheTlb t).mem = s.mem := by unfold State.cacheTlb; split <;> rfl
@[simp] theorem State.cacheNode_mem (s : State) (n : Node) : (s.cacheNode n).mem = s.mem := by unfold State.cacheNode; split <;> rfl

theorem State.walkLeaf_memOk {s : State} (ctx va : Nat) (k : Kind) (mt0 : Bool) (lvl ea : Nat) (asCtx : Bool) (raw : Nat)
    (h : s.MemOk) : (s.walkLeaf ctx va k mt0 lvl ea asCtx raw).state.MemOk := by
  unfold State.walkLeaf
  dsimp only
  generalize (if asCtx = true then ctx else Config.walkerId) = m
  split
  · exact h
  · split
    · split
      · exact h
      · exact State.memOk_of_mem rfl h
    · split
      · split
        · exact h
        · split
          · exact State.memOk_of_mem rfl h
          · exact State.memOk_of_mem (State.cacheTlb_mem _ _) (State.performWrite_memOk _ _ h)
      · exact State.memOk_of_mem (State.cacheTlb_mem _ _) h

/-- A walk writes only the A and D bits, through M (R216, R219). -/
theorem State.walkFrom_memOk {s : State} (ctx va : Nat) (k : Kind) (mt0 : Bool) (lvl t : Nat) (asCtx : Bool) (h : s.MemOk) :
    (s.walkFrom ctx va k mt0 lvl t asCtx).state.MemOk := by
  induction lvl generalizing s t asCtx with
  | zero =>
    unfold State.walkFrom
    dsimp only
    have hr := State.readEntry_memOk ctx (t + 8 * (va / 2 ^ (12 + 9 * 0) % 512)) asCtx h
    split
    · next e => rw [e] at hr; exact hr
    · next e => rw [e] at hr; exact hr
    · next e =>
      rw [e] at hr
      split
      · exact hr
      · split
        · exact hr
        · split
          · exact State.walkLeaf_memOk _ _ _ _ _ _ _ _ hr
          · exact hr
  | succ n ih =>
    unfold State.walkFrom
    dsimp only
    have hr := State.readEntry_memOk ctx (t + 8 * (va / 2 ^ (12 + 9 * (n + 1)) % 512)) asCtx h
    split
    · next e => rw [e] at hr; exact hr
    · next e => rw [e] at hr; exact hr
    · next e =>
      rw [e] at hr
      split
      · exact hr
      · split
        · exact hr
        · split
          · exact State.walkLeaf_memOk _ _ _ _ _ _ _ _ hr
          · exact ih _ _ (State.memOk_of_mem (State.cacheNode_mem _ _) hr)

theorem Walk.map_memOk {w : Walk} {f : State → State} (hf : ∀ s, (f s).mem = s.mem) (h : w.state.MemOk) : (w.map f).state.MemOk := by
  cases w <;> exact State.memOk_of_mem (hf _) h

theorem State.walkRoot_memOk {s : State} (ctx va : Nat) (k : Kind) (mt0 : Bool) (h : s.MemOk) :
    (s.walkRoot ctx va k mt0).state.MemOk := by
  unfold State.walkRoot
  exact State.walkFrom_memOk _ _ _ _ _ _ _ (State.memOk_of_mem rfl h)

theorem State.useLeaf_memOk {s : State} (k : Kind) (t : Tlb) (h : s.MemOk) : (s.useLeaf k t).state.MemOk := by
  unfold State.useLeaf
  split <;> exact h

/-- A translation, by the tables or by what was cached of them. -/
theorem State.translate_memOk {s : State} (ctx va : Nat) (k : Kind) (mt0 : Bool) (h : s.MemOk) :
    (s.translate ctx va k mt0).state.MemOk := by
  have hn : s.draw.2.MemOk := State.memOk_of_mem (State.draw_mem s) h
  unfold State.translate
  dsimp only
  split
  · exact Walk.map_memOk (fun _ => rfl) (State.walkRoot_memOk _ _ _ _ h)
  · split
    · exact State.useLeaf_memOk _ _ hn
    · exact State.walkFrom_memOk _ _ _ _ _ _ _ hn
    · exact Walk.map_memOk (fun _ => rfl) (State.walkRoot_memOk _ _ _ _ hn)

theorem State.access_memOk {s : State} (ctx va n : Nat) (k : Kind) (mt0 : Bool) (h : s.MemOk) :
    (s.access ctx va n k mt0).state.MemOk := by
  unfold State.access
  have hw := State.translate_memOk ctx va k mt0 h
  generalize s.translate ctx va k mt0 = w at hw
  split
  · dsimp only
    split
    · exact hw
    · split
      · exact State.memOk_of_mem rfl hw
      · exact hw
  · exact hw

/-! ### Accesses of units -/

/-- The state of a unit's access. -/
def UnitRes.state : UnitRes → State
  | .ok s _ | .fault s _ _ | .blocked s => s

theorem State.unitWalk_memOk {s : State} (ctx : Nat) (va : DWord) (n : Nat) (k : Kind) (h : s.MemOk) :
    (s.unitWalk ctx va n k).state.MemOk := by
  unfold State.unitWalk
  split
  · exact State.access_memOk _ _ _ _ _ h
  · exact h

/-- A unit's access writes through M alone. -/
theorem State.unitAccess_memOk {s : State} (a : Agent) (ctx : Nat) (va : DWord) (n : Nat) (k : Kind)
    (f : List Byte → Option (List Byte)) (h : s.MemOk) : (s.unitAccess a ctx va n k f).state.MemOk := by
  unfold State.unitAccess
  have hw := State.unitWalk_memOk ctx va n k h
  generalize s.unitWalk ctx va n k = w at hw
  cases w with
  | blocked t => exact hw
  | fault t c l => exact hw
  | ok t tr =>
    dsimp only
    split
    · exact h
    · split
      · exact State.memOk_of_mem rfl hw
      · split
        · exact State.memOk_of_mem rfl h
        · have hf : State.MemOk (if (tr.mt == 3) = true then State.flip t (tr.addr (va.toNat % 2 ^ 57)) else t) := by
            split
            · exact State.memOk_of_mem rfl hw
            · exact hw
          have hs := State.settle_memOk (tr.addr (va.toNat % 2 ^ 57)) n hf
          split
          · exact State.writeM_memOk _ _ hs
          · exact hs

theorem State.unitRead_memOk {s : State} (a : Agent) (ctx : Nat) (va : DWord) (n : Nat) (h : s.MemOk) :
    (s.unitRead a ctx va n).state.MemOk := State.unitAccess_memOk _ _ _ _ _ _ h

theorem State.unitWrite_memOk {s : State} (a : Agent) (ctx : Nat) (va : DWord) (x : List Byte) (h : s.MemOk) :
    (s.unitWrite a ctx va x).state.MemOk := State.unitAccess_memOk _ _ _ _ _ _ h

theorem State.unitAdd_memOk {s : State} (a : Agent) (ctx : Nat) (va : DWord) (x : Nat) (h : s.MemOk) :
    (s.unitAdd a ctx va x).state.MemOk := by
  unfold State.unitAdd
  split
  · exact h
  · exact State.unitAccess_memOk _ _ _ _ _ _ h

/-! ### Accesses of groups -/

/-- Steps 3 and 4 of the checks write only A and D bits. -/
theorem State.walkElems_memOk {s : State} (c : Ctx) (sp : Space) (sc : Scope) (mt0 : Bool) (k : Kind) (els : List Elem)
    (h : s.MemOk) : (s.walkElems c sp sc mt0 k els).s.MemOk := by
  have : ∀ (a : Walked) (e : Elem), a.s.MemOk → (Walked.elem c sp sc mt0 k a e).s.MemOk := by
    intro a e ha
    unfold Walked.elem
    split
    · exact ha
    · have hw := State.access_memOk c.g.id.ctx e.va.toNat e.bytes k mt0 ha
      split
      · next he => rw [he] at hw; exact hw
      · next he => rw [he] at hw; exact hw
      · next he => rw [he] at hw; exact hw
  unfold State.walkElems
  suffices ∀ a : Walked, a.s.MemOk → (els.foldl (Walked.elem c sp sc mt0 k) a).s.MemOk from this _ h
  intro a ha
  induction els generalizing a with
  | nil => exact ha
  | cons e els ih => exact ih _ (this _ _ ha)

/-- The reuse counters note a line, and nothing else changes (R370). -/
@[simp] theorem State.noteLine_mem (s : State) (id : Ident) (line : Nat) : (s.noteLine id line).mem = s.mem := by
  unfold State.noteLine
  dsimp only
  split
  · rfl
  · split
    · rfl
    · rfl

/-- An element's access writes through M, or queues its write. -/
theorem State.perform_memOk {s : State} (c : Ctx) (x : Hit) (k : AccKind) (prod : Nat) (keys : List Nat) (h : s.MemOk) :
    (s.perform c x k prod keys).MemOk := by
  have give : ∀ (t : State) (v : Nat), t.MemOk →
      State.MemOk (if keys.isEmpty = true then t else t.fill prod (wordsFor keys v)) := by
    intro t v ht
    split
    · exact ht
    · exact State.memOk_of_mem (by simp) ht
  have note : ∀ line, (s.noteLine c.g.id line).MemOk := fun line => State.memOk_of_mem (State.noteLine_mem _ _ _) h
  unfold State.perform
  dsimp only
  split
  · split
    · exact give _ _ h
    · exact State.memOk_of_mem (by simp) h
    · exact give _ _ (State.memOk_of_mem (by simp) h)
    · exact State.memOk_of_mem (by simp) h
    · exact h
  · split
    · split
      · exact give _ _ (State.performRead_memOk _ _ (note _))
      · exact State.performWrite_memOk _ _ (note _)
      · exact give _ _ (State.performRmw_memOk _ _ _ _ _ (note _))
      · exact State.performRmw_memOk _ _ _ _ _ (note _)
      · exact State.cellMove_memOk _ _ _ _ (note _)
    · exact give _ _ (State.memOk_of_mem rfl (note _))
  · split
    · split
      · exact give _ _ (State.tcRead_memOk _ _ _ _ (note _))
      · exact State.tcWrite_memOk _ _ _ _ _ (note _)
      · exact give _ _ (State.tcRmw_memOk _ _ _ _ _ _ _ _ (note _))
      · exact State.tcRmw_memOk _ _ _ _ _ _ _ _ (note _)
      · exact State.cellMove_memOk _ _ _ _ (note _)
    · exact give _ _ (State.memOk_of_mem rfl (note _))
  · exact State.memOk_of_mem (by simp) h
  · split <;> exact State.memOk_of_mem (by simp) h

end Sys2Proof.Machine
end

