-- ==== Sys2Proof/Laws/Operands.lean ====
section
/-! SUPPORT. The operand forms: the keys of an operand's registers are distinct, and a value written over consecutive
registers reads back (R24). -/

namespace Sys2Proof.Machine

/-- The lane that a register of an operand is kept under. -/
def regLane (x : Operand) (lane : Nat) : Nat := if x.isS then 0 else lane

/-- A register operand: v, s, o or h. -/
theorem isReg_cases {x : Operand} (h : x.isReg = true) : (∃ i, x = .v i) ∨ (∃ i, x = .s i) ∨ (∃ i, x = .o i) ∨ ∃ i, x = .h i := by
  cases x <;> simp_all [Operand.isReg, Operand.hasBit, Operand.isV, Operand.isS, Operand.isO, Operand.isH]

/-- Two registers of an operand share a key only when they are the same one: with indices below 256. -/
theorem Group.key_inj {g : Group} {x : Operand} {a b i j : Nat} (hx : x.isReg = true) (hi : x.idx + i < 256)
    (hj : x.idx + j < 256) (h : g.key x a i = g.key x b j) : regLane x a = regLane x b ∧ i = j := by
  rcases hw : g.handler.isSome with _ | _ <;>
  obtain ⟨r, rfl⟩ | ⟨r, rfl⟩ | ⟨r, rfl⟩ | ⟨r, rfl⟩ := isReg_cases hx <;>
  simp only [Group.key, regKey, Operand.idx, regLane, Operand.isS, hw, Bool.false_and, Bool.true_and, decide_eq_true_eq,
    Bool.false_eq_true, if_false, if_true] at * <;>
  (try split at h) <;> (try split at h) <;> refine ⟨?_, ?_⟩ <;> omega

/-- A register's key depends on the lane only through `regLane`. -/
theorem Group.key_regLane (g : Group) {x : Operand} (a j : Nat) : g.key x (regLane x a) j = g.key x a j := by
  cases x <;> simp [regLane, Operand.isS, Group.key]

theorem Group.mem_keys {g : Group} {x : Operand} {n : Nat} {lanes : List Nat} {k : Nat} (hl : lanes ≠ []) :
    k ∈ g.keys x n lanes ↔ ∃ l ∈ lanes, ∃ j < n, k = g.key x l j := by
  unfold Group.keys regLanes
  simp only [List.mem_flatMap, List.mem_map, List.mem_range]
  split
  · next hs =>
    have hk : ∀ a j, g.key x a j = g.key x 0 j := by
      intro a j; cases x <;> simp_all [Operand.isS, Group.key]
    obtain ⟨a, ha⟩ := List.exists_mem_of_ne_nil _ hl
    constructor
    · rintro ⟨l, _, j, hj, rfl⟩; exact ⟨a, ha, j, hj, by rw [hk l, hk a]⟩
    · rintro ⟨l, _, j, hj, rfl⟩; exact ⟨0, by simp, j, hj, by rw [hk l]⟩
  · constructor
    · rintro ⟨l, hl, j, hj, rfl⟩; exact ⟨l, hl, j, hj, rfl⟩
    · rintro ⟨l, hl, j, hj, rfl⟩; exact ⟨l, hl, j, hj, rfl⟩

@[simp] theorem Group.split_fst (g : Group) (x : Operand) (n lane v : Nat) :
    (g.split x n lane v).map (·.1) = (List.range n).map fun j => g.key x lane j := by
  simp [Group.split, Function.comp_def]

/-- The keys written by one value for each lane. -/
theorem Group.mem_split_keys {g : Group} {x : Operand} {n : Nat} {ls lanes : List Nat} {val : Nat → Nat} {k : Nat}
    (hl : lanes ≠ []) (hls : ∀ l ∈ ls, l ∈ lanes) (hcov : ∀ l ∈ lanes, ∃ a ∈ ls, regLane x a = regLane x l) :
    k ∈ (ls.flatMap fun l => g.split x n l (val l)).map (·.1) ↔ k ∈ g.keys x n lanes := by
  rw [Group.mem_keys hl, List.map_flatMap]
  simp only [List.mem_flatMap, Group.split_fst, List.mem_map, List.mem_range]
  constructor
  · rintro ⟨l, h, j, hj, rfl⟩; exact ⟨l, hls l h, j, hj, rfl⟩
  · rintro ⟨l, h, j, hj, rfl⟩
    obtain ⟨a, ha, he⟩ := hcov l h
    exact ⟨a, ha, j, hj, by rw [← Group.key_regLane, he, Group.key_regLane]⟩

/-- The value of n registers from their words. -/
theorem bits_of_words {n : Nat} {r : Nat → Word} {v : Nat} (h : ∀ j < n, r j = BitVec.ofNat 32 (v / 2 ^ (32 * j))) :
    (List.range n).foldr (fun j acc => (r j).toNat + 2 ^ 32 * acc) 0 = v % 2 ^ (32 * n) := by
  induction n generalizing r v with
  | zero => simp [Nat.mod_one]
  | succ n ih =>
    rw [List.range_succ_eq_map, List.foldr_cons, List.foldr_map]
    have h0 := h 0 (by omega)
    have := ih (r := fun j => r (j + 1)) (v := v / 2 ^ 32) fun j hj => by
      rw [h (j + 1) (by omega), Nat.div_div_eq_div_mul, ← Nat.pow_add]
      congr 3; omega
    rw [this, h0]
    simp only [Nat.mul_zero, Nat.pow_zero, Nat.div_one, BitVec.toNat_ofNat]
    rw [show 32 * (n + 1) = 32 + 32 * n by omega, Nat.pow_add, Nat.mod_mul]

/-- Values written over n consecutive registers of an operand, one for each lane, read back: the lanes that share registers
write one value. -/
theorem Group.bits_puts {g : Group} {x : Operand} {n : Nat} {ls : List Nat} {val : Nat → Nat} (hx : x.isReg = true)
    (hn : x.idx + n ≤ 256) {l : Nat} (hl : l ∈ ls) (hv : ∀ a ∈ ls, regLane x a = regLane x l → val a = val l) :
    (g.puts (ls.flatMap fun l => g.split x n l (val l))).bits x n l = val l % 2 ^ (32 * n) := by
  have hh : (g.puts (ls.flatMap fun l => g.split x n l (val l))).handler = g.handler := by rw [Group.puts_eq]
  have hk : ∀ j, (g.puts (ls.flatMap fun l => g.split x n l (val l))).key x l j = g.key x l j := by
    intro j; simp [Group.key, hh]
  unfold Group.bits
  refine bits_of_words fun j hj => ?_
  rw [hk]
  refine Group.reg_puts_of_mem _ ?_ ?_
  · rw [List.mem_flatMap]
    exact ⟨l, hl, List.mem_map.2 ⟨j, List.mem_range.2 hj, rfl⟩⟩
  · intro y hy
    rw [List.mem_flatMap] at hy
    obtain ⟨a, ha, hy⟩ := hy
    obtain ⟨i, hi, he⟩ := List.mem_map.1 hy
    have hi := List.mem_range.1 hi
    obtain ⟨h1, h2⟩ := Group.key_inj hx (by omega) (by omega) (Prod.mk.inj he).1
    rw [← (Prod.mk.inj he).2, h2, hv a ha h1]

theorem Group.bits_congr {g g' : Group} (hr : ∀ k, g'.reg k = g.reg k) (hh : g'.handler = g.handler) (x : Operand)
    (n lane : Nat) : g'.bits x n lane = g.bits x n lane := by
  simp [Group.bits, Group.key, hr, hh]

/-- An s operand and a constant read the same in every lane. -/
theorem Group.rd_lane (g : Group) {x : Operand} (h : (x.isS || x.isK) = true) (a b : Nat) (t : Ty) : g.rd x a t = g.rd x b t := by
  cases x <;> simp_all [Operand.isS, Operand.isK, Group.rd, Group.bits, Group.key]

@[simp] theorem regLane_s {x : Operand} (h : x.isS = true) (a : Nat) : regLane x a = 0 := by simp [regLane, h]

@[simp] theorem regLane_other {x : Operand} (h : x.isS = false) (a : Nat) : regLane x a = a := by simp [regLane, h]

/-- Narrow values fit their registers. -/
theorem extend_lt (t : Ty) (b : Nat) : extend t b < 2 ^ (32 * t.regs) := by
  unfold extend
  split
  · next h =>
    have : t.regs = 1 := by
      simp only [Bool.or_eq_true, decide_eq_true_eq] at h
      rcases h with h | h <;> subst h <;> rfl
    rw [this]
    unfold truncInt
    have := Int.emod_lt_of_pos (t.intOf b) (show (0 : Int) < 2 ^ 32 by decide)
    have := Int.emod_nonneg (t.intOf b) (show ((2 : Int) ^ 32) ≠ 0 by decide)
    omega
  · have : 2 ^ t.width ≤ 2 ^ (32 * t.regs) := by cases t <;> decide
    have h2 := Nat.mod_lt b (show 2 ^ t.width > 0 by exact Nat.two_pow_pos _)
    omega

end Sys2Proof.Machine
end

