-- ==== Sys2Proof/Laws/Vector.lean ====
section
/-! SUPPORT. What the vector and uniform instructions that compute each lane by itself can do (R165-R177). -/

namespace Sys2Proof

/-- An opcode that computes each lane by itself, and writes D alone. -/
def ROp.plain (op : ROp) : Bool :=
  match op with
  | .sfu | .xacc | .xcvt | .kcg | .shfl | .push | .bcast | .scan | .lred | .vote => false
  | _ => true

end Sys2Proof

namespace Sys2Proof.Machine

/-- The flags of an instruction, by lane. -/
def State.laneFlags (s : State) (c : Ctx) (op : ROp) (w : RWord) : List (Nat × FpFlags) :=
  (c.lanesOf (op.uniform w)).map fun l => (l, (s.laneBits c op w l).2)

theorem allFlags_zero {fl : List (Nat × FpFlags)} (h : ∀ p ∈ fl, p.2 = 0) : allFlags fl = 0 := by
  unfold allFlags
  have : ∀ (l : List (Nat × FpFlags)) (a : FpFlags), (∀ p ∈ l, p.2 = 0) → l.foldl (fun a p => a ||| p.2) a = a := by
    intro l
    induction l with
    | nil => intros; rfl
    | cons p l ih =>
      intro a h
      rw [List.foldl_cons, ih _ fun q hq => h q (List.mem_cons_of_mem _ hq), h p List.mem_cons_self]
      simp
  exact this fl 0 h

/-- No trap comes of no flag. -/
theorem flagTrap_zero {fl : List (Nat × FpFlags)} (en : BitVec 6) (h : ∀ p ∈ fl, p.2 = 0) : flagTrap en fl = none := by
  unfold flagTrap
  rw [allFlags_zero h]
  simp

/-- No trap comes while no flag is enabled. -/
theorem flagTrap_off (fl : List (Nat × FpFlags)) : flagTrap 0 fl = none := by
  simp [flagTrap]

theorem ROp.dRegs_plain {op : ROp} (w : RWord) (h : op.plain = true) : op.dRegs w = (op.slotD w).regs := by
  cases op <;> simp_all [ROp.plain, ROp.dRegs]

theorem ROp.dsts_plain {op : ROp} (w : RWord) (h : op.plain = true) : (op.front w).dsts = [(w.d, (op.slotD w).regs)] := by
  have : op ≠ .push := by rintro rfl; simp [ROp.plain] at h
  show [(w.d, op.dRegs w)] ++ _ = _
  rw [ROp.dRegs_plain w h]
  split <;> simp [this]

theorem ROp.crossLane_plain {op : ROp} (h : op.plain = true) : op.crossLane = false := by
  cases op <;> simp_all [ROp.plain, ROp.crossLane]

theorem regs_cases (t : Ty) : t.regs = 1 ∨ t.regs = 2 := by cases t <;> simp [Ty.regs, Ty.width]

/-- A register that holds a value of a type lies below 256 with its pair (R24). -/
theorem fits_lt {x : Operand} {t : Ty} (hx : x.isReg = true) (hf : x.fits t = true) : x.idx + t.regs ≤ 256 := by
  obtain ⟨r, rfl⟩ | ⟨r, rfl⟩ | ⟨r, rfl⟩ | ⟨r, rfl⟩ := isReg_cases hx <;>
  have := r.isLt <;>
  simp [Operand.fits, Operand.idx] at hf ⊢ <;>
  rcases regs_cases t with h | h <;> rw [h] at hf ⊢ <;> omega

/-- What a well-formed word of format 0 gives of its destination. -/
theorem ROp.wf_dest {op : ROp} {w : RWord} (h : op.wf w = true) : w.d.isReg = true ∧ w.d.fits (op.slotD w) = true ∧
    (w.d.isS = false ∨ op.uniform w = true ∨ op = .bcast ∨ op = .lred ∨ op = .vote) := by
  simp only [ROp.wf, Bool.and_eq_true] at h
  refine ⟨h.1.1.1.1.1.1.1.1.1.2, h.1.1.1.1.1.1.1.1.2, ?_⟩
  have h3 := h.1.1.2
  simp only [Bool.or_eq_true, Bool.not_eq_true', beq_iff_eq, or_assoc] at h3
  exact h3

theorem ROp.wf_plain {op : ROp} {w : RWord} (h : op.wf w = true) (hp : op.plain = true) :
    w.d.isS = false ∨ op.uniform w = true := by
  rcases (ROp.wf_dest h).2.2 with h | h | h | h | h
  · exact .inl h
  · exact .inr h
  all_goals subst h; simp [ROp.plain] at hp

/-- An instruction with no B does not depend on it. -/
theorem laneResult_unary {op : ROp} (w : RWord) (mode : Rnd) (a b b' c d rho : Nat) (h : op.unary = true) :
    laneResult op w mode a b c d rho = laneResult op w mode a b' c d rho := by
  cases op <;> simp only [ROp.unary, Bool.false_eq_true] at h <;> simp only [laneResult, logicBits, intExact]

/-- A uniform instruction's result does not depend on the lane it is read from (R160). -/
theorem State.laneBits_uniform (s : State) (c : Ctx) {op : ROp} {w : RWord} (hu : op.uniform w = true) (a b : Nat) :
    s.laneBits c op w a = s.laneBits c op w b := by
  have h := hu
  unfold ROp.uniform at h
  simp only [Bool.and_eq_true] at h
  obtain ⟨⟨⟨⟨_, hd⟩, ha⟩, hb⟩, hc⟩ := h
  unfold State.laneBits
  have e1 : c.g.rd w.a a (op.slotA w) = c.g.rd w.a b (op.slotA w) := c.g.rd_lane ha a b _
  have e4 : c.g.rd w.d a .n32 = c.g.rd w.d b .n32 := c.g.rd_lane (by simp [hd]) a b _
  have e5 : s.rho c (op.uniform w) (c.g.rounding w.rnd) a = s.rho c (op.uniform w) (c.g.rounding w.rnd) b := by
    simp [State.rho, hu]
  have e2 : ∀ x y z v, laneResult op w x y (c.g.rd w.b a (op.slotB w)) z v = laneResult op w x y (c.g.rd w.b b (op.slotB w)) z v := by
    intro x y z v
    by_cases hun : op.unary = true
    · funext r; exact laneResult_unary w _ _ _ _ _ _ _ hun
    · simp only [Bool.or_eq_true] at hb
      rw [c.g.rd_lane (by simpa using hb.resolve_left hun) a b _]
  rcases hcw : w.c with _ | x
  · simp only [e1, e2, e4, e5]
  · have e3 : c.g.rd x a (op.slotC w) = c.g.rd x b (op.slotC w) := by
      rw [hcw] at hc
      exact c.g.rd_lane hc a b _
    simp only [e1, e2, e3, e4, e5]

/-- What an instruction of format 0 that computes each lane by itself can do, when no enabled flag is raised: it commits,
and D of every active lane holds its result. -/
theorem actAlu_done {op : ROp} {w : RWord} {s : State} {c : Ctx} (hp : op.plain = true) (hwf : op.wf w = true)
    (hr : Runs s (op.front w) c) (ht : flagTrap (fpEnables c.g.fpmode) (s.laneFlags c op w) = none) :
    ∃ t g', finish (actAlu op w s) = .next t ∧ Committed s t c g' (op.front w) (allFlags (s.laneFlags c op w)) ∧
      ∀ l ∈ c.act, g'.bits w.d (op.slotD w).regs l = extend (op.slotD w) (s.laneBits c op w l).1 := by
  obtain ⟨hreg, hfit, -⟩ := ROp.wf_dest hwf
  have hds := ROp.dsts_plain w hp
  have hact : actAlu op w s = s.commitFlags c (op.front w) (op.uniform w)
      ((c.lanesOf (op.uniform w)).flatMap fun l => c.g.split w.d (op.slotD w).regs l (extend (op.slotD w) (s.laneBits c op w l).1))
      (s.laneFlags c op w) := by
    unfold actAlu
    rw [State.issue_go _ hr.1 hr.2]
    simp only [List.flatMap_map, List.map_map, Group.wr, State.laneFlags, Function.comp_def]
  have hcov : ∀ l ∈ c.act, ∃ a ∈ c.lanesOf (op.uniform w), regLane w.d a = regLane w.d l ∧ s.laneBits c op w a = s.laneBits c op w l := by
    intro l hl
    unfold Ctx.lanesOf
    split
    · next hu =>
      have hd : w.d.isS = true := by
        have h := hu; unfold ROp.uniform at h; simp only [Bool.and_eq_true] at h; exact h.1.1.1.2
      cases hca : c.act with
      | nil => simp [hca] at hl
      | cons a r =>
        exact ⟨a, by simp, by rw [regLane_s hd, regLane_s hd], State.laneBits_uniform s c hu _ _⟩
    · exact ⟨l, hl, rfl, rfl⟩
  have hsub : ∀ l ∈ c.lanesOf (op.uniform w), l ∈ c.act := by
    intro l hl
    unfold Ctx.lanesOf at hl
    split at hl
    · exact List.mem_of_mem_take hl
    · exact hl
  have hkeys : ∀ k, k ∈ ((c.lanesOf (op.uniform w)).flatMap fun l =>
      c.g.split w.d (op.slotD w).regs l (extend (op.slotD w) (s.laneBits c op w l).1)).map (·.1) ↔
      k ∈ c.g.dstKeys (op.front w) c.act := by
    intro k
    rw [Group.mem_split_keys hr.2 hsub fun l hl => by
      obtain ⟨a, h1, h2, -⟩ := hcov l hl; exact ⟨a, h1, h2⟩]
    simp [Group.dstKeys, hds]
  obtain ⟨t, g', h1, h2, h3⟩ := State.commitFlags_done (op.uniform w) hr hkeys ht
  refine ⟨t, g', by rw [hact]; exact h1, h2, fun l hl => ?_⟩
  obtain ⟨a, ha, hra, hba⟩ := hcov l hl
  have hh : g'.handler = (c.g.puts ((c.lanesOf (op.uniform w)).flatMap fun l =>
      c.g.split w.d (op.slotD w).regs l (extend (op.slotD w) (s.laneBits c op w l).1))).handler := by
    rw [h2.keeps.handler, Group.puts_eq]
  rw [Group.bits_congr h3 hh]
  have hlane : ∀ (g : Group) n, g.bits w.d n l = g.bits w.d n a := by
    intro g n
    unfold Group.bits
    refine congrArg (fun f => (List.range n).foldr f 0) ?_
    funext j acc
    rw [← Group.key_regLane, ← hra, Group.key_regLane]
  rw [hlane, Group.bits_puts hreg (fits_lt hreg hfit) ha, hba, Nat.mod_eq_of_lt (extend_lt _ _)]
  intro b hb he
  rcases ROp.wf_plain hwf hp with hs | hu
  · rw [regLane_other hs, regLane_other hs] at he
    rw [he]
  · rw [State.laneBits_uniform s c hu b a]

/-- The dispatcher's arm of a plain instruction. -/
theorem exec_plain {op : ROp} (hp : op.plain = true) (w : RWord) (s : State) : exec (op.instr w) s = finish (actAlu op w s) := by
  cases op <;> first | rfl | simp [ROp.plain] at hp

/-- The opcodes whose results raise no flag. -/
def ROp.noFlags (op : ROp) : Bool :=
  op.plain && !(match op with
    | .fadd | .fsub | .fmul | .fma | .fscale | .frnd | .fmin | .fmax | .fcvt | .fcmp => true
    | _ => false)

theorem laneResult_noFlags {op : ROp} (w : RWord) (mode : Rnd) (a b c d rho : Nat) (h : ROp.noFlags op = true) :
    (laneResult op w mode a b c d rho).2 = 0 := by
  cases op <;> simp [ROp.noFlags, ROp.plain] at h <;> rfl

/-- What a plain instruction that raises no flag can do. -/
theorem plain_commits {op : ROp} {w : RWord} {s : State} {c : Ctx} (hp : ROp.noFlags op = true) (hwf : op.wf w = true)
    (hr : Runs s (op.front w) c) :
    Commits (exec (op.instr w) s) s c (op.front w) 0 fun g' l =>
      g'.bits w.d (op.slotD w).regs l = extend (op.slotD w) (s.laneBits c op w l).1 := by
  have hpl : op.plain = true := by simp only [ROp.noFlags, Bool.and_eq_true] at hp; exact hp.1
  have hz : ∀ p ∈ s.laneFlags c op w, p.2 = 0 := by
    intro p hm
    obtain ⟨l, -, rfl⟩ := List.mem_map.1 hm
    exact laneResult_noFlags _ _ _ _ _ _ _ hp
  rw [exec_plain hpl]
  have := actAlu_done hpl hwf hr (flagTrap_zero _ hz)
  rw [allFlags_zero hz] at this
  exact this

theorem Commits.mono {o : Host.Outcome State Fault Refusal} {s : State} {c : Ctx} {f : Front} {fl : FpFlags}
    {p q : Group → Nat → Prop} (h : Commits o s c f fl p) (hq : ∀ g l, l ∈ c.act → p g l → q g l) : Commits o s c f fl q := by
  obtain ⟨t, g', h1, h2, h3⟩ := h
  exact ⟨t, g', h1, h2, fun l hl => hq g' l hl (h3 l hl)⟩

end Sys2Proof.Machine
end

