-- ==== Sys2Proof/Tests/Slice0.lean ====
section
/-! SUPPORT. Tests: what the decoder makes of words written out from the manual's tables, the checks of well-formedness, single
steps, and states that meet the hypotheses of the statements. -/

namespace Sys2Proof.Tests
open Sys2Proof Sys2Proof.Machine
set_option Elab.async false

/-! ### Decoding -/

/-- A word from its fields, each at its place in R22 Table 1: FMT [95:93], OP [92:85], D [84:75], A [74:65], B [64:55],
GUARD [54:39], HINTS [38:32], M [31:0]. -/
def word (fmt op d a b guard hints m : Nat) : Nat :=
  fmt * 2 ^ 93 + op * 2 ^ 85 + d * 2 ^ 75 + a * 2 ^ 65 + b * 2 ^ 55 + guard * 2 ^ 39 + hints * 2 ^ 32 + m

/-- M of format 0 (R30 Table 6): op-specific [31:21], CV [20], C [19:10], SAT [7], RND [6:4], TYPE [3:0]. -/
def m0 (opx cv c sat rnd ty : Nat) : Nat := opx * 2 ^ 21 + cv * 2 ^ 20 + c * 2 ^ 10 + sat * 2 ^ 7 + rnd * 2 ^ 4 + ty

/-- M of format 2 (R32 Table 9): op-specific [31:29], SCOPE [28:27], SPACE [26:24], WIDTH [23:20], the offset [19:0]. -/
def m2 (opx scope space width off : Nat) : Nat := opx * 2 ^ 29 + scope * 2 ^ 27 + space * 2 ^ 24 + width * 2 ^ 20 + off

/-- Each word decodes to its instruction. -/
def decodes (l : List (Nat × Instr)) : Bool := l.all fun p => decodeTableWord 96 p.1 == some p.2

/-- Each word is refused (R39, R37). -/
def refuses (l : List Nat) : Bool := l.all fun w => decodeTableWord 96 w == none

/-- Integer arithmetic (R34 Table 10, R165-R167). -/
theorem test_decode_integer : decodes [
    (word 0 0x01 5 6 263 0 0 (m0 0 0 0 0 0 0), .add ⟨.v 5, .v 6, .s 7, .off, .none, 0, none, false, .rne, .i32⟩),
    (word 0 0x02 5 6 643 0 0 (m0 0 0 0 1 0 1), .sub ⟨.v 5, .v 6, .k 3, .off, .none, 0, none, true, .rne, .n32⟩),
    (word 0 0x03 6 3 4 0 0 (m0 0 0 0 0 0 0), .addw ⟨.v 6, .v 3, .v 4, .off, .none, 0, none, false, .rne, .i32⟩),
    (word 0 0x04 5 6 7 0 0 (m0 0 0 0 0 0 0), .mul24 ⟨.v 5, .v 6, .v 7, .off, .none, 0, none, false, .rne, .i32⟩),
    (word 0 0x05 5 6 7 0 0 (m0 0 0 0 0 0 1), .mul32 ⟨.v 5, .v 6, .v 7, .off, .none, 0, none, false, .rne, .n32⟩),
    (word 0 0x06 5 6 7 0 0 (m0 0 0 0 0 0 0), .mulhi ⟨.v 5, .v 6, .v 7, .off, .none, 0, none, false, .rne, .i32⟩),
    (word 0 0x07 5 6 7 0 0 (m0 0 1 9 0 0 0), .mad24 ⟨.v 5, .v 6, .v 7, .off, .none, 0, some (.v 9), false, .rne, .i32⟩),
    (word 0 0x08 5 6 7 0 0 (m0 0 1 265 0 0 1), .mad32 ⟨.v 5, .v 6, .v 7, .off, .none, 0, some (.s 9), false, .rne, .n32⟩),
    (word 0 0x09 5 6 7 0 0 (m0 0 0 0 0 0 13), .min ⟨.v 5, .v 6, .v 7, .off, .none, 0, none, false, .rne, .i8⟩),
    (word 0 0x0A 5 6 7 0 0 (m0 0 0 0 0 0 12), .max ⟨.v 5, .v 6, .v 7, .off, .none, 0, none, false, .rne, .n16⟩),
    (word 0 0x0B 5 6 0 0 0 (m0 0 0 0 1 0 0), .abs ⟨.v 5, .v 6, .v 0, .off, .none, 0, none, true, .rne, .i32⟩),
    (word 0 0x0C 4 6 0 0 0 (m0 0 0 0 0 0 2), .neg ⟨.v 4, .v 6, .v 0, .off, .none, 0, none, false, .rne, .i64⟩)] = true := by decide

/-- Logic, shifts and bits (R34 Table 10, R168-R170). -/
theorem test_decode_logic : decodes [
    (word 0 0x0D 261 262 263 0 0 (m0 0 0 0 0 0 1), .and ⟨.s 5, .s 6, .s 7, .off, .none, 0, none, false, .rne, .n32⟩),
    (word 0 0x0E 517 6 530 0 0 (m0 0 0 0 0 0 1), .or ⟨.o 5, .v 6, .h 2, .off, .none, 0, none, false, .rne, .n32⟩),
    (word 0 0x0F 4 6 8 0 0 (m0 0 0 0 0 0 3), .xor ⟨.v 4, .v 6, .v 8, .off, .none, 0, none, false, .rne, .n64⟩),
    (word 0 0x10 5 6 0 0 0 (m0 0 0 0 0 0 1), .not ⟨.v 5, .v 6, .v 0, .off, .none, 0, none, false, .rne, .n32⟩),
    (word 0 0x11 5 6 7 0 0 (m0 0 0 0 0 0 0), .andn ⟨.v 5, .v 6, .v 7, .off, .none, 0, none, false, .rne, .i32⟩),
    (word 0 0x12 4 6 7 0 0 (m0 0 0 0 0 0 3), .shl ⟨.v 4, .v 6, .v 7, .off, .none, 0, none, false, .rne, .n64⟩),
    (word 0 0x13 5 6 645 0 0 (m0 0 0 0 0 0 1), .shr ⟨.v 5, .v 6, .k 5, .off, .none, 0, none, false, .rne, .n32⟩),
    (word 0 0x14 5 6 7 0 0 (m0 0 0 0 0 0 0), .sar ⟨.v 5, .v 6, .v 7, .off, .none, 0, none, false, .rne, .i32⟩),
    (word 0 0x15 5 6 7 0 0 (m0 0 0 0 0 0 1), .rotl ⟨.v 5, .v 6, .v 7, .off, .none, 0, none, false, .rne, .n32⟩),
    (word 0 0x16 5 6 0 0 0 (m0 0 0 0 0 0 3), .popc ⟨.v 5, .v 6, .v 0, .off, .none, 0, none, false, .rne, .n64⟩),
    (word 0 0x17 5 6 0 0 0 (m0 0 0 0 0 0 1), .clz ⟨.v 5, .v 6, .v 0, .off, .none, 0, none, false, .rne, .n32⟩),
    (word 0 0x18 5 6 0 0 0 (m0 0 0 0 0 0 1), .brev ⟨.v 5, .v 6, .v 0, .off, .none, 0, none, false, .rne, .n32⟩),
    (word 0 0x19 5 6 7 0 0 (m0 0 0 0 0 0 0), .bfx ⟨.v 5, .v 6, .v 7, .off, .none, 0, none, false, .rne, .i32⟩),
    (word 0 0x1A 5 6 7 0 0 (m0 0 1 8 0 0 1), .bfi ⟨.v 5, .v 6, .v 7, .off, .none, 0, some (.v 8), false, .rne, .n32⟩)] = true := by decide

/-- Compares, selects and moves (R34 Table 10, R171, R172). -/
theorem test_decode_select : decodes [
    (word 0 0x1B 5 6 7 0 0 (m0 74 0 0 0 0 0), .cmp ⟨.v 5, .v 6, .v 7, .off, .none, 74, none, false, .rne, .i32⟩),
    (word 0 0x1C 5 6 7 0 0 (m0 9 1 8 0 0 0), .sel ⟨.v 5, .v 6, .v 7, .off, .none, 9, some (.v 8), false, .rne, .i32⟩),
    (word 0 0x1D 5 658 0 0 0 (m0 0 0 0 0 0 4), .mov ⟨.v 5, .k 18, .v 0, .off, .none, 0, none, false, .rne, .f32⟩),
    (word 0 0x1E 6 8 7 0 0 (m0 3 0 0 0 0 2), .lea ⟨.v 6, .v 8, .v 7, .off, .none, 3, none, false, .rne, .i64⟩)] = true := by decide

/-- Floating arithmetic (R34 Table 10, R173-R178). -/
theorem test_decode_floating : decodes [
    (word 0 0x20 5 6 7 0 0 (m0 0 0 0 0 1 4), .fadd ⟨.v 5, .v 6, .v 7, .off, .none, 0, none, false, .rtz, .f32⟩),
    (word 0 0x21 6 8 10 0 0 (m0 0 0 0 0 0 5), .fsub ⟨.v 6, .v 8, .v 10, .off, .none, 0, none, false, .rne, .f64⟩),
    (word 0 0x22 5 6 662 0 0 (m0 0 0 0 1 0 6), .fmul ⟨.v 5, .v 6, .k 22, .off, .none, 0, none, true, .rne, .f16⟩),
    (word 0 0x23 5 6 7 0 0 (m0 0 1 9 0 5 7), .fma ⟨.v 5, .v 6, .v 7, .off, .none, 0, some (.v 9), false, .sr, .bf16⟩),
    (word 0 0x24 5 6 7 0 0 (m0 0 0 0 0 0 4), .fmin ⟨.v 5, .v 6, .v 7, .off, .none, 0, none, false, .rne, .f32⟩),
    (word 0 0x25 5 6 7 0 0 (m0 0 0 0 0 0 4), .fmax ⟨.v 5, .v 6, .v 7, .off, .none, 0, none, false, .rne, .f32⟩),
    (word 0 0x26 5 6 7 0 0 (m0 255 0 0 0 0 8), .fcmp ⟨.v 5, .v 6, .v 7, .off, .none, 255, none, false, .rne, .e4m3⟩),
    (word 0 0x27 5 6 0 0 0 (m0 7 0 0 0 6 4), .fcvt ⟨.v 5, .v 6, .v 0, .off, .none, 7, none, false, .dyn, .f32⟩),
    (word 0 0x28 5 6 0 0 0 (m0 0 0 0 0 3 4), .frnd ⟨.v 5, .v 6, .v 0, .off, .none, 0, none, false, .rdn, .f32⟩),
    (word 0 0x29 5 6 0 0 0 (m0 0 0 0 0 0 10), .fclass ⟨.v 5, .v 6, .v 0, .off, .none, 0, none, false, .rne, .l6⟩),
    (word 0 0x2A 5 6 7 0 0 (m0 0 0 0 0 2 4), .fscale ⟨.v 5, .v 6, .v 7, .off, .none, 0, none, false, .rup, .f32⟩),
    (word 0 0x2B 5 6 0 0 0 (m0 2 0 0 0 0 4), .sfu ⟨.v 5, .v 6, .v 0, .off, .none, 2, none, false, .rne, .f32⟩)] = true := by decide

/-- The wide accumulator (R34 Table 10, R179-R181). -/
theorem test_decode_wide : decodes [
    (word 0 0x2C 8 6 0 0 0 (m0 2047 0 0 0 0 4), .xacc ⟨.v 8, .v 6, .v 0, .off, .none, 2047, none, false, .rne, .f32⟩),
    (word 0 0x2D 5 16 0 0 0 (m0 1 0 0 0 0 4), .xcvt ⟨.v 5, .v 16, .v 0, .off, .none, 1, none, false, .rne, .f32⟩)] = true := by decide

/-- Lanes and the generator (R34 Table 10, R182-R187). -/
theorem test_decode_lanes : decodes [
    (word 0 0x30 5 6 7 0 0 (m0 0 0 0 0 0 1), .shfl ⟨.v 5, .v 6, .v 7, .off, .none, 0, none, false, .rne, .n32⟩),
    (word 0 0x31 5 6 7 0 0 (m0 0 1 264 0 0 1), .push ⟨.v 5, .v 6, .v 7, .off, .none, 0, some (.s 8), false, .rne, .n32⟩),
    (word 0 0x32 261 6 263 0 0 (m0 0 0 0 0 0 1), .bcast ⟨.s 5, .v 6, .s 7, .off, .none, 0, none, false, .rne, .n32⟩),
    (word 0 0x33 5 6 0 0 0 (m0 1 0 0 0 0 0), .scan ⟨.v 5, .v 6, .v 0, .off, .none, 1, none, false, .rne, .i32⟩),
    (word 0 0x34 261 6 0 0 0 (m0 4 0 0 0 0 1), .lred ⟨.s 5, .v 6, .v 0, .off, .none, 4, none, false, .rne, .n32⟩),
    (word 0 0x35 261 6 0 0 0 (m0 26 0 0 0 0 1), .vote ⟨.s 5, .v 6, .v 0, .off, .none, 26, none, false, .rne, .n32⟩),
    (word 0 0x36 4 8 12 0 0 (m0 0 0 0 0 0 1), .kcg ⟨.v 4, .v 8, .v 12, .off, .none, 0, none, false, .rne, .n32⟩)] = true := by decide

/-- Immediate forms (R31 Table 8). -/
theorem test_decode_immediate : decodes [
    (word 1 0x01 5 6 0 0 0 0xFFFFFFFF, .addImm ⟨.v 5, .v 6, .off, .none, 0xFFFFFFFF⟩),
    (word 1 0x02 261 262 0 0 0 0x1, .subImm ⟨.s 5, .s 6, .off, .none, 0x1⟩),
    (word 1 0x04 5 6 0 0 0 0x3, .mul24Imm ⟨.v 5, .v 6, .off, .none, 0x3⟩),
    (word 1 0x05 5 6 0 0 0 0x12345678, .mul32Imm ⟨.v 5, .v 6, .off, .none, 0x12345678⟩),
    (word 1 0x09 5 6 0 0 0 0x2, .minImm ⟨.v 5, .v 6, .off, .none, 0x2⟩),
    (word 1 0x0A 5 6 0 0 0 0x2, .maxImm ⟨.v 5, .v 6, .off, .none, 0x2⟩),
    (word 1 0x0D 5 262 0 0 0 0xFF, .andImm ⟨.v 5, .s 6, .off, .none, 0xFF⟩),
    (word 1 0x0E 517 6 0 0 0 0x1, .orImm ⟨.o 5, .v 6, .off, .none, 0x1⟩),
    (word 1 0x0F 5 6 0 0 0 0x1, .xorImm ⟨.v 5, .v 6, .off, .none, 0x1⟩),
    (word 1 0x11 5 6 0 0 0 0x1, .andnImm ⟨.v 5, .v 6, .off, .none, 0x1⟩),
    (word 1 0x12 5 6 0 0 0 0x1F, .shlImm ⟨.v 5, .v 6, .off, .none, 0x1F⟩),
    (word 1 0x13 5 6 0 0 0 0x1, .shrImm ⟨.v 5, .v 6, .off, .none, 0x1⟩),
    (word 1 0x14 5 6 0 0 0 0x1, .sarImm ⟨.v 5, .v 6, .off, .none, 0x1⟩),
    (word 1 0x15 5 6 0 0 0 0x1, .rotlImm ⟨.v 5, .v 6, .off, .none, 0x1⟩),
    (word 1 0x1B 5 6 0 0 0 0xBF8000, .cmpImm ⟨.v 5, .v 6, .off, .none, 0xBF8000⟩),
    (word 1 0x1D 261 0 0 0 0 0xDEADBEEF, .movImm ⟨.s 5, .v 0, .off, .none, 0xDEADBEEF⟩),
    (word 1 0x1E 6 8 0 0 0 0x80000000, .leaImm ⟨.v 6, .v 8, .off, .none, 0x80000000⟩)] = true := by decide

/-- Format 2 (R32 Table 9, R34 Table 11). -/
theorem test_decode_memory : decodes [
    (word 2 0x01 4 2 0 0 0x0 (m2 0 2 0 4 0xFFFFF), .ld ⟨.v 4, .v 2, .v 0, .off, .none, 0, .device, .global, .w128, 0xFFFFF⟩),
    (word 2 0x02 4 258 0 0 0x0 (m2 2 0 1 2 0x8), .st ⟨.v 4, .s 2, .v 0, .off, .none, 2, .team, .spad, .w32, 0x8⟩),
    (word 2 0x03 16 258 260 0 0x0 (m2 0 2 0 9 0x0), .ldt ⟨.v 16, .s 2, .s 4, .off, .none, 0, .device, .global, .tl16, 0x0⟩),
    (word 2 0x04 0 2 0 0 0x0 (m2 1 2 3 0 0x40), .pref ⟨.v 0, .v 2, .v 0, .off, .none, 1, .device, .const, .w8, 0x40⟩),
    (word 2 0x05 4 2 6 0 0x1 (m2 1 1 0 2 0x0), .atom ⟨.v 4, .v 2, .v 6, .off, ⟨false, false, false, false, false, false, true⟩, 1, .cluster, .global, .w32, 0x0⟩),
    (word 2 0x06 0 2 6 0 0x0 (m2 0 3 0 3 0x10), .red ⟨.v 0, .v 2, .v 6, .off, .none, 0, .system, .global, .w64, 0x10⟩),
    (word 2 0x07 1 2 6 0 0x0 (m2 0 2 0 2 0x0), .aord ⟨.v 1, .v 2, .v 6, .off, .none, 0, .device, .global, .w32, 0x0⟩),
    (word 2 0x08 260 262 264 0 0x0 (m2 5 2 0 3 0x0), .waitc ⟨.s 4, .s 6, .s 8, .off, .none, 5, .device, .global, .w64, 0x0⟩),
    (word 2 0x09 0 262 264 0 0x0 (m2 0 2 0 2 0x0), .qpush ⟨.v 0, .s 6, .s 8, .off, .none, 0, .device, .global, .w32, 0x0⟩),
    (word 2 0x0A 260 262 0 0 0x0 (m2 0 3 0 3 0x0), .qpop ⟨.s 4, .s 6, .v 0, .off, .none, 0, .system, .global, .w64, 0x0⟩),
    (word 2 0x0B 4 2 6 0 0x4 (m2 0 2 0 3 0x0), .fset ⟨.v 4, .v 2, .v 6, .off, ⟨false, false, false, false, true, false, false⟩, 0, .device, .global, .w64, 0x0⟩),
    (word 2 0x0C 4 2 0 0 0x0 (m2 1 2 0 3 0x0), .fget ⟨.v 4, .v 2, .v 0, .off, .none, 1, .device, .global, .w64, 0x0⟩),
    (word 2 0x0D 0 2 0 0 0x0 (m2 0 0 0 0 0x0), .claim ⟨.v 0, .v 2, .v 0, .off, .none, 0, .team, .global, .w8, 0x0⟩),
    (word 2 0x0E 4 2 0 0 0x0 (m2 0 2 0 2 0x0), .rxst ⟨.v 4, .v 2, .v 0, .off, .none, 0, .device, .global, .w32, 0x0⟩),
    (word 2 0x0F 258 260 272 0 0x0 (m2 0 2 0 0 0x0), .cpq ⟨.s 2, .s 4, .s 16, .off, .none, 0, .device, .global, .w8, 0x0⟩),
    (word 2 0x10 260 258 0 0 0x0 (m2 0 2 0 0 0x40), .launch ⟨.s 4, .s 2, .v 0, .off, .none, 0, .device, .global, .w8, 0x40⟩),
    (word 2 0x11 0 2 0 0 0x0 (m2 0 2 0 0 0x0), .wb ⟨.v 0, .v 2, .v 0, .off, .none, 0, .device, .global, .w8, 0x0⟩)] = true := by decide

/-- The matrix engine (R34 Table 11, R200-R210). -/
theorem test_decode_engine : decodes [
    (word 3 0x01 0 0 0 0 0 0x0, .macq ⟨.v 0, .v 0, .v 0, .off, .none, 0x0⟩),
    (word 3 0x02 0 0 0 0 0 0x0, .marel ⟨.v 0, .v 0, .v 0, .off, .none, 0x0⟩),
    (word 3 0x03 0 0 0 0 0 0x5003, .mcvr ⟨.v 0, .v 0, .v 0, .off, .none, 0x5003⟩),
    (word 3 0x04 772 264 266 0 0 0x177, .mma ⟨.a 4, .s 8, .s 10, .off, .none, 0x177⟩),
    (word 3 0x05 260 264 0 0 0 0x44, .mld ⟨.s 4, .s 8, .v 0, .off, .none, 0x44⟩),
    (word 3 0x06 772 0 0 0 0 0x3, .mzero ⟨.a 4, .v 0, .v 0, .off, .none, 0x3⟩),
    (word 3 0x07 260 776 268 0 0 0x4, .mdrain ⟨.s 4, .a 8, .s 12, .off, .none, 0x4⟩),
    (word 3 0x08 772 264 0 0 0 0x103, .mfill ⟨.a 4, .s 8, .v 0, .off, .none, 0x103⟩),
    (word 3 0x09 772 776 0 0 0 0x3, .mcopy ⟨.a 4, .a 8, .v 0, .off, .none, 0x3⟩),
    (word 3 0x0A 260 0 0 0 0 0x2, .mstat ⟨.s 4, .v 0, .v 0, .off, .none, 0x2⟩)] = true := by decide

/-- Handles, rings, collectives and sketches (R34 Table 11). -/
theorem test_decode_stages : decodes [
    (word 3 0x10 260 0 0 0 0 0x40003, .bwait ⟨.s 4, .v 0, .v 0, .off, .none, 0x40003⟩),
    (word 3 0x11 260 262 0 0 0 0x30605, .bset ⟨.s 4, .s 6, .v 0, .off, .none, 0x30605⟩),
    (word 3 0x12 260 0 0 0 0 0x1A2, .srnext ⟨.s 4, .v 0, .v 0, .off, .none, 0x1A2⟩),
    (word 3 0x13 260 262 264 0 0 0x2802, .tcopy ⟨.s 4, .s 6, .s 8, .off, .none, 0x2802⟩),
    (word 3 0x18 0 4 262 0 0 0x0, .skins ⟨.v 0, .v 4, .s 6, .off, .none, 0x0⟩),
    (word 3 0x19 0 260 262 0 0 0x7, .skdel ⟨.v 0, .s 4, .s 6, .off, .none, 0x7⟩),
    (word 3 0x1A 0 260 0 0 0 0x3, .skxch ⟨.v 0, .s 4, .v 0, .off, .none, 0x3⟩),
    (word 3 0x1B 4 260 262 0 0 0x0, .skpeel ⟨.v 4, .s 4, .s 6, .off, .none, 0x0⟩)] = true := by decide

/-- Loops and regions (R34 Table 11). -/
theorem test_decode_regions : decodes [
    (word 3 0x20 4 260 262 0 0 0x83, .rlbeg ⟨.v 4, .s 4, .s 6, .off, .none, 0x83⟩),
    (word 3 0x21 260 0 0 0 0 0x102, .rwave ⟨.s 4, .v 0, .v 0, .off, .none, 0x102⟩),
    (word 3 0x22 0 0 0 0 0 0x0, .rlend ⟨.v 0, .v 0, .v 0, .off, .none, 0x0⟩),
    (word 3 0x28 0 260 262 0 0 0x9, .rxbeg ⟨.v 0, .s 4, .s 6, .off, .none, 0x9⟩),
    (word 3 0x29 4 0 0 0 0 0x12, .rxin ⟨.v 4, .v 0, .v 0, .off, .none, 0x12⟩),
    (word 3 0x2A 0 4 0 0 0 0x3, .rxout ⟨.v 0, .v 4, .v 0, .off, .none, 0x3⟩),
    (word 3 0x2B 0 4 0 0 0 0x2B, .rxjac ⟨.v 0, .v 4, .v 0, .off, .none, 0x2B⟩),
    (word 3 0x2C 0 0 0 0 0 0x0, .rxend ⟨.v 0, .v 0, .v 0, .off, .none, 0x0⟩),
    (word 3 0x2D 0 260 0 0 0 0x0, .rxcmt ⟨.v 0, .s 4, .v 0, .off, .none, 0x0⟩),
    (word 3 0x2E 0 0 0 0 0 0x0, .rxabort ⟨.v 0, .v 0, .v 0, .off, .none, 0x0⟩)] = true := by decide

/-- Control flow (R34 Table 11, R150). -/
theorem test_decode_control : decodes [
    (word 4 0x00 0 0 0 0 0 0x0, .nop ⟨.v 0, .v 0, .v 0, .off, .none, 0x0⟩),
    (word 4 0x01 0 0 0 0 0 0xFFFFFE, .bra ⟨.v 0, .v 0, .v 0, .off, .none, 0xFFFFFE⟩),
    (word 4 0x02 0 0 0 0 0 0x1, .brs ⟨.v 0, .v 0, .v 0, .off, .none, 0x1⟩),
    (word 4 0x03 0 4 0 0 0 0x2, .jmp ⟨.v 0, .v 4, .v 0, .off, .none, 0x2⟩),
    (word 4 0x04 4 0 0 0 0 0x3, .call ⟨.v 4, .v 0, .v 0, .off, .none, 0x3⟩),
    (word 4 0x05 0 260 0 0 0 0x0, .ret ⟨.v 0, .s 4, .v 0, .off, .none, 0x0⟩),
    (word 4 0x06 0 0 0 0 0 0x0, .join ⟨.v 0, .v 0, .v 0, .off, .none, 0x0⟩),
    (word 4 0x07 0 8 0 0 0 0x3000001, .spawn ⟨.v 0, .v 8, .v 0, .off, .none, 0x3000001⟩),
    (word 4 0x08 0 0 0 0 0 0x0, .fend ⟨.v 0, .v 0, .v 0, .off, .none, 0x0⟩),
    (word 4 0x09 0 0 0 0 0 0x64, .yield ⟨.v 0, .v 0, .v 0, .off, .none, 0x64⟩),
    (word 4 0x0A 0 0 0 0 0 0x3F800, .arrive ⟨.v 0, .v 0, .v 0, .off, .none, 0x3F800⟩),
    (word 4 0x0B 0 0 0 0 0 0x105000, .waitb ⟨.v 0, .v 0, .v 0, .off, .none, 0x105000⟩),
    (word 4 0x0C 0 0 0 0 0 0x6, .fence ⟨.v 0, .v 0, .v 0, .off, .none, 0x6⟩)] = true := by decide

/-- System instructions (R34 Table 11, R35 Table 12). -/
theorem test_decode_system : decodes [
    (word 6 0x01 4 0 0 0 0 0x0, .rdsr ⟨.v 4, .v 0, .v 0, .off, .none, 0x0⟩),
    (word 6 0x01 260 0 0 0 0 0x10, .rdsr ⟨.s 4, .v 0, .v 0, .off, .none, 0x10⟩),
    (word 6 0x02 0 643 0 0 0 0x18, .wrsr ⟨.v 0, .k 3, .v 0, .off, .none, 0x18⟩),
    (word 6 0x03 0 0 0 0 0 0xFFFF, .trap ⟨.v 0, .v 0, .v 0, .off, .none, 0xFFFF⟩),
    (word 6 0x04 0 0 0 0 0 0x1, .eret ⟨.v 0, .v 0, .v 0, .off, .none, 0x1⟩),
    (word 6 0x05 0 0 0 0 0 0x7, .brk ⟨.v 0, .v 0, .v 0, .off, .none, 0x7⟩),
    (word 6 0x07 260 262 0 0 0 0x205, .twc ⟨.s 4, .s 6, .v 0, .off, .none, 0x205⟩),
    (word 6 0x08 0 260 262 0 0 0x0, .tlbinv ⟨.v 0, .s 4, .s 6, .off, .none, 0x0⟩)] = true := by decide

/-- The manual's three worked words, W0 lowest (R19): an immediate form, a guarded form with a hint, and a paired word. -/
theorem test_decode_worked : decodes [
    (0x202020080000000000000001, .addImm ⟨.v 4, .v 4, .off, .none, 1⟩),
    (0x046040130170028800102804,
      .fma ⟨.v 8, .v 9, .o 2, ⟨true, true, true, 0, 5⟩, ⟨false, false, false, true, false, false, false⟩, 0, some (.v 10), false, .rne, .f32⟩),
    (0xA08202831A0E101200000010, .pairedWord ⟨⟨.add, 4, 5, 6, .i32⟩, ⟨.and, 7, 8, 9, .n32⟩, .off, .none⟩)] = true := by decide

/-- Table 15: the bytes of line (2), byte 0 first, and what follows them. -/
theorem test_decode_bytes : (decodeBytes [0x04, 0x28, 0x10, 0x00, 0x88, 0x02, 0x70, 0x01, 0x13, 0x40, 0x60, 0x04, 0xAA]) =
    (.ok (.fma ⟨.v 8, .v 9, .o 2, ⟨true, true, true, 0, 5⟩, ⟨false, false, false, true, false, false, false⟩, 0, some (.v 10), false, .rne, .f32⟩),
      [0xAA]) := by decide

/-- A paired word by the fields of R36 Table 13: `mul24.i16 v4, v5, v6 || mov.f32 v7, v8`, guarded by s7.3, with YLD and LUA. -/
theorem test_decode_paired :
    decodeTableWord 96 (5 * 2 ^ 93 + 0x04 * 2 ^ 87 + 4 * 2 ^ 79 + 5 * 2 ^ 71 + 6 * 2 ^ 63 + 0x1D * 2 ^ 57 + 7 * 2 ^ 49 + 8 * 2 ^ 41 +
      (2 ^ 15 + 7 * 2 ^ 5 + 3) * 2 ^ 17 + (2 ^ 5 + 2 ^ 4) * 2 ^ 10 + 0 * 2 ^ 7 + 3 * 2 ^ 4) =
    some (.pairedWord ⟨⟨.mul24, 4, 5, 6, .i32⟩, ⟨.mov, 7, 8, 0, .f32⟩, ⟨true, false, false, 7, 3⟩,
      ⟨false, true, true, false, false, false, false⟩⟩) := by decide

/-- Unassigned words are refused (R34, R39): FMT 7, an OP that is not listed, and an OP of format 0 that is not I-capable. -/
theorem test_refuse_opcode : refuses [word 7 0 0 0 0 0 0 0, word 0 0x1F 5 6 7 0 0 0, word 1 0x20 5 6 0 0 0 0, word 2 0x12 0 2 0 0 0 0,
    word 3 0x14 0 0 0 0 0 0, word 4 0x0D 0 0 0 0 0 0, word 6 0x06 0 0 0 0 0 0] = true := by decide

/-- Reserved fields of formats 0 to 2 are refused (R23, R30, R31, R32): an operand pattern, TYPE 15, RND 7, M[9:8], C with CV = 0,
a B in format 1, SPACE 4, WIDTH 5. -/
theorem test_refuse_field : refuses [word 0 1 5 0x220 7 0 0 0, word 0 1 5 6 7 0 0 15, word 0 0x20 5 6 7 0 0 0x74, word 0 1 5 6 7 0 0 0x100,
    word 0 1 5 6 7 0 0 (m0 0 0 3 0 0 0), word 1 1 5 6 7 0 0 1, word 2 1 4 2 0 0 0 (m2 0 2 4 2 0), word 2 1 4 2 0 0 0 (m2 0 2 0 5 0)] =
    true := by decide

/-- A special-register number that is not listed, and a shift immediate of 32, are refused (R35, R31 Table 8). -/
theorem test_refuse_number : refuses [word 6 1 260 0 0 0 0 0x09, word 1 0x12 5 6 0 0 0 32] = true := by decide

/-- R37: two sources in one bank, half 1 with a V0 opcode, and D0 read by half 1 raise ILLPAIR; a bit of [3:0] raises ILLOP. -/
theorem test_refuse_pair :
    ([(0x01, 4, 5, 6, 0x0D, 7, 21, 9, 0), (0x01, 4, 5, 6, 0x04, 7, 8, 9, 0), (0x01, 4, 5, 6, 0x0D, 7, 4, 9, 0), (0x01, 4, 5, 6, 0x0D, 7, 8, 9, 1)].map
      fun (o0, d0, a0, b0, o1, d1, a1, b1, x) =>
        match decodeWord (BitVec.ofNat 96 (5 * 2 ^ 93 + o0 * 2 ^ 87 + d0 * 2 ^ 79 + a0 * 2 ^ 71 + b0 * 2 ^ 63 + o1 * 2 ^ 57 + d1 * 2 ^ 49 +
          a1 * 2 ^ 41 + b1 * 2 ^ 33 + x)) with
        | .illpair _ => 1
        | .illop => 2
        | .ok _ => 0) = [1, 1, 1, 2] := by decide

/-! ### Well-formedness: an ill-formed term for each check -/

/-- A plain word of format 0, `add.i32 v5, v6, v7`, and its changes. -/
def plainR : RWord := ⟨.v 5, .v 6, .v 7, .off, .none, 0, none, false, .rne, .i32⟩

/-- R27: GE = 0 with another bit of the guard set. R30 and R165: a TYPE, a RND, a SAT, a C or op-specific bits that the opcode does
not take. R24: an odd register of a pair. R160: D a constant, an a operand, an s destination of a vector form. -/
theorem test_wf_format0 : ROp.add.wf plainR = true ∧
    ROp.add.wf { plainR with guard := ⟨false, true, false, 0, 0⟩ } = false ∧
    ROp.add.wf { plainR with ty := .f32 } = false ∧
    ROp.add.wf { plainR with rnd := .rtz } = false ∧
    ROp.and.wf { plainR with sat := true } = false ∧
    ROp.add.wf { plainR with c := some (.v 8) } = false ∧
    ROp.mad24.wf plainR = false ∧
    ROp.add.wf { plainR with opx := 1 } = false ∧
    ROp.add.wf { plainR with ty := .i64 } = false ∧
    ROp.add.wf { plainR with d := .k 1 } = false ∧
    ROp.add.wf { plainR with a := .a 6 } = false ∧
    ROp.add.wf { plainR with d := .s 5 } = false := by decide

/-- R26: a floating constant in an integer slot. R27: a class v guard on a uniform instruction. R29: a hint on a constant. R161: D of
`cmp` in the handler window. R181: a slice block that is no multiple of 8. R183: the B of `bcast` a vector register. R187: D and A of
`kcg` the same block. -/
theorem test_wf_operands :
    ROp.add.wf { plainR with b := .k 18 } = false ∧
    ROp.add.wf ⟨.s 5, .s 6, .s 7, ⟨true, false, true, 0, 0⟩, .none, 0, none, false, .rne, .i32⟩ = false ∧
    ROp.add.wf { plainR with b := .k 3, hints := ⟨false, false, false, true, false, false, false⟩ } = false ∧
    ROp.cmp.wf { plainR with d := .h 1 } = false ∧
    ROp.xcvt.wf ⟨.v 5, .v 17, .zero, .off, .none, 0, none, false, .rne, .f32⟩ = false ∧
    ROp.bcast.wf plainR = false ∧
    ROp.kcg.wf ⟨.v 4, .v 4, .v 8, .off, .none, 0, none, false, .rne, .n32⟩ = false := by decide

/-- R31: an immediate with must-be-zero bits, an A in `mov`, and an odd D of `lea`. -/
theorem test_wf_format1 : IOp.shl.wf ⟨.v 5, .v 6, .off, .none, 32⟩ = false ∧ IOp.mov.wf ⟨.v 5, .v 6, .off, .none, 1⟩ = false ∧
    IOp.lea.wf ⟨.v 5, .v 6, .off, .none, 1⟩ = false := by decide

/-- A load `ld.w64 v4, [v2]`, and its changes. -/
def plainM : MWord := ⟨.v 4, .v 2, .v 0, .off, .none, 0, .device, .global, .w64, 0⟩

/-- R213: an odd address pair. R228: a datum that is not aligned to its registers, a B, a tile width of `ld`, a store to const. R229: a
hint code. R271: an AOP that `red` has not, an atomic of 16 bits. R270: a team-scope `waitc`, a class v guard on it. R251: D of `cpq`
a vector pair. -/
theorem test_wf_format2 : MOp.ld.wf plainM = true ∧
    MOp.ld.wf { plainM with a := .v 3 } = false ∧
    MOp.ld.wf { plainM with d := .v 5 } = false ∧
    MOp.ld.wf { plainM with b := .v 6 } = false ∧
    MOp.ld.wf { plainM with d := .v 16, width := .tl8 } = false ∧
    MOp.st.wf { plainM with space := .const } = false ∧
    MOp.ld.wf { plainM with opx := 3 } = false ∧
    MOp.red.wf ⟨.v 0, .v 2, .v 6, .off, .none, 6, .device, .global, .w32, 0⟩ = false ∧
    MOp.atom.wf ⟨.v 4, .v 2, .v 6, .off, .none, 0, .device, .global, .w16, 0⟩ = false ∧
    MOp.waitc.wf ⟨.s 4, .s 6, .s 8, .off, .none, 0, .team, .global, .w32, 0⟩ = false ∧
    MOp.waitc.wf ⟨.s 4, .s 6, .s 8, ⟨true, false, true, 0, 0⟩, .none, 0, .device, .global, .w32, 0⟩ = false ∧
    MOp.cpq.wf ⟨.v 2, .s 4, .s 16, .off, .none, 0, .device, .global, .w8, 0⟩ = false := by decide

/-- R33: bits of M that the instruction does not define. R202: a declared count of 0. R204: formats that do not pair, and an
accumulator out of the file. R245: REM = 0 with a CORE. R322: a guard on `rxend`. -/
theorem test_wf_format3 :
    XOp.macq.wf ⟨.v 0, .v 0, .v 0, .off, .none, 1⟩ = false ∧
    XOp.mcvr.wf ⟨.v 0, .v 0, .v 0, .off, .none, 0⟩ = false ∧
    XOp.mma.wf ⟨.a 4, .s 8, .s 10, .off, .none, 0x167⟩ = false ∧
    XOp.mma.wf ⟨.a 254, .s 8, .s 10, .off, .none, 0x177⟩ = false ∧
    XOp.bwait.wf ⟨.s 4, .v 0, .v 0, .off, .none, 0x10100⟩ = false ∧
    XOp.rxend.wf ⟨.v 0, .v 0, .v 0, ⟨true, false, false, 0, 0⟩, .none, 0⟩ = false := by decide

/-- R150: M of `nop`, a target of more than 24 bits, an odd pair of `jmp`. R152: a class v guard on `brs`. R156: arguments past v255.
R282: a COUNT of 0. -/
theorem test_wf_format4 :
    COp.nop.wf ⟨.v 0, .v 0, .v 0, .off, .none, 1⟩ = false ∧
    COp.bra.wf ⟨.v 0, .v 0, .v 0, .off, .none, 0x1000000⟩ = false ∧
    COp.jmp.wf ⟨.v 0, .v 5, .v 0, .off, .none, 0⟩ = false ∧
    COp.brs.wf ⟨.v 0, .v 0, .v 0, ⟨true, false, true, 0, 0⟩, .none, 1⟩ = false ∧
    COp.spawn.wf ⟨.v 0, .v 255, .v 0, .off, .none, 0x2000001⟩ = false ∧
    COp.arrive.wf ⟨.v 0, .v 0, .v 0, .off, .none, 0x1000⟩ = false := by decide

/-- R371: LANEID into an s register, CLK into an odd one, and a write of a register that may only be read. R373: an
INFO of more than 16 bits. -/
theorem test_wf_format6 :
    YOp.rdsr.wf ⟨.s 4, .v 0, .v 0, .off, .none, 0⟩ = false ∧
    YOp.rdsr.wf ⟨.s 5, .v 0, .v 0, .off, .none, 0x10⟩ = false ∧
    YOp.wrsr.wf ⟨.v 0, .s 4, .v 0, .off, .none, 0x10⟩ = false ∧
    YOp.trap.wf ⟨.v 0, .v 0, .v 0, .off, .none, 0x10000⟩ = false := by decide

/-- An instruction with an ill-formed word is ill formed; every event is well formed. -/
theorem test_wf_instr : (Instr.add { plainR with ty := .f32 }).wf = false ∧ (Instr.swapIn 7).wf = true := by decide


/-! ### What the witnesses are made of -/

/-! ### States that meet the hypotheses of the statements -/

/-- The group of the placed program. -/
def gid0 : Nat := 1

/-- A machine with one group of 16 lanes at 0x1_0000, about to execute. -/
def here : State := (State.reset.withFetchWord 96 (word 4 0 0 0 0 0 0 0)).popPick gid0 []

/-- The same, with the group changed. -/
def hereWith (f : Group → Group) : State := here.modGroup gid0 f

/-- The same, with lane 0 alone and the group changed. -/
def lane0 (f : Group → Group) : State := hereWith fun g => f { g with fibres := g.fibres.filter (·.lane == 0) }

/-- The shared checks let an instruction go on with an active lane, and what it is given satisfies `p`. -/
def meets (s : State) (f : Front) (p : Ctx → Bool) : Bool :=
  match s.front f with
  | .go c => !c.act.isEmpty && p c
  | _ => false

/-- What `meets` says, in the words of the statements. -/
theorem runs_of_meets {s : State} {f : Front} {p : Ctx → Bool} (h : meets s f p = true) : ∃ c, Runs s f c ∧ p c = true := by
  unfold meets at h
  split at h
  · next c e =>
    simp only [Bool.and_eq_true, Bool.not_eq_true', List.isEmpty_eq_false_iff] at h
    exact ⟨c, ⟨e, h.1⟩, h.2⟩
  · cases h

/-- A word of format 0 for an opcode, with C when it takes one. -/
def wordOf (op : ROp) (d a b : Operand) (ty : Ty) (c : Operand := .v 9) : RWord :=
  ⟨d, a, if op.unary then .zero else b, .off, .none, 0, if op.takesC then some c else none, false, .rne, ty⟩

/-- What the group satisfies. -/
def groupIs (s : State) (p : Group → Bool) : Bool := match s.group gid0 with | some g => p g | none => false

/-- A word of formats 3, 4 and 6. -/
def xw (d a b : Operand) (m : Word) : XWord := ⟨d, a, b, .off, .none, m⟩

/-- The guard that is bit 0 of v10, a register of each lane. -/
def byV10 : Guard := ⟨true, false, true, 10, 0⟩

/-- The pair v4 holds an address in every lane. -/
def pairV4 (x : DWord) (g : Group) : Group :=
  (List.range 16).foldl (fun g l => (g.put (g.key (.v 4) l 0) (x.setWidth 32)).put (g.key (.v 4) l 1) ((x >>> 32).setWidth 32)) g

/-- Registers s n and s n+1 hold a value. -/
def pairS (n : Nat) (x : Nat) (g : Group) : Group :=
  (g.put (g.key (.s (BitVec.ofNat 8 n)) 0 0) (BitVec.ofNat 32 x)).put (g.key (.s (BitVec.ofNat 8 n)) 0 1) (BitVec.ofNat 32 (x / 2 ^ 32))

/-- Other groups of the core, in their handlers. -/
def crowd (n : Nat) (s : State) : State :=
  match s.group gid0 with
  | none => s
  | some g => (List.range n).foldl (fun s i => s.setGroup (100 + i) { g with handler := some ⟨[], 0⟩, pending := none }) s

/-- Lane 0's registers v n and v n+1 hold a value. -/
def pairV (n : Nat) (x : Nat) (g : Group) : Group :=
  (g.put (g.key (.v (BitVec.ofNat 8 n)) 0 0) (BitVec.ofNat 32 x)).put (g.key (.v (BitVec.ofNat 8 n)) 0 1) (BitVec.ofNat 32 (x / 2 ^ 32))

/-- A word of format 2. -/
def mw (d a b : Operand) (width : Width) (scope : Scope := .device) (space : Space := .global) (opx : BitVec 3 := 0) : MWord :=
  ⟨d, a, b, .off, .none, opx, scope, space, width, 0⟩

/-- 64-bit words written to memory. -/
def poke (l : List (Nat × Nat)) (s : State) : State := { s with mem := l.foldl (fun m p => memPuts m p.1 (leOf 8 p.2)) s.mem }

/-- More pages: 0x1_1000 with MT 00, 0x1_2000 with MT 01, 0x1_3000 with MT 11 (R215). -/
def morePages (s : State) : State := poke [(0x5088, 0x1_10DB), (0x5090, 0x1_21DB), (0x5098, 0x1_33DB)] s

/-- The checks of memory answered that the elements reach their places, and what they answered satisfies `p`. -/
def resolves (r : Resolved) (p : State → List Hit → Bool) : Bool := match r with | .ok s hits => p s hits | .act _ => false

/-- Nothing waits to move into M. -/
def settledIs (s : State) : Bool := s.order.tc.isEmpty && s.order.partials.isEmpty

/-- The engine of the group's core changed. -/
def engined (f : Engine → Engine) (s : State) : State := s.modCore 118 fun k => { k with engine := f k.engine }

/-- The group owns its engine. -/
def owning (f : Engine → Engine) (s : State) : State := engined (fun e => f { e with owner := some gid0 }) s

/-- n pages from 0x10_0000 with V, L, W, X, A and D, all in frame 0: the low byte of each entry, which stands between those of the
placed tables and the text. -/
def widePages (n : Nat) (s : State) : State :=
  { s with mem := s.mem.filter (·.1 < 0x5800) ++ ((List.range n).map fun i => (0x5800 + 8 * i, (0xDB : Byte))) ++ s.mem.filter (0x5800 ≤ ·.1) }

/-- 64 pages of 2 MiB, from 0x20_0000 in steps of 128 MiB, all in frame 0: seven more entries that name the placed table of level 1, and
eight leaves there. -/
def hugePages (s : State) : State :=
  let at_ := fun (lo hi : Nat) => s.mem.filter fun c => lo ≤ c.1 && c.1 < hi
  { s with mem := at_ 0 0x3002 ++ ((List.range 7).flatMap fun i => [(0x3008 + 8 * i, (1 : Byte)), (0x3009 + 8 * i, 0x40)]) ++ at_ 0x3002 0x4002 ++
      ((List.range 8).map fun i => (0x4008 + 512 * i, (0xDB : Byte))) ++ at_ 0x4002 (2 ^ 57) }

/-- An engine operation whose destination is memory or scratchpad. -/
def writesMemory : EngKind → Bool
  | .mld .. => true
  | .mdrainMem .. => true
  | _ => false

/-- IntegerArithmetic. -/
theorem witness_integer : ([.add, .sub, .mul24, .mul32, .mulhi, .mad24, .mad32, .min, .max, .abs, .neg] : List ROp).all (fun op =>
    let w := wordOf op (.v 5) (.v 6) (.v 7) .i32
    op.wf w && meets here (op.front w) fun _ => true) = true := by decide +kernel

/-- WideningAndAddress: both clauses. -/
theorem witness_widening :
    (let w := wordOf .addw (.v 6) (.v 3) (.v 4) .i32
     ROp.addw.wf w && decide (w.ty.widened = some .i64) && meets here (ROp.addw.front w) fun _ => true) = true ∧
    (let w := wordOf .lea (.v 6) (.v 8) (.v 7) .i64
     ROp.lea.wf w && meets here (ROp.lea.front w) fun _ => true) = true := by decide +kernel

/-- LogicAndShifts, BitCounts and BitFields. -/
theorem witness_logic : ([.and, .or, .xor, .not, .andn, .shl, .shr, .sar, .rotl, .popc, .clz, .brev] : List ROp).all (fun op =>
    let w := wordOf op (.v 4) (.v 6) (.v 8) .n64
    op.wf w && meets here (op.front w) fun _ => true) = true ∧
  ([.bfx, .bfi] : List ROp).all (fun op =>
    let w := wordOf op (.v 5) (.v 6) (.v 7) .i32
    op.wf w && meets here (op.front w) fun _ => true) = true := by decide +kernel

/-- CompareSelectMove: `cmp`, `sel` and `mov`; the type of `sel` is any. -/
theorem witness_compare : ([.cmp, .sel, .mov] : List ROp).all (fun op =>
    let w := wordOf op (.v 5) (.v 6) (.v 7) .i8
    op.wf w && meets here (op.front w) fun _ => true) = true := by decide +kernel

/-- FloatArithmetic, FloatComparison and Rounding: every lane 0.0, so no flag is raised and no enable matters. -/
theorem witness_floating : ([.fadd, .fsub, .fmul, .fma, .fmin, .fmax, .fcmp, .fscale, .frnd, .fcvt, .fclass] : List ROp).all (fun op =>
    let w := { wordOf op (.v 5) (.v 6) (.v 7) .f32 with opx := if op = .fcvt then 7 else 0 }
    op.wf w && meets here (op.front w) fun c =>
      flagTrap (fpEnables c.g.fpmode) ((c.lanesOf (op.uniform w)).map fun l => (l, (here.laneBits c op w l).2)) == none) = true := by
  decide +kernel

/-- RoundingModes: a mode of the five. ExactSumsAndProducts: a grid no finer than the operands'. -/
theorem witness_rounding : Rnd.rtz ∈ ([.rne, .rtz, .rup, .rdn, .rna] : List Rnd) ∧ (-3 : Int) ≤ 0 ∧ (-3 : Int) ≤ -3 := by decide

/-- EnabledFlagTraps: A a signalling NaN in lane 0 and NV enabled. -/
theorem witness_enabled : ([.fadd, .fsub, .fmul, .fma, .fmin, .fmax, .fcmp, .fcvt, .frnd, .fscale] : List ROp).all (fun op =>
    let w := { wordOf op (.v 5) (.v 6) (.v 7) .f32 with opx := if op = .fcvt then 7 else 0 }
    let s := hereWith fun g => { g.put (g.key (.v 6) 0 0) 0x7F80_0001 with fpmode := 0x3F_0000 }
    op.wf w && meets s (op.front w) fun c =>
      (s.bodyOf c.gid c.g).isNone &&
      allFlags ((c.lanesOf (op.uniform w)).map fun l => (l, (s.laneBits c op w l).2)) &&& fpEnables c.g.fpmode != 0) = true := by
  decide +kernel

/-- EnabledFlagTraps: `xacc` of an infinity with XOV alone enabled, and `lred` and `scan` of a signalling NaN. -/
theorem witness_wideEnabled :
    (let w := wordOf .xacc (.v 8) (.v 6) .zero .f32
     let s := hereWith fun g => { g.put (g.key (.v 6) 0 0) 0x7F80_0000 with fpmode := 0x20_0000 }
     ROp.xacc.wf w && meets s (ROp.xacc.front w) fun c => (s.bodyOf c.gid c.g).isNone && fpEnables c.g.fpmode &&& 31 == 0 &&
      allFlags ((c.lanesOf (ROp.xacc.uniform w)).map fun l => (l, (accumulate 0 (decode w.ty (c.g.rd w.a l w.ty)) w.opx.toInt).2)) &&&
        fpEnables c.g.fpmode != 0) = true ∧
    (let s := hereWith fun g => { g.put (g.key (.v 6) 0 0) 0x7F80_0001 with fpmode := 0x3F_0000 }
     let w := wordOf .lred (.v 5) (.v 6) .zero .f32
     meets s (ROp.lred.front w) (fun c =>
      allFlags (c.stepFlags (reduceLanes (s.combOf c w) c.beats (c.laneVal w)).fl) &&& fpEnables c.g.fpmode != 0) &&
     meets s (ROp.scan.front w) fun c =>
      allFlags (c.stepFlags ((scanLanes (s.combOf c w) c.beats (c.laneVal w)).flatMap fun p => p.2.fl)) &&& fpEnables c.g.fpmode != 0) = true := by
  decide +kernel

/-- ImmediateForms: every opcode of format 1. -/
theorem witness_immediate :
    ([.add, .sub, .mul24, .mul32, .min, .max, .and, .or, .xor, .andn, .shl, .shr, .sar, .rotl, .cmp, .mov, .lea] : List IOp).all (fun op =>
      let w : ImmWord := ⟨.v 4, if op = .mov then .zero else .v 6, .off, .none, 1⟩
      op.wf w && meets here (op.front w) fun _ => true) = true := by decide +kernel

/-- PairedWords. -/
theorem witness_paired :
    (let w : PWord := ⟨⟨.fadd, 4, 5, 6, .f32⟩, ⟨.fmax, 7, 8, 9, .f32⟩, .off, .none⟩
     w.wf && meets here w.front fun c => flagTrap (fpEnables c.g.fpmode)
      ([w.h0, w.h1].flatMap fun h => c.act.map fun l => (l, (here.laneBits c h.op (h.word w) l).2)) == none) = true := by decide +kernel

/-- WideAccumulator: both clauses. AccumulateRule: an accumulator in range, neither saturated, and a term on the grid. -/
theorem witness_wide :
    (let w := wordOf .xacc (.v 8) (.v 6) .zero .f32
     ROp.xacc.wf w && meets here (ROp.xacc.front w) fun c => flagTrap (fpEnables c.g.fpmode) ((c.lanesOf (ROp.xacc.uniform w)).map fun l =>
       (l, (accumulate 0 (decode w.ty (c.g.rd w.a l w.ty)) w.opx.toInt).2)) == none) = true ∧
    (let w := wordOf .xcvt (.v 5) (.v 8) .zero .f32
     ROp.xcvt.wf w && meets here (ROp.xcvt.front w) fun c => flagTrap (fpEnables c.g.fpmode) ((c.lanesOf (ROp.xcvt.uniform w)).map fun l =>
       (l, (wideTo w.ty 0 w.opx.toInt .rne w.sat 0).2)) == none) = true ∧
    (-(2 ^ 255) ≤ (5 : Int) ∧ (5 : Int) < 2 ^ 255 ∧ (5 : Int) ≠ 2 ^ 255 - 1 ∧ (5 : Int) ≠ -(2 ^ 255) ∧ (0 : Int) - 200 ≤ -200) ∧
    (-(2 ^ 255) ≤ (2 ^ 255 - 1 : Int) ∧ (2 ^ 255 - 1 : Int) < 2 ^ 255) ∧ (-(2 ^ 255) ≤ (-(2 ^ 255) : Int) ∧ (-(2 ^ 255) : Int) < 2 ^ 255) := by
  decide +kernel

/-- LaneMoves and LaneReductions: `shfl`, `bcast`, `push`, `scan`, `lred` and `vote`. -/
theorem witness_lanes : ([.shfl, .bcast, .push, .scan, .lred, .vote] : List ROp).all (fun op =>
    let w := wordOf op (.v 5) (.v 6) (if op = .bcast then .s 7 else .v 7) .n32 (.s 9)
    op.wf w && meets here (op.front w) fun _ => true) = true ∧
  ([(.v 5, .s 7), (.s 5, .s 0), (.s 5, .k 0)] : List (Operand × Operand)).all (fun x =>
    let w := wordOf .bcast x.1 (.v 6) x.2 .n32
    ROp.bcast.wf w && meets here (ROp.bcast.front w) fun _ => true) = true ∧
  ([.scan, .lred] : List ROp).all (fun op =>
    let w := { wordOf op (.v 5) (.v 6) (.v 7) .i32 with opx := 2 }
    op.wf w && w.ty.isInt && !w.sat && meets here (op.front w) fun _ => true) = true := by decide +kernel

/-- LaneReductions: no step of the sums of 0.0 raises a flag. -/
theorem witness_reductions :
    (let w := wordOf .lred (.v 5) (.v 6) .zero .f32
     ROp.lred.wf w && meets here (ROp.lred.front w) fun c =>
      flagTrap (fpEnables c.g.fpmode) (c.stepFlags (reduceLanes (here.combOf c w) c.beats (c.laneVal w)).fl) == none) = true ∧
    (let w := wordOf .scan (.v 5) (.v 6) .zero .f32
     ROp.scan.wf w && meets here (ROp.scan.front w) fun c => flagTrap (fpEnables c.g.fpmode)
      (c.stepFlags ((scanLanes (here.combOf c w) c.beats (c.laneVal w)).flatMap fun p => p.2.fl)) == none) = true := by decide +kernel

/-- ControlTransfers: each opcode, its target the instruction itself, with no region open. -/
theorem witness_transfers : ([(.nop, xw .zero .zero .zero 0), (.bra, xw .zero .zero .zero 0), (.brs, xw .zero .zero .zero 0),
    (.jmp, xw .zero (.v 4) .zero 0), (.call, xw (.v 6) .zero .zero 0), (.ret, xw .zero (.v 4) .zero 0)] : List (COp × XWord)).all (fun p =>
    let s := hereWith (pairV4 0x1_0000)
    p.1.wf p.2 && meets s ((View.c p.1 p.2).front s) fun c => c.own == 0x1_0000 && c.g.id.isStart 0x1_0000 && (s.bodyOf c.gid c.g).isNone &&
      c.act.all fun l => c.g.rdDWord (.v 4) l == 0x1_0000) = true := by decide +kernel

/-- ControlTransfers: an offset of one instruction, past the only one of the text, and a pair that holds 4. -/
theorem witness_badTargets : ([(.bra, xw .zero .zero .zero 1), (.brs, xw .zero .zero .zero 1), (.jmp, xw .zero (.v 4) .zero 0),
    (.call, xw (.v 6) .zero .zero 1), (.ret, xw .zero (.v 4) .zero 0), (.spawn, xw .zero .zero .zero 1)] : List (COp × XWord)).all (fun p =>
    let s := hereWith (pairV4 4)
    p.1.wf p.2 && meets s ((View.c p.1 p.2).front s) fun c => !c.g.id.isStart 0x1_000C && !c.g.id.isStart 4 && !c.act.isEmpty) = true := by
  decide +kernel

/-- FibresHeldAndEnded: `join` and `fend` of lane 0 alone, and of every lane. -/
theorem witness_join : ([(.join, 1), (.join, 16), (.fend, 1), (.fend, 16)] : List (COp × Nat)).all (fun p =>
    let w : XWord := ⟨.zero, .zero, .zero, if p.2 = 1 then byV10 else .off, .none, 0⟩
    let s := hereWith fun g => g.put (g.key (.v 10) 0 0) 1
    p.1.wf w && meets s ((View.c p.1 w).front s) fun c => c.g.handler.isNone && c.g.halt.isNone && (s.bodyOf c.gid c.g).isNone &&
      c.g.fibres.all (fun f => !f.held) && c.act.length == p.2 && c.g.fibres.length == 16) = true := by decide +kernel

/-- FibresHeldAndEnded: the last lane comes to a `join` at whose next instruction the other lanes are held. -/
theorem witness_joinNext :
    let w := xw .zero .zero .zero 0
    let s := hereWith fun g => { g with fibres := g.fibres.map fun f => if f.lane = 0 then f else { f with pc := f.pc + 12, held := true } }
    (COp.join.wf w && meets s (ctlFront w) fun c => c.act == [0] && c.g.handler.isNone && c.g.halt.isNone &&
      c.g.fibres.all fun f => f.lane == 0 && !f.held || f.held && f.pc == c.own + 12) = true := by decide +kernel

/-- SpawnedFibres: bins that take every lane's fibre; a bin that takes fibres, one of another entry, and one whose timer has expired; a
closed bin that can leave, and one that cannot. -/
theorem witness_spawn :
    (let w := xw .zero (.v 4) .zero 0x200_0000
     COp.spawn.wf w && meets here ((View.c .spawn w).front here) fun c => c.g.id.isStart c.own.toNat &&
      let p : SpawnAt := ⟨c.g.id.core, c.g.id, c.own, c.g.swaptmo, here.dev.clk + c.g.bintmo.toNat, here.sched.nextId⟩
      (here.newId.2.placeFibres p (here.core c.g.id.core).bins
        (c.act.map fun l => ⟨0, [c.g.reg (c.g.key (.v 4) l 0), c.g.reg (c.g.key (.v 4) l 1)]⟩)).isSome &&
      (let b : Bin := ⟨c.g.id.ctx, c.g.id.team, c.g.id.grid, c.own, c.g.id, 0, 9, 0, false, false, [⟨0, []⟩]⟩
       let full := { here with groups := (List.range 32).map fun i => (i, c.g) }
       b.hasKey c.g.id c.own && !b.shut 0 && !{ b with entry := 0 }.hasKey c.g.id c.own && b.shut 9 &&
       here.binsLeave p.core [{ b with closed := true }] [] [] && !full.binsLeave p.core [{ b with closed := true }] [] [])) = true := by
  decide +kernel

/-- FibresHeldAndEnded: `yield`. -/
theorem witness_yield : (COp.yield.wf (xw .zero .zero .zero 5) && meets here (ctlFront (xw .zero .zero .zero 5)) fun _ => true) = true := by
  decide +kernel

/-- A trap of the group's instruction. -/
def aTrap : Trap := ⟨.align, 0x1_0000, 7, 0xFFFF, 7, 0, false, false, 0⟩

/-- The group with a handler of its kernel at its only instruction. -/
def handled (f : Group → Group) : State := hereWith fun g => f { g with id := { g.id with trapAt := some 0x1_0000 } }

/-- TrapEntry: a free window; 15 windows in use; all 16 in use, when the trap waits; each for a group that waits for an item and for
one that waits for nothing. -/
theorem witness_trap : ([(0, none), (15, none), (16, none), (15, some (.pop 0x1_0100 1 true none false ⟨9, [], []⟩))] :
      List (Nat × Option Wait)).all (fun x =>
    let n := x.1
    let s := crowd n (handled fun g => { g with wait := x.2 })
    groupIs s fun g => (g.wait.bind Wait.due).isSome == x.2.isSome && g.halt.isNone && (s.bodyOf gid0 g).isNone && g.handler.isNone && g.id.trapAt.isSome &&
      s.windowsUsed g.id.core == n && (g.fibres.any fun f => !f.held && f.pc == aTrap.pc)) = true := by decide +kernel

/-- TrapEntry: a pending trap with a free window, and no other group of the core that waits. -/
theorem witness_pending :
    (let s := crowd 15 (handled fun g => { g with pending := some aTrap })
     groupIs s fun g => g.pending == some aTrap && s.windowsUsed g.id.core == 15 && g.place == .slot &&
      s.groups.all fun p => p.2.pending.isNone || p.1 == gid0) = true := by decide +kernel

/-- TrapEntry: no handler; in the handler; under a debugger with halt-on-trap. -/
theorem witness_unhandled :
    groupIs here (fun g => g.halt.isNone && (here.bodyOf gid0 g).isNone && g.id.trapAt.isNone && !here.haltsOnTrap g.id.ctx) = true ∧
    (let s := handled fun g => { g with handler := some ⟨[0], 0⟩ }
     groupIs s fun g => g.handler.isSome && !s.haltsOnTrap g.id.ctx) = true ∧
    (let s := here.modCtx 0 fun c => { c with debugger := some true }
     groupIs s fun g => g.id.trapAt.isNone && s.haltsOnTrap g.id.ctx) = true := by decide +kernel

/-- TrapInstructions: `trap` and `brk` with a handler and no debugger, and `brk` under one. -/
theorem witness_trapInstructions : ([.trap, .brk] : List YOp).all (fun op =>
    let w := xw .zero .zero .zero 0x1234
    let s := handled id
    let d := s.modCtx 0 fun c => { c with debugger := some false }
    op.wf w && meets s (ctlFront w (body := false)) (fun c => c.g.halt.isNone && c.g.handler.isNone && !s.debugged c.g.id.ctx &&
      c.g.id.trapAt.isSome && s.windowsUsed c.g.id.core < 16) &&
    meets d (ctlFront w (body := false)) fun c => c.g.halt.isNone && c.g.handler.isNone && d.debugged c.g.id.ctx) = true := by decide +kernel

/-- TrapInstructions: `eret` in the handler, back to TRAPPC; and outside it. -/
theorem witness_eret :
    (let w := xw .zero .zero .zero 0
     let s := handled fun g => { g with handler := some ⟨[0, 1], 5⟩, trap := { g.trap with pc := 0x1_0000 } }
     YOp.eret.wf w && meets s ((View.y .eret w).front s) fun c => c.g.handler == some ⟨[0, 1], 5⟩ && !c.g.trap.cause.getLsbD 9 &&
      !c.g.trap.cause.getLsbD 8 && (c.g.fibres.all fun f => !f.held) && c.g.id.isStart c.g.trap.pc.toNat) = true ∧
    groupIs here (fun g => g.pc.isSome && g.wait.isNone && g.handler.isNone) = true := by decide +kernel

/-- SpecialRegisters: every register is read, in the handler. -/
theorem witness_rdsr : ([0, 1, 2, 3, 4, 5, 6, 7, 8, 0x10, 0x11, 0x12, 0x18, 0x20, 0x21, 0x22, 0x23, 0x24, 0x25, 0x26, 0x27, 0x30, 0x31, 0x32,
    0x33, 0x34, 0x35] : List Nat).all (fun n =>
    let w := xw (if n ≤ 1 then .v 4 else .s 4) .zero .zero (BitVec.ofNat 32 n)
    let s := handled fun g => { g with handler := some ⟨[0, 1], 5⟩ }
    YOp.rdsr.wf w && (SReg.ofCode n).isSome && meets s (rdsrFront w) fun _ => true) = true := by decide +kernel

/-- SpecialRegisters: every register that may be written, in the handler. -/
theorem witness_wrsr : ([0x11, 0x12, 0x18, 0x24, 0x26, 0x27, 0x30, 0x31, 0x35] : List Nat).all (fun n =>
    let w := xw .zero (.s 4) .zero (BitVec.ofNat 32 n)
    let s := handled fun g => { g with handler := some ⟨[0, 1], 5⟩ }
    YOp.wrsr.wf w && meets s (wrsrFront w) fun c => c.g.halt.isNone && (c.g.fibres.all fun f => !f.held)) = true := by decide +kernel

/-- SpecialRegisters: `twc` with its context; `tlbinv` of a canonical address with nothing in flight, and of another. -/
theorem witness_counters :
    (let w := xw (.s 4) (.s 6) .zero 0x205
     YOp.twc.wf w && meets here (twcFront w) fun c => (here.ctx c.g.id.ctx).isSome) = true ∧
    (let w := xw .zero (.s 4) (.s 6) 0
     let bad := hereWith (pairS 4 (2 ^ 60))
     YOp.tlbinv.wf w && meets here (tlbinvFront w) (fun c => canonical (c.g.rdDWord w.a 0) && here.released c.gid .device &&
      !here.usesEntries c.g.id.ctx here.order.tlb) && meets bad (tlbinvFront w) fun c => !canonical (c.g.rdDWord w.a 0)) = true := by
  decide +kernel

/-- LoadsAndPrefetches: a load of lane 0 from a page of each memory type (M, Q_ch and H), and from the team's share. -/
theorem witness_loads : ([0x1_0100, 0x1_1100, 0x1_2100, 0x1_3100] : List Nat).all (fun a =>
    let w := mw (.v 4) (.v 2) .zero .w64
    let s := morePages (lane0 (pairV 2 a))
    MOp.ld.wf w && meets s (MOp.front .ld w) fun c => resolves (s.resolve c w.space w.scope (c.elems w (MOp.uniform .ld w))
      { once := MOp.uniform .ld w, kind := .read, mt0 := w.space = .const, bodyLoad := true }) fun s1 hits =>
        settledIs s1 && hits.length == 1 && decide (hits.flatMap (c.datumKeys w)).Nodup && (0x1_2000 ≤ a || hits.all fun h => match h.reach with
          | .glob pa mt p => pa == a && mt == 0 && p == .m
          | _ => false)) = true ∧
  (let w := mw (.v 4) (.v 2) .zero .w32 (space := .spad)
   MOp.ld.wf w && meets here (MOp.front .ld w) fun c => resolves (here.resolve c w.space w.scope (c.elems w (MOp.uniform .ld w))
      { once := MOp.uniform .ld w, kind := .read, mt0 := w.space = .const, bodyLoad := true }) fun _ hits => hits.length == 16) = true := by
  decide +kernel

/-- LoadsAndPrefetches: `ldt` of a tile in the team's share, `pref`, and `wb`. -/
theorem witness_tiles :
    (let w := mw (.v 16) (.s 2) (.s 4) .tl8 (space := .spad)
     MOp.ldt.wf w && meets here (MOp.front .ldt w) fun c => resolves (here.resolve c w.space w.scope (c.elems w (MOp.uniform .ldt w))
      { once := MOp.uniform .ldt w, kind := .read, mt0 := w.space = .const, bodyLoad := true }) fun _ hits => hits.length == 256) = true ∧
    (let w := mw .zero (.v 2) .zero .w8
     let s := lane0 (pairV 2 0x1_0100)
     MOp.pref.wf w && MOp.wb.wf w && meets s (MOp.front .pref w) (fun _ => true) && meets s (MOp.front .wb w) fun c =>
      resolves (s.resolve c w.space w.scope (c.elems w w.a.isS) { once := w.a.isS, kind := .read }) fun _ hits => hits.length == 1) = true := by
  decide +kernel

/-- LoadsAndPrefetches: a `pref` that hits a read watchpoint. -/
theorem witness_prefWatch :
    (let w := mw .zero (.v 2) .zero .w8
     let s := (lane0 (pairV 2 0x1_0100)).modCtx 0 fun c => { c with watch := [(0, ⟨0x1_0100, 4, .global, true, false⟩)] }
     MOp.pref.wf w && !w.a.isS && meets s (MOp.front .pref w) fun c =>
      (s.watchFails c .read ((c.elems w w.a.isS).filterMap (s.prefHit c w))).map (·.lane) == [0]) = true := by decide +kernel

/-- Stores: at once in M, on Q_ch, on H, in T_c, and in the team's share. -/
theorem witness_stores : ([(0x1_0100, .device, .m), (0x1_2100, .device, .qch), (0x1_3100, .device, .h), (0x1_0100, .team, .tc)] :
      List (Nat × Scope × Path)).all (fun x =>
    let w := mw (.v 4) (.v 2) .zero .w32 x.2.1
    let s := morePages (lane0 (pairV 2 x.1))
    MOp.st.wf w && meets s (MOp.front .st w) fun c => resolves (s.resolve c w.space w.scope (c.elems w (MOp.uniform .st w))
      { once := MOp.uniform .st w, kind := .write }) fun s1 hits => settledIs s1 && hits.length == 1 && hits.all fun h => match h.reach with
        | .glob pa _ p => pa == x.1 && p == x.2.2
        | _ => false) = true ∧
  (let w := mw (.v 4) (.v 2) .zero .w8 (space := .spad)
   MOp.st.wf w && meets here (MOp.front .st w) fun c => resolves (here.resolve c w.space w.scope (c.elems w (MOp.uniform .st w))
      { once := MOp.uniform .st w, kind := .write }) fun s1 hits => settledIs s1 && hits.length == 16 &&
        (s1.share c.g.id.grid c.g.id.team 0).isSome) = true := by decide +kernel

/-- TranslationAndAddresses: a misaligned address, one that is not canonical, and a place past the share, in lane 0. -/
theorem witness_badAddresses : ([(.ld, 0x1_0101, .global), (.st, 0x1_0101, .global), (.ld, 2 ^ 60, .global), (.st, 0x1_0000, .spad)] :
      List (MOp × Nat × Space)).all (fun x =>
    let w := mw (.v 4) (.v 2) .zero .w32 (space := x.2.2)
    let s := lane0 (pairV 2 x.2.1)
    x.1.wf w && !x.1.uniform w && meets s (x.1.front w) fun c => (s.bodyOf c.gid c.g).isNone &&
      (c.elems w false).all fun e => e.lane == 0 && if x.2.1 = 0x1_0101 then e.misaligned else !e.misaligned && match e.spad with
        | none => !canonical e.va
        | some (_, o) => 65536 < o + e.bytes) = true := by decide +kernel

/-- The first line of the team's share is absent: its bytes are not to come, or its copy failed. -/
def lineAbsent (faulted : Bool) (s : State) : State :=
  s.modTeam 0 0 fun t => { t with shares := t.shares.map fun x => { x with absent := [0], faulted := if faulted then [0] else [] } }

/-- TranslationAndAddresses: the later checks of a load of lane 0: a page that is not mapped, one whose slice refuses, a line of the share
that is faulted, and one without a writer. -/
theorem witness_failingChecks : ([0, 1, 2, 3] : List Nat).all (fun n =>
    let w := mw (.v 4) (.v 2) .zero .w32 (space := if n < 2 then .global else .spad)
    let s0 := lane0 (pairV 2 (if n = 0 then 0x5000_0000 else if n = 1 then 0x1_1100 else 0))
    let s := if n = 1 then { morePages s0 with dev := { s0.dev with access := smErase s0.dev.access (tableKey 0 .slice) } }
      else if n < 1 then s0 else lineAbsent (n == 2) s0
    MOp.ld.wf w && meets s (MOp.front .ld w) fun c => (s.bodyOf c.gid c.g).isNone &&
      let els := c.elems w (MOp.uniform .ld w)
      let x := s.walkElems c w.space w.scope false .read els
      els.all (fun e => !e.misaligned) && !x.blocked && settledIs s &&
      match n with
      | 0 => x.fails.map (·.cause) == [.xlmiss]
      | 1 => x.fails.map (·.cause) == [.access]
      | _ => x.fails.isEmpty && x.hits.map (fun h => x.s.presenceOf c h) == [if n = 2 then .faulted else .orphan]) = true := by decide +kernel

/-- TranslationAndAddresses: a tile of `ldt` at an odd pitch. -/
theorem witness_badTile :
    (let w := mw (.v 16) (.s 2) (.s 4) .tl32 (space := .spad)
     let s := lane0 (pairS 4 2)
     MOp.ldt.wf w && meets s (MOp.front .ldt w) fun c => (MOp.uniform .ldt w) == false && (c.elems w false).all (·.misaligned)) = true := by
  decide +kernel

/-- TranslationAndAddresses: a read, a write and a fetch of the placed program's page. -/
theorem witness_translation : ([.read, .write, .both, .fetch] : List Kind).all (fun k =>
    settledIs here && match here.translate 0 0x1_0040 k false with | .ok _ _ => true | _ => false) = true := by decide +kernel

/-- Atomics: an operation code below 11 on a width; `atom` and `red` of lane 0 in a page with MT 00. -/
theorem witness_atomics : ((10 : Nat) < 11 ∧ (0 : Nat) < 4) ∧
  ([.atom, .red] : List MOp).all (fun op =>
    let w := mw (if op = .red then .zero else .v 4) (.v 2) (.v 6) .w32
    let s := lane0 (pairV 2 0x1_0100)
    op.wf w && meets s (op.front w) fun c => resolves (s.resolve c w.space w.scope (c.elems w (op.uniform w))
      { once := op.uniform w, kind := .both, nondet := if op = .red then fun s hits => s.redNondet w c.g.id hits else fun _ _ => c.g.id.det })
      fun s1 hits => settledIs s1 && hits.length == 1 && decide (hits.flatMap (c.datumKeys w)).Nodup && hits.all fun h => match h.reach with
        | .glob pa mt p => pa == 0x1_0100 && mt == 0 && p == .m
        | _ => false) = true := by decide +kernel

/-- Atomics: `red` to an uncached page, to one in host bias and to one with MT 11; `atom` whose D is an s register, for two lanes. -/
theorem witness_atomicPaths :
    ([(0x1_4100, false), (0x1_1100, true), (0x1_3100, false)] : List (Nat × Bool)).all (fun x =>
      let w := mw .zero (.v 2) (.v 6) .w32
      let s0 := poke [(0x50A0, 0x1_42DB)] (morePages (lane0 (pairV 2 x.1)))
      let s : State := { s0 with dev := { s0.dev with bias := if x.2 then [x.1 / 4096] else [] } }
      MOp.red.wf w && meets s (MOp.front .red w) fun c => resolves (s.resolve c w.space w.scope (c.elems w (MOp.uniform .red w))
        { once := MOp.uniform .red w, kind := .both, nondet := fun s hits => s.redNondet w c.g.id hits }) fun s1 hits =>
          settledIs s1 && hits.length == 1 && hits.all fun h => match h.reach with
            | .glob _ mt p => if x.1 = 0x1_4100 then mt == 2 && p == .m else p == .h
            | _ => false) = true ∧
    (let w := mw (.s 4) (.s 2) (.v 6) .w32
     let s := hereWith fun g => pairS 2 0x1_0100 { g with fibres := g.fibres.filter (·.lane < 2) }
     MOp.atom.wf w && meets s (MOp.front .atom w) fun c => resolves (s.resolve c w.space w.scope (c.elems w (MOp.uniform .atom w))
      { once := MOp.uniform .atom w, kind := .both, nondet := fun _ _ => c.g.id.det }) fun s1 hits =>
        settledIs s1 && w.d.isS && hits.length == 2) = true := by decide +kernel

/-- OrderedAtomics: `aord` of lane 0, with nothing to release. -/
theorem witness_aord :
    (let w := mw (.v 1) (.v 2) (.v 6) .w32
     let s := lane0 (pairV 2 0x1_0100)
     MOp.aord.wf w && meets s (MOp.front .aord w) fun c => resolves (s.resolve c w.space w.scope (c.objects w (MOp.uniform .aord w) 16 16)
      { once := MOp.uniform .aord w, kind := .both, mt0 := true }) fun s1 hits => hits.length == 1 && s1.released c.gid .device) = true := by
  decide +kernel

/-- An outstanding `aord` of lane 0 with a ticket, on a cell whose NEXT is 0. -/
def ticketed (t : Word) : State :=
  let s := lane0 fun g => { g with wait := some (.ticket 9) }
  { s with work := { s.work with tickets := [⟨9, gid0, 0, 0, 0, 4, false, 0x1_0000, [0], [0], [⟨0, [5], 0x1_0100, t, 3, 0, .sent⟩]⟩] } }

/-- OrderedAtomics: a ticket that is NEXT, the nearest and the farthest early ones, and the nearest and the farthest late ones. -/
theorem witness_arrivals : ([0, 1, 0x7FFF_FFFF, 0x8000_0000, 0xFFFF_FFFF] : List Word).all (fun t =>
    let s := ticketed t
    settledIs s && s.running 0 && (s.work.tickets.all fun x => x.lanes.all fun l => !s.aordWaits x l) &&
      s.allowed (s.targetAt 0x1_0100 0) 0 0x1_0100 16 .both && !s.poisoned 0x1_0100 16 && s.acquired gid0 .device &&
      groupIs s (fun g => g.wait == some (.ticket 9) && g.halt.isNone && g.fibres.all fun f => !f.held) && (t - BitVec.ofNat 32 (leVal (s.readBytes 0x1_0100 4))) == t) = true := by decide +kernel

/-- A load of the group in Q_ch, so that no acquire is over. -/
def loading (s : State) : State :=
  { s with order := { s.order with qch := [(3, [⟨gid0, 118, 0, 0x3_0180, 4, .load, 3, [5], 0, false⟩])] } }

/-- OrderedAtomics: a ticket that is NEXT while an acquire is not over. -/
theorem witness_acquires :
    (let s := loading (ticketed 0)
     settledIs s && !s.acquired gid0 .device && (s.work.tickets.all fun x => x.lanes.all fun l => !s.aordWaits x l)) = true := by decide +kernel

/-- OrderedAtomics: an early ticket that finds 64 held arrivals in its slice, none of them its own. -/
theorem witness_bufferFull :
    (let s := ticketed 5
     let s := { s with work := { s.work with tickets := s.work.tickets.map fun x =>
       { x with lanes := x.lanes ++ (List.range 64).map fun i => ⟨1 + i, [], 0x1_0100, BitVec.ofNat 32 (100 + i), 0, 0, .held⟩ } } }
     settledIs s && s.running 0 && (s.heldAt 0x1_0100 5).isNone && s.heldCount (s.sliceOf 0 0x1_0100) == 64 &&
     (s.work.tickets.all fun x => x.lanes.all fun l => l.st == .held || !s.aordWaits x l) &&
     (s.work.tickets.find? (·.id == 9)).isSome) = true := by decide +kernel

/-- OrderedAtomics: an early arrival whose ticket is held already, and a late one, beside a lane that is not over; and an arrival whose
successor is held. -/
theorem witness_refusedArrivals :
    ([(0, 5), (6, 5)] : List (Nat × Word)).all (fun x =>
      let s := poke [(0x1_0100, x.1)] (ticketed x.2)
      let s := { s with work := { s.work with tickets := s.work.tickets.map fun y => { y with lanes := y.lanes ++ [⟨1, [], 0x1_0100, 5, 0, 0, .held⟩] } } }
      settledIs s && s.running 0 && ((s.heldAt 0x1_0100 x.2).isSome) && s.allowed (s.targetAt 0x1_0100 0) 0 0x1_0100 16 .both &&
      !s.poisoned 0x1_0100 16 && leVal (s.readBytes 0x1_0100 4) == x.1 &&
      (s.work.tickets.all fun y => y.lanes.all fun l => l.st == .held || !s.aordWaits y l)) = true ∧
    (let s := loading (ticketed 0)
     let s := { s with work := { s.work with tickets := s.work.tickets ++ s.work.tickets.map fun y =>
       { y with id := 10, lanes := [⟨0, [6], 0x1_0100, 1, 0, 0, .held⟩] } } }
     settledIs s && !s.acquired gid0 .device && s.running 0 && s.allowed (s.targetAt 0x1_0100 0) 0 0x1_0100 16 .both &&
     !s.poisoned 0x1_0100 16 && leVal (s.readBytes 0x1_0100 4) == 0 && (s.work.tickets.map (·.id)) == [9, 10] &&
     match s.work.tickets with | x :: _ => x.lanes.all fun l => !s.aordWaits x l | [] => false) = true := by decide +kernel

/-- WaitsOnWords: a word that is 0 awaited with EQ and with NE, with a timeout and without; and while a load of the group is on its
way. -/
theorem witness_waitc : ([(0, 0, false), (1, 0, false), (1, 50, false), (0, 0, true)] : List (BitVec 3 × Nat × Bool)).all (fun y =>
    let x := (y.1, y.2.1)
    let w := mw (.s 4) (.s 6) (.s 8) .w32 (opx := x.1)
    let s0 := hereWith fun g => pairS 10 x.2 (pairS 6 0x1_0100 g)
    let s := if y.2.2 then loading s0 else s0
    MOp.waitc.wf w && meets s (MOp.front .waitc w (resumes := true)) fun c => c.g.wait.isNone && (c.g.reg (c.g.key w.b 0 2)).toNat == x.2 &&
      resolves (s.resolveNow c w.space w.scope (c.objects w true 4 4)
        { once := true, kind := .read, nondet := fun _ _ => (c.g.reg (c.g.key w.b 0 2)).toNat != 0 && c.g.id.det }) fun s1 hits =>
          settledIs s1 && hits.length == 1 && s1.acquired c.gid w.scope == !y.2.2 &&
          condU w.opx.toNat (leVal (s1.readBytes 0x1_0100 4)) (c.g.rd w.b 0 .n32) == (x.1 == 0)) = true := by decide +kernel

/-- What the producer of a wait is called. -/
def due9 : Due := ⟨9, [], []⟩

/-- The wait of a `waitc` on the word at 0x1_0100 for a value that is not 0. -/
def wordWait (dl : Option Nat) (mon : Bool) (hit woke : Option DWord) : WordWait := ⟨0x1_0100, 4, 0, 1, 0, dl, mon, hit, woke, false⟩

/-- A group that waits on a word, and the producer of its destination. -/
def waiting (x : WordWait) (f : Group → Group) : State :=
  let s := hereWith fun g => f { g with wait := some (.word x due9) }
  { s with work := { s.work with producers := [⟨9, gid0, [(regKey 1 0 4, none), (regKey 1 0 5, none)]⟩] } }

/-- WaitsOnWords: the wait resumes with its value, its producer standing by; a monitor that hit, in a slot and saved; a monitor that a
write reaches; an expired wait; a wait without a monitor. -/
theorem witness_waits :
    (let w := mw (.s 4) (.s 6) (.s 8) .w32 (opx := 1)
     let s := waiting (wordWait none false none (some 7)) id
     MOp.waitc.wf w && meets s (MOp.front .waitc w (resumes := true)) fun c =>
      c.g.wait == some (.word (wordWait none false none (some 7)) due9) && s.acquired c.gid w.scope) = true ∧
    (let s := waiting (wordWait none true (some 7) none) fun g => { g with place := .saved }
     groupIs s fun g => g.place != .slot && !g.ended && g.halt.isNone && (g.fibres.all fun f => !f.held) && g.pc == some 0x1_0000 &&
      g.holdsKey (regKey 1 0 4) && g.holdsKey (regKey 1 0 5)) = true ∧
    ([(none, true, some 7), (none, true, none), (some 0, false, none), (none, false, none)] : List (Option Nat × Bool × Option DWord)).all (fun y =>
      let x := wordWait y.1 y.2.1 y.2.2 none
      let s := waiting x id
      groupIs s fun g => g.wait == some (.word x due9) && g.place == .slot && 0 ≤ s.dev.clk && s.running g.id.ctx &&
        !s.notYet gid0 g.id.core 0x1_0100 4 0 false && s.allowed (s.targetAt 0x1_0100 0) g.id.ctx 0x1_0100 4 .read &&
        !s.poisoned 0x1_0100 4 && settledIs s) = true := by decide +kernel

/-- A queue object at 0x1_0100 with a ring of two items at 0x1_1000, and the pair s6 that names it. -/
def queued (head tail : Nat) (f : Group → Group) : State :=
  poke [(0x1_0100, head), (0x1_0108, tail), (0x1_0110, 0x1_1000), (0x1_0118, 1)] (morePages (hereWith fun g => f (pairS 6 0x1_0100 g)))

/-- QueuesAndFutures: `qpush` with a place free, with none, and with a waiting popper; `qpop` with an item and with none. -/
theorem witness_queues : ([(.qpush, 0, 0, false), (.qpush, 0, 1, false), (.qpush, 0, 2, false), (.qpush, 3, 3, true), (.qpop, 0, 1, false),
      (.qpop, 0, 0, false)] : List (MOp × Nat × Nat × Bool)).all (fun x =>
    let w := if x.1 = .qpush then mw .zero (.s 6) (.s 8) .w32 else mw (.s 8) (.s 6) .zero .w32
    let s0 := queued x.2.1 x.2.2.1 id
    let s := if x.2.2.2 then (match s0.group gid0 with
      | some g => s0.setGroup 7 { g with wait := some (.pop 0x1_0100 1 true none false due9) }
      | none => s0) else s0
    x.1.wf w && meets s (MOp.front x.1 w (resumes := true)) fun c => c.g.wait.isNone &&
      resolves (s.resolveNow c w.space w.scope (c.objects w true 64 64)
        { once := true, kind := .both, mt0 := true, nondet := fun _ _ => c.g.id.det }) fun s1 hits =>
          let q := s1.queueObj 0x1_0100
          settledIs s1 && hits.length == 1 && (hits.all fun h => h.pa == 0x1_0100) && q.log2 == 1 && q.ring % 4 == 0 && q.count == x.2.2.1 - x.2.1 &&
          s1.released c.gid .device && s1.acquired c.gid .device && (s1.oldestPopper 0x1_0100 == if x.2.2.2 then some 7 else none) &&
          (x.2.2.2 || q.count == (if x.1 = .qpush then 2 else 0) ||
            resolves (s1.queueElem c q (if x.1 = .qpush then q.tail else q.head) 4 (if x.1 = .qpush then .write else .read)) fun s2 es =>
              settledIs s2 && es.length == 1)) = true := by decide +kernel

/-- QueuesAndFutures: another group that waits to push, at a queue of one item. -/
theorem witness_pusher :
    let s := queued 0 1 id
    (match s.group gid0 with
      | none => false
      | some g =>
        let s := s.setGroup 7 { g with wait := some (.push 0x1_0100 3 true false) }
        settledIs s && s.oldestPusher 0x1_0100 == some 7 && (s.queueObj 0x1_0100).count == 1 &&
          meets s (MOp.front .qpop (mw (.s 8) (.s 6) .zero .w32) (resumes := true)) fun c => c.g.wait.isNone && s.acquired c.gid .device) = true := by
  decide +kernel

/-- QueuesAndFutures: `qpop` that was handed an item, and one that tries its loop again. -/
theorem witness_popped :
    (let w := mw (.s 8) (.s 6) .zero .w32
     let s := hereWith fun g => { g with wait := some (.pop 0x1_0100 1 false (some 5) false due9) }
     MOp.qpop.wf w && meets s (MOp.front .qpop w (resumes := true)) fun c => c.g.wait == some (.pop 0x1_0100 1 false (some 5) false due9) &&
      s.acquired c.gid .device) = true ∧
    (let w := mw (.s 8) (.s 6) .zero .w32
     let s := queued 0 1 fun g => { g with wait := some (.pop 0x1_0100 1 true none true due9) }
     MOp.qpop.wf w && meets s (MOp.front .qpop w (resumes := true)) fun c => (c.g.wait.bind Wait.due) == some due9 &&
      resolves (s.resolveNow c w.space w.scope (c.objects w true 64 64)
        { once := true, kind := .both, mt0 := true, nondet := fun _ _ => c.g.id.det }) fun s1 hits => settledIs s1 && hits.length == 1 &&
          (s1.queueObj 0x1_0100).count == 1) = true := by decide +kernel

/-- QueuesAndFutures: `fset` and `fget` of lane 0 on an empty and on a full cell, with OVW and without. -/
theorem witness_futures : ([(.fset, 0, false), (.fset, 1, false), (.fset, 1, true), (.fget, 0, false), (.fget, 1, false)] :
      List (MOp × Nat × Bool)).all (fun x =>
    let w := if x.1 = .fset then { mw (.v 4) (.v 2) (.v 6) .w64 with hints := ⟨false, false, false, false, x.2.2, false, false⟩ }
      else mw (.v 4) (.v 2) .zero .w64
    let s := poke [(0x1_0108, x.2.1)] (lane0 (pairV 2 0x1_0100))
    x.1.wf w && meets s (MOp.front x.1 w (resumes := x.1 = .fget)) fun c => c.g.wait.isNone &&
      resolves (s.resolveNow c w.space w.scope (c.objects w (x.1.uniform w) 16 16) { once := x.1.uniform w, kind := .both, mt0 := true })
        fun s1 hits => settledIs s1 && hits.length == 1 && s1.released c.gid w.scope && s1.acquired c.gid w.scope &&
          leVal (s1.readBytes 0x1_0108 4) == x.2.1 && (s1.oldestFget 0x1_0100).isNone) = true := by decide +kernel

/-- QueuesAndFutures: one group that waits in `fget`, with KEEP and without; and an `fget` that was served. -/
theorem witness_fget : ([true, false] : List Bool).all (fun keep =>
    let s := lane0 fun g => { g with wait := some (.future [⟨0, 0x1_0100, keep, none⟩] 1 true due9) }
    s.groups.map (·.1) == [gid0] && settledIs s && groupIs s fun g => g.place == .slot && g.wait == some (.future [⟨0, 0x1_0100, keep, none⟩] 1 true due9)) = true ∧
  (let w := mw (.v 4) (.v 2) .zero .w64
   let s := lane0 fun g => { g with wait := some (.future [⟨0, 0x1_0100, false, some 9⟩] 1 false due9) }
   MOp.fget.wf w && meets s (MOp.front .fget w (resumes := true)) fun c =>
    c.g.wait == some (.future [⟨0, 0x1_0100, false, some 9⟩] 1 false due9) && s.acquired c.gid w.scope) = true := by decide +kernel

/-- QueuesAndFutures: `fset` and `fget` of two lanes, at an empty cell and a full one; and `fset` while a group waits at its cell. -/
theorem witness_futureLanes : ([(.fset, 2, false), (.fset, 1, true), (.fget, 2, false)] : List (MOp × Nat × Bool)).all (fun x =>
    let op := x.1
    let w := if op = .fset then mw (.v 4) (.v 2) (.v 6) .w64 else mw (.v 4) (.v 2) .zero .w64
    let two := hereWith fun g =>
      let g := { g with fibres := g.fibres.filter (·.lane < x.2.1) }
      [(0, 0x1_0100), (1, 0x1_0200)].foldl (fun g y => (g.put (g.key (.v 2) y.1 0) (BitVec.ofNat 32 y.2)).put (g.key (.v 2) y.1 1) 0) g
    let s := poke [(0x1_0208, 1)] two
    let s := match s.group gid0 with
      | some g => if x.2.2 then s.setGroup 7 { g with wait := some (.future [⟨0, 0x1_0100, true, none⟩] 1 true due9) } else s
      | none => s
    op.wf w && meets s (MOp.front op w (resumes := op = .fget)) fun c => c.g.wait.isNone &&
      resolves (s.resolveNow c w.space w.scope (c.objects w (op.uniform w) 16 16) { once := op.uniform w, kind := .both, mt0 := true })
        fun s1 hits => settledIs s1 && hits.map (·.pa) == [0x1_0100, 0x1_0200].take x.2.1 && s1.released c.gid w.scope && s1.acquired c.gid w.scope &&
          leVal (s1.readBytes 0x1_0108 4) == 0 && leVal (s1.readBytes 0x1_0208 4) == 1 &&
          s1.oldestFget 0x1_0100 == (if x.2.2 then some 7 else none)) = true := by decide +kernel

/-- BarriersAndFences: a count below its target; `arrive` with a team and nothing to release; another group that waits. -/
theorem witness_arrive : ((0 : Nat) < 16 ∧ (15 : Nat) < 16) ∧
    (let w := xw .zero .zero .zero 0x3001
     let s := here.setGroup 7 ((here.group gid0).getD (Group.start ⟨0, 0, 0, 0, 0, 0, .all, 0, 0, 0, 0, 0, 0, false, false, 0, 0, 0, 0, 0, 0, 0, 0, 0,
       none⟩ 0 [] 0 0 false))
     COp.arrive.wf w && meets s ((View.c .arrive w).front s) fun c => (s.team c.g.id.grid c.g.id.team).isSome &&
      s.released c.gid (scopeOf (w.f 19 18)) && (s.group 7).isSome && c.gid != 7) = true := by decide +kernel

/-- BarriersAndFences: `waitb` for the phase that is, for the other, and woken; `fence` with nothing in flight, and with a write of the
group in T_c. -/
theorem witness_barriers :
    (let w := xw .zero .zero .zero 0x3000
     let w1 := xw .zero .zero .zero 0x10_3000
     let s1 := hereWith fun g => { g with wait := some (.barrier 3 true true) }
     COp.waitb.wf w && COp.waitb.wf w1 &&
     meets here ((View.c .waitb w).front here) (fun c => (here.barrier c.g.id 3).phase == false && here.acquired c.gid .team) &&
     meets here ((View.c .waitb w1).front here) (fun c => (here.barrier c.g.id 3).phase == false && c.g.wait.isNone) &&
     meets s1 ((View.c .waitb w1).front s1) (fun c => c.g.wait == some (.barrier 3 true true)) ) = true ∧
    (let w := xw .zero .zero .zero 6
     let s := { here with order := { here.order with tc := [⟨118, 0, [gid0], 0x1_0100, [1], 0⟩] } }
     COp.fence.wf w && meets here (ctlFront w (body := false)) (fun c => here.released c.gid .device && here.acquired c.gid .device) &&
     meets s (ctlFront w (body := false)) fun c => !s.released c.gid .device) = true := by decide +kernel

/-- LongLatencyResults: `kcg` and `sfu`, with an empty queue and no flag raised. -/
theorem witness_longLatency :
    (let w := wordOf .kcg (.v 4) (.v 8) (.v 12) .n32
     ROp.kcg.wf w && meets here (ROp.kcg.front w) fun _ => true) = true ∧
    (let w := { wordOf .sfu (.v 5) (.v 6) .zero .f32 with opx := 2 }
     ROp.sfu.wf w && meets here (ROp.sfu.front w) fun c => (here.bodyOf c.gid c.g).isNone && (here.core c.g.id.core).sfu.length + 4 ≤ 32 &&
      fpEnables c.g.fpmode == 0) = true := by decide +kernel

/-- A state whose core has a started and a waiting entry of the SFU queue, and a producer with its value. -/
def sfuState : State :=
  let s := here.modCore 118 fun k => { k with sfu := [⟨gid0, 3, [(5, 1)], 4, true, false, some 0, none⟩, ⟨gid0, 4, [(6, 1)], 0, true, false, none, none⟩] }
  { s with work := { s.work with producers := [⟨8, gid0, [(7, some 2)]⟩] } }

/-- LongLatencyResults: an entry that starts behind one that has started; one that writes back; a producer with its values. -/
theorem witness_writeBack : ((sfuState.core 118).sfu.map (·.started.isSome)) = [true, false] ∧
    groupIs sfuState (fun g => !g.ended) = true ∧ ([(5, (1 : Word))].map (·.1)).Nodup ∧
    sfuState.work.producers.find? (fun p => p.id == 8) = some ⟨8, gid0, [(7, (2 : Word))].map fun p => (p.1, some p.2)⟩ := by decide +kernel

/-- OrderAndHostMoves: the oldest write of a line in T_c behind one of another line, allowed and refused; the head of a channel and an
entry of H of each kind; a `red`. -/
theorem witness_orderMoves : ([0, 9] : List Nat).all (fun ctx =>
    let s : State := { here with order := { here.order with tc := [⟨118, 0, [1], 0x1_0180, [1], 0⟩, ⟨118, ctx, [1], 0x1_0100, [1, 2], 1⟩] } }
    (s.order.tc.map fun w => (w.core, lineOf w.pa)) == [(118, lineOf 0x1_0180), (118, lineOf 0x1_0100)] &&
    (linesOf 0x1_0100 2).all (fun l => !s.takenFor .other l) && s.allowed .slice ctx 0x1_0100 2 .write == (ctx == 0)) = true ∧
  ([.load, .store [1, 2, 3, 4], .rmw 0 1 0, .red 11 1 0, .cell 1 5 6] : List AccKind).all (fun k =>
    let a : Access := ⟨1, 118, 0, 0x1_0100, if k == .cell 1 5 6 then 32 else 4, k, 3, [5], 7, k == .load⟩
    let b : Access := ⟨1, 118, 0, 0x1_0180, 4, .load, 3, [6], 8, false⟩
    let s : State := { here with order := { here.order with qch := [(channelOf 0x1_0100, [a, b])], h := [b, a] } }
    settledIs s && !s.accessWaits a && !s.accessBad a && smGet [] s.order.qch (channelOf 0x1_0100) == [a, b] && s.order.h == [b, a] &&
      lineOf b.pa != lineOf a.pa && s.allowed .hbm 0 a.pa a.bytes k.kind && s.allowed .port 0 a.pa a.bytes k.kind &&
      (s.order.h.all fun x => !s.accessWaits x && !s.accessBad x)) = true ∧
  (let s : State := { here with order := { here.order with reds := [⟨1, 0, 118, 0, 0x1_0100, 4, 3, none, 0⟩] } }
   s.order.reds[0]?.isSome && (s.order.reds.all fun r => !s.redWaits r) && s.allowed .slice 0 0x1_0100 4 .both && s.order.partials.isEmpty) = true := by decide +kernel

/-- OrderAndHostMoves: a host access of each kind on a port with the host personality, allowed and refused. -/
theorem witness_host : ([(HostOp.load, 5), (.store, 5), (.amo 0, 5), (.amo 7, 5), (.load, 6)] : List (HostOp × Nat)).all (fun x =>
    let s : State := { here with dev := { here.dev with prov := { here.dev.prov with ports := [(0, x.2)] }, access := [(tableKey 5 .port, [⟨0, 2 ^ 51, true, true⟩])] } }
    let k := match x.1 with | .load => Kind.read | .store => .write | .amo _ => .both
    s.dev.prov.ports.find? (fun p => p.1 == 0) == some (0, x.2) && settledIs s && !s.hostMem 0x1_0100 && !s.blocked 0x1_0100 8 k.writes &&
    s.allowed .port x.2 0x1_0100 8 k == (x.2 == 5)) = true ∧ (0x1_0100 % 8 = 0 ∧ 0x1_0100 < 2 ^ 51) ∧
    (let s : State := { here with dev := { here.dev with prov := { here.dev.prov with hostRanges := [(2 ^ 50, 2 ^ 51)] } } }
     s.hostMem (2 ^ 50) && !s.blocked (2 ^ 50) 8 true) = true := by decide +kernel

/-- MemoryReadAfterWrite: a memory in canonical form, and one with a byte that is listed as what it would read anyway. -/
theorem witness_memory : Memory.wf here.mem ∧ ¬Memory.wf [(5, 0)] ∧ ¬Memory.wf [(5, 1), (4, 1)] := by decide +kernel

/-- EngineInstructions: `macq` with the engine free, owned by the group, and owned by another group; `marel` with no waiter and with
one; `mcvr`; `mstat` with WAIT clear, set, and with operations queued. -/
theorem witness_ownership :
    (let w := xw .zero .zero .zero 0
     let f := xFront w (ports := [.mxp])
     let s1 := owning id here
     let s2 := engined (fun e => { e with owner := some 7 }) here
     XOp.macq.wf w && XOp.marel.wf w &&
     meets here f (fun c => ((here.core c.g.id.core).engine.owner).isNone && !here.engineAwaited c.g.id.core) &&
     meets s1 f (fun c => (s1.core c.g.id.core).engine.owner == some c.gid) &&
     meets s2 f (fun c => (s2.core c.g.id.core).engine.owner == some 7 && (s2.core c.g.id.core).engine.ownerQ.length < 16) &&
     meets s1 ((View.x .marel w).front s1) (fun c => (s1.core c.g.id.core).engine.ownerQ.isEmpty && !s1.engineAwaited c.g.id.core) &&
     (match here.group gid0 with
      | none => false
      | some g =>
        let s := (owning (fun e => { e with ownerQ := [7] }) here).setGroup 7 { g with wait := some .engine }
        meets s ((View.x .marel w).front s) fun c => (s.core c.g.id.core).engine.ownerQ == [7] && g.pc.isSome && g.halt.isNone &&
          g.fibres.all fun f => !f.held)) = true ∧
    (let w := xw .zero .zero .zero 0x5003
     let s := owning id here
     XOp.mcvr.wf w && meets s (mxFront w) fun c => (smFind (s.core c.g.id.core).engine.conv 5).isNone) = true ∧
    ([0, 1, 3] : List Word).all (fun m =>
      let w := xw (.s 4) .zero .zero m
      let o : EngOp := ⟨3, gid0, 0, 0, 0, 0x1_0000, [0], 0, .mzero 0 1, false, [], [], [], [], [], [], false, 0⟩
      let s := owning (fun e => { e with ops := if m = 3 then [o] else [] }) here
      XOp.mstat.wf w && meets s ((View.x .mstat w).front s) fun c => (s.core c.g.id.core).engine.ops.length == if m = 3 then 1 else 0) = true := by
  decide +kernel

/-- EngineInstructions: `mzero`, `mcopy`, and `mfill` from scratchpad and from memory. -/
theorem witness_fills :
    (let w := xw (.a 4) .zero .zero 3
     let s := owning id here
     XOp.mzero.wf w && meets s (mxFront w) fun c => (s.core c.g.id.core).engine.ops.length < 16) = true ∧
    (let w := xw (.a 4) (.a 8) .zero 3
     let s := owning id here
     XOp.mcopy.wf w && meets s (mxFront w) fun _ => true) = true ∧
    (let w := xw (.a 4) (.s 8) .zero 0x100
     let s := owning id here
     XOp.mfill.wf w && meets s (mxFront w (aRegs := 2)) fun c => c.g.reg (c.g.key (.s 8) 0 1) == 0 &&
      match s.spadOps c.g.id [(0, [(0, 16384)])] with | .inr [p] => (s.sourceFail c [p]).isNone | _ => false) = true ∧
    (let w := xw (.a 4) (.s 8) .zero 0
     let s := owning id (widePages 4 (hereWith (pairS 8 0x10_0000)))
     XOp.mfill.wf w && meets s (mxFront w (aRegs := 2)) fun c => (badRow 0x10_0000 [(0, 16384)]).isNone && c.g.bits (.s 8) 2 0 == 0x10_0000 &&
      let x := (rowParts 0x10_0000 [(0, 16384)]).foldl (PageWalk.part c .read) ⟨s, [], [], false⟩
      x.fails.isEmpty && !x.blocked && x.pages.length == 4) = true := by decide +kernel

/-- EngineInstructions: `mma` alone; as an arrival before the last, as the last, and past the declared count. -/
theorem witness_mma : ([none, some 17, some 16, some 15] : List (Option Nat)).all (fun n =>
    let w := xw (.a 4) (.s 8) (.s 10) (if n.isSome then 0x15_0077 else 0x77)
    let s := owning (fun e => { e with conv := match n with | some x => [(5, ⟨x, 0, [], none, none⟩)] | none => [] }) here
    XOp.mma.wf w && meets s (mxFront w (aRegs := 2) (bRegs := 2)) fun c => c.act.length == 16 &&
      match s.spadOps c.g.id (c.mmaWords w) with | .inr ops => (s.sourceFail c ops).isNone | _ => false) = true := by decide +kernel

/-- EngineInstructions: the last arrival of a round at a full queue, and an arrival while another group's stands at its `mma`. -/
theorem witness_closing :
    let w := xw (.a 4) (.s 8) (.s 10) 0x15_0077
    let o : EngOp := ⟨3, gid0, 0, 0, 0, 0x1_0000, [0], 0, .mzero 0 1, false, [], [], [], [], [], [], false, 0⟩
    let at_ := fun (s : State) (v : Conv) (n : Nat) =>
      let s := owning (fun e => { e with ops := List.replicate n o, conv := [(5, v)] }) s
      meets s (mxFront w (aRegs := 2) (bRegs := 2)) fun c => w.f 20 20 == 1 && w.f 19 16 == 5 && v.count + c.act.length == v.n &&
        (s.closer v == v.closing.map (·.1))
    at_ here ⟨16, 0, [], none, none⟩ 16 = true ∧
    (match here.group gid0 with | some g => at_ (here.setGroup 7 g) ⟨16, 0, [], none, some (7, g.pc.getD 0)⟩ 0 | none => false) = true := by
  decide +kernel

/-- EngineInstructions: `mld` of an 8 × 8 tile of bf16 from scratchpad, and of one row from memory. -/
theorem witness_mld :
    (let w := xw (.s 4) (.s 8) .zero 0x8077
     let s := owning id (hereWith fun g => pairS 10 (16 + 2 ^ 32 * 0x8_0008) (pairS 12 16 (pairS 4 4096 g)))
     XOp.mld.wf w && meets s (mxFront w (aRegs := 8) (dSrc := 1)) fun c =>
      let a := c.mldArgs w
      !a.badShape && !a.misaligned && a.ssp && a.src.toNat < 2 ^ 32 &&
      match s.spadOps c.g.id ((a.src.toNat, a.srcRows) :: (a.dst, a.dstRows) :: a.extra) with
      | .inr (src :: dst :: extra) => !src.overlaps dst && (s.sourceFail c (src :: a.sources extra)).isNone
      | _ => false) = true ∧
    (let w := xw (.s 4) (.s 8) .zero 0x77
     let s := owning id (widePages 4 (hereWith fun g => pairS 8 0x10_0000 (pairS 10 (16 + 2 ^ 32 * 0x8_0001) (pairS 12 16 (pairS 4 4096 g)))))
     XOp.mld.wf w && meets s (mxFront w (aRegs := 8) (dSrc := 1)) fun c =>
      let a := c.mldArgs w
      !a.badShape && !a.misaligned && !a.ssp && (badRow a.src.toNat a.srcRows).isNone &&
      let x := (rowParts a.src.toNat a.srcRows).foldl (PageWalk.part c .read) ⟨s, [], [], false⟩
      x.fails.isEmpty && !x.blocked && x.pages.length == 1 &&
      match s.spadOps c.g.id ((a.dst, a.dstRows) :: a.extra) with
      | .inr (_ :: extra) => (x.s.sourceFail c (a.sources extra)).isNone
      | _ => false) = true := by decide +kernel

/-- EngineInstructions: `mdrain` to scratchpad, to registers and to a peer. -/
theorem witness_mdrain :
    (let w := xw (.s 4) (.a 8) (.s 12) 0x404
     let s := owning id (hereWith (pairS 12 256))
     XOp.mdrain.wf w && meets s (drainFront w s.curWidth) fun c => c.g.reg (c.g.key (.s 4) 0 1) == 0 &&
      match s.spadOps c.g.id [(0, rowsOf 64 256 256)] with | .inr [_] => true | _ => false) = true ∧
    (let w := xw (.v 0) (.a 8) (.s 12) 0x104
     let s := owning id here
     XOp.mdrain.wf w && meets s (drainFront w s.curWidth) fun _ => true) = true ∧
    (let w := xw (.a 4) (.a 8) (.s 12) 0x204
     let s := owning id (hereWith (pairS 12 7))
     XOp.mdrain.wf w && meets s (drainFront w s.curWidth) fun c => c.g.reg (c.g.key (.s 12) 0 0) == 7 && c.g.id.core % 192 != 7) = true := by
  decide +kernel

/-- EngineInstructions: `mdrain` to memory, each row in a page of its own. -/
theorem witness_mdrainMem :
    (let w := xw (.s 4) (.a 8) (.s 12) 4
     let s := owning id (hugePages (hereWith fun g => pairS 4 0x20_0000 (pairS 12 0x800_0000 g)))
     XOp.mdrain.wf w && meets s (drainFront w s.curWidth) fun c => (badRow 0x20_0000 (rowsOf 64 0x800_0000 256)).isNone &&
      let x := (rowParts 0x20_0000 (rowsOf 64 0x800_0000 256)).foldl (PageWalk.part c .write) ⟨s, [], [], false⟩
      x.fails.isEmpty && !x.blocked && x.pages.length == 64 && x.s.engineOps.isEmpty && x.s.work.copies.isEmpty) = true := by
  decide +kernel

/-- A machine whose core has one operation in its engine's queue. -/
def engineState (kind : EngKind) (running : Bool) (dst : List (Nat × List (Nat × Byte))) (spadDst : List (Nat × Nat)) : State :=
  owning (fun e => { e with ops := [⟨3, gid0, 0, 0, 0, 0x1_0000, [0], e.epoch, kind, running, [], [], dst, [], spadDst, [], false, 0⟩] }) here

/-- A drain of one slice to memory, and one to scratchpad. -/
def memDrain (place : Loc) : EngKind := .mdrainMem 8 1 false .f32 .rne false .device 0 0 place 4096 0 0

/-- EngineRuns: an operation of each kind that can start and end, lines that complete in memory and in scratchpad. -/
theorem witness_engineRuns :
    ([.mzero 4 1, .mcopy 4 8 1, .mfill 4 1 (.spad ⟨0, 0, 0, 0⟩), .mma 4 .bf16 .bf16 8 ⟨0, 0, 0, 0⟩ ⟨0, 0, 0, 0⟩ ⟨0, 0, 0, 0⟩ ⟨0, 0, 0, 0⟩] :
      List EngKind).all (fun k =>
      let s := engineState k true [] []
      match (s.core 118).engine.ops with
      | [o] => s.engineRuns o && s.opPresence o == .present && !writesMemory k && !s.srcBlocked o && !s.srcBad o && settledIs s &&
          (o.pages.all fun p => !s.pageRefused o p) && (s.core 118).engine.zeroAfter.isEmpty
      | _ => false) = true ∧
    (let s := engineState (memDrain (.glob 0x10_0000)) true [(lineOf 0x1_0100, [(0x1_0100, 1)])] []
     let wait := engineState (memDrain (.glob 0x10_0000)) false [] []
     !s.blockedFor (.unit 3) 0x1_0100 128 true && !s.barred (.unit 3) 0x1_0100 0 && writesMemory (memDrain (.glob 0x10_0000)) && settledIs s &&
     s.allowed (s.targetAt 0x1_0100 0) 0 0x1_0100 128 .write && match (wait.core 118).engine.ops with
      | [o] => !wait.srcBlocked o && !wait.srcBad o && wait.engineRuns o && (o.pages.all fun p => !wait.pageRefused o p)
      | _ => false) = true ∧
    (let s := engineState (memDrain (.spad ⟨0, 0, 0, 0⟩)) true [(3, [(384, 1)])] [(0, 3)]
     (s.share 0 0 (3 / 16384)).isSome && !s.regionSpad 0 0 0 3) = true := by decide +kernel

/-- EngineRuns: an operation that waits to start; a drain to registers with its producer; a peer drain whose peer has an owner of the
same context and of another. -/
theorem witness_drains :
    ([.mzero 4 1, memDrain (.spad ⟨0, 0, 0, 0⟩)] : List EngKind).all (fun k =>
      let s := engineState k false [] []
      match (s.core 118).engine.ops with | [o] => !o.running && s.engineRuns o && s.opPresence o == .present | _ => false) = true ∧
    (let s := engineState (.mdrainReg 8 .f32 .rne false 0 0 0 0 0 [0] 9) true [] []
     let s := { s with work := { s.work with producers := [⟨9, gid0, []⟩] } }
     (s.group gid0).isSome && s.work.producers.length == 1 && (s.core 118).engine.stats.isEmpty) = true ∧
    ([0, 1] : List Nat).all (fun x =>
      let s := engineState (.mdrainPeer 4 8 1 false .rne false 0 0 7) true [] []
      let s := s.modCore 7 fun k => { k with engine := { k.engine with owner := some 5 } }
      match here.group gid0 with
      | none => false
      | some g =>
        let s := s.setGroup 5 { g with id := { g.id with ctx := x } }
        let s := if x = 1 then (match here.ctx 0 with | some y => { s with ctxs := smSet s.ctxs 1 y } | none => s) else s
        !s.engineSaved 0 7 && (s.core 7).engine.owner == some 5 && s.running x && 118 / 192 * 192 + 7 != 118 && (s.core 7).engine.ops.length < 16) =
      true := by decide +kernel

/-- The machine with handle 5 of the group's core bound to the first 256 bytes of the share, in a state. -/
def bound (st : HState) (s : State) : State :=
  { s with work := { s.work with handles := [⟨0, 118, 5, none, some ⟨0, 0, 0, 0, 256, st⟩⟩] } }

/-- A handle state. -/
def allStates : List HState := [.free, .filling, .full, .draining, .faulted]

/-- HandleWaits: a handle in every state, in MASK and outside it; an unbound name, another team's, and one reserved for another. -/
theorem witness_handleWaits :
    (allStates.all fun st => [true, false].all fun sel =>
      let mask := if sel then 2 ^ st.code else 0x1F - 2 ^ st.code
      let s := bound st here
      let w := xw (.s 4) .zero .zero (BitVec.ofNat 32 (mask * 2 ^ 16 + 5))
      XOp.bwait.wf w && meets s ((View.x .bwait w).front s) fun c =>
        s.namedHandle c.g.id w false == some (118, some ⟨0, 0, 0, 0, 256, st⟩) && (w.f 20 16).testBit st.code == sel && c.g.id.ctx == 0 &&
        c.g.id.grid == 0) = true ∧
    ([⟨0, 118, 6, none, some ⟨0, 0, 0, 0, 256, .full⟩⟩, ⟨0, 118, 5, none, some ⟨0, 1, 0, 0, 256, .full⟩⟩,
      ⟨0, 118, 5, some (0, 1), some ⟨0, 0, 0, 0, 256, .full⟩⟩, ⟨0, 118, 5, some (0, 0), none⟩] : List HandleEntry).all (fun h =>
      let s : State := { here with work := { here.work with handles := [h] } }
      let w := xw (.s 4) .zero .zero 0x1F_0005
      XOp.bwait.wf w && meets s ((View.x .bwait w).front s) fun c => (s.namedHandle c.g.id w false).isNone) = true := by decide +kernel

/-- HandleTransitions: each event on a handle in each state; BIND of an unbound, a bound FREE and a bound FULL handle; ranges that are
refused at each bound. -/
theorem witness_handleTransitions :
    (allStates.all fun st => ([0, 1, 2, 4] : List Nat).all fun op =>
      let s := bound st here
      let w := xw (.s 4) .zero .zero (BitVec.ofNat 32 (op * 2 ^ 16 + 5))
      XOp.bset.wf w && s.released gid0 .cluster && meets s ((View.x .bset w).front s) fun c =>
        s.namedHandle c.g.id w false == some (118, some ⟨0, 0, 0, 0, 256, st⟩) && (s.share 0 0 0).isSome) = true ∧
    ([(0, 128), (65408, 128), (0, 65536), (0x80_0000, 256)] : List (Nat × Nat)).all (fun r =>
      ([here, bound .free here, bound .full here] : List State).all fun s0 =>
      let s := s0.modGroup gid0 (pairS 8 (r.1 + 2 ^ 32 * r.2))
      let w := xw (.s 4) (.s 8) .zero 0x3_0005
      XOp.bset.wf w && s.released gid0 .cluster && meets s ((View.x .bset w).front s) fun c =>
        (s.namedHandle c.g.id w true).isSome && (s.spadPlace c.g.id (c.g.reg (c.g.key w.a 0 0)).toNat r.2).isSome && s.poolFree 118 &&
        (c.g.reg (c.g.key w.a 0 1)).toNat == r.2) = true ∧
    ([(0, 127), (0, 0), (128, 65536), (0x100_0000, 128), (0x20_0000, 128), (0xA0_0000, 128)] : List (Nat × Nat)).all (fun r =>
      let s := hereWith (pairS 8 (r.1 + 2 ^ 32 * r.2))
      let w := xw (.s 4) (.s 8) .zero 0x3_0005
      XOp.bset.wf w && s.released gid0 .cluster && meets s ((View.x .bset w).front s) fun c =>
        s.namedHandle c.g.id w true == some (118, none) &&
        ((s.spadPlace c.g.id (c.g.reg (c.g.key w.a 0 0)).toNat r.2).isNone || r.2 % 128 != 0 || r.2 < 128)) = true := by decide +kernel

/-- The machine whose team has one ring, 2, of three stages from handle 8, its cursors at given laps and stages. -/
def ringed (p c : Cursor) (s : State) : State := s.modTeam 0 0 fun t => { t with rings := [[⟨⟨2, 8, 3, 1, 3⟩, p, c, 2⟩]] }

/-- StageRings: a producer and a consumer that may go on, at the last stage and before it, and that may not; a cursor that is only read;
a ring whose depth is set to its bounds and past them. -/
theorem witness_stageRings :
    ([(⟨0, false, 0⟩, ⟨0, false, 0⟩, 0x102, true), (⟨2, false, 0⟩, ⟨1, false, 0⟩, 0x102, true), (⟨2, false, 0⟩, ⟨0, false, 0⟩, 0x102, false),
      (⟨1, true, 1⟩, ⟨2, false, 0⟩, 0x112, true), (⟨1, true, 1⟩, ⟨1, true, 1⟩, 0x112, false), (⟨0, true, 1⟩, ⟨2, false, 0⟩, 0x002, false),
      (⟨0, false, 0⟩, ⟨0, false, 0⟩, 0x192, false)] :
      List (Cursor × Cursor × Nat × Bool)).all (fun x =>
        let s := ringed x.1 x.2.1 here
        let w := xw (.s 4) .zero .zero (BitVec.ofNat 32 x.2.2.1)
        let r : Ring := ⟨⟨2, 8, 3, 1, 3⟩, x.1, x.2.1, 2⟩
        XOp.srnext.wf w && meets s ((View.x .srnext w).front s) fun c => ((s.team c.g.id.grid c.g.id.team).map (·.rings)) == some [[r]] &&
          (w.f 8 8 == 0 || (if w.f 4 4 = 1 then decide (0 < r.dist) else decide (r.dist < r.depth)) == x.2.2.2)) = true ∧
    (let s := ringed ⟨0, false, 0⟩ ⟨0, false, 0⟩ here
     s.teams.length = 1 ∧ (s.teams.map fun t => (t.rings[0]?.map (·.length))) = [some 1]) := by decide +kernel

/-- A copy queue's header in memory at 0x1_0200 with 2^log2 slots from 0x1_0280: reserved, published and read counts. -/
def queueAt (n pub r log2 : Nat) (s : State) : State :=
  poke [(0x1_0200, n), (0x1_0208, pub), (0x1_0210, r), (0x1_0218, 0x1_0280), (0x1_0220, log2)] s

/-- The words of a packet that fills handle 5 of core 118 from 0x1_0080, or drains it to there, and of one without handles (R235). -/
def packetWords (flags : Nat) : List Nat :=
  [1 + 2 ^ 8 * flags, 5 + 2 ^ 8 * 118 + 2 ^ 16 * 5 + 2 ^ 24 * 118, 0x1_0080, 0, 0x1_0080, 0, 256, 0, 0, 0, 0, 0, 0, 0, 0, 0]

/-- A packet in s 16 to s 31. -/
def packetS (b : List Nat) (g : Group) : Group :=
  (b.zip (List.range 16)).foldl (fun g x => g.put (g.key (.s (BitVec.ofNat 8 (16 + x.2))) 0 0) (BitVec.ofNat 32 x.1)) g

/-- A state with copy queue 2 of context 0, whose header is at 0x1_0200 and whose ring has 2^log2 slots from 0x1_0280. -/
def copyQueue (log2 : Nat) (s : State) : State :=
  s.modCtx 0 fun c => { c with queues := c.queues ++ [⟨2, 0, true, 0x1_0200, 0x1_0280, log2, false⟩] }

/-- CopyPackets: `cpq` with D and without, into the last slot and a further one, naming no handle, a FREE destination, a FULL source. -/
theorem witness_copyPackets :
    ([(0, none, true), (1, some .free, false), (2, some .full, true), (1, none, false)] : List (Nat × Option HState × Bool)).all (fun x =>
      ([(2 ^ 64 - 1, 2 ^ 64 - 2, 1), (0, 0, 0)] : List (Nat × Nat × Nat)).all fun q =>
      let s0 := copyQueue q.2.2 (queueAt q.1 q.2.1 q.2.1 q.2.2 (hereWith fun g => packetS (packetWords x.1) (pairS 8 0x1_0200 g)))
      let s := match x.2.1 with | some st => bound st s0 | none => s0
      let w := mw (if x.2.2 then .s 4 else .zero) (.s 8) (.s 16) .w8
      MOp.cpq.wf w && meets s (cpqFront w) fun c =>
        let va := c.g.globalAddr w 0
        let p := Packet.ofBytes (c.packetBytes w)
        let dst := s.teamHandle c.g.id p.dsth p.dcore p.dk
        let src := s.teamHandle c.g.id p.srch p.score p.sk
        c.act.head? == some 0 && canonical va && va.toNat % 64 == 0 && (w.d == .zero || !c.g.id.det) && HandleEntry.isIn dst .free &&
        HandleEntry.isIn src .full && dst.isSome == (x.1 == 1 && x.2.1.isSome) && src.isSome == (x.1 == 2) && s.released c.gid .device &&
        match s.access c.g.id.ctx va.toNat 64 .both false with
        | .ok s1 tr =>
          let pa := tr.addr (va.toNat % 2 ^ 57)
          let n := leVal (s1.readBytes pa 8)
          settledIs s1 && pa == 0x1_0200 && s1.allowed (s1.targetAt pa tr.mt) c.g.id.ctx pa 64 .both && !s1.poisoned pa 64 &&
          !s1.notYet c.gid c.g.id.core pa 64 tr.mt true && (s1.ctx c.g.id.ctx).any (fun x => x.watch.isEmpty) && n == q.1 &&
          s1.ringOf c.g.id.ctx pa == (0x1_0280, q.2.2) && (n + 2 ^ 64 - leVal (s1.readBytes (pa + 16) 8)) % 2 ^ 64 < 2 ^ (s1.ringOf c.g.id.ctx pa).2
        | _ => false) = true := by decide +kernel

/-- A machine whose slices accept no access of context 0. -/
def closedSlices (s : State) : State := { s with dev := { s.dev with access := smErase s.dev.access (tableKey 0 .slice) } }

/-- CopyPackets: the copy port with its packet's turn, and with a header that its target refuses. -/
theorem witness_publish :
    (let s0 := queueAt 4 3 3 1 here
     let p : PortPacket := ⟨118, 0, gid0, 0, .device, 0x1_0200, 3, 0x1_02C0, List.replicate 64 1⟩
     let s : State := { s0 with work := { s0.work with ports := [{ p with n := 4 }, p] } }
     settledIs (closedSlices s) && !(closedSlices s).allowed ((closedSlices s).targetAt p.header 0) p.ctx p.header 64 .both && settledIs s && s.work.ports.find? (fun x => x.core == 118 && s.running x.ctx && leVal (s.readBytes (x.header + 8) 8) == x.n) == some p &&
     !s.blocked p.header 64 true && canonical p.slot && s.allowed (s.targetAt p.header 0) p.ctx p.header 64 .both &&
     !s.poisoned p.header 64 &&
     match s.access p.ctx p.slot.toNat p.packet.length .write false with
     | .ok s1 tr =>
       let pa := tr.addr (p.slot.toNat % 2 ^ 57)
       settledIs s1 && !s1.blocked pa 64 true && !s1.barred .other pa tr.mt && s1.allowed (s1.targetAt pa tr.mt) p.ctx pa 64 .write
     | _ => false) = true := by decide +kernel

/-- CopyMoves: a packet that fills a FREE handle is at the head of its queue, which is full. -/
theorem witness_packetTake :
    (let b := packetWords 1
     let p8 := (List.range 8).map fun i => (0x1_02C0 + 8 * i, b.getD (2 * i) 0 + 2 ^ 32 * b.getD (2 * i + 1) 0)
     let s := copyQueue 1 (bound .free (poke p8 (queueAt 5 5 3 1 here)))
     match s.queue 0 2 true with
     | none => false
     | some q =>
       let n := leVal (s.readBytes (q.header + 16) 8)
       !q.faulted && s.running 0 && s.allowed (s.targetAt q.header 0) 0 q.header 64 .both && !s.poisoned q.header 64 && s.queueCount q == 2 && n == 3 && s.work.moved.isEmpty && settledIs s && !s.blocked q.header 64 true &&
       match s.unitRead .other 0 (q.slot n) 64 with
       | .ok s1 b =>
         let p := Packet.ofBytes b
         let e : HandleEntry := ⟨0, 118, 5, none, some ⟨0, 0, 0, 0, 256, .free⟩⟩
         settledIs s1 && !packetBad b p && p.opc == 1 && p.dsth && !p.srch && !p.shp && s1.sideHandle 0 true p.dcore p.dk == some (some e) &&
         s1.handle 0 118 5 == some e && p.shape.toNat == 256
       | _ => false) = true := by decide +kernel

/-- A copy that is under way: to handle 5 or to memory, from memory or from handle 5. -/
def copyOf (dst src : Option HState) (len : Nat) (landed : List Nat) : Copy :=
  let h := fun (st : HState) => (⟨0, 118, 5, none, some ⟨0, 0, 0, 0, 256, st⟩⟩ : HandleEntry)
  ⟨9, 0, none, 0, 2, 3, ⟨1, (if dst.isSome then 1 else 0) + (if src.isSome then 2 else 0), 0, 5, 118, 5, 118, 0x1_1080, 0x1_0080, BitVec.ofNat 64 len, 0, 0, 0⟩,
    none, src.map h, dst.map h, [], [], false, landed, [], [], []⟩

/-- A copy's source bytes, all read. -/
def readAll (c : Copy) : Copy := { c with srcRead := (List.range c.size).map fun i => (0x1_0080 + i, 7) }

/-- The machine with one copy, and a class 0 whose bucket is full. -/
def copying (c : Copy) (s : State) : State :=
  let s := s.modCtx 0 fun y => { y with buckets := [⟨0, false, 5, 128, 128⟩] }
  { s with work := { s.work with copies := [c] } }

/-- The copy's line may land, and its source may be read. -/
def landable (s : State) (c : Copy) (l : CLine) : Bool :=
  c.unlanded.contains l && (s.before c).isEmpty && (s.collsBefore c.ctx c.queue c.id).isEmpty

/-- CopyMoves: a source line is read for a destination line, and at the end. -/
theorem witness_copyRead :
    (let c := copyOf (some .filling) none 128 []
     let s := copying c (bound .filling here)
     landable s c (.spad 0 0 0 0) && c.missing ((c.lineBytes 0).map (·.2)) == some 0x1_0080 && c.missing (List.range c.size) == some 0x1_0080 &&
     !c.srcDone && s.tokens 0 0 false && match s.unitRead (.unit c.id) 0 0x1_0080 128 with | .ok s1 _ => s1.work == s.work | _ => false) = true := by
  decide +kernel

/-- CopyMoves: a line that is not the last lands in a handle's range; the last; one past the copied bytes; a line of memory. -/
theorem witness_copyLines :
    ([(0, 128, []), (1, 128, [0]), (1, 144, [0])] : List (Nat × Nat × List Nat)).all (fun x =>
      let c := readAll (copyOf (some .filling) none x.2.1 x.2.2)
      let s := copying c (bound .filling here)
      c.dstHandle == some ⟨0, 118, 5, none, some ⟨0, 0, 0, 0, 256, .filling⟩⟩ && landable s c (.spad 0 0 0 x.1) &&
      (c.missing ((c.lineBytes x.1).map (·.2))).isNone && s.tokens 0 0 false && !s.regionSpad 0 0 0 x.1 && (s.share 0 0 0).isSome && s.handle 0 118 5 == c.dstHandle) = true ∧
    (let c := { readAll (copyOf none none 16 []) with dstMap := (List.range 16).map (fun i => (0x1_1080 + i, i)), dstLines := [lineOf 0x1_1080] }
     let s := copying c (morePages here)
     let pa := 128 * lineOf 0x1_1080
     landable s c (.glob (lineOf 0x1_1080)) && (c.missing ((c.lineBytes (lineOf 0x1_1080)).map (·.2))).isNone && s.tokens 0 0 false &&
     !s.blockedFor (.unit c.id) pa 128 true && !s.barred (.unit c.id) pa 0 && s.allowed (s.targetAt pa 0) 0 pa 128 .write && settledIs s) = true := by
  decide +kernel

/-- CopyMoves: sources read to the end, from memory and from a handle. -/
theorem witness_copySources : ([none, some .draining] : List (Option HState)).all (fun src =>
    let c := readAll (copyOf none src (if src.isNone then 16 else 256) [])
    let s := copying c (bound .draining here)
    !c.srcDone && (c.missing (List.range c.size)).isNone && (s.before c).isEmpty && (s.collsBefore c.ctx c.queue c.id).isEmpty &&
    s.tokens 0 0 false && (src.isNone || s.handle 0 118 5 == c.srcHandle)) = true := by decide +kernel

/-- CopyMoves: a copy that is finished, with a completion counter and without; a source that is not mapped, and one that may not be
read, on a queue that is registered and on none; a bucket. -/
theorem witness_copyEnds :
    ([0, 0x1_0300] : List DWord).all (fun comp =>
      let c0 := copyOf (some .full) none 256 [0, 1]
      let c := { c0 with srcDone := true, packet := { c0.packet with comp := comp } }
      let s := copying c here
      let left : State := { s with work := { s.work with copies := s.work.copies.filter (·.id != c.id) } }
      s.work.copies.find? (·.id == c.id) == some c && c.unlanded.isEmpty &&
      (comp == 0 || match left.unitAdd .other 0 comp 1 with | .ok _ _ => true | _ => false)) = true ∧
    ([(0x5000_0000, false, false), (0x1_1000, true, false), (0x5000_0000, false, true)] : List (Nat × Bool × Bool)).all (fun x =>
      let c0 := copyOf none none 16 []
      let c := { c0 with packet := { c0.packet with src := BitVec.ofNat 64 x.1 } }
      let s0 := closedSlices (morePages here)
      let s1 := if x.2.1 then s0 else morePages here
      let s := copying c (if x.2.2 then copyQueue 1 (queueAt 1 1 0 1 s1) else s1)
      s.work.copies.find? (·.id == c.id) == some c && c.srcVa 0 == some (BitVec.ofNat 64 x.1) && c.srcRead.isEmpty &&
      match s.unitWalk 0 (BitVec.ofNat 64 x.1) 1 .read with
      | .fault s2 cause _ => (cause == .access) == x.2.1 && (s2.queue 0 2 true).isSome == x.2.2 && settledIs s2 &&
          !s2.blocked 0x1_0200 64 true && (!x.2.2 || s2.readByte 0x1_0222 == 0)
      | _ => false) = true ∧
    (here.ctx 0).isSome = true := by decide +kernel
/-- The machine whose kernel has two claim sets: of two claims, the second of them to write, and of eight. -/
def claiming (s : State) : State := s.modGrid 0 fun g => { g with kernel := { g.kernel with claims := [⟨2, 2⟩, ⟨8, 0⟩] } }

/-- The slots of the group's 16 lanes. -/
def allSlots : List Slot := (List.range 16).map fun l => ⟨gid0, l⟩

/-- An open loop of n items and width w whose first wave is dealt. -/
def loop0 (n w : Nat) : Loop := (⟨n, w, 0, allSlots, [], [], [], 0, 0, 0, 0⟩ : Loop).deal

/-- The machine with an open loop. -/
def looped (l : Loop) (s : State) : State :=
  match s.group gid0 with | some g => (claiming s).setLoop g.id l | none => s

/-- Another group of the team and role, with the next RIDX. -/
def withOther (f : Group → Group) (s : State) : State :=
  match s.group gid0 with | some g => s.setGroup 2 (f { g with id := { g.id with ridx := 1 } }) | none => s

/-- WaveAdmission: an item that is admitted behind one that reads the same granule, one that is not admitted behind one that writes it,
and a lowest item. -/
theorem witness_admission :
    ((([(0, [⟨5, false⟩])] ++ (3, [⟨5, false⟩, ⟨6, true⟩]) :: [(7, [⟨6, true⟩])] : List (Nat × List Claim)).map (·.1)).Nodup) ∧
    (admitWave [some 0, some 3, some 7] [[⟨5, false⟩], [⟨5, false⟩, ⟨6, true⟩], [⟨6, true⟩]]).admitted = [0, 3] := by decide +kernel

/-- ReservingLoops: `rlbeg` as an arrival before the last, with others that wait and that do not; and as the only one, of width 1 to 16,
with no items, fewer than the width, and many. -/
theorem witness_rlbeg :
    (let w := xw (.v 4) (.s 4) (.s 5) 1
     let s := withOther id (claiming (hereWith (pairS 4 (5 + 2 ^ 32 * 16))))
     XOp.rlbeg.wf w && meets s (rlFront .rlbeg w) fun c => !c.g.id.bin && (s.loopOf c.g.id).isNone && !s.brokenLoop c.gid c.g.id &&
       ((s.grid c.g.id.grid).map fun g => g.kernel.claims.length) == some 2 && s.work.producers.isEmpty && (s.core c.g.id.core).sfu.isEmpty &&
       (s.roleGroups c.g.id.grid c.g.id.team c.g.id.role).any (fun p => p.1 != c.gid && !p.2.inLoop .rlbeg) &&
       (s.roleGroups c.g.id.grid c.g.id.team c.g.id.role).all fun p => (p.2.loopWord .rlbeg).isNone) = true ∧
    ([(0, 1), (5, 16), (2 ^ 32 - 1, 16), (1, 1)] : List (Nat × Nat)).all (fun x =>
      let w := xw (.v 4) (.s 4) (.s 5) 1
      let s := claiming (hereWith (pairS 4 (x.1 + 2 ^ 32 * x.2)))
      XOp.rlbeg.wf w && meets s (rlFront .rlbeg w) fun c => !c.g.id.bin && (s.loopOf c.g.id).isNone && !s.brokenLoop c.gid c.g.id &&
        ((s.grid c.g.id.grid).map fun g => g.kernel.claims.length) == some 2 && s.work.producers.isEmpty && (s.core c.g.id.core).sfu.isEmpty &&
        s.roleGroups c.g.id.grid c.g.id.team c.g.id.role == [(c.gid, c.g)] && s.formerFree c.g.id && c.g.rd w.a 0 .n32 == x.1 &&
        c.g.rd w.b 0 .n32 == x.2 && (keyUnion [] (c.g.fibres.map (·.lane))).length == 16 && (s.team c.g.id.grid c.g.id.team).isSome) = true := by
  decide +kernel

/-- ReservingLoops: `rlbeg` with a loop open and without its claim set; with other values than the first arrival's; and as the last of
two, of a width that fits and of none. -/
theorem witness_rlbegPair :
    (let base := claiming (hereWith (pairS 4 (5 + 2 ^ 32 * 16)))
     let w := fun (m : Word) => xw (.v 4) (.s 4) (.s 5) m
     let sees := fun (m : Word) (s : State) (p : Ctx → Bool) => XOp.rlbeg.wf (w m) && meets s (rlFront .rlbeg (w m)) p
     let open_ := looped (loop0 5 16) base
     let other := fun (v : Word) (s : State) => withOther (fun g => { g with wait := some (.loop .rlbeg (w v)) }) s
     let pair := other 1 base
     sees 1 open_ (fun c => (open_.loopOf c.g.id).isSome) &&
     sees 2 base (fun c => ((base.grid c.g.id.grid).map fun g => g.kernel.claims.length) == some 2) &&
     sees 1 (other 0 base) (fun c => ((other 0 base).group 2).any fun g => (g.loopWord .rlbeg).any fun v => g.loopArgs v != c.g.loopArgs (w 1)) &&
     sees 1 pair (fun c => !c.g.id.bin && (pair.loopOf c.g.id).isNone && !pair.brokenLoop c.gid c.g.id && !c.g.ended &&
       pair.work.producers.isEmpty && (pair.core c.g.id.core).sfu.isEmpty && (pair.groups.map (·.1)).length == 2 &&
       let parts := pair.roleGroups c.g.id.grid c.g.id.team c.g.id.role
       parts.map (·.1) == [1, 2] && parts.map (·.2.id.ridx) == [0, 1] && parts.all fun p => pair.formerFree p.2.id && p.2.pc.isSome &&
         p.2.fibres.length == 16 && p.2.loopArgs (w 1) == (5, 16, 1) && (p.1 == 1 || p.2.wait == some (.loop .rlbeg (w 1))))) = true := by
  decide +kernel

/-- ReservingLoops: `claim` with no loop open, and with an address that is not canonical. -/
theorem witness_claimTraps :
    let w := mw .zero (.v 4) .zero .w8
    let s := hereWith (pairV4 (1 <<< 60))
    let t := looped (loop0 5 16) s
    (MOp.claim.wf w && meets s (MOp.front .claim w) (fun c => (s.loopOf c.g.id).isNone) &&
      meets t (MOp.front .claim w) fun c => !t.brokenLoop c.gid c.g.id && t.loopOf c.g.id == some (loop0 5 16) &&
        c.act.all fun x => !canonical (c.g.globalAddr w x)) = true := by decide +kernel

/-- ReservingLoops: `claim` in lanes with an item and without, the first of a set and the last; and one past it. -/
theorem witness_claim :
    ([[], [⟨1, false⟩]] : List (List Claim)).all (fun cs =>
      let l : Loop := { loop0 5 16 with claims := allSlots.map fun _ => cs }
      let w := mw .zero (.v 4) .zero .w8
      let s := looped l (hereWith (pairV4 0x7_FFC0))
      MOp.claim.wf w && meets s (MOp.front .claim w) fun c => !s.brokenLoop c.gid c.g.id && s.loopOf c.g.id == some l &&
        c.act.all (fun x => canonical (c.g.globalAddr w x)) && (s.claimSet c.g.id l.cset).count == 2 &&
        c.act.all fun x => (l.claimsOf c.gid x).length < 2) = true ∧
    (let l : Loop := { loop0 5 16 with claims := allSlots.map fun _ => [⟨1, false⟩, ⟨2, true⟩] }
     let w := mw .zero (.v 4) .zero .w8
     let s := looped l (hereWith (pairV4 0))
     MOp.claim.wf w && meets s (MOp.front .claim w) fun c => !s.brokenLoop c.gid c.g.id && s.loopOf c.g.id == some l &&
       c.act.all (fun x => canonical (c.g.globalAddr w x)) && c.act.all fun x => 2 ≤ (l.claimsOf c.gid x).length) = true ∧
    (let l := loop0 5 16
     l.slots = (List.range 15).map (fun x => ⟨gid0, x⟩) ++ ⟨gid0, 15⟩ :: [] ∧ l.claims.length = l.slots.length ∧ l.items[15]? = some none) := by
  decide +kernel

/-- ReservingLoops: `rwave`; `rlend` as an arrival before the last and as the only one. -/
theorem witness_rwave :
    (let w := xw (.s 4) .zero .zero 0x101
     let s := looped (loop0 5 16) here
     XOp.rwave.wf w && meets s (rlFront .rwave w) fun c => !s.brokenLoop c.gid c.g.id && (s.myLoop c.gid c.g.id).isSome &&
       c.g.fibres.all (fun x => !x.held && x.pc == c.own) && s.released c.gid .device) = true ∧
    (let w := xw .zero .zero .zero 0
     let l : Loop := { loop0 5 16 with slots := allSlots ++ [⟨2, 0⟩] }
     let s := looped l (withOther id here)
     XOp.rlend.wf w && meets s (rlFront .rlend w) fun c => !s.brokenLoop c.gid c.g.id && s.myLoop c.gid c.g.id == some l &&
       (s.roleGroups c.g.id.grid c.g.id.team c.g.id.role).any fun p => l.slots.any (fun x => x.gid == p.1) && p.1 != c.gid && !p.2.inLoop .rlend) = true ∧
    (let w := xw .zero .zero .zero 0
     let s := looped (loop0 5 16) here
     XOp.rlend.wf w && meets s (rlFront .rlend w) fun c => !s.brokenLoop c.gid c.g.id && (s.myLoop c.gid c.g.id).isSome &&
       s.roleGroups c.g.id.grid c.g.id.team c.g.id.role == [(c.gid, c.g)]) = true := by decide +kernel

/-- ReservingLoops: `rwave` with no loop, and before its release; `rlend` with no loop, with one that was closed, and as the last of
two. -/
theorem witness_loopEnds :
    (let w := xw (.s 4) .zero .zero 0x101
     let s := looped (loop0 5 16) here
     let s := { s with order := { s.order with tc := [⟨118, 0, [gid0], 0x1_0100, [1], 0⟩] } }
     meets here (rlFront .rwave w) (fun c => (here.myLoop c.gid c.g.id).isNone) &&
     meets s (rlFront .rwave w) fun c => !s.brokenLoop c.gid c.g.id && (s.myLoop c.gid c.g.id).isSome &&
       c.g.fibres.all (fun x => !x.held && x.pc == c.own) && !s.released c.gid .device) = true ∧
    (let w := xw .zero .zero .zero 0
     let broken := here.modTeam 0 0 fun t => { t with broken := [gid0] }
     let l : Loop := { loop0 5 16 with slots := allSlots ++ [⟨2, 0⟩] }
     let s := looped l (withOther (fun g => { g with wait := some (.loop .rlend w) }) here)
     meets here (rlFront .rlend w) (fun c => !here.brokenLoop c.gid c.g.id && (here.myLoop c.gid c.g.id).isNone) &&
     meets broken (rlFront .rlend w) (fun c => broken.brokenLoop c.gid c.g.id) &&
     meets s (rlFront .rlend w) fun c => !s.brokenLoop c.gid c.g.id && s.myLoop c.gid c.g.id == some l && !c.g.ended && !c.g.id.bin &&
       let parts := s.loopParts c.g.id.grid c.g.id.team c.g.id.role l
       parts.map (·.1) == [1, 2] && parts.all fun p => p.2.pc.isSome && (p.1 == 1 || p.2.inLoop .rlend)) = true := by decide +kernel

/-- WaveDecisions: a wave of two groups, and one whose second arrival is missing. -/
theorem witness_wavePair : [true, false].all (fun arrived =>
    let w := xw (.s 4) .zero .zero 0x101
    let l : Loop := (⟨20, 4, 0, allSlots ++ [⟨2, 0⟩], [], [], [], 0, 0, 0, 0⟩ : Loop).deal
    let wait := fun (b : Bool) (g : Group) => { g with wait := if b then some (.loop .rwave w) else none }
    let s := (looped l (withOther (wait arrived) here)).modGroup gid0 (wait true)
    match s.teams, s.group gid0 with
    | [tm], some g =>
      s.running tm.ctx && smFind tm.loops g.id.role.code == some l && l.slots.all (fun x => x.lane < 64) && XOp.rwave.wf w &&
      let parts := s.loopParts tm.grid tm.n g.id.role l
      parts.map (·.1) == [1, 2] && parts.all (fun p => s.acquired p.1 .device && p.2.pc.isSome && p.2.inLoop .rwave) == arrived
    | _, _ => false) = true := by decide +kernel

/-- WaveDecisions: a wave of one arrived group, with counts that can still grow and counts that cannot; two items conflict. -/
theorem witness_waveDecide :
    ([(0, 0, 0), (65535, 65535, 2 ^ 31 - 1)] : List (Nat × Nat × Nat)).all (fun n =>
      let w := xw (.s 4) .zero .zero 0x101
      let l : Loop := { loop0 20 4 with
        claims := [[⟨5, true⟩], [⟨5, false⟩], [], []] ++ List.replicate 12 [], waves := n.1, false_ := n.2.1, defer := n.2.2 }
      let s := (looped l here).modGroup gid0 fun g => { g with wait := some (.loop .rwave w) }
      match s.teams, s.group gid0 with
      | [tm], some g =>
        s.running tm.ctx && smFind tm.loops g.id.role.code == some l && g.id.role.code < 4 && roleOf g.id.role.code == g.id.role &&
        s.loopParts tm.grid tm.n g.id.role l == [(gid0, g)] && XOp.rwave.wf w && s.acquired gid0 .device && g.pc.isSome && g.halt.isNone &&
        g.fibres.all (fun f => !f.held) && (s.bodyOf gid0 g).isNone && l.slots.all (fun x => x.lane < 64) &&
        (admitWave l.items l.claims).admitted == [0, 2, 3]
      | _, _ => false) = true := by decide +kernel

/-- An open region of t steps with m components in each state, whose guess is 2.0 and whose start is 1.0. -/
def region0 (t m hi : Nat) (dense : Bool) : Region :=
  { st := .opened, lo := 0x1_0000, hi := hi, desc := ⟨t, 4, 0, m, dense, false, 0, 2, 0, 0, 0, 0⟩, parts := [gid0], slots := allSlots
    snaps := [⟨gid0, []⟩], pass := 1, round := 0, s0 := List.replicate m 0x3F80_0000
    sPrev := List.replicate t (List.replicate m 0x4000_0000), settled := List.replicate t false, evals := [], prevBytes := []
    heldLines := [], heldSpad := [], rHist := [], last := [], performed := false }

/-- The machine whose team has a region. -/
def regioned (r : Region) (s : State) : State := s.modTeam 0 0 fun t => { t with region := some r }

/-- RelaxationBodies: `rxin` of the lowest and the highest component, of the step and of the pass; `rxout` and `rxjac` of the highest
component, dense and not; with a lane that has no step. -/
theorem witness_bodies :
    ([0, 7, 0x10, 0x20] : List Word).all (fun m =>
      let w := xw (.v 4) .zero .zero m
      let r := region0 17 8 0x1_0100 false
      let s := regioned r here
      XOp.rxin.wf w && meets s ((View.x .rxin w).front s) fun c => s.bodyOf c.gid c.g == some r && (w.f 5 4 != 0 || w.f 2 0 < r.desc.m)) = true ∧
    ([(.rxout, 7, true), (.rxout, 0, false), (.rxjac, 0x3F, false), (.rxjac, 0x07, true)] : List (XOp × Word × Bool)).all (fun x =>
      let w := xw .zero (.v 4) .zero x.2.1
      let r := region0 15 8 0x1_0100 x.2.2
      let s := regioned r here
      x.1.wf w && meets s ((View.x x.1 w).front s) fun c => s.bodyOf c.gid c.g == some r && w.f 2 0 < r.desc.m &&
        (x.1 != .rxjac || (w.f 5 3 < r.desc.m && (r.desc.dense || w.f 2 0 == w.f 5 3)))) = true := by decide +kernel

/-- EnabledFlagTraps: a signalling NaN in a body, with NV enabled. TranslationAndAddresses: in a body a load of a page that is not mapped;
and a store to a relaxation buffer that a region has closed. -/
theorem witness_bodyTraps :
    (let w := wordOf .fadd (.v 5) (.v 6) (.v 7) .f32
     let r := region0 17 2 0x1_0100 false
     let s := regioned r (hereWith fun g => { g.put (g.key (.v 6) 0 0) 0x7F80_0001 with fpmode := 0x3F_0000 })
     ROp.fadd.wf w && meets s (ROp.fadd.front w) fun c => s.bodyOf c.gid c.g == some r && r.stepOf c.gid 0 == some 1 &&
      allFlags ((c.lanesOf (ROp.fadd.uniform w)).map fun l => (l, (s.laneBits c .fadd w l).2)) &&& fpEnables c.g.fpmode != 0) = true ∧
    (let w := mw (.v 4) (.v 2) .zero .w32
     let r := region0 17 2 0x1_0100 false
     let s := regioned r (lane0 (pairV 2 0x5000_0000))
     MOp.ld.wf w && meets s (MOp.front .ld w) fun c => s.bodyOf c.gid c.g == some r && r.stepOf c.gid 0 == some 1 &&
      let els := c.elems w (MOp.uniform .ld w)
      els.all (fun e => !e.misaligned && e.spad.isNone && canonical e.va) &&
      (s.walkElems c w.space w.scope false .read els).fails.map (fun f => (f.lane, f.cause)) == [(0, .xlmiss)]) = true ∧
    (let w := mw (.v 4) (.v 2) .zero .w32 (space := .spad)
     let r := { region0 17 2 0x1_0100 false with parts := [2] }
     let s := regioned r (lane0 id)
     MOp.st.wf w && meets s (MOp.front .st w) fun c => (s.bodyOf c.gid c.g).isNone &&
      let x := s.walkElems c w.space w.scope false .write (c.elems w (MOp.uniform .st w))
      x.fails.isEmpty && !x.blocked && x.hits.all (fun h => x.s.presenceOf c h == .present) &&
      r.closed.any fun p => x.hits.all fun h => match h.reach with
        | .spad j o => j == r.desc.bufCore && o < p.2 && p.1 < o + h.e.bytes
        | _ => false) = true := by decide +kernel

/-- RelaxationBodies: `rxin`, `rxout` and `rxjac` outside a body and with an index too high, and `rxend` that is not a body's last; and a
body's context, where a fault is held. -/
theorem witness_bodyFaults :
    let r := region0 17 2 0x1_0100 false
    let s := regioned r here
    (([(.rxin, 2), (.rxout, 2), (.rxjac, 2), (.rxjac, 0x10), (.rxjac, 1), (.rxend, 0)] : List (XOp × Word)).all fun x =>
      let w := if x.1 = .rxin then xw (.v 4) .zero .zero x.2 else if x.1 = .rxend then xw .zero .zero .zero 0 else xw .zero (.v 4) .zero x.2
      x.1.wf w && meets here ((View.x x.1 w).front here) (fun c => (here.bodyOf c.gid c.g).isNone) &&
      meets s ((View.x x.1 w).front s) fun c => s.bodyOf c.gid c.g == some r && s.group c.gid == some c.g && c.own.toNat + 12 != r.hi &&
        r.stepOf c.gid 3 == some 4 && (x.1 == .rxend || r.desc.m ≤ w.f 2 0 || w.f 2 0 != w.f 5 3)) = true := by decide +kernel

/-- RelaxationBodies: `rxst` to a page of each memory type, with one store recorded before and room for one more; at a step whose buffer
is full; `rxend`. -/
theorem witness_bodyStores :
    ([(0x1_1000, 2), (0x1_2000, 2), (0x1_3000, 2), (0x1_1000, 1)] : List (Nat × Nat)).all (fun y =>
      let a := y.1
      let w := mw (.v 8) (.v 4) .zero .w32
      let r0 := region0 17 1 0x1_0100 false
      let r : Region := { r0 with desc := { r0.desc with sps := y.2 }, evals := [(1, { StepEval.start r0.desc with stores := [⟨0, 0, 0, .device, [1], gid0⟩] })] }
      let s := regioned r (morePages (lane0 (pairV4 (BitVec.ofNat 64 a))))
      MOp.rxst.wf w && meets s (MOp.front .rxst w) fun c => s.bodyOf c.gid c.g == some r &&
        c.act.all (fun l => match r.stepOf c.gid l with | some n => ((smGet (StepEval.start r.desc) r.evals n).stores.length < r.desc.sps) == (y.2 == 2) | none => false) &&
        resolves (s.resolve c w.space w.scope (c.elems w false) { once := false, kind := .write, record := true }) fun _ hits => hits.length == 1) = true ∧
    (let w := xw .zero .zero .zero 0
     let r := region0 17 1 0x1_000C false
     let s := regioned r (hereWith fun g => { g with fibres := g.fibres.map fun f => { f with held := false } })
     XOp.rxend.wf w && meets s (rxFront .rxend w) fun c => s.bodyOf c.gid c.g == some r && c.own.toNat + 12 == r.hi && c.g.halt.isNone &&
       c.g.fibres.all fun f => !f.held || f.pc == c.own) = true := by decide +kernel

/-- The machine whose kernel has a region, with its descriptor at 0x1_1000: t, LIMIT, STALL, m and flags, SPS, TOLABS, TOLREL, BUF. -/
def describing (t m flags : Nat) (s : State) : State :=
  poke [(0x1_1000, t + 2 ^ 32 * 4), (0x1_1008, m + 2 ^ 8 * flags + 2 ^ 16), (0x1_1010, 0)]
    (morePages (s.modGrid 0 fun g => { g with kernel := { g.kernel with regions := [⟨0x1_0040, 0x1_0100⟩] } }))

/-- RelaxationRegions: `rxbeg` as an arrival before the last; and as the only one, with each guess that the descriptor holds, the shortest
region and one of more steps than slots. -/
theorem witness_rxbeg :
    (let w := xw .zero (.s 4) .zero 0
     let s := withOther id (describing 20 2 0 (hereWith (pairS 4 0x1_1000)))
     XOp.rxbeg.wf w && meets s (rxFront .rxbeg w) fun c => !s.regionBusy c.g.id.grid c.g.id.team && !c.g.id.bin && s.released c.gid .device &&
       (s.roleGroups c.g.id.grid c.g.id.team c.g.id.role).any (fun p => p.1 != c.gid && (p.2.regionWord .rxbeg).isNone) &&
       (s.roleGroups c.g.id.grid c.g.id.team c.g.id.role).all fun p => (p.2.regionWord .rxbeg).isNone) = true ∧
    ([(20, 2, 0), (1, 8, 9), (17, 1, 8), (20, 2, 4)] : List (Nat × Nat × Nat)).all (fun x =>
      let w := xw .zero (.s 4) (if x.2.2 = 4 then .s 6 else .zero) 0
      let s := describing x.1 x.2.1 x.2.2 (hereWith fun g => pairS 4 0x1_1000 (pairS 6 0x1_1200 g))
      XOp.rxbeg.wf w && meets s (rxFront .rxbeg w) fun c => !s.regionBusy c.g.id.grid c.g.id.team && !c.g.id.bin && s.released c.gid .device &&
        ((s.grid c.g.id.grid).bind fun g => g.kernel.regions[w.f 7 0]?) == some ⟨0x1_0040, 0x1_0100⟩ &&
        s.roleGroups c.g.id.grid c.g.id.team c.g.id.role == [(c.gid, c.g)] && s.acquired c.gid .device && s.quiet [c.gid] &&
        let s0 := s.modGroup c.gid fun g => { g with wait := some (.region .rxbeg w), issued := true }
        (c.g.rdDWord w.a 0).toNat % 32 == 0 &&
        match s0.unitReadLong .other c.g.id.ctx (c.g.rdDWord w.a 0) 2 32 with
        | .ok s1 b => s1.group c.gid == s0.group c.gid && (match RegionDesc.ofBytes b (fun word n => s1.spadPlace c.g.id word n) with
            | some d => d.t == x.1 && d.m == x.2.1 && d.guess == x.2.2 / 4 && (d.guess != 1 || ((c.g.rdDWord w.b 0).toNat % 4 == 0 &&
                match s1.unitReadLong .other c.g.id.ctx (c.g.rdDWord w.b 0) (2 + 4 * d.m * d.t / 4096) (4 * d.m * d.t) with
                | .ok s2 _ => s2.teams == s1.teams && s2.group c.gid == s0.group c.gid
                | _ => false))
            | none => false)
        | _ => false) = true := by decide +kernel

/-- RelaxationRegions: `rxbeg` while an `rxcmt` waits for its writes, with a region open, with other values than the first arrival's, and as
the last of two. -/
theorem witness_rxbegPair :
    (let w := fun (m : Word) => xw .zero (.s 4) .zero m
     let base := describing 20 2 0 (hereWith (pairS 4 0x1_1000))
     let waits := regioned { region0 3 2 0x1_0100 false with st := .pending, performed := true } base
     let open_ := regioned { region0 3 2 0x2_0100 false with parts := [2] } base
     let other := fun (m : Word) => withOther (fun g => { g with wait := some (.region .rxbeg (w m)) }) base
     let sees := fun (s : State) (p : Ctx → Bool) => XOp.rxbeg.wf (w 0) && meets s (rxFront .rxbeg (w 0)) p
     sees waits (fun c => waits.committing c.g.id.grid c.g.id.team) &&
     sees open_ (fun c => !open_.committing c.g.id.grid c.g.id.team && open_.regionBusy c.g.id.grid c.g.id.team) &&
     sees (other 1) (fun c => ((other 1).group 2).any fun g => g.regionWord .rxbeg == some (w 1) && g.regionArgs (w 1) != c.g.regionArgs (w 0)) &&
     sees (other 0) fun c => let s := other 0
      !s.committing c.g.id.grid c.g.id.team && !s.regionBusy c.g.id.grid c.g.id.team && !c.g.id.bin && !c.g.ended && s.released c.gid .device &&
      let parts := s.roleGroups c.g.id.grid c.g.id.team c.g.id.role
      parts.map (·.1) == [1, 2] && parts.map (·.2.id.ridx) == [0, 1] && s.quiet [1, 2] && parts.all (fun p =>
        p.2.regionArgs (w 0) == c.g.regionArgs (w 0) && p.2.id.ctx == c.g.id.ctx && s.acquired p.1 .device && p.2.pc.isSome &&
        (p.1 == 1 || p.2.wait == some (.region .rxbeg (w 0)))) &&
      let s0 := s.modGroup c.gid fun g => { g with wait := some (.region .rxbeg (w 0)), issued := true }
      match s0.unitReadLong .other c.g.id.ctx (c.g.rdDWord (w 0).a 0) 2 32 with
      | .ok s1 b => s1.groups == s0.groups && s1.teams == s.teams && s1.grids == s.grids &&
          (RegionDesc.ofBytes b fun word n => s1.spadPlace c.g.id word n).any fun d => d.guess == 0
      | _ => false) = true := by decide +kernel

/-- RelaxationRegions: `rxcmt` of no step, some and all; `rxabort`. -/
theorem witness_rxcmt :
    ([0, 2, 3] : List Nat).all (fun n =>
      let w := xw .zero (.s 4) .zero 0
      let r : Region := { region0 3 2 0x1_0100 false with st := .pending, last := List.replicate 3 ⟨[1, 2], [], 1⟩ }
      let s := regioned r (hereWith fun g => pairS 4 n { g with stat := { g.stat with rxstat := rxstatOf 1 .pending 4 3 } })
      XOp.rxcmt.wf w && meets s (rxFront .rxcmt w) fun c => (s.team 0 0).bind (·.region) == some r && !c.g.ended && s.groups == [(c.gid, c.g)] && c.g.pc.isSome &&
        c.g.rd w.a 0 .n32 == n && n ≤ c.g.stat.rxstat.toNat / 2 ^ 32 % 2 ^ 17 && s.released c.gid .device && s.acquired c.gid .device &&
        s.order.qch.isEmpty && s.order.h.isEmpty && (s.share c.g.id.grid c.g.id.team r.desc.bufCore).isSome) = true ∧
    (let w := xw .zero .zero .zero 0
     let r : Region := { region0 3 2 0x1_0100 false with st := .pending }
     let s := regioned r here
     XOp.rxabort.wf w && meets s (rxFront .rxabort w) fun c => (s.team 0 0).bind (·.region) == some r && !c.g.ended &&
       s.groups == [(c.gid, c.g)]) = true := by decide +kernel

/-- RelaxationCommits: `rxcmt` with no region pending, with another N than the first arrival's, before the last of two arrivals, as the last
of two, and with a store on its way to a channel. -/
theorem witness_commits :
    let w := fun (a : Operand) => xw .zero a .zero 0
    let r : Region := { region0 3 2 0x1_0100 false with st := .pending, parts := [1, 2], last := List.replicate 3 ⟨[1, 2], [], 1⟩ }
    let store : RecStore := ⟨0x1_2000, 0x1_2000, 1, .device, [1, 2, 3, 4], gid0⟩
    let ready := fun (g : Group) => { g with stat := { g.stat with rxstat := rxstatOf 1 .pending 4 3 } }
    let base := hereWith fun g => pairS 4 2 (pairS 6 1 (ready g))
    let with_ := fun (r : Region) (x : Option Wait) => regioned r (withOther (fun g => { g with wait := x }) base)
    let sees := fun (s : State) (p : Ctx → Bool) => XOp.rxcmt.wf (w (.s 4)) && meets s (rxFront .rxcmt (w (.s 4))) p
    (sees base (fun c => ((base.team c.g.id.grid c.g.id.team).bind (·.region)).isNone) &&
    [(none, r), (some (.s 6), r), (some (.s 4), r), (some (.s 4), { r with last := [⟨[1, 2], [store], 1⟩] })].all fun (x : Option Operand × Region) =>
      let s := with_ x.2 (x.1.map fun a => .region .rxcmt (w a))
      sees s fun c => (s.team 0 0).bind (·.region) == some x.2 && !c.g.ended && c.g.rd (w (.s 4)).a 0 .n32 == 2 &&
        2 ≤ c.g.stat.rxstat.toNat / 2 ^ 32 % 2 ^ 17 && !x.2.performed &&
        let parts := s.liveOf x.2.parts
        parts.map (·.1) == [1, 2] && parts.all (fun p => p.2.pc.isSome && s.released p.1 .device && s.acquired p.1 .device) &&
        (s.group 2).map (fun g => (g.regionWord .rxcmt).map fun v => g.rd v.a 0 .n32) ==
          some (x.1.map fun a => if a = .s 6 then 1 else 2) &&
        ((x.2.last.take 2).flatMap (·.stores)).all fun y => !s.storeWaits y && x.2.parts.contains y.gid && s.pathOf .global y.pa y.mt y.scope == .qch) = true := by
  decide +kernel

/-- RelaxationCommits: PASS_END at a region whose commit has been performed; `rxabort` of an open region, before the last of two arrivals,
and as the last. -/
theorem witness_aborts :
    (let w := xw .zero (.s 4) .zero 0
     let r : Region := { region0 3 2 0x1_0100 false with st := .pending, performed := true }
     let s := regioned r (hereWith fun g => { g with wait := some (.region .rxcmt w) })
     match s.teams, s.group gid0 with
     | [tm], some g => s.running tm.ctx && tm.region == some r && g.pc.isSome && s.released gid0 .device && s.acquired gid0 .device &&
         s.liveOf r.parts == [(gid0, g)] && s.order.qch.isEmpty && s.order.h.isEmpty
     | _, _ => false) = true ∧
    (let w := xw .zero .zero .zero 0
     let open_ := regioned { region0 3 2 0x2_0100 false with parts := [2] } here
     let r : Region := { region0 3 2 0x1_0100 false with st := .pending, parts := [1, 2] }
     XOp.rxabort.wf w && meets open_ (rxFront .rxabort w) (fun c => ((open_.team c.g.id.grid c.g.id.team).bind (·.region)).any (·.st == .opened)) &&
     [none, some (Wait.region .rxabort w)].all fun x =>
      let s := regioned r (withOther (fun g => { g with wait := x }) here)
      meets s (rxFront .rxabort w) fun c => match s.team c.g.id.grid c.g.id.team with
        | some tm => let parts := s.abortParts tm c.g.id.role
          tm.region == some r && parts.map (·.1) == [1, 2] && parts.all fun p => p.2.pc.isSome && (p.1 == 1 || p.2.wait == x)
        | none => false) = true := by decide +kernel

/-- A region that ends its pass, with the decision that it comes to. -/
def passes : List (Region × PassOutcome) :=
  let r := region0 2 1 0x1_000C false
  let big := { StepEval.start r.desc with f := [some 0x7F80_0000] }
  [(r, .more), ({ r with desc := { r.desc with limit := 1 } }, .limit),
   ({ r with desc := { r.desc with stall := 1 }, pass := 2, rHist := [0x3F80_0000] }, .stalled), ({ r with evals := [(2, big)] }, .diverged),
   ({ r with sPrev := [[0x3F80_0000], [0x3F80_0000]], settled := [true, false] }, .converged)]

/-- RelaxationPasses: the end of a round with steps left; the end of a pass with each decision, and with the fault of a step. -/
theorem witness_passEnd :
    ((region0 17 1 0x1_000C false, PassOutcome.more) :: passes).all (fun x =>
      let r := x.1
      let s := regioned r (hereWith fun g => { g with fibres := g.fibres.map fun f => { f with held := true } })
      match s.teams, s.group gid0 with
      | [tm], some _ => s.running tm.ctx && tm.region == some r && r.st == .opened && r.arrivedAll s && s.quiet r.parts &&
          r.snaps.map (·.gid) == r.parts && r.parts == [gid0] && !s.storesWait tm r r.runPass
      | _, _ => false) = true ∧
    passes.all (fun x => let out := x.1.runPass
      let big := largestDelta out
      let rInf := if notFinite big.1 then 0x7F800000#32 else big.1
      out.length == 2 && x.1.desc.t ≤ (x.1.round + 1) * x.1.slots.length && x.1.decidePass out rInf == x.2 && out.all fun y => y.eval.stores.isEmpty) =
      true ∧
    (let r0 := region0 2 1 0x1_000C false
     let r := { r0 with evals := [(1, { StepEval.start r0.desc with fault := some aTrap })] }
     let s := regioned r (hereWith fun g => { g with fibres := g.fibres.map fun f => { f with held := true } })
     r.arrivedAll s && s.quiet r.parts && r.slots.all (·.gid == gid0) && !r.slots.isEmpty &&
     match r.decidePass r.runPass 0 with | .fault x => x.t == 1 && x.eval.fault == some aTrap && (r.slots[(x.t - 1) % r.slots.length]?).isSome | _ => false) = true ∧
    (let r0 := region0 2 1 0x1_000C false
     let store : RecStore := ⟨0x1_0100, 0x1_0100, 0, .device, [1], gid0⟩
     let r : Region := { r0 with sPrev := [[0x3F80_0000], [0x3F80_0000]], settled := [true, false], evals := [(1, { StepEval.start r0.desc with stores := [store] })] }
     let s := regioned r (engined (fun e => { e with ops := [⟨3, gid0, 0, 0, 0, 0x1_0000, [0], 0, .mzero 0 1, true, [], [lineOf 0x1_0100], [], [], [], [], false, 0⟩] }) here)
     match s.teams with
     | [tm] => r.decidePass r.runPass 0 == .converged && s.storesWait tm r r.runPass
     | _ => false) = true := by decide +kernel

/-- The machine whose kernel has set classes. -/
def sketching (s : State) : State := s.modGrid 0 fun g => { g with kernel := { g.kernel with classes := [⟨12, 1, 2⟩, ⟨1, 1, 2⟩] } }

/-- SketchMoves: an insertion and a deletion, once and for a lane, of a key whose three cells stand in three pages; a base that is not a
multiple of 64; a set class that the kernel lacks. -/
theorem witness_sketch :
    ([(.skins, .s 4), (.skdel, .v 4)] : List (XOp × Operand)).all (fun x =>
      let w := xw .zero x.2 (.s 6) 0
      let s := sketching (widePages 32 (lane0 (pairS 6 0x10_0000)))
      x.1.wf w && meets s (skFront w) fun c =>
        let base := c.g.rdDWord w.b 0
        match s.setClass c.g.id (w.f 7 0) with
        | none => false
        | some y =>
          let els := (c.lanesOf w.a.isS).flatMap fun l => (List.range 3).map fun j =>
            let va := base + BitVec.ofNat 64 (32 * (y.h (c.g.rdDWord w.a l) j % 2 ^ y.log2n))
            (⟨l, j, 32, va.toNat, false, va, none, va, true⟩ : Elem)
          base.toNat % 64 == 0 && resolves (s.resolveNow c .global .device els { once := w.a.isS, kind := .both, mt0 := true }) fun s1 hits =>
            settledIs s1 && hits.length == 3) = true ∧
    (let w := xw .zero (.s 4) (.s 6) 0
     let s := sketching (hereWith (pairS 6 0x10_0020))
     XOp.skins.wf w && meets s (skFront w) fun c => (s.setClass c.g.id (w.f 7 0)).isSome && (c.g.rdDWord w.b 0).toNat % 64 != 0) = true ∧
    (let w := xw .zero (.s 4) (.s 6) 2
     let s := sketching here
     XOp.skdel.wf w && meets s (skFront w) fun c => (s.setClass c.g.id (w.f 7 0)).isNone) = true := by decide +kernel

/-- SketchMoves: cells of pages in host bias. -/
theorem witness_sketchHost :
    let w := xw .zero (.s 4) (.s 6) 0
    let s0 := sketching (widePages 32 (lane0 (pairS 6 0x10_0000)))
    let s : State := { s0 with dev := { s0.dev with bias := [0] } }
    (XOp.skins.wf w && meets s (skFront w) fun c => match s.setClass c.g.id (w.f 7 0) with
      | some y =>
        let els := (List.range 3).map fun j =>
          let va := c.g.rdDWord w.b 0 + BitVec.ofNat 64 (32 * (y.h (c.g.rdDWord w.a 0) j % 2 ^ y.log2n))
          (⟨0, j, 32, va.toNat, false, va, none, va, true⟩ : Elem)
        (c.lanesOf w.a.isS) == [0] && resolves (s.resolveNow c .global .device els { once := true, kind := .both, mt0 := true }) fun s1 hits =>
          hits.length == 3 && hits.all fun h => s1.hostBias h.pa
      | none => false) = true := by decide +kernel

/-- The reads of `skpeel` are accepted and carry no error. -/
def mayPeel (s : State) (c : Ctx) (pa mt : Nat) : Bool :=
  !s.notYet c.gid c.g.id.core pa 8 mt false && !s.poisoned (pa - 0x18) 32 && s.allowed (s.targetAt (pa + 4) mt) c.g.id.ctx (pa + 4) 4 .read &&
  s.allowed (s.targetAt (pa - 0x18) mt) c.g.id.ctx (pa - 0x18) 8 .read

/-- SketchExchanges: `skxch` of a record that does not lie on 64 bytes, and of a set class that the kernel lacks. -/
theorem witness_skxchTraps : ([(0x1_1020, 1), (0x1_1000, 2)] : List (Nat × Word)).all (fun y =>
    let w := xw .zero (.s 4) .zero y.2
    let s := sketching (hereWith (pairS 4 y.1))
    XOp.skxch.wf w && meets s (xFront w (aRegs := 2)) fun c =>
      if y.2 = 1 then (c.g.rdDWord w.a 0).toNat % 64 != 0
      else (c.g.rdDWord w.a 0).toNat % 64 == 0 && (s.setClass c.g.id (w.f 7 0)).isNone) = true := by decide +kernel

/-- SketchExchanges: `skxch` of a record that is idle, one that has ended and one that runs. -/
theorem witness_skxch : ([0, 1, 4] : List Nat).all (fun r =>
    let w := xw .zero (.s 4) .zero 1
    let s := poke [(0x1_1030, r)] (morePages (sketching (hereWith (pairS 4 0x1_1000))))
    XOp.skxch.wf w && meets s (xFront w (aRegs := 2)) fun c =>
      let a := c.g.rdDWord w.a 0
      (s.setClass c.g.id (w.f 7 0)).isSome && a.toNat % 64 == 0 &&
      resolves (s.resolveNow c .global .device [{ recordElem a 0 64 with lane := lowest 0 c.act }] { once := true, kind := .both, mt0 := true })
        fun s1 hits => settledIs s1 && s1.work.exchanges.isEmpty && s1.released c.gid .device &&
          (hits.map fun h => leField (s1.readBytes h.pa 64) 0x30 4) == [r]) = true := by decide +kernel

/-- SketchExchanges: `skpeel` with RESULT of each kind, and with a list of one entry. -/
theorem witness_skpeel : ([0, 1, 2, 3, 4] : List Nat).all (fun r =>
    let w := xw (.v 8) (.s 4) (.s 6) 0
    let s := poke [(0x1_1018, 0x1_0400), (0x1_1030, r + 2 ^ 32)] (morePages (hereWith (pairS 4 0x1_1000)))
    XOp.skpeel.wf w && meets s (skpeelFront w) fun c =>
      let a := c.g.rdDWord w.a 0
      c.g.wait.isNone && a.toNat % 64 == 0 &&
      resolves (s.resolveNow c .global .device [{ recordElem a 0x30 4 with lane := lowest 0 c.act }]
        { once := true, kind := .read, mt0 := true, nondet := fun _ _ => c.g.id.det && c.g.id.bin })
        fun s1 hits => settledIs s1 && hits.length == 1 && hits.all fun h =>
          let res := leVal (s1.readBytes h.pa 4)
          let entries := leVal (s1.readBytes (h.pa + 4) 4)
          let s2 := s1.modGroup c.gid fun g =>
            { g with stat := { g.stat with skstat := BitVec.ofNat 64 (res % 2 ^ 32 + 2 ^ 32 * entries) } }
          res == r && entries == 1 && mayPeel s1 c h.pa h.mt &&
          (r != 2 || s1.acquired c.gid .device && resolves (s2.resolveNow c .global .device (c.peelElems w (BitVec.ofNat 64 (leVal (s1.readBytes (h.pa - 0x18) 8))) entries)
              { once := false, kind := .read }) fun s3 hits => settledIs s3 && hits.length == 1)) = true := by decide +kernel

/-- SketchExchanges: a `skpeel` that goes on when the exchange has ended, with an empty list. -/
theorem witness_skpeelGoesOn :
    (let w := xw (.v 8) (.s 4) (.s 6) 0
     let x : WordWait := ⟨0x1_1030, 4, 0, 1, 1, none, false, none, some 2, true⟩
     let s := poke [(0x1_1018, 0x1_0400), (0x1_1030, 2)] (morePages (hereWith fun g => pairS 4 0x1_1000 { g with wait := some (.word x due9) }))
     XOp.skpeel.wf w && meets s (skpeelFront w) fun c => c.g.wait == some (.word x due9) && settledIs s && s.acquired c.gid .device &&
      mayPeel s c x.pa x.mt &&
      resolves ((s.modGroup c.gid fun g => { g with stat := { g.stat with skstat := 2 } }).resolveNow c .global .device
        (c.peelElems w (BitVec.ofNat 64 (leVal (s.readBytes (x.pa - 0x18) 8))) 0) { once := false, kind := .read })
        fun s3 hits => settledIs s3 && hits.isEmpty) = true := by decide +kernel

/-- SketchExchanges: a `skpeel` that goes on when its record says that there is no exchange, that it failed, and that it faulted. -/
theorem witness_skpeelTraps : ([0, 3, 4] : List DWord).all (fun v =>
    let w := xw (.v 8) (.s 4) (.s 6) 0
    let x : WordWait := ⟨0x1_1030, 4, 0, 1, 1, none, false, none, some v, true⟩
    let s := poke [(0x1_1018, 0x1_0400), (0x1_1030, 2)] (morePages (hereWith fun g => pairS 4 0x1_1000 { g with wait := some (.word x due9) }))
    meets s (skpeelFront w) fun c => c.g.wait == some (.word x due9) && settledIs s && mayPeel s c x.pa x.mt) = true := by decide +kernel

/-- Five pages from 0x10_0000, each in a frame of its own, and the two cells of a sketch with the one key 0, across the first two. -/
def exchangePages (s : State) : State :=
  let x : SetClass := ⟨1, 1, 2⟩
  let cells := (List.range 3).foldl (fun cs j => cs.modify (x.h 0 j % 2) fun y => y.enter x 1 0) [SketchCell.zero, SketchCell.zero]
  let put := fun (pa : Nat) (y : SketchCell) => [(pa, y.count.toNat), (pa + 8, y.keysum.toNat), (pa + 16, y.check.toNat)]
  poke (((List.range 5).map fun i => (0x5800 + 8 * i, 0x2_00DB + 0x1000 * i)) ++ put 0x2_0FE0 (cells.getD 0 SketchCell.zero) ++
    put 0x2_1000 (cells.getD 1 SketchCell.zero)) s

/-- The machine with an exchange, in a domain whose rank 0 the context is. -/
def exchanging (n peer : Nat) (bad : Bool) (s : State) : State × Exchange :=
  let x : Exchange := ⟨9, 0, 0, 4, 0x1_0200, 0x1_0200, ⟨1, 1, 2⟩, 0x10_0FE0, 0x10_2FE0, peer, n, 1, 4, 0, 0x10_4000, 8, 0, 0, bad⟩
  let s := (exchangePages s).modCtx 0 fun c => { c with domain := some ⟨0, 2, 1, 1⟩ }
  ({ s with work := { s.work with exchanges := [x] } }, x)

/-- The two words of RESULT may be written. -/
def mayEnd (s : State) (x : Exchange) : Bool :=
  !s.blocked (x.pa + 0x30) 8 true && settledIs s && s.allowed (s.targetAt (x.pa + 0x34) 0) x.ctx (x.pa + 0x34) 4 .write &&
  s.allowed (s.targetAt (x.pa + 0x30) 0) x.ctx (x.pa + 0x30) 4 .write

/-- ExchangeRounds: a bad record; a round that decodes one key, and one that must fold finer, with the context itself as the peer and with
another that answers cells. -/
theorem witness_exchange :
    (let (s, x) := exchanging 1 0 true here
     s.work.exchanges.find? (·.id == x.id) == some x && s.running x.ctx && s.tokens x.ctx x.tbc true && mayEnd s x) = true ∧
    ([(0, 0), (1, 0), (1, 1)] : List (Nat × Nat)).all (fun y =>
      let n := y.1
      let (s, x) := exchanging n y.2 false here
      s.work.exchanges.find? (·.id == x.id) == some x && s.running x.ctx && s.tokens x.ctx x.tbc true && s.ownPeer x == (y.2 == 0) &&
      match s.readSketch x.ctx x.localBase x.cls.log2n with
      | .ok s1 mine => (match s1.readSketch x.ctx x.remoteBase x.cls.log2n with
        | .ok s2 other =>
          let p := Peel.run ⟨((foldSketch x.n mine).zip (foldSketch x.n other)).map (fun p => p.1.diff p.2), [], false, false⟩
            x.cls x.n x.dcap (x.dcap + 1)
          (foldSketch x.n other).length == 2 ^ x.n && !p.full && p.cells.all (· == SketchCell.zero) == (n == 1) && p.list.length == n &&
          x.rounds + 1 != x.maxr &&
          (n == 0 || match s2.unitWriteLong x.ctx x.diff (x.dcap / 256 + 2) (listBytes p.list) with
            | .ok s3 _ => mayEnd s3 x
            | _ => false)
        | _ => false)
      | _ => false) = true := by decide +kernel

/-- ExchangeRounds: rounds that fail: the list is full; the last round. -/
theorem witness_exchangeFails :
    (let x : SetClass := ⟨1, 1, 2⟩
     let cells := (List.range 3).foldl (fun cs j => cs.modify (x.h 0 j % 2) fun y => y.enter x 1 0) [SketchCell.zero, SketchCell.zero]
     (Peel.run ⟨cells, [], false, false⟩ x 1 0 1).full) = true ∧
    (let (s, x) := exchanging 0 0 false here
     mayEnd { s with work := { s.work with exchanges := [{ x with maxr := 1 }] } } x) = true := by decide +kernel

/-- ExchangeRounds: a bad record with a completion counter. -/
theorem witness_exchangeComp :
    (let (s, y) := exchanging 1 0 true here
     let x := { y with comp := 0x10_4000 }
     let s : State := { s with work := { s.work with exchanges := [x] } }
     let u := (s.performWrite (x.pa + 0x34) (leOf 4 0)).performWrite (x.pa + 0x30) (leOf 4 (4 + 2 ^ 24))
     let t : State := { u with work := { u.work with exchanges := [] } }
     mayEnd s x && match t.unitAdd .other x.ctx x.comp (1 + 2 ^ 32) with | .ok _ _ => true | _ => false) = true := by decide +kernel

/-- CopiesAndLaunchesEnter: `tcopy` of a get, a put and a reduction; `launch` with room for one more, first and after it waited, and with none. -/
theorem witness_collectives :
    ([(0, .full), (1, .free), (2, .full)] : List (Nat × HState)).all (fun x =>
      let w := xw (.s 4) (.s 6) (.s 8) (BitVec.ofNat 32 (7 * 2 ^ 13 + x.1 * 2 ^ 11 + 5))
      let s := bound x.2 (hereWith fun g => pairS 4 0x1_0008 (pairS 6 0x1_0040 g))
      let b : Binding := ⟨0, 0, 0, 0, 256, x.2⟩
      XOp.tcopy.wf w && meets s (tcopyFront w) fun c =>
        let comp := BitVec.ofNat 64 (c.g.bits w.d 2 0)
        let rec_ := c.g.rdDWord w.a 0
        s.namedHandle c.g.id w false == some (118, some b) && s.handle c.g.id.ctx 118 (w.f 7 0) == some ⟨0, 118, 5, none, some b⟩ &&
        w.f 12 11 == x.1 && canonical rec_ && canonical comp && rec_.toNat % 64 == 0 && comp.toNat % 8 == 0 && s.released c.gid .device) = true ∧
    ([(0, none), (3, some (.launch true due9)), (4, none)] : List (Nat × Option Wait)).all (fun y =>
      let n := y.1
      let w := mw (.s 4) (.s 6) .zero .w8
      let s := (morePages (hereWith fun g => pairS 6 0x1_1000 { g with wait := y.2 })).modCore 118 fun k => { k with pq := List.replicate n ⟨0, [], 0, 0, 0, 0⟩ }
      MOp.launch.wf w && meets s (MOp.front .launch w) fun c =>
        let els := c.objects w true 64 64
        (s.grid c.g.id.grid).isSome && s.released c.gid .device && els.all (fun e => canonical e.va && !e.misaligned) &&
        (s.core c.g.id.core).pq.length == n && c.g.wait == y.2 &&
        resolves (s.resolveNow c .global w.scope els { once := true, kind := .read }) fun s1 hits => settledIs s1 && hits.length == 1) = true := by
  decide +kernel

/-- A state with launch queue 3 of context 0 and the kernel of grid 0 registered; the queue's header is at 0x1_0200. -/
def launchQueue (s : State) : State :=
  let ks := s.grids.map fun g => g.2.kernel
  s.modCtx 0 fun c => { c with
    queues := c.queues ++ [⟨3, 0, false, 0x1_0200, 0x1_0280, 1, false⟩], images := [⟨0, 0, 16, 0, ks, [], [], false⟩] }

/-- The words of a launch record of the kernel of grid 0 with gx teams, SUCC absent, and FLAGS with PRIO. -/
def recordWords (gx flags : Nat) : List Nat := [0x1_1000, 7, gx + 2 ^ 32 + 2 ^ 48, 0, 0, 0, 0, flags]

/-- Words in the memory from an address. -/
def pokes (a : Nat) (l : List Nat) (s : State) : State := poke (l.zipIdx.map fun x => (a + 8 * x.2, x.1)) s

/-- A machine whose port 0 has the host personality, with master 5. -/
def hosted (s : State) : State :=
  { s with dev := { s.dev with
      prov := { s.dev.prov with ports := [(0, 5)] }, access := smSet s.dev.access (tableKey 5 .port) [⟨0, 2 ^ 51, true, true⟩] } }

/-- A queue's header may be served. -/
def headerOpen (s : State) (ctx header : Nat) : Bool :=
  !s.blocked header 64 true && s.allowed (s.targetAt header 0) ctx header 64 .both && !s.poisoned header 64

/-- LaunchQueues: a host appends to a launch queue and to a copy queue, with room for one more and for all. -/
theorem witness_append : ([(false, 2 ^ 64 - 1, 2 ^ 64 - 2), (true, 5, 5)] : List (Bool × Nat × Nat)).all (fun x =>
    let s := hosted (queueAt x.2.1 x.2.1 x.2.2 1 (if x.1 then copyQueue 1 here else launchQueue here))
    match s.queue 0 (if x.1 then 2 else 3) x.1 with
    | none => false
    | some q =>
      let n := leVal (s.readBytes q.header 8)
      n == x.2.1 && (n + 2 ^ 64 - leVal (s.readBytes (q.header + 16) 8)) % 2 ^ 64 < 2 ^ q.log2 && leVal (s.readBytes (q.header + 8) 8) == n &&
      s.dev.prov.ports.find? (fun p => p.1 == 0) == some (0, 5) && settledIs s && canonical (q.slot n) &&
      match s.translate 0 (q.slot n).toNat .read false with
      | .ok s1 tr =>
        let pa := tr.addr ((q.slot n).toNat % 2 ^ 57)
        settledIs s1 && !s1.blocked pa 64 true && !s1.blocked q.header 64 true && s1.hostMay 5 q.header 64 .both && s1.hostMay 5 pa 64 .write
      | _ => false) = true ∧ ((List.replicate 64 (0 : Byte)).length = 64) := by decide +kernel

/-- LaunchQueues: the record at the head of a full queue and of a pending-launch queue is next and passes the checks; one with a reserved
flag does not; and a queue that is overfull. -/
theorem witness_take :
    (let s := launchQueue (pokes 0x1_02C0 (recordWords 2 1) (queueAt 5 5 3 1 here))
     match s.queue 0 3 false, s.nextHead with
     | some q, some h => !q.faulted && s.running 0 && s.queueCount q == 2 && h.ctx == 0 && h.queue == some 3 &&
       settledIs s && headerOpen s 0 q.header &&
       (match s.unitRead .other 0 (q.slot (leVal (s.readBytes (q.header + 16) 8))) 64 with
       | .ok s0 b =>
         let r := LaunchRec.ofBytes b
         let s1 := s0.performWrite (q.header + 16) (leOf 8 4)
         settledIs s0 && !badRec b r && r.coll == 0 && r.total == 2 && match (s1.ctx 0).bind (·.kernel r.kdesc) with
         | some k => (match s1.captureText 0 k.textLo (k.textLen / 4096 + 2) k.textLen with | .ok _ _ => true | _ => false)
         | none => false
       | _ => false)
     | _, _ => false) = true ∧
    (let b := (recordWords 1 0).flatMap fun x => leOf 8 x
     let s := launchQueue (here.modCore 118 fun k => { k with pq := [⟨0, b, 9, 0x1_0400, 1, 2⟩] })
     let r := LaunchRec.ofBytes b
     (s.core 118).pq.length == 1 && (match s.nextHead with | some h => h.queue.isNone && h.core == 118 | none => false) &&
     !badRec b r && ((s.ctx 0).bind (·.kernel r.kdesc)).isSome && r.coll == 0 && r.total == 1 && 64 ≤ b.length) = true ∧
    (let s := launchQueue (pokes 0x1_02C0 (recordWords 1 16) (queueAt 5 5 3 1 here))
     match s.queue 0 3 false with
     | some q => !q.faulted && s.running 0 && ((s.ctx 0).map (·.completion)) == some none && s.queueCount q == 2 &&
       (s.nextHead.map fun h => (h.ctx, h.queue)) == some (0, some 3) &&
       settledIs s && headerOpen s 0 q.header &&
       (match s.unitRead .other 0 (q.slot (leVal (s.readBytes (q.header + 16) 8))) 64 with
       | .ok s1 b => settledIs s1 && s1.ctxs == s.ctxs && badRec b (LaunchRec.ofBytes b) && (LaunchRec.ofBytes b).succ == 0
       | _ => false)
     | none => false) = true ∧
    (let s := launchQueue (queueAt 6 6 3 1 here)
     match s.queue 0 3 false with | some q => !q.faulted && s.running 0 && settledIs s && headerOpen s 0 q.header && ((s.ctx 0).map (·.completion)) == some none && 2 ^ q.log2 < s.queueCount q | none => false) = true := by decide +kernel

/-- GridsRetire: a grid that is over, with a successor word and without; no completion queue, a full one, and one with a free slot. -/
theorem witness_retire : ([0, 0x1_0308] : List DWord).all (fun succ => ([none, some 2, some 0] : List (Option Nat)).all fun q =>
    let s0 := poke [(0x1_1000, 0), (0x1_1008, (q.getD 0)), (0x1_1010, 0)] (morePages here)
    let s := ((s0.modGroup gid0 fun g => { g with ended := true }).modGrid 0 fun g => { g with record := { g.record with succ := succ } }).modCtx 0
      fun c => { c with completion := q.map fun _ => ⟨0, 0, false, 0x1_1000, 0x1_1040, 1, false⟩ }
    match s.grid 0 with
    | none => false
    | some g => s.gridOver 0 g && s.running g.ctx &&
      match s.flushCtx g.ctx with
      | .held _ => false
      | .made s1 =>
        let s2 := ({ s1 with grids := smErase s1.grids 0 } : State)
        let r := if succ = 0 then some s2 else match s2.unitAdd .other g.ctx succ (2 ^ 64 - 1) with | .ok s2 _ => some s2 | _ => none
        match r with
        | none => false
        | some s2 => settledIs s2 && match (s2.ctx g.ctx).bind (·.completion) with
          | none => q.isNone
          | some c =>
            let w := leVal (s2.readBytes (c.header + 8) 8)
            let free := (w + 2 ^ 64 - leVal (s2.readBytes (c.header + 16) 8)) % 2 ^ 64 != 2 ^ c.log2
            headerOpen s2 g.ctx c.header && free == (q == some 0) && (!free || match s2.unitWrite .other g.ctx c.ring (List.replicate 32 1) with
              | .ok s3 _ => settledIs s3
              | _ => false)) = true := by decide +kernel

/-- The machine whose grid has a second team that is not admitted, of a kernel with two cores in each team, in a mode. -/
def twoTeams (det : Bool) (s : State) : State :=
  s.modGrid 0 fun g => { g with record := { g.record with gx := 2 }, det := det, kernel := { g.kernel with cores := 2, spad := 300 } }

/-- Placement: a team that may not move and one that may; one whose cores are ready, one whose core lacks the room for its share. -/
theorem witness_placement :
    ([true, false] : List Bool).all (fun det =>
      let s := twoTeams det here
      match s.grid 0 with
      | none => false
      | some g => 1 < g.record.total && !g.admitted.contains 1 && g.det == det && s.running g.ctx &&
        ([0, 191] : List Nat).all (fun home => (s.coresAt g home).all fun c => s.shareFree c g.kernel.shareBytes) &&
        ((s.coresOf g 1).length == 2 && (s.coresOf g 1).zipIdx.all fun x => s.coreReady g x.2 x.1 && s.heads x.1 (teamKey g 1))) = true ∧
    (let s := (twoTeams false here).modGrid 0 fun g => { g with kernel := { g.kernel with spad := 2 ^ 23 } }
     match s.grid 0 with
     | none => false
     | some g => 1 < g.record.total && !g.admitted.contains 1 && s.running g.ctx &&
       (s.coresOf g 1).zipIdx.any fun x => !(s.coreReady g x.2 x.1 && s.heads x.1 (teamKey g 1))) = true := by decide +kernel

/-- SwapOutAndIn: a parked group whose time has come, and one whose time has not; a swapped-out group that has been woken, and one that
has not. -/
theorem witness_swap :
    ([10, 11] : List Nat).all (fun clk =>
      let s0 := (hereWith fun g => { g with wait := some (.barrier 0 true false), swaptmo := 7, parkedAt := 3 }).modCtx 0 fun c => { c with swapRoom := 1 }
      let s : State := { s0 with dev := { s0.dev with clk := clk } }
      match s.group gid0 with
      | none => false
      | some g => s.maySwap gid0 g == (clk == 11) && (match s.flushCtx g.id.ctx with | .made s1 => (s1.group gid0).isSome && (s1.ctx g.id.ctx).isSome && settledIs s1 | .held _ => false)) = true ∧
    ([true, false] : List Bool).all (fun woke =>
      let s := hereWith fun g => { g with wait := some (.barrier 0 true woke), place := .swapped }
      match s.group gid0 with
      | none => false
      | some g => g.place == .swapped && s.running g.id.ctx && s.woken gid0 g == woke && s.heads g.id.core (s.returnKey g) &&
        s.slotsFree g.id.core g.id.ctx [g.window]) = true := by decide +kernel

/-- The machine whose core has two bins of one fibre each; the second is closed or not. -/
def binned (closed : Bool) (s : State) : State :=
  match s.group gid0 with
  | none => s
  | some g =>
    let b : Bin := ⟨0, 0, 0, 0x1_0000, g.id, 0, 256, 0, closed, false, [⟨1, [5, 6]⟩]⟩
    s.modCore g.id.core fun k => { k with bins := [b, b] }

/-- SpawnBinsClose: a bin that is open; a closed one with a slot free for it; and one for which no slot is free, with room in the swap
area. -/
theorem witness_bins :
    ([(false, 1), (true, 1), (true, 300)] : List (Bool × Nat)).all (fun x =>
      let s := (binned x.1 (crowd x.2 here)).modCtx 0 fun c => { c with swapRoom := 1 }
      match (s.core 118).bins with
      | [_, b] => s.running b.ctx && b.closed == x.1 && !b.out && b.fibres.all (fun y => y.args.length < 256) && s.swapRoom b.ctx &&
        (s.slotsFree 118 b.ctx [windowOf b.ident.vBud b.ident.width] && s.heads 118 [0, 2]) == (x.2 == 1)
      | _ => false) = true := by decide +kernel

/-- Picks: a machine that is awake, and one in reset. -/
theorem witness_picks : here.awake = true ∧ ({ here with dev := { here.dev with inReset := true } } : State).awake = false := by decide +kernel

/-- A collective of a kind, on two elements of 32 bits, as it stands after its start. -/
def coll0 (kind : Nat) : Coll :=
  ⟨none, ⟨kind, 0, .n32, 0, 0, 0x1_0400, 0x1_0440, 2, 0, 50, 0⟩, true, [], [], none, [], [], [], none, none, false, false, 0, 0⟩

/-- The machine at rank r of 4, whose grid has a collective, in a mode. -/
def gathering (r : Nat) (det : Bool) (c : Coll) (s : State) : State :=
  (s.modGrid 0 fun g => { g with coll := some c, det := det }).modCtx 0 fun x => { x with domain := some ⟨r, 2, 2, 1⟩, watchdog := 60 }

/-- What stands in a grid's collective. -/
def collIs (s : State) (p : Grid → Coll → Place3 → Bool) : Bool :=
  match s.grid 0 with
  | some g => (match g.coll with | some c => s.running g.ctx && p g c (s.collPlace g.ctx c.desc) | none => false)
  | none => false

/-- CollectiveExchange: a position above 0; a message before the start that fills its port's buffer and one that is too long, and one
of each kind after it, at the greatest rank. -/
theorem witness_messages :
    (1023 < 1024 ∧ 0 < 1023) ∧
    (let s := gathering 0 false { coll0 1 with started := false } here
     collIs s (fun _ c _ => !c.started && !c.finished && s.earlyUsed 3 == 0) = true ∧
     ∀ n, msgBytes (coll0 1).desc (.up 1 (List.replicate n 0)) = 4 * n) ∧
    (4 * 65536 = 262144 ∧ 262144 < 4 * 65537) ∧
    collIs (gathering 0 false (coll0 2) here) (fun _ c pl => c.started && c.early.isEmpty && (childrenOf pl.pos pl.ranks) == [1, 2] &&
      c.desc.kind ≤ 2 && [1, 2].length == c.desc.count && c.taken.isEmpty) = true ∧
    ([1, 3] : List Nat).all (fun k => collIs (gathering 3 false (coll0 k) here) fun _ c pl => pl.pos != 0 && c.result.isNone && c.desc.kind == k) = true ∧
    collIs (gathering 0 false (coll0 4) here) (fun _ c pl => c.desc.kind == 4 && pl.rank == 0 && 3 < pl.ranks && c.gathered.isEmpty) = true := by
  refine ⟨by decide, ⟨by decide +kernel, fun n => by simp [msgBytes, coll0, Ty.width]; omega⟩, by decide, ?_, ?_, ?_⟩ <;>
    decide +kernel

/-- A collective's grid whose groups have ended. -/
def gathered (r : Nat) (c : Coll) : State := gathering r false c (here.modGroup gid0 fun g => { g with ended := true })

/-- CollectiveExchange: a contribution whose first line is read, with and without another to come, one whose source is not mapped,
a grid whose groups have not ended, and a message for a record that is not taken. -/
theorem witness_contribute :
    ([0x1_0400, 0x1_047C, 0x5000_0000] : List DWord).all (fun src =>
      let s := gathered 0 { coll0 1 with desc := { (coll0 1).desc with src := src } }
      collIs s fun g c _ => s.groupsEnded 0 g && c.started && !c.finished && c.early.isEmpty && c.vals.isNone &&
        c.id.isNone && s.order.reds.isEmpty && s.tokens g.ctx c.desc.tbc true &&
        let s0 := s.newId.2.modColl 0 fun c => { c with id := some s.sched.nextId }
        let k := min 8 (128 - src.toNat % 128)
        match s0.unitWalk g.ctx src k .read, s0.unitRead (.unit s.sched.nextId) g.ctx src k with
        | .ok .., .ok s1 b => src != 0x5000_0000 && b.length == (if src == 0x1_0400 then 8 else 4) && s1.grid 0 == s0.grid 0
        | _, .fault s1 _ _ => src == 0x5000_0000 && s1.grid 0 == s0.grid 0
        | _, _ => false) = true ∧
    (let s := gathering 1 false (coll0 3) here
     collIs s fun g c _ => !s.groupsEnded 0 g && c.started && !c.finished && c.early.isEmpty && c.vals.isNone) = true ∧
    ((here.grid 90).isNone && here.sched.nextId ≤ 90 && here.earlyUsed 3 + portBytes ⟨3, 1, .up 1 [5]⟩ ≤ 262144 &&
      decide (262144 < here.earlyUsed 3 + portBytes ⟨3, 4, .up 1 (List.replicate 70000 5)⟩)) = true := by decide +kernel

/-- CollectiveExchange: position 0 with its children's values; a finish that waits, one that takes its lines,
and one whose last line lands. -/
theorem witness_collFinish :
    (let c : Coll := { coll0 1 with vals := some [1, 2], taken := [(1, some [3, 4]), (2, some [5, 6])] }
     childrenOf 0 4 = [1, 2] ∧ c.vals = some [1, 2] ∧ c.desc.kind ∈ [1, 2] ∧
     ∀ q ∈ childrenOf 0 4, (c.taken.find? fun x => x.1 == q) = some (q, some ((fun q => if q = 1 then [3, 4] else [5, 6]) q))) ∧
    (let s := gathered 0 { coll0 1 with id := some 9 }
     collIs s fun _ c pl => c.dst.isNone && (c.outcome pl).isNone) = true ∧
    (let s := gathered 0 { coll0 1 with id := some 9, vals := some [1, 2], taken := [(1, some [3, 4]), (2, some [5, 6])] }
     collIs s fun g c pl => !c.finished && c.early.isEmpty && c.dst.isNone && match c.outcome pl with
     | some [(o, b)] => b.length == 8 && (match s.dstLinesOf g.ctx (b.length / 128 + 2) (c.desc.dst + BitVec.ofNat 64 o) b with
       | .ok s1 lines => lines.length == 1 && s1.grid 0 == s.grid 0
       | _ => false)
     | _ => false) = true ∧
    (let bytes : List (Nat × Byte) := [(0x1_0440, 9), (0x1_0441, 8)]
     let s := gathered 0 { coll0 1 with id := some 9, vals := some [1, 2], dst := some [(0x1_0400, 0, bytes)] }
     collIs s fun g c _ => !c.finished && c.early.isEmpty && s.tokens g.ctx c.desc.tbc true &&
       !s.blockedFor (.unit 9) 0x1_0440 2 true && !s.barred (.unit 9) 0x1_0440 0 &&
       s.allowed (s.targetAt 0x1_0440 0) g.ctx 0x1_0440 2 .write && settledIs s) = true := by decide +kernel

/-- CollectiveTimeouts: a position that waited TIMEOUT cycles with a child missing; a message from a flushed child, while the
collective runs and after its grid has gone; the watchdog's last quiet cycle and the next; an abort. -/
theorem witness_collTimeouts :
    (let s0 := gathering 0 false { coll0 1 with vals := some [1, 2], taken := [(1, some [3, 4])] } here
     let s : State := { s0 with dev := { s0.dev with clk := 50 } }
     collIs s fun g c pl => !g.det && c.desc.timeout != 0 && c.desc.kind ≤ 2 && c.vals.isSome && c.since + c.desc.timeout ≤ s.dev.clk &&
       ((childrenOf pl.pos pl.ranks).filter fun q => !c.taken.any (·.1 == q)) == [2]) = true ∧
    collIs (gathering 0 false { coll0 2 with taken := [(1, none)] } here) (fun _ c pl => (childrenOf pl.pos pl.ranks).contains 1 &&
      (c.taken.find? fun y => y.1 == 1) == some (1, none) && c.desc.kind ≤ 2 && c.desc.event == 0 && [7, 8].length == c.desc.count) = true ∧
    (let s := (here.modCtx 0 fun x => { x with flushed := [(5, 1, 0), (5, 2, 0)] })
     let s : State := { s with sched := { s.sched with nextId := 6 } }
     (s.grid 5).isNone && 0 < here.sched.nextId && 5 < s.sched.nextId && s.running 0 && (s.ctx 0).isSome &&
       s.ctxs.findSome? (fun p => (p.2.flushed.find? fun y => y.1 == 5 && y.2.1 == 1).map fun y => (p.1, y.2.2)) == some (0, 0)) = true ∧
    ([59, 60] : List Nat).all (fun clk =>
      let s0 := gathering 0 true (coll0 1) here
      let s : State := { s0 with dev := { s0.dev with clk := clk } }
      collIs s fun g c _ => g.det && match s.ctx g.ctx with
        | some x => decide (c.last + x.watchdog ≤ s.dev.clk) == (clk == 60)
        | none => false) = true := by decide +kernel

/-- CollectivePackets: a packet that fails, and adds to a completion counter. -/
theorem witness_packetComp :
    (let e : HandleEntry := ⟨0, 118, 5, none, some ⟨0, 0, 0, 0, 256, .draining⟩⟩
     let s := bound .draining (morePages here)
     let mid := s.faultHandle (some e) none
     s.handle 0 118 5 == some e && match mid.unitAdd .other 0 0x1_1300 (1 + 2 ^ 32) with | .ok _ _ => true | _ => false) = true := by decide +kernel

/-- A shape record at 0x1_1000: one element of 8 bytes at 0x1_0800, at the coordinates of rank 1 of 4, with RESERVED bits. -/
def shapeState (reserved : Nat) (s : State) : State :=
  poke [(0x1_1000, 0x1_0800), (0x1_1008, 3 + 2 ^ 8), (0x1_1010, 1), (0x1_1018, 0), (0x1_1020, 0), (0x1_1028, 8), (0x1_1030, 0), (0x1_1038, 0),
    (0x1_1040, 0), (0x1_1048, 0), (0x1_1050, 0x1_0001_0001_0001), (0x1_1058, 1), (0x1_1060, 1 + 2 ^ 48 * reserved), (0x1_1068, 2), (0x1_1070, 0),
    (0x1_1078, 0)] s

/-- CollectivePackets: a get and a put within this rank; and a record with a reserved bit of REP. -/
theorem witness_packets :
    ([(0, 0, HState.draining), (1, 0, .filling), (0, 8, .draining)] : List (Nat × Nat × HState)).all (fun y =>
      let e : HandleEntry := ⟨0, 118, 5, none, some ⟨0, 0, 0, 0, 256, y.2.2⟩⟩
      let p : Packet := ⟨2, 4 + (if y.1 = 1 then 1 else 2), 0, 5, 118, 5, 118, 0, 0, 0x1_1000, 0, 0, y.1⟩
      let x : CollPacket := ⟨9, 0, none, none, p, [0, 0, 0, 0, 0], some e⟩
      let d : Domain := ⟨1, 2, 2, 1⟩
      let s0 := (bound y.2.2 (shapeState y.2.1 (morePages here))).modCtx 0 fun c => { c with domain := some d }
      let s : State := { s0 with work := { s0.work with packets := [x] } }
      s.work.packets.find? (·.id == x.id) == some x && s.running 0 && s.tokens 0 0 true && !s.collEarly x && ((s.ctx 0).bind (·.domain)) == some d &&
      match s.unitReadLong .other 0 p.shape 2 128 with
      | .ok s1 b =>
        let sh := Shape.ofBytes b
        let stands := fun (s' : State) =>
          s'.handle 0 118 5 == some e && s'.groups.any (fun p => p.2.id.grid == 0 && p.2.id.team == 0 && !p.2.ended)
        stands s1 &&
        collShapeBad b sh y.1 == (y.2.1 == 8) && (y.2.1 == 8 || sh.size == 8 && targets sh d == some [1] &&
          let sp := s1.spendFor 0 0 true sh.size
          if y.1 = 1 then (match sp.localGet x sh with | .ok s2 box => box.length == 8 && stands s2 && !s2.landWaits x.handle && (s2.share 0 0 0).isSome | _ => false)
          else (match sp.localPut x sh 1 (sp.spadRead 0 0 0 0 8) with | .ok s2 _ => stands s2 | _ => false))
      | _ => false) = true ∧
    (targets (Shape.ofBytes (List.replicate 0x66 0 ++ [7])) ⟨0, 2, 2, 1⟩ = some [0, 1, 2, 3]) := by decide +kernel

/-- The machine whose context is alone: nothing runs for it. -/
def idle : State := { here with grids := [], groups := [], teams := [] }

/-- The runtime's windows reach all of memory but the journal. -/
def ruled (s : State) : State :=
  { s with dev := { s.dev with access := smSet s.dev.access (tableKey Config.runtimeId .slice) [⟨0, journalBase, true, true⟩] } }

/-- ContextsBeginAndEnd: requests at the ends of the ranges of the context's number and of the watchdog; a context that still has a grid,
and one whose grids have retired. -/
theorem witness_contexts :
    ([(⟨1, 0, 0x4000, 0, 0, ⟨0, 4096⟩, ⟨2 ^ 50, 2 ^ 12⟩, 1250000, 0x1_0200⟩, 4), (⟨4095, 0, 0, 0, 0, ⟨0, 0⟩, ⟨0, 0⟩, 75000000000, 0x1_0200⟩, 16)] :
        List (CtxReq × Nat)).all (fun x =>
      let s := ruled (poke [(0x1_0218, 0x1_0280), (0x1_0220, x.2)] here)
      let r := x.1
      s.awake && r.id < 4096 && (s.ctx r.id).isNone && r.root % 4096 == 0 && 1250000 ≤ r.watchdog && r.watchdog ≤ 75000000000 &&
      !(s.dev.partitions.getD (smGet 0 s.dev.partOf r.id) []).isEmpty && areaOk r.swapArea && areaOk r.saveArea && settledIs s &&
      !s.blocked r.completion 64 false && s.runtimeMay r.completion 64 .read && r.completion % 64 == 0 && leVal (s.readBytes (r.completion + 0x18) 8) % 64 == 0 &&
      (s.readByte (r.completion + 0x20)).toNat == x.2) = true ∧
    (match here.ctx 0 with | some c => !here.allRetired 0 c | none => false) = true ∧
    (here.order.tc.isEmpty && here.order.qch.isEmpty && here.order.reds.isEmpty && here.order.h.isEmpty && here.dev.journal.opened.isNone &&
      here.order.partials.isEmpty) = true ∧
    (match idle.ctx 0 with
      | some c => idle.allRetired 0 c && !idle.unitsBusy 0 c && (match idle.flushCtx 0 with | .made _ => true | _ => false)
      | none => false) = true ∧
    (let s : State := { idle with work := { idle.work with copies := [copyOf none none 64 []] } }
     match s.ctx 0 with | some c => s.allRetired 0 c && s.unitsBusy 0 c | none => false) = true := by
  decide +kernel

/-- Context 0 in a run state, with its groups at a place. -/
def runState (r : RunSt) (p : Place) (saved : List CoreSave) (s : State) : State :=
  (s.modGroup gid0 fun g => { g with place := p }).modCtx 0 fun c => { c with run := r, saved := saved }

/-- ContextsSaveAndRestore: a context that runs, one that was stopped, with nothing to wait for and with a pass that is over, one that
was saved and fits, and one whose engine is in use. -/
theorem witness_save :
    (match here.ctx 0 with | some c => c.run == .running && here.dev.journal.opened.isNone | none => false) = true ∧
    ([false, true] : List Bool).all (fun due =>
      let s0 := runState .stopped .slot [] here
      let held := s0.modGroup gid0 fun g => { g with fibres := g.fibres.map fun f => { f with held := true } }
      let s := if due then regioned (region0 2 1 0x1_000C false) held else s0
      match s.ctx 0, s.flushCtx 0 true with
      | some c, .made s1 =>
        let s2 := s1.writeBackAll 0
        c.run == .stopped && s.dev.doomed.isEmpty && s2.producersReady 0 && settledIs s2 &&
          s2.teams.any (fun t => t.ctx == 0 && s2.passDue t) == due && (due || s2.teams.all fun t => t.region.isNone)
      | _, _ => false) = true ∧
    ([.saved, .restoring] : List RunSt).all (fun r =>
      let s := runState r .saved [] here
      match s.ctx 0 with
      | some c => c.run == r && s.enginesFree c && s.restoreFits 0 c && (s.modCtx 0 fun c => { c with run := .restoring }).returnsFirst 0
      | none => false) = true ∧
    (let s := runState .saved .saved [] here
     let s := match s.group gid0, s.ctx 0 with
      | some g, some c => { (s.setGroup 7 { g with id := { g.id with ctx := 3 }, place := .swapped, wait := some (.barrier 0 true true) }) with
          ctxs := smSet (smSet s.ctxs 0 c) 3 { c with run := .running } }
      | _, _ => s
     let s := s.modGroup gid0 fun g => { g with wait := some (.barrier 0 true true), parkedAt := 5 }
     !(s.modCtx 0 fun c => { c with run := .restoring }).returnsFirst 0) = true ∧
    (let s := runState .saved .saved [⟨118, some (here.core 118).engine, [], []⟩] (owning id here)
     match s.ctx 0 with | some c => !s.enginesFree c | none => false) = true := by decide +kernel

/-- Registrations: a launch queue and a copy queue with the fewest and the most slots; a header off its alignment and a ring with too few
slots; one that the runtime's windows do not reach; a completion queue, with and without a launch pending. -/
theorem witness_registrations :
    ([(0x1_0200, 4, true), (0x1_0200, 16, true), (0x1_0220, 4, false), (0x1_0200, 3, false), (0x1_0200, 17, false)] : List (Nat × Nat × Bool)).all (fun x =>
      let w : Window := ⟨0x1_0000, 0x1_1000, true, true⟩
      let s0 := poke [(x.1 + 0x18, 0x1_0280), (x.1 + 0x20, x.2.1)] (here.modGrid 0 fun g => { g with started := true })
      let s : State := { s0 with dev := { s0.dev with access := smSet s0.dev.access (tableKey Config.runtimeId .slice) [w] } }
      let ring := leVal (s.readBytes (x.1 + 0x18) 8)
      let log2 := (s.readByte (x.1 + 0x20)).toNat
      settledIs s && !s.blocked x.1 64 true && !s.blocked x.1 64 false && (match s.ctx 0 with
        | some c => s.engineQueues c.part 23 0 5 < 64 && !s.launchPending 0 c | none => false) && s.runtimeMay x.1 64 .read &&
      !({ s with dev := { s.dev with access := [] } } : State).runtimeMay x.1 64 .read &&
      s.runtimeMay x.1 64 .both && !({ s with dev := { s.dev with access := [] } } : State).runtimeMay x.1 64 .both &&
      (x.1 % 64 == 0 && ring % 64 == 0 && 4 ≤ log2 && log2 ≤ 16) == x.2.2) = true ∧
    (63 < 64 ∧ 23 < 24) ∧
    (let s := here.modGrid 0 fun g => { g with started := false }
     match s.ctx 0 with | some c => s.launchPending 0 c | none => false) = true ∧
    ([(1, 1, 1, 0), (16, 8, 8, 1023)] : List (Nat × Nat × Nat × Nat)).all (fun x => let n := x.1 * x.2.1 * x.2.2.1
      1 ≤ n && n ≤ 1024 && x.2.2.2 < n && here.ctxs.all fun p => p.1 == 0 || p.2.domain.isNone) = true ∧
    ([[7], [0, 1], [0, 1, 2, 3, 4, 5, 6, 7]] : List (List Nat)).all (fun dies => dies.Nodup && dies.all (· < 8) && [1, 2, 4, 8].contains dies.length &&
      !idle.placed 0 && !idle.placed 9 && idle.ctxs.all fun p => p.1 == 0) = true := by decide +kernel

/-- The group halted, with words in its buffer, before its instruction or after `brk`. -/
def haltedAt (n : Nat) (skip : Bool) (s : State) : State :=
  s.modGroup gid0 fun g => { g with halt := some ⟨List.replicate n 0, none, skip⟩ }

/-- Debugging: a request at a safe point and off it; a halted group with an empty buffer and a full one, at a `brk` and not; a count
that goes on and one that ends; a sample. -/
theorem witness_debugging :
    ([0x1_0000, 0x1_000C] : List Nat).all (fun a =>
      let s := (here.modGrid 0 fun g => { g with kernel := { g.kernel with safepts := [⟨a, 0⟩] } }).modCtx 0 fun c => { c with debugger := some true }
      match s.group gid0 with
      | some g => !g.ended && s.debugged g.id.ctx && g.halt.isNone && g.wait.isNone && g.pending.isNone && g.place == .slot &&
        !s.sfuHolds gid0 g.id.core && s.atSafePoint g == (a == 0x1_0000)
      | none => false) = true ∧
    (match here.group gid0 with
      | some g => !here.debugged g.id.ctx && (here.modCtx 0 fun c => { c with debugger := some true }).debugged g.id.ctx
      | none => false) = true ∧
    ([(0, false), (0, true), (16, false)] : List (Nat × Bool)).all (fun x =>
      let s := (haltedAt x.1 x.2 here).modGrid 0 fun g => { g with kernel := { g.kernel with safepts := [⟨0x1_0000, 3⟩] } }
      match s.group gid0, s.grid 0 with
      | some g, some gr => g.halt.isSome && g.pc == some 0x1_0000 && g.fibres.all (fun f => !f.held) &&
        g.place == .slot && s.bufferUsed g.id.core == (x.1 != 0) && gr.kernel.safepts == [⟨0x1_0000, 3⟩]
      | _, _ => false) = true ∧
    ([1, 2] : List Nat).all (fun left =>
      let s := (here.modCtx 0 fun c => { c with profile := some 256 }).modCore 118 fun k => { k with tagIn := [(0, left)] }
      match s.group gid0 with
      | some g => g.pc == some 0x1_0000 && (s.ctx g.id.ctx).bind (·.profile) == some 256 && (s.grid g.id.grid).isSome &&
        smFind (s.core g.id.core).tagIn g.id.ctx == some left
      | none => false) = true ∧
    (let x : Tagged := ⟨0, 1, 0x1_000C, 16, some ⟨0x1_0000, 3⟩⟩
     let s := here.modCore 118 fun k => { k with tagged := [x, x] }
     (s.core 118).tagged = x :: [x] ∧ (s.ctx x.ctx).isSome = true) ∧
    ((List.replicate 16 (0 : IWord96)).length ≤ 16 ∧ 16 < (List.replicate 17 (0 : IWord96)).length) ∧ (256 ≤ 256 ∧ 2 ^ 20 ≤ 2 ^ 20) ∧
    (let x : Watchpoint := ⟨0x1_0000, 4, .global, false, true⟩
     2 ∈ List.range 22 ∧ x.size = 2 ^ 2 ∧ x.base % x.size = 0 ∧ (x.read ∨ x.write)) := by decide +kernel

/-- ErrorsAndJournal: an event that opens an entry; one that is lost; one that joins the open entry and one that comes one cycle too late,
which is also when the entry is written by itself; uncorrectable errors in memory and with a
victim, and an event that the tables do not give; a doomed context. -/
theorem witness_journal :
    (let j := here.dev.journal
     settledIs here && j.opened.isNone && j.next < 1048576) = true ∧
    (let s : State := { here with dev := { here.dev with journal := { here.dev.journal with next := 1048576 } } }
     settledIs s && s.dev.journal.opened.isNone && 1048576 ≤ s.dev.journal.next) = true ∧
    ([5 + 2 ^ 20 - 1, 5 + 2 ^ 20] : List Nat).all (fun clk =>
      let e : OpenEntry := ⟨5, 16, 2, 3, 65533, 128⟩
      let s : State := { here with dev := { here.dev with clk := clk, journal := { here.dev.journal with opened := some e } } }
      let r : ErrorReq := ⟨16, 2, 3, 128, none⟩
      settledIs s && errorOk r && r.synd != 15 && e.unit == r.unit && e.kind == r.kind && e.synd == r.synd && e.loc == r.loc &&
      decide (s.dev.clk < e.time + 2 ^ 20) == (clk == 5 + 2 ^ 20 - 1) && e.count + 1 < 65535 && s.dev.journal.next + 1 < 1048576) = true ∧
    ([(⟨8, 1, 15, 32, none⟩, true), (⟨16, 2, 15, 128, none⟩, true), (⟨24, 3, 15, 128, some 0⟩, true), (⟨16, 2, 5, 128, none⟩, false)] :
      List (ErrorReq × Bool)).all (fun x => errorOk x.1 == x.2) = true ∧
    (let s : State := { here with dev := { here.dev with doomed := [0] } }
     s.dev.doomed = 0 :: [] ∧ s.dev.journal.next < 2 ^ 21 ∧ s.dev.journal.lost < 2 ^ 32) := by decide +kernel

/-- DeviceManagement: the provisioning state is open to a write, and is not; an access table that is taken, and one refused for the journal;
format windows that overlap and that do not; a line that is sampled, and one that comes back. -/
theorem witness_provisioning :
    (let s : State := { here with dev := { here.dev with inReset := true, strap := true } }
     s.dev.inReset && s.dev.strap && !here.dev.inReset) = true := by decide +kernel

/-- DeviceManagement: the access tables. -/
theorem witness_tables :
    ([(false, 0x1_0000), (true, 0x1_0000), (false, journalBase)] : List (Bool × Nat)).all (fun x =>
      let w : Window := ⟨x.2, x.2 + 4096, true, true⟩
      let s : State := { here with dev := { here.dev with prov := { here.dev.prov with windows := [(5, [⟨0, 0x2_0000, true, true⟩])] } } }
      (s.imageWindows 5 .slice).isEmpty && w.lo % 4096 == 0 && w.lo < w.hi && (w.lo < journalBase + 2 ^ 26 && journalBase < w.hi) == (x.2 != 0x1_0000) &&
      s.dev.prov.windows.find? (fun p => p.1 == 5) == some (5, [⟨0, 0x2_0000, true, true⟩])) = true := by decide +kernel

/-- DeviceManagement: the format windows. -/
theorem witness_windows :
    ([0x20_0000, 0x40_0000] : List DWord).all (fun a =>
      let w := FmtWindow.ofWords [a, 0x20_0000, 0x80_0000, 0x8000_0000, 1]
      let s : State := { here with dev := { here.dev with fmt := [(3, [0x20_0000, 0x20_0000, 0x60_0000, 0x4000_0000, 1])] } }
      w.nsize == 0x20_0000 && w.fmt == 1 && s.fmtWindows.length == 1 &&
      s.fmtWindows.any (fun x => w.nbase < x.nbase + x.nsize && x.nbase < w.nbase + w.nsize) == (a == 0x20_0000) &&
      s.fmtWindows.all fun x => x.fmt == 1 && !(w.xbase < x.xbase + x.aliasBytes && x.xbase < w.xbase + w.aliasBytes)) = true := by decide +kernel

/-- DeviceManagement: the tags. -/
theorem witness_tags :
    (let s := here.modCore 118 fun k => { k with reuse := (List.range 31).map fun i => ⟨i, [40]⟩ }
     (s.core 118).reuse.length < 32 && (s.core 118).reuse.all (fun x => x.line != 40) && !(s.core 118).reuse.all (fun x => x.line != 30) &&
     ((s.core 118).reuse.find? (·.line == 30)).isSome && (match s.group gid0 with
       | some g => g.id.core == 118 && (s.grid g.id.grid).isSome && s.dev.histograms.all fun h => h.buckets.length == 16
       | none => false)) = true := by decide +kernel

/-- A linked kernel object of 512 bytes with one kernel, which is one `nop`: its 64-bit words that are not zero (R60 to R62). -/
def objectFile : List Byte :=
  let l : List (Nat × Nat) := [(0, 0x11A4F4B42), (1, 0x1_0030_0003), (2, 0x40), (4, 512), (5, 1), (6, 1215260188), (14, 2 ^ 32), (15, 0x100), (16, 12),
    (18, 64), (20, 5 * 2 ^ 32), (21, 0x180), (22, 128), (23, 128), (24, 128 + 2 ^ 39), (33, 2 ^ 31), (48, 0x110_0001_0000_0000 ||| 2 ^ 32),
    (49, 0x1_0010_0100), (50, 0x10_0010_0001_0000), (54, 0xFFFF_FFFF_0000_0000), (55, 1)]
  (List.range 64).flatMap fun i => leOf 8 (smGet 0 l i)

/-- The object's bytes as its checksum takes them: with zeros in the place of the checksum (R59). -/
def summed : List Byte := objectFile.take 0x30 ++ [0, 0, 0, 0] ++ objectFile.drop 0x34

/-- The CRC's register after each 32 bytes of the object, computed outside this model. -/
def crcParts : List Word :=
  [0xFFFFFFFF, 0x880EA14E, 0xA6054543, 0xE11A1E18, 0x62E1C61D, 0x6721B71A, 0x481CE3BE, 0x33B627D2, 0x49DC31C0,
   0x6139BE46, 0xCCF33AB7, 0x68014F72, 0x836E5C1, 0x14343CBA, 0x4A329773, 0xB4FFADA8, 0xB79099E3]

/-- The CRC's register after some bytes. -/
def crcOn (c : Word) (l : List Byte) : Word := l.foldl (fun c b => (List.range 8).foldl (fun c _ => crcBit c) (c ^^^ b.setWidth 32)) c

theorem crcOn_take (c : Word) (l : List Byte) (n : Nat) : crcOn c l = crcOn (crcOn c (l.take n)) (l.drop n) := by
  simp only [crcOn, ← List.foldl_append, List.take_append_drop]

theorem crc_parts : ∀ i < 16, crcOn (crcParts.getD i 0) ((summed.drop (32 * i)).take 32) = crcParts.getD (i + 1) 0 := by decide +kernel

theorem crc_upto (i : Nat) : i ≤ 16 → crcOn 0xFFFF_FFFF summed = crcOn (crcParts.getD i 0) (summed.drop (32 * i)) := by
  induction i with
  | zero => exact fun _ => rfl
  | succ i ih =>
    intro h
    rw [ih (by omega), crcOn_take _ _ 32, crc_parts i (by omega), List.drop_drop, Nat.mul_succ]

/-- The object passes every check of the loader. -/
theorem object_passes : (Bko.ofFile objectFile).check = 0 := by
  have h : crc32 summed = 0x486F661C := by
    show ~~~(crcOn 0xFFFF_FFFF summed) = _
    rw [crc_upto 16 (by omega)]
    decide +kernel
  have h' : (Bko.ofFile objectFile).badSum = false := by
    unfold Bko.badSum
    rw [show (Bko.ofFile objectFile).file.take 0x30 ++ [0, 0, 0, 0] ++ (Bko.ofFile objectFile).file.drop 0x34 = summed from rfl, h]
    decide +kernel
  unfold Bko.check
  rw [h']
  decide +kernel

/-- A request that places the object at 0. -/
def placing : ImageReq := ⟨0, 0, 0x20_0000, 0x30_0000, objectFile⟩

theorem settleLine_of_settled {s : State} (l : Nat) (h : settledIs s = true) : s.settleLine l = s := by
  obtain ⟨m, o, _⟩ := s
  cases o
  simp only [settledIs, Bool.and_eq_true, List.isEmpty_iff] at h
  obtain ⟨rfl, rfl⟩ := h
  rfl

/-- Zeros written where nothing is listed and nothing waits change nothing. -/
theorem zeros_change_nothing {s : State} (a n : Nat) (h : settledIs s = true) (hm : ∀ p ∈ s.mem, p.1 < a) (hp : s.dev.poison = [])
    (hg : ∀ p ∈ s.groups, p.2.wait = none) (ha : isAlias a = false) : s.performWrite a (List.replicate n 0) = s := by
  have hput : ∀ n a, (∀ p ∈ s.mem, p.1 < a) → memPuts s.mem a (List.replicate n 0) = s.mem := by
    intro n
    induction n with
    | zero => exact fun _ _ => rfl
    | succ n ih =>
      intro a ha
      have : memPut s.mem a 0 = s.mem := by
        simp only [memPut, smPut, memDefault, if_true, smErase, List.filter_eq_self, bne_iff_ne]
        exact fun p hp => Nat.ne_of_lt (ha p hp)
      rw [List.replicate_succ, memPuts, this]
      exact ih (a + 1) fun p hp => Nat.lt_succ_of_lt (ha p hp)
  have hset : ∀ l : List Nat, l.foldl (fun s l => State.settleLine s l) s = s := by
    intro l
    induction l with
    | nil => rfl
    | cons x l ih => rw [List.foldl_cons, settleLine_of_settled x h, ih]
  have hc : ∀ n, s.cleared a n = s.dev := fun n => by
    have : ∀ d : Device, d.poison = [] → { d with poison := d.poison.filter fun w => !(decide (a ≤ 32 * w) && decide (32 * w + 32 ≤ a + n)) } = d :=
      fun d hd => by cases d; cases hd; rfl
    exact this s.dev hp
  simp only [State.performWrite, State.settle, ha, hset, State.writeM, hput n a hm, hc, State.hitMonitors]
  rw [if_neg]
  simp only [List.any_eq_true, not_exists, not_and]
  exact fun p hp => by rw [hg p hp]; simp

/-- Images: the runtime's windows reach the image, and do not. -/
theorem witness_placing : ([false, true] : List Bool).all (fun may =>
      let s : State := if may then ruled here else here
      let x := Bko.ofFile objectFile
      let r := placing
      match s.ctx 0 with
      | some c => ((s.placeImage r c x).dev.refusals.length == s.dev.refusals.length) == may
      | none => false) = true := by
  have hz : (ruled here).performWrite 0x20_0000 (List.replicate 4096 0) = ruled here :=
    zeros_change_nothing _ _ (by decide +kernel) (by decide +kernel) (by decide +kernel) (by decide +kernel) (by decide +kernel)
  have hp : (Bko.ofFile objectFile).pages = [(0, true, false)] := by decide +kernel
  have hw : (ruled here).runtimeWrite 0x20_0000 (List.replicate 4096 0) = ruled here := by
    rw [State.runtimeWrite, List.length_replicate, if_pos (by decide +kernel), hz]
  simp only [List.all_cons, List.all_nil, Bool.and_true, Bool.and_eq_true, if_true]
  refine ⟨by decide +kernel, ?_⟩
  simp only [State.placeImage, hp, List.foldl_cons, List.foldl_nil, Nat.mul_zero, Nat.add_zero, placing, hw]
  decide +kernel

/-- Images: an object that passes every check, and one that does not begin with the magic number; an image with a grid, and one without; a place that is free. -/
theorem witness_images :
    (Bko.ofFile objectFile).check = 0 ∧ (Bko.ofFile []).check ≠ 0 ∧
    (let x := Bko.ofFile objectFile
     let r := placing
     (match here.ctx 0 with
      | some c => r.base % 2 ^ 21 == 0 && r.frames % 4096 == 0 && r.pool % 4096 == 0 && !here.placeTaken r c x
      | none => false) = true ∧
     (x.windows r.frames).all (fun w => !w.write) = true ∧
     targetKinds.all (fun t =>
       decide ((smGet [] here.dev.access (tableKey r.ctx t)).length + (x.windows r.frames).length ≤ 64)) = true) ∧
    ([here, idle] : List State).all (fun s0 =>
      let s := s0.modCtx 0 fun c => { c with images := [⟨7, 0, 16, 0, here.grids.map (fun g => g.2.kernel), [], targetKinds.map targetCode, false⟩] }
      match s.ctx 0 with
      | some c => (match c.images.find? fun x => x.id == 7 with
        | some i => s.grids.any (fun p => p.2.ctx == 0 && i.kernels.any fun k => k.addr == p.2.kernel.addr) == !s0.grids.isEmpty
        | none => false)
      | none => false) = true := ⟨object_passes, by decide +kernel⟩

/-- EncodingRoundTrip: a well-formed instruction of each format 0 to 6, each with its word. -/
theorem witness_roundTrip :
    ([.r .add (wordOf .add (.v 4) (.v 8) (.v 12) .i32), .x .mzero (xw (.a 4) .zero .zero 3), .m .ld (mw (.v 4) (.v 8) .zero .w32)] : List View).all
      (fun v => v.wf && v.instr.view == some v && encode v.instr == some v.encode) = true ∧
    encode (.nop (xw .zero .zero .zero 0)) ≠ none := by decide +kernel

/-- StepRunsTheInstruction: a group that was picked and whose word is a `nop`, one whose word is not assigned, and one whose PC is off the
text; a halted group with a word in its buffer; an event of the agenda with no group picked. -/
theorem witness_step :
    ([word 4 0 0 0 0 0 0 0, word 7 0 0 0 0 0 0 0] : List Nat).all (fun w =>
      let s := State.reset.withFetchWord 96 w
      s.sched.picks == [gid0] && match s.group gid0 with
      | some g => g.halt.isNone && g.pc == some 0x1_0000 && g.id.isStart 0x1_0000 && canonical 0x1_0000 &&
        let s0 : State := { s with sched := { s.sched with picks := [], cur := some gid0 } }
        (match s0.access g.id.ctx 0x1_0000 1 .fetch true with
        | .ok s1 _ => (match s1.grid g.id.grid with
          | some gr =>
            let bytes := (gr.text.drop (0x1_0000 - g.id.textLo)).take 12
            bytes.length == 12 && (match (decodeBytes bytes).1 with
            | .ok i => (w == word 4 0 0 0 0 0 0 0) && (match exec i s1 with | .next _ => true | _ => false)
            | .illop => w != word 4 0 0 0 0 0 0 0
            | _ => false)
          | none => false)
        | _ => false)
      | none => false) = true ∧
    ([0x1_0004, 0x1_000C] : List DWord).all (fun a =>
      let s := (State.reset.withFetchWord 96 0).modGroup gid0 fun g => { g with fibres := g.fibres.map fun f => { f with pc := a } }
      match s.group gid0 with | some g => g.pc == some a && g.halt.isNone && !g.id.isStart a.toNat | none => false) = true ∧
    (let x := BitVec.ofNat 96 (word 0 0x01 4 8 12 0 0 0)
     let s := (State.reset.withFetchWord 96 0).modGroup gid0 fun g => { g with halt := some ⟨[x], none, false⟩ }
     match s.group gid0, decodeWord x with
     | some g, .ok i => g.pc.isSome && (match i.view with | some (.c _ _) => false | some (.y _ _) => false | some _ => true | none => false) &&
       (match exec i { s with sched := { s.sched with picks := [], cur := some gid0 } } with | .next _ => true | _ => false)
     | _, _ => false) = true ∧
    (State.reset.sched.picks = [] ∧ (Instr.clockLower).view.isNone = true) := by decide +kernel

/-- SharedChecks: a register beyond the budget, a port that the role may not use, an engine that the team does not own, a guard that
cannot be read, a source that is empty, a destination in flight, and no active lane. -/
theorem witness_checks :
    (let f := (View.r .add (wordOf .add (.v 255) (.v 8) (.v 12) .i32)).front here
     match (hereWith fun g => { g with id := { g.id with vBud := 16 } }).group gid0 with
     | some g => here.sched.cur == some gid0 && g.wait.isNone && f.named.any (fun p => !g.within p.1 p.2)
     | none => false) = true ∧
    (let s := hereWith fun g => { g with id := { g.id with role := .copy } }
     let f := (View.x .macq (xw .zero .zero .zero 0)).front s
     match s.group gid0 with
     | some g => f.named.all (fun p => g.within p.1 p.2) && !f.illop g && f.ports.any (fun p => !g.id.role.may p)
     | none => false) = true ∧
    (let f := (View.x .mzero (xw (.a 4) .zero .zero 3)).front here
     match here.group gid0 with
     | some g => f.named.all (fun p => g.within p.1 p.2) && !f.illop g && f.ports.all (fun p => g.id.role.may p) && f.mx && !here.ownsEngine gid0 g f.mxSole
     | none => false) = true ∧
    (let w := { wordOf .add (.v 4) (.v 8) (.v 12) .i32 with guard := byV10 }
     let f := (View.r .add w).front here
     ([true, false] : List Bool).all fun orphan =>
       let s := if orphan then hereWith fun g => g.setEmpty ((List.range 16).map fun l => g.key (.v 10) l 0) else here
       match s.group gid0 with
       | some g => f.named.all (fun p => g.within p.1 p.2) && !f.illop g && f.ports.all (fun p => g.id.role.may p) && !f.mx &&
         (match s.guardCheck gid0 g 0x1_0000 f.guard (g.batch 0x1_0000) with
         | some (.trap _ _) => orphan
         | none => !orphan && g.active f.guard (g.batch 0x1_0000) == [] && (s.readySrcs gid0 g 0x1_0000 [] f.srcs).isNone &&
           !s.dstBusy gid0 g f && (s.bodyOf gid0 g).isNone && g.halt.isNone && g.fibres.all fun x => !x.held
         | _ => false)
       | none => false) = true ∧
    (let f := (View.r .add (wordOf .add (.v 4) (.v 8) (.v 12) .i32)).front here
     let s1 := hereWith fun g => g.setEmpty [g.key (.v 8) 0 0]
     let s2 : State := { here with work := { here.work with producers := [⟨7, gid0, [(regKey 0 0 4, none)]⟩] } }
     match s1.group gid0, s2.group gid0 with
     | some g1, some g2 =>
       (s1.guardCheck gid0 g1 0x1_0000 f.guard (g1.batch 0x1_0000)).isNone && (match s1.readySrcs gid0 g1 0x1_0000 (List.range 16) f.srcs with
       | some (.trap _ _) => true
       | _ => false) && (s2.readySrcs gid0 g2 0x1_0000 (List.range 16) f.srcs).isNone && s2.dstBusy gid0 g2 f
     | _, _ => false) = true := by decide +kernel

/-- Readiness: a full source; an empty one with the trap-empty hint; one with no producer; one that waits for its producer. -/
theorem witness_readiness :
    ([(false, false, false), (true, true, false), (true, false, false), (true, false, true)] : List (Bool × Bool × Bool)).all (fun y =>
      let k := regKey 0 0 8
      let s0 := if y.1 then hereWith fun g => g.setEmpty [k] else here
      let s : State := { s0 with work := { s0.work with producers := if y.2.2 then [⟨7, gid0, [(k, none)]⟩] else [] } }
      let x : Src := ⟨.v 8, 1, y.2.1, false⟩
      match s.group gid0 with
      | some g => x.x.hasBit && (regLanes x.x [0, 1]).filter (fun l => !g.isFull (g.key x.x l 0)) == (if y.1 then [0] else []) &&
        s.inFlight gid0 g.id.core (g.key x.x 0 0) == y.2.2
      | none => false) = true := by decide +kernel

/-- MemoryStaysCanonical and IdentitiesStay: the machine after reset, with a group placed. -/
theorem witness_invariants : Memory.wf here.mem ∧ (step (State.reset.withFetchWord 96 (word 4 0 0 0 0 0 0 0)) matches .next _) ∧
    (here.groups.map (·.1)).Pairwise (· < ·) ∧ ∀ p ∈ here.groups, p.1 < here.sched.nextId := by decide +kernel

/-! ### Single steps -/

/-- The machine after the step that runs an instruction, which the group executes with lanes 0 and up and some registers changed. -/
def ran (i : Instr) (f : Group → Group) (env : State → State := id) : Option State :=
  match encode i with
  | none => none
  | some x => match step (env ((State.reset.withFetchWord 96 x.toNat).modGroup gid0 f)) with
    | .next t => some t
    | _ => none

/-- A register of lane 0 of v or o, or of s, after it. -/
def regAfter (x : Operand) (j : Nat) : Option State → Option Nat
  | none => none
  | some t => (t.group gid0).map fun g => (g.reg (g.key x 0 j)).toNat

/-- Registers given values in lane 0. -/
def setRegs (l : List (Operand × Nat)) (g : Group) : Group := l.foldl (fun g p => g.put (g.key p.1 0 0) (BitVec.ofNat 32 p.2)) g

/-- A format-0 word with the destination v5 and the sources v6, v7 and v9. -/
def alu (op : ROp) (ty : Ty) (opx : BitVec 11 := 0) (sat : Bool := false) : RWord :=
  { wordOf op (.v 5) (.v 6) (.v 7) ty with opx := opx, sat := sat }

/-- R165: sums wrap modulo 2^n, and hold the type's bounds with SAT. -/
theorem test_add : regAfter (.v 5) 0 (ran (.add (alu .add .i32)) (setRegs [(.v 6, 0x7FFF_FFFF), (.v 7, 2)])) = some 0x8000_0001 ∧
    regAfter (.v 5) 0 (ran (.add (alu .add .i32 0 true)) (setRegs [(.v 6, 0x7FFF_FFFF), (.v 7, 2)])) = some 0x7FFF_FFFF ∧
    regAfter (.v 5) 0 (ran (.sub (alu .sub .n8)) (setRegs [(.v 6, 1), (.v 7, 2)])) = some 0xFF := by decide +kernel

/-- R168: an arithmetic shift keeps the sign. -/
theorem test_sar : regAfter (.v 5) 0 (ran (.sar (alu .sar .i32)) (setRegs [(.v 6, 0x8000_0000), (.v 7, 31)])) = some 0xFFFF_FFFF ∧
    regAfter (.v 5) 0 (ran (.shr (alu .shr .n32)) (setRegs [(.v 6, 0x8000_0000), (.v 7, 31)])) = some 1 := by decide +kernel

/-- R176 and chapter 5 Table 7: f32 into e4m3, e5m2, bf16, f16 and l6 in rne. -/
theorem test_fcvt :
    (([(0x3FD9_999A, [0x3FDA, 0x3ECD, 0x3E, 0x3F, 0x03]), (0x43FA_0000, [0x43FA, 0x5FD0, 0x7E, 0x60, 0x0F]),
      (0x4780_0000, [0x4780, 0x7C00, 0x7E, 0x7C, 0x0F]), (0x3A80_0000, [0x3A80, 0x1400, 0x00, 0x14, 0x10]),
      (0xBE80_0000, [0xBE80, 0xB400, 0xA8, 0xB4, 0x38]), (0x7FC0_0000, [0x7FC0, 0x7E00, 0x7F, 0x7E, 0x30])] : List (Nat × List Nat)).all fun p =>
      ([Ty.bf16, .f16, .e4m3, .e5m2, .l6].map fun t =>
        regAfter (.v 5) 0 (ran (.fcvt (alu .fcvt .f32 (BitVec.ofNat 11 t.code))) (setRegs [(.v 6, p.1)]))) == p.2.map some) = true := by
  decide +kernel

/-- Chapter 5 Table 7: 65,536.0 into e5m2 with SAT stays finite. -/
theorem test_fcvt_sat : regAfter (.v 5) 0 (ran (.fcvt (alu .fcvt .f32 (BitVec.ofNat 11 (Ty.code .e5m2)) true)) (setRegs [(.v 6, 0x4780_0000)])) =
    some 0x7B := by decide +kernel

/-- R173: 1.5 × 2.0 + 0.25 is 3.25, and the fused result is rounded once. -/
theorem test_fma : regAfter (.v 5) 0 (ran (.fma (alu .fma .f32)) (setRegs [(.v 6, 0x3FC0_0000), (.v 7, 0x4000_0000), (.v 9, 0x3E80_0000)])) =
    some 0x4050_0000 := by decide +kernel

/-- Pages beside the text's, and lane 0 alone. -/
def alone (s : State) : State := (morePages s).modGroup gid0 fun g => { g with fibres := g.fibres.filter (·.lane == 0) }

/-- Bytes of memory after it. -/
def bytesAfter (a n : Nat) : Option State → List Byte
  | none => []
  | some t => t.readBytes a n

/-- R228: a store of two bytes changes those two bytes, lowest first, and no other. -/
theorem test_store : bytesAfter 0x1_1000 6 (ran (.st (mw (.v 8) (.v 4) .zero .w16)) (fun g => pairV 4 0x1_1002 (setRegs [(.v 8, 0xAABB_CCDD)] g)) alone) =
    [0, 0, 0xDD, 0xCC, 0, 0] := by decide +kernel

/-- R271: an atomic add leaves the sum in memory. -/
theorem test_atom : bytesAfter 0x1_1000 4 (ran (.atom { mw (.v 8) (.v 4) (.v 6) .w32 with off := 0 })
    (fun g => pairV 4 0x1_1000 (setRegs [(.v 6, 5)] g)) fun s => alone (poke [(0x1_1000, 0xFFFF_FFFE)] s)) = [3, 0, 0, 0] := by decide +kernel

/-- What the group is after it. -/
def groupAfter (p : Group → Bool) : Option State → Bool
  | none => false
  | some t => groupIs t p

/-- A kernel of ten instructions whose trap handler is its first. -/
def roomy (s : State) : State := s.modGroup gid0 fun g => { g with id := { g.id with textLen := 120, trapAt := some 0x1_0000 } }

/-- R154: `call` leaves the address of the next instruction in D and goes to the target. -/
theorem test_call : groupAfter (fun g => g.pc == some (0x1_0000 + 12 * 5) && g.bits (.s 4) 2 0 == 0x1_000C)
    (ran (.call ⟨.s 4, .v 0, .v 0, .off, .none, 5⟩) id roomy) = true := by decide +kernel

/-- R352, R354 and R360: `trap` with the code 7 enters the handler with CAUSE 0x20, RESUME, INFO 7, and its own address in TRAPPC. -/
theorem test_trap : groupAfter (fun g => g.trap.cause == 0x0007_0120 && g.trap.pc == 0x1_0000 && g.trap.lanes == 0xFFFF && g.handler.isSome &&
      g.pc == some 0x1_0000) (ran (.trap (xw .zero .zero .zero 7)) id roomy) = true := by decide +kernel

/-- R168: bits reversed, leading zeros and ones counted. -/
theorem test_bits : regAfter (.v 5) 0 (ran (.brev (alu .brev .n32)) (setRegs [(.v 6, 1)])) = some 0x8000_0000 ∧
    regAfter (.v 5) 0 (ran (.clz (alu .clz .n32)) (setRegs [(.v 6, 0x0001_0000)])) = some 15 ∧
    regAfter (.v 5) 0 (ran (.popc (alu .popc .n32)) (setRegs [(.v 6, 0xF0F0_0001)])) = some 9 := by decide +kernel

/-- R157: `fend` ends every fibre, and the group with them. -/
theorem test_fend : (match ran (.fend ⟨.v 0, .v 0, .v 0, .off, .none, 0⟩) id with
    | some t => (t.group gid0).isNone || groupIs t (·.ended)
    | none => false) = true := by decide +kernel

/-- R216 and R360: an access to a page that is not mapped, in one lane, raises the trap XLMISS with the address in TRAPADDR. -/
theorem test_fault : groupAfter (fun g => g.trap.addr == 0x5000_0000 && g.trap.lanes == 1 && g.handler.isSome)
    (ran (.ld (mw (.v 8) (.v 4) .zero .w32)) (pairV 4 0x5000_0000) fun s => roomy (alone s)) = true := by decide +kernel

/-- FIPS 180-4: the message abc. -/
theorem test_sha256 : (sha256 [0x61, 0x62, 0x63]).take 8 = [0xBA, 0x78, 0x16, 0xBF, 0x8F, 0x01, 0xCF, 0xEA] := by decide +kernel

/-- R178: the logistic function of 1000 rounds to 1. -/
theorem test_sig : (sfuBits 8 .f32 0x447A_0000 .rne false 0).1 = 0x3F80_0000 := by decide +kernel

end Sys2Proof.Tests
end

section
/-! PROOFS of the scope statements, part 1: memory. A canonical map is the set of its entries that read other than the default. -/

namespace Sys2Proof.Machine

/-- A listed value is what its key finds, since no two entries of a canonical map have one key. -/
theorem mem_iff_smFind {α : Type} {m : SMap α} (h : m.Pairwise fun a b => a.1 < b.1) (c : Nat × α) :
    c ∈ m ↔ smFind m c.1 = some c.2 := by
  induction m with
  | nil => simp
  | cons b m ih =>
    obtain ⟨hb, hm⟩ := List.pairwise_cons.1 h
    rw [List.mem_cons, smFind, ih hm]
    split
    · next e =>
      have : smFind m c.1 ≠ some c.2 := fun hc => Nat.lt_irrefl _ (e ▸ hb c ((ih hm).2 hc))
      simp [Prod.ext_iff, e, this, eq_comm]
    · next e =>
      have : c ≠ b := fun hc => e (by rw [hc])
      simp [this]

/-- In a canonical map the listed entries are those whose keys read other than the default. -/
theorem mem_iff_smGet {α : Type} {d : α} {m : SMap α} (h : smWf d m) (c : Nat × α) :
    c ∈ m ↔ smGet d m c.1 = c.2 ∧ c.2 ≠ d := by
  obtain ⟨hm, hd⟩ := h
  rw [mem_iff_smFind hm, smGet]
  constructor
  · intro hc
    exact ⟨by simp [hc], hd c ((mem_iff_smFind hm c).2 hc)⟩
  · rintro ⟨hc, hne⟩
    cases e : smFind m c.1 with
    | none => simp [e] at hc; exact absurd hc.symm hne
    | some x => simpa [e] using hc

/-- The canonical form is unique: maps that read alike are equal. -/
theorem smWf_ext {α : Type} {d : α} {m k : SMap α} (hm : smWf d m) (hk : smWf d k) (h : ∀ a, smGet d m a = smGet d k a) : m = k := by
  have nodup : ∀ {l : SMap α}, l.Pairwise (fun a b => a.1 < b.1) → l.Nodup := fun hl =>
    List.nodup_iff_pairwise_ne.2 (hl.imp fun {a b} (hlt : a.1 < b.1) => mt (congrArg Prod.fst) (Nat.ne_of_lt hlt))
  have mem : ∀ c, c ∈ m ↔ c ∈ k := fun c => by rw [mem_iff_smGet hm, mem_iff_smGet hk, h]
  exact ((List.perm_ext_iff_of_nodup (nodup hm.1) (nodup hk.1)).2 mem).eq_of_pairwise
    (fun _ _ _ _ hab hba => absurd hba (Nat.lt_asymm hab)) hm.1 hk.1

/-- A byte after a write of several: the one written there, or the one that stood there (R253). -/
theorem memByte_memPuts_getD (m : List Host.Cell) (a : Nat) (l : List Byte) (b : Nat) :
    memByte (memPuts m a l) b = if a ≤ b then l.getD (b - a) (memByte m b) else memByte m b := by
  by_cases hin : a ≤ b ∧ b < a + l.length
  · obtain ⟨i, rfl⟩ := Nat.exists_eq_add_of_le hin.1
    have hi : i < l.length := by omega
    simp [memByte_memPuts m a l hi, hi]
  · rw [memByte_memPuts_of_outside m l (by omega)]
    split
    · rw [List.getD_eq_getElem?_getD, List.getElem?_eq_none (by omega), Option.getD_none]
    · rfl

/-- The value of bytes gives the bytes back (R4). -/
@[simp] theorem leOf_leVal (l : List Byte) : leOf l.length (leVal l) = l := by
  induction l with
  | nil => rfl
  | cons b l ih =>
    have hhead : BitVec.ofNat 8 (b.toNat + 256 * leVal l) = b := by
      apply BitVec.eq_of_toNat_eq
      rw [BitVec.toNat_ofNat, Nat.add_mul_mod_self_left, Nat.mod_eq_of_lt b.isLt]
    have htail : (b.toNat + 256 * leVal l) / 256 = leVal l := by have := b.isLt; omega
    rw [List.length_cons, leVal, leOf, hhead, htail, ih]

end Sys2Proof.Machine

namespace Sys2Proof
open Machine

/-- Settles O28: each byte by the write that reached it, equality of canonical memories by their listed entries, and the two
conversions of bytes by induction on the bytes. -/
theorem memoryReadAfterWrite : Obligations.MemoryReadAfterWrite :=
  ⟨memByte_memPuts_getD, fun _ => memPuts_wf, fun _ _ => smWf_ext, leVal_leOf, leOf_leVal⟩

end Sys2Proof
end

section
/-! PROOFS of the scope statements, part 2: the frame of memory. What performs in M, and every walk of the page tables, changes
memory, its order, the device, the free counter and the values that monitors keep; of the rest, what is proved to stay stands in
`MemoryFrame`. -/

namespace Sys2Proof.Machine

/-- The groups without what they wait for. -/
def State.groupsBare (s : State) : SMap Group := s.groups.map fun p => (p.1, { p.2 with wait := none })

/-- A state that another differs from in no more than a performance in M may change (R216, R253, R279). -/
structure MemoryFrame (s t : State) : Prop where
  groups : t.groupsBare = s.groupsBare
  cur : t.sched.cur = s.sched.cur
  grids : t.grids = s.grids
  teams : t.teams = s.teams
  cores : t.cores = s.cores
  ctxs : t.ctxs = s.ctxs
  work : t.work = s.work

/-- Changes of memory, of its order, of the device and of the free counter alone. -/
theorem MemoryFrame.of_eq {s t : State} {n : Nat}
    (h : t = { s with mem := t.mem, order := t.order, dev := t.dev, sched := { s.sched with fresh := n } }) : MemoryFrame s t := by
  rw [h]; exact ⟨rfl, rfl, rfl, rfl, rfl, rfl, rfl⟩

theorem MemoryFrame.refl (s : State) : MemoryFrame s s := ⟨rfl, rfl, rfl, rfl, rfl, rfl, rfl⟩

theorem MemoryFrame.trans {s t u : State} (h : MemoryFrame s t) (k : MemoryFrame t u) : MemoryFrame s u :=
  ⟨k.groups.trans h.groups, k.cur.trans h.cur, k.grids.trans h.grids, k.teams.trans h.teams, k.cores.trans h.cores,
    k.ctxs.trans h.ctxs, k.work.trans h.work⟩

/-- A fold of operations with this frame has it. -/
theorem MemoryFrame.foldl {β : Type} {f : State → β → State} (hf : ∀ s b, MemoryFrame s (f s b)) (l : List β) (s : State) :
    MemoryFrame s (l.foldl f s) := by
  induction l generalizing s with
  | nil => exact .refl s
  | cons b l ih => exact (hf s b).trans (ih _)

theorem State.group_groupsBare (s : State) (k : Nat) :
    smFind s.groupsBare k = (s.group k).map fun g => { g with wait := none } := by
  unfold State.groupsBare State.group
  induction s.groups with
  | nil => rfl
  | cons p l ih => simp only [List.map_cons, smFind, ih]; split <;> rfl

/-- The same groups stand. -/
theorem MemoryFrame.isSome_group {s t : State} (h : MemoryFrame s t) (k : Nat) : (t.group k).isSome = (s.group k).isSome := by
  have := congrArg (fun m => (smFind m k).isSome) h.groups
  simpa [State.group_groupsBare] using this

/-! ### Performances in M -/

theorem State.hitMonitors_frame (s : State) (pa n : Nat) : MemoryFrame s (s.hitMonitors pa n) := by
  unfold State.hitMonitors
  dsimp only
  split
  · refine ⟨?_, rfl, rfl, rfl, rfl, rfl, rfl⟩
    simp only [State.groupsBare, List.map_map]
    refine List.map_congr_left fun p _ => ?_
    simp only [Function.comp_apply, Prod.mk.injEq, true_and]
    split
    · split <;> (try split) <;> rfl
    · rfl
  · exact .refl s

theorem State.writeM_frame (s : State) (pa : Nat) (l : List Byte) : MemoryFrame s (s.writeM pa l) :=
  (MemoryFrame.of_eq rfl).trans (State.hitMonitors_frame _ _ _)

theorem State.writeEach_frame (s : State) (l : List (Nat × Byte)) : MemoryFrame s (s.writeEach l) :=
  (MemoryFrame.of_eq rfl).trans (MemoryFrame.foldl (fun _ _ => State.hitMonitors_frame _ _ _) l _)

theorem State.doom_frame (s : State) (ctx : Nat) : MemoryFrame s (s.doom ctx) := .of_eq rfl

theorem State.refuse_frame (s : State) (t : Target) (m pa : Nat) (k : Kind) : MemoryFrame s (s.refuse t m pa k) := .of_eq rfl

theorem State.landWrite_frame (s : State) (w : TcWrite) : MemoryFrame s (s.landWrite w) := by
  unfold State.landWrite
  split
  · exact s.writeM_frame _ _
  · exact s.refuse_frame _ _ _ _

theorem State.drainLine_frame (s : State) (line : Nat) : MemoryFrame s (s.drainLine line) :=
  (MemoryFrame.of_eq rfl).trans (MemoryFrame.foldl State.landWrite_frame _ _)

theorem State.mergeLine_frame (s : State) (line : Nat) : MemoryFrame s (s.mergeLine line) := by
  unfold State.mergeLine
  dsimp only
  split
  · exact .refl s
  · exact (s.drainLine_frame line).trans <| (MemoryFrame.of_eq rfl).trans <|
      (MemoryFrame.foldl (fun t _ => MemoryFrame.foldl State.doom_frame _ t) _ _).trans <| State.writeEach_frame _ _

theorem State.settle_frame (s : State) (pa n : Nat) : MemoryFrame s (s.settle pa n) :=
  MemoryFrame.foldl (fun t l => (t.drainLine_frame l).trans (State.mergeLine_frame _ l)) _ s

theorem State.performRead_frame (s : State) (pa n : Nat) : MemoryFrame s (s.performRead pa n).2 := s.settle_frame pa n

theorem State.performWrite_frame (s : State) (pa : Nat) (l : List Byte) : MemoryFrame s (s.performWrite pa l) :=
  (s.settle_frame _ _).trans (State.writeM_frame _ _ _)

/-! ### Walks of the page tables -/

theorem State.readEntry_frame (s : State) (ctx pa : Nat) (asCtx : Bool) : MemoryFrame s (s.readEntry ctx pa asCtx).state := by
  unfold State.readEntry
  dsimp only
  generalize (if asCtx = true then ctx else Config.walkerId) = m
  split
  · exact .refl s
  · split
    · exact s.refuse_frame _ _ _ _
    · split
      · exact s.doom_frame ctx
      · exact s.performRead_frame pa 8

theorem State.cacheTlb_frame (s : State) (t : Tlb) : MemoryFrame s (s.cacheTlb t) := by
  unfold State.cacheTlb; split <;> exact .of_eq rfl

theorem State.cacheNode_frame (s : State) (n : Node) : MemoryFrame s (s.cacheNode n) := by
  unfold State.cacheNode; split <;> exact .of_eq rfl

theorem State.walkLeaf_frame (s : State) (ctx va : Nat) (k : Kind) (mt0 : Bool) (lvl ea : Nat) (asCtx : Bool) (raw : Nat) :
    MemoryFrame s (s.walkLeaf ctx va k mt0 lvl ea asCtx raw).state := by
  unfold State.walkLeaf
  dsimp only
  generalize (if asCtx = true then ctx else Config.walkerId) = m
  split
  · exact .refl s
  · split
    · split
      · exact .refl s
      · exact s.refuse_frame _ _ _ _
    · split
      · split
        · exact .refl s
        · split
          · exact s.refuse_frame _ _ _ _
          · exact (s.performWrite_frame _ _).trans (State.cacheTlb_frame _ _)
      · exact s.cacheTlb_frame _

/-- Level by level: an entry that has been read answers at once or leads to the next level. -/
theorem State.walkFrom_frame (s : State) (ctx va : Nat) (k : Kind) (mt0 : Bool) (lvl t : Nat) (asCtx : Bool) :
    MemoryFrame s (s.walkFrom ctx va k mt0 lvl t asCtx).state := by
  induction lvl using Nat.strongRecOn generalizing s t asCtx with
  | _ lvl ih =>
    rw [State.walkFrom.eq_def]
    dsimp only
    have hr := s.readEntry_frame ctx (t + 8 * (va / 2 ^ (12 + 9 * lvl) % 512)) asCtx
    split
    · next e => rwa [e] at hr
    · next e => rwa [e] at hr
    · next e =>
      rw [e] at hr
      split
      · exact hr
      · split
        · exact hr
        · split
          · exact hr.trans (State.walkLeaf_frame _ _ _ _ _ _ _ _ _)
          · split
            · exact hr
            · exact hr.trans <| (State.cacheNode_frame _ _).trans (ih _ (Nat.lt_succ_self _) _ _ _)

theorem Walk.map_frame {s : State} {w : Walk} {f : State → State} (hf : ∀ t, MemoryFrame t (f t)) (h : MemoryFrame s w.state) :
    MemoryFrame s (w.map f).state := by
  cases w <;> exact h.trans (hf _)

theorem State.walkRoot_frame (s : State) (ctx va : Nat) (k : Kind) (mt0 : Bool) : MemoryFrame s (s.walkRoot ctx va k mt0).state :=
  (MemoryFrame.of_eq rfl).trans (State.walkFrom_frame _ _ _ _ _ _ _ _)

theorem State.useLeaf_frame (s : State) (k : Kind) (t : Tlb) : MemoryFrame s (s.useLeaf k t).state := by
  unfold State.useLeaf; split <;> exact .refl s

theorem State.translate_frame (s : State) (ctx va : Nat) (k : Kind) (mt0 : Bool) : MemoryFrame s (s.translate ctx va k mt0).state := by
  have keep : ∀ (old : List Node) (t : State), MemoryFrame t (t.keepNodes old) := fun _ _ => .of_eq rfl
  have draw : MemoryFrame s s.draw.2 := .of_eq rfl
  unfold State.translate
  dsimp only
  split
  · exact Walk.map_frame (keep _) (s.walkRoot_frame _ _ _ _)
  · split
    · exact draw.trans (State.useLeaf_frame _ _ _)
    · exact draw.trans (State.walkFrom_frame _ _ _ _ _ _ _ _)
    · exact Walk.map_frame (keep _) (draw.trans (State.walkRoot_frame _ _ _ _ _))

/-- An access of a group or a unit, translated and checked. -/
theorem State.access_frame (s : State) (ctx va n : Nat) (k : Kind) (mt0 : Bool) : MemoryFrame s (s.access ctx va n k mt0).state := by
  unfold State.access
  have hw := s.translate_frame ctx va k mt0
  generalize s.translate ctx va k mt0 = w at hw
  split
  · dsimp only
    split
    · exact hw
    · split
      · exact hw.trans (State.refuse_frame _ _ _ _ _)
      · exact hw
  · exact hw

end Sys2Proof.Machine
end

section
/-! PROOFS of the scope statements, part 3: what it is that a step follows an attempt at an instruction, and the
shared operations that attempts end in. -/

namespace Sys2Proof.Machine

/-- A step follows an attempt's answer. -/
def Act.Steps (a : Act) : Prop := ∃ t, finish a = .next t

/-- A group is current, and it stands. -/
def State.HasCur (s : State) : Prop := ∃ gid, s.sched.cur = some gid ∧ (s.group gid).isSome

theorem Act.steps_done (s : State) : (Act.done s).Steps := ⟨_, rfl⟩
theorem Act.steps_park (s : State) : (Act.park s).Steps := ⟨_, rfl⟩
theorem Act.steps_wait (s : State) : (Act.wait s).Steps := ⟨_, rfl⟩
theorem Act.steps_trap (gid : Nat) (t : Trap) (s : State) : (Act.trap gid t s).Steps := ⟨_, rfl⟩

/-- A decision steps when both its answers do. -/
theorem Act.steps_ite {p : Prop} [Decidable p] {a b : Act} (ha : a.Steps) (hb : b.Steps) : (if p then a else b).Steps := by
  split
  · exact ha
  · exact hb

/-! ### The shared operations -/

/-- No check answers that there is no group. -/
theorem State.checks_ne_noGroup (s : State) (f : Front) (gid : Nat) (g : Group) (own : DWord) :
    some Entry.noGroup ∉ s.checks f gid g own := by
  have guard : s.guardCheck gid g own f.guard (g.batch own) ≠ some .noGroup := by
    unfold State.guardCheck; split <;> simp
  have srcs : s.readySrcs gid g own (g.active f.guard (g.batch own)) f.srcs ≠ some .noGroup := by
    unfold State.readySrcs
    dsimp only
    split
    · simp
    · split
      · simp
      · split <;> simp
  have ite_ne : ∀ (b : Bool) {e : Option Entry}, e ≠ some .noGroup → (if b then e else none) ≠ some .noGroup := by
    intro b e he; cases b <;> simp [he]
  have ite_ne' : ∀ (b : Bool) {e : Option Entry}, e ≠ some .noGroup → (if b then none else e) ≠ some .noGroup := by
    intro b e he; cases b <;> simp [he]
  simp only [State.checks, List.mem_cons, List.not_mem_nil, or_false, not_or, ne_comm (a := some Entry.noGroup)]
  exact ⟨ite_ne _ nofun, ite_ne _ nofun, ite_ne _ nofun, ite_ne _ nofun, ite_ne' _ guard, ite_ne' _ srcs, ite_ne _ nofun,
    ite_ne _ nofun, ite_ne _ nofun, ite_ne _ nofun⟩

/-- With a current group the shared checks find it. -/
theorem State.front_ne_noGroup {s : State} (h : s.HasCur) (f : Front) : s.front f ≠ .noGroup := by
  obtain ⟨gid, hc, hg⟩ := h
  obtain ⟨g, hg⟩ := Option.isSome_iff_exists.1 hg
  simp only [State.front, hc, hg]
  split
  · exact nofun
  · split
    · next e =>
      rintro rfl
      obtain ⟨x, hx, rfl : x = some Entry.noGroup⟩ := List.exists_of_findSome?_eq_some e
      exact s.checks_ne_noGroup f gid g _ hx
    · exact nofun

/-- An instruction of the current group steps, when its own effect does. -/
theorem State.issue_steps {s : State} (h : s.HasCur) {f : Front} {k : Ctx → Act} (hk : ∀ c, (k c).Steps) : (s.issue f k).Steps := by
  unfold State.issue
  split
  · next e => exact absurd e (State.front_ne_noGroup h f)
  · exact Act.steps_wait _
  · exact Act.steps_trap _ _ _
  · split
    · exact Act.steps_done _
    · exact hk _

theorem State.commitFlags_steps (s : State) (c : Ctx) (f : Front) (once : Bool) (w : List (Nat × Word)) (fl : List (Nat × FpFlags)) :
    (s.commitFlags c f once w fl).Steps := by
  unfold State.commitFlags
  dsimp only
  split
  · exact Act.steps_done _
  · split
    · exact Act.steps_done _
    · exact Act.steps_trap _ _ _

theorem State.waitFrom_steps (s t : State) : (s.waitFrom t).Steps := by
  unfold State.waitFrom
  split
  · exact Act.steps_wait _
  · exact Act.steps_park _

theorem State.parkIn_steps (s : State) (gid : Nat) (w : Wait) : (s.parkIn gid w).Steps := by
  unfold State.parkIn
  split
  · exact Act.steps_wait _
  · exact Act.steps_park _

/-- What a failed check of an access answers. -/
theorem State.failAct_steps {s : State} {c : Ctx} {once : Bool} {fails : List Fail} {a : Act} (h : s.failAct c once fails = some a) :
    a.Steps := by
  unfold State.failAct at h
  dsimp only at h
  split at h
  · exact absurd h nofun
  · split at h
    · exact Option.some.inj h ▸ Act.steps_done _
    · exact Option.some.inj h ▸ Act.steps_trap _ _ _

/-- A step follows what the checks of an access answer in the instruction's place. -/
def Resolved.Steps : Resolved → Prop
  | .act a => a.Steps
  | .ok _ _ => True

theorem State.resolve_steps (s : State) (c : Ctx) (sp : Space) (sc : Scope) (els : List Elem) (k : Checks) :
    (s.resolve c sp sc els k).Steps := by
  unfold State.resolve
  dsimp only
  split
  · next e => exact State.failAct_steps e
  split
  · next e => exact State.failAct_steps e
  split
  · next e => exact State.failAct_steps e
  split
  · exact State.waitFrom_steps _ _
  split
  · exact Act.steps_trap _ _ _
  split
  · next e => exact State.failAct_steps e
  split
  · exact State.parkIn_steps _ _ _
  split
  · next e => exact State.failAct_steps e
  split
  · next e => exact State.failAct_steps e
  split
  · next e => exact State.failAct_steps e
  split
  · exact Act.steps_wait _
  split
  · exact Act.steps_park _
  · exact trivial

theorem State.resolveNow_steps (s : State) (c : Ctx) (sp : Space) (sc : Scope) (els : List Elem) (k : Checks) :
    (s.resolveNow c sp sc els k).Steps := by
  have hr := s.resolve_steps c sp sc els k
  unfold State.resolveNow
  dsimp only
  split
  · next e => rwa [e] at hr
  split
  · next e => exact State.failAct_steps e
  split
  · exact Act.steps_wait _
  split
  · exact Act.steps_park _
  · exact trivial

/-- The checks answered in the instruction's place. -/
theorem Resolved.Steps.of_act {r : Resolved} {a : Act} (h : r.Steps) (e : r = .act a) : a.Steps := by
  rwa [e] at h

end Sys2Proof.Machine
end

section
/-! PROOFS of the scope statements, part 4: each attempt's decisions, and what follows them. -/

namespace Sys2Proof.Machine
open Act (steps_done steps_park steps_wait steps_trap steps_ite)
open State (issue_steps resolve_steps resolveNow_steps failAct_steps commitFlags_steps waitFrom_steps parkIn_steps)

/-! ### What several attempts end in -/

theorem State.parkWord_steps (s : State) (c : Ctx) (f : Front) (keys : List Nat) (x : WordWait) : (s.parkWord c f keys x).Steps :=
  steps_park _

theorem State.popDone_steps (s : State) (c : Ctx) (f : Front) (w : MWord) (pa m : Nat) : (s.popDone c f w pa m).Steps := by
  unfold State.popDone
  split
  · exact steps_ite (steps_done _) (steps_park _)
  · exact steps_ite (steps_done _) (steps_park _)

theorem State.issueMma_steps (s : State) (c : Ctx) (f : Front) (w : XWord) (ops : List SpadOp) (close : State → State) :
    (s.issueMma c f w ops close).Steps := by
  unfold State.issueMma
  split
  · exact steps_trap _ _ _
  · exact steps_done _

theorem State.mmaFull_steps (s : State) (c : Ctx) (w : XWord) (cv : Option Conv) : (s.mmaFull c w cv).Steps := by
  unfold State.mmaFull
  split
  · exact steps_ite (steps_wait _) (steps_park _)
  · exact steps_wait _

theorem State.drainMem_steps (s : State) (c : Ctx) (f : Front) (w : XWord) : (s.drainMem c f w).Steps := by
  unfold State.drainMem
  refine steps_ite ?_ ?_
  · refine steps_ite (steps_trap _ _ _) ?_
    split
    · exact steps_trap _ _ _
    · exact steps_done _
    · exact steps_wait _
  · extract_lets
    split
    · exact steps_trap _ _ _
    split
    · exact steps_trap _ _ _
    · exact steps_ite (waitFrom_steps _ _) (steps_done _)

theorem State.drainReg_steps (s : State) (c : Ctx) (f : Front) (w : XWord) : (s.drainReg c f w).Steps :=
  steps_done _

theorem State.drainPeer_steps (s : State) (c : Ctx) (f : Front) (w : XWord) : (s.drainPeer c f w).Steps :=
  steps_ite (steps_trap _ _ _) (steps_done _)

theorem State.peel_steps (s : State) (c : Ctx) (f : Front) (w : XWord) (x : WordWait) (d : Option Due) (res : Nat) :
    (s.peel c f w x d res).Steps := by
  unfold State.peel
  refine steps_ite (steps_wait _) <| steps_ite (steps_park _) ?_
  split
  split
  · exact steps_trap _ _ _
  · exact steps_trap _ _ _
  · exact steps_trap _ _ _
  · refine steps_ite ?_ ?_
    · split
      · exact steps_wait _
      · exact steps_park _
    · split
      split
      · exact (resolveNow_steps ..).of_act ‹_›
      split
      · exact steps_done _
      · exact steps_done _

open State (parkWord_steps popDone_steps issueMma_steps mmaFull_steps drainMem_steps drainReg_steps drainPeer_steps peel_steps)

section
variable {s : State} (h : s.HasCur)
include h

/-! ### Memory instructions -/

theorem actLoad_steps (op : MOp) (w : MWord) : (actLoad op w s).Steps := by
  refine issue_steps h fun c => ?_
  split
  · exact (resolve_steps ..).of_act ‹_›
  · exact steps_done _

theorem actStore_steps (w : MWord) : (actStore w s).Steps := by
  refine issue_steps h fun c => ?_
  split
  · exact (resolve_steps ..).of_act ‹_›
  · exact steps_done _

theorem actPref_steps (w : MWord) : (actPref w s).Steps := by
  refine issue_steps h fun c => ?_
  extract_lets
  split
  · exact failAct_steps ‹_›
  · exact steps_done _

theorem actWb_steps (w : MWord) : (actWb w s).Steps := by
  refine issue_steps h fun c => ?_
  split
  · exact (resolve_steps ..).of_act ‹_›
  · exact steps_done _

theorem actAtom_steps (w : MWord) : (actAtom w s).Steps := by
  refine issue_steps h fun c => ?_
  extract_lets
  split
  · exact (resolve_steps ..).of_act ‹_›
  · exact steps_done _

theorem actRed_steps (w : MWord) : (actRed w s).Steps := by
  refine issue_steps h fun c => ?_
  extract_lets
  split
  · exact (resolve_steps ..).of_act ‹_›
  · exact steps_done _

/-! ### Synchronisation -/

theorem actAord_steps (w : MWord) : (actAord w s).Steps := by
  refine issue_steps h fun c => ?_
  extract_lets
  split
  · exact (resolve_steps ..).of_act ‹_›
  · exact steps_ite (steps_wait _) (steps_done _)

theorem actWaitc_steps (w : MWord) : (actWaitc w s).Steps := by
  refine issue_steps h fun c => ?_
  extract_lets
  split
  · split
    · exact steps_ite (steps_done _) (steps_wait _)
    · exact steps_wait _
  split
  · exact (resolveNow_steps ..).of_act ‹_›
  split
  · exact steps_wait _
  · exact steps_ite (steps_ite (steps_done _) (steps_park _)) (parkWord_steps ..)

theorem actQpush_steps (w : MWord) : (actQpush w s).Steps := by
  refine issue_steps h fun c => ?_
  split
  · exact steps_wait _
  split
  · exact (resolveNow_steps ..).of_act ‹_›
  split
  · exact steps_wait _
  refine steps_ite (steps_trap _ _ _) <| steps_ite (steps_wait _) ?_
  extract_lets
  split
  · exact steps_done _
  refine steps_ite ?_ ?_
  · split
    · exact (resolveNow_steps ..).of_act ‹_›
    · exact steps_done _
  · exact steps_park _

theorem actQpop_steps (w : MWord) : (actQpop w s).Steps := by
  refine issue_steps h fun c => ?_
  split
  · exact steps_ite (steps_done _) (steps_wait _)
  · exact steps_wait _
  · split
    · exact (resolveNow_steps ..).of_act ‹_›
    split
    · exact steps_wait _
    refine steps_ite (steps_trap _ _ _) ?_
    refine steps_ite ?_ ?_
    · split
      · exact (resolveNow_steps ..).of_act ‹_›
      · exact popDone_steps ..
    · exact steps_park _

theorem actFset_steps (w : MWord) : (actFset w s).Steps := by
  refine issue_steps h fun c => ?_
  extract_lets
  split
  · exact (resolveNow_steps ..).of_act ‹_›
  · exact steps_ite (steps_wait _) <| steps_ite (steps_trap _ _ _) (steps_done _)

theorem actFget_steps (w : MWord) : (actFget w s).Steps := by
  refine issue_steps h fun c => ?_
  extract_lets
  split
  · exact steps_ite (steps_done _) (steps_wait _)
  split
  · exact (resolveNow_steps ..).of_act ‹_›
  · exact steps_ite (steps_ite (steps_done _) (steps_park _)) (steps_park _)

theorem actArrive_steps (w : XWord) : (actArrive w s).Steps :=
  issue_steps h fun _ => steps_ite (steps_wait _) (steps_done _)

theorem actWaitb_steps (w : XWord) : (actWaitb w s).Steps :=
  issue_steps h fun _ => steps_ite (steps_ite (steps_done _) <| steps_ite (steps_wait _) (steps_park _)) <|
    steps_ite (steps_wait _) (steps_park _)

theorem actFence_steps (w : XWord) : (actFence w s).Steps :=
  issue_steps h fun _ => steps_ite (steps_done _) (steps_wait _)

/-! ### Control transfers and fibres -/

theorem actNop_steps (w : XWord) : (actNop w s).Steps :=
  issue_steps h fun _ => steps_done _

theorem actBra_steps (w : XWord) : (actBra w s).Steps := by
  refine issue_steps h fun c => ?_
  extract_lets
  split
  · exact steps_trap _ _ _
  · exact steps_done _

theorem actBrs_steps (w : XWord) : (actBrs w s).Steps := by
  refine issue_steps h fun c => ?_
  extract_lets
  split
  · exact steps_trap _ _ _
  · exact steps_done _

theorem actJmp_steps (w : XWord) : (actJmp w s).Steps := by
  refine issue_steps h fun c => ?_
  extract_lets
  split
  · exact steps_trap _ _ _
  · exact steps_done _

theorem actRet_steps (w : XWord) : (actRet w s).Steps := by
  refine issue_steps h fun c => ?_
  extract_lets
  split
  · exact steps_trap _ _ _
  · exact steps_done _

theorem actCall_steps (w : XWord) : (actCall w s).Steps := by
  refine issue_steps h fun c => ?_
  extract_lets
  split
  · exact steps_trap _ _ _
  · exact steps_done _

theorem actJoin_steps (w : XWord) : (actJoin w s).Steps :=
  issue_steps h fun _ => steps_done _

theorem actFend_steps (w : XWord) : (actFend w s).Steps :=
  issue_steps h fun _ => steps_done _

theorem actYield_steps (w : XWord) : (actYield w s).Steps :=
  issue_steps h fun _ => steps_done _

theorem actSpawn_steps (w : XWord) : (actSpawn w s).Steps := by
  refine issue_steps h fun c => ?_
  extract_lets
  split
  · exact steps_trap _ _ _
  split
  extract_lets
  split
  · exact steps_done _
  split
  · exact steps_park _
  · exact steps_wait _

/-! ### Special registers, traps and translation -/

theorem actRdsr_steps (w : XWord) : (actRdsr w s).Steps :=
  issue_steps h fun _ => steps_done _

theorem actWrsr_steps (w : XWord) : (actWrsr w s).Steps :=
  issue_steps h fun _ => steps_done _

theorem actTrap_steps (w : XWord) : (actTrap w s).Steps :=
  issue_steps h fun _ => steps_trap _ _ _

theorem actBrk_steps (w : XWord) : (actBrk w s).Steps :=
  issue_steps h fun _ => steps_ite (steps_done _) (steps_trap _ _ _)

theorem actEret_steps (w : XWord) : (actEret w s).Steps := by
  refine issue_steps h fun c => ?_
  extract_lets
  split
  · exact steps_trap _ _ _
  split
  · exact steps_trap _ _ _
  · exact steps_done _

theorem actTwc_steps (w : XWord) : (actTwc w s).Steps :=
  issue_steps h fun _ => steps_done _

theorem actTlbinv_steps (w : XWord) : (actTlbinv w s).Steps :=
  issue_steps h fun _ => steps_ite (steps_trap _ _ _) <| steps_ite (steps_wait _) <| steps_ite (steps_wait _) (steps_done _)

/-! ### Launches, copies and rings -/

theorem actLaunch_steps (w : MWord) : (actLaunch w s).Steps := by
  refine issue_steps h fun c => ?_
  extract_lets els due
  clear_value due
  split
  · exact failAct_steps ‹_›
  refine steps_ite (steps_wait _) ?_
  refine steps_ite ?_ ?_
  · split
    · exact parkIn_steps _ _ _
    · exact steps_park _
  · split
    · exact (resolveNow_steps ..).of_act ‹_›
    split
    · exact steps_wait _
    split
    · exact steps_done _
    · exact steps_done _

theorem actBwait_steps (w : XWord) : (actBwait w s).Steps := by
  refine issue_steps h fun c => ?_
  split
  · exact steps_ite (parkIn_steps _ _ _) <| steps_ite (steps_trap _ _ _) (steps_done _)
  · exact steps_trap _ _ _

theorem actBset_steps (w : XWord) : (actBset w s).Steps := by
  refine issue_steps h fun c => ?_
  split
  · exact steps_trap _ _ _
  refine steps_ite (steps_trap _ _ _) <| steps_ite (steps_wait _) ?_
  split
  · exact steps_ite (steps_wait _) (steps_done _)
  · exact steps_ite (steps_done _) (steps_done _)
  · exact steps_done _
  · exact steps_done _

theorem actSrnext_steps (w : XWord) : (actSrnext w s).Steps := by
  refine issue_steps h fun c => ?_
  extract_lets j ring
  clear_value ring
  split
  · exact steps_trap _ _ _
  · exact steps_ite (steps_wait _) (steps_done _)

theorem actCpq_steps (w : MWord) : (actCpq w s).Steps := by
  refine issue_steps h fun c => ?_
  extract_lets
  split
  · exact failAct_steps ‹_›
  split
  · exact (resolveNow_steps ..).of_act ‹_›
  refine steps_ite (steps_wait _) ?_
  split
  · exact steps_wait _
  · exact steps_ite (steps_wait _) (steps_done _)

/-! ### Vector instructions and special functions -/

theorem actAlu_steps (op : ROp) (w : RWord) : (actAlu op w s).Steps :=
  issue_steps h fun _ => commitFlags_steps ..

theorem actImm_steps (op : IOp) (w : ImmWord) : (actImm op w s).Steps :=
  issue_steps h fun _ => commitFlags_steps ..

theorem actPair_steps (w : PWord) : (actPair w s).Steps :=
  issue_steps h fun _ => commitFlags_steps ..

theorem actXacc_steps (w : RWord) : (actXacc w s).Steps :=
  issue_steps h fun _ => commitFlags_steps ..

theorem actXcvt_steps (w : RWord) : (actXcvt w s).Steps :=
  issue_steps h fun _ => commitFlags_steps ..

theorem actShfl_steps (w : RWord) : (actShfl w s).Steps :=
  issue_steps h fun _ => commitFlags_steps ..

theorem actBcast_steps (w : RWord) : (actBcast w s).Steps :=
  issue_steps h fun _ => commitFlags_steps ..

theorem actPush_steps (w : RWord) : (actPush w s).Steps :=
  issue_steps h fun _ => commitFlags_steps ..

theorem actScan_steps (w : RWord) : (actScan w s).Steps :=
  issue_steps h fun _ => commitFlags_steps ..

theorem actLred_steps (w : RWord) : (actLred w s).Steps :=
  issue_steps h fun _ => commitFlags_steps ..

theorem actVote_steps (w : RWord) : (actVote w s).Steps :=
  issue_steps h fun _ => commitFlags_steps ..

theorem actKcg_steps (w : RWord) : (actKcg w s).Steps :=
  issue_steps h fun _ => steps_done _

theorem actSfu_steps (w : RWord) : (actSfu w s).Steps := by
  refine issue_steps h fun c => ?_
  refine steps_ite (steps_wait _) ?_
  split
  · exact steps_done _
  · exact steps_ite (steps_done _) (steps_done _)

/-! ### The matrix engine -/

theorem actMacq_steps (w : XWord) : (actMacq w s).Steps :=
  issue_steps h fun _ => steps_ite (steps_done _) <| steps_ite (steps_done _) <| steps_ite (steps_wait _) (steps_park _)

theorem actMarel_steps (w : XWord) : (actMarel w s).Steps :=
  issue_steps h fun _ => steps_done _

theorem actMcvr_steps (w : XWord) : (actMcvr w s).Steps := by
  refine issue_steps h fun c => ?_
  extract_lets
  split
  · exact steps_wait _
  · exact steps_done _

theorem actMma_steps (w : XWord) : (actMma w s).Steps := by
  refine issue_steps h fun c => ?_
  extract_lets core cv
  clear_value cv
  refine steps_ite (steps_trap _ _ _) <| steps_ite (steps_wait _) <| steps_ite (steps_wait _) <|
    steps_ite (mmaFull_steps ..) ?_
  split
  · exact steps_trap _ _ _
  refine steps_ite (issueMma_steps ..) ?_
  split
  · exact steps_trap _ _ _
  · exact steps_ite (steps_trap _ _ _) <| steps_ite (issueMma_steps ..) (steps_done _)

theorem actMzero_steps (w : XWord) : (actMzero w s).Steps :=
  issue_steps h fun _ => steps_ite (steps_wait _) (steps_done _)

theorem actMcopy_steps (w : XWord) : (actMcopy w s).Steps :=
  issue_steps h fun _ => steps_ite (steps_wait _) (steps_done _)

/-- The page walk is a variable before the cases, so that no check of the proof computes it. -/
theorem actMfill_steps (w : XWord) : (actMfill w s).Steps := by
  refine issue_steps h fun c => ?_
  extract_lets n rows src addr parts x
  refine steps_ite (steps_wait _) <| steps_ite (steps_ite (steps_trap _ _ _) ?_) <| steps_ite (steps_trap _ _ _) ?_
  · split
    · exact steps_trap _ _ _
    split
    · exact steps_trap _ _ _
    · exact steps_done _
    · exact steps_wait _
  · generalize x.trap c = failed, badRow src.toNat rows = row
    cases row with
    | some a => exact steps_trap _ _ _
    | none =>
      cases failed with
      | some t => exact steps_trap _ _ _
      | none => exact steps_ite (waitFrom_steps _ _) (steps_done _)

theorem actMld_steps (w : XWord) : (actMld w s).Steps := by
  refine issue_steps h fun c => ?_
  refine steps_ite (steps_wait _) <| steps_ite (steps_trap _ _ _) <| steps_ite (steps_trap _ _ _) ?_
  refine steps_ite ?_ ?_
  · refine steps_ite (steps_trap _ _ _) ?_
    split
    · refine steps_ite (steps_trap _ _ _) ?_
      split
      · exact steps_trap _ _ _
      · exact steps_done _
    · exact steps_trap _ _ _
    · exact steps_wait _
  · extract_lets
    split
    · exact steps_trap _ _ _
    · exact steps_trap _ _ _
    · split
      · exact steps_trap _ _ _
      refine steps_ite (waitFrom_steps _ _) <| steps_ite (steps_trap _ _ _) ?_
      split
      · exact steps_trap _ _ _
      · exact steps_done _
    · exact steps_wait _

theorem actMdrain_steps (w : XWord) : (actMdrain w s).Steps := by
  refine issue_steps h fun c => ?_
  refine steps_ite (steps_wait _) ?_
  split
  · exact drainMem_steps ..
  · exact drainReg_steps ..
  · exact drainPeer_steps ..

theorem actMstat_steps (w : XWord) : (actMstat w s).Steps :=
  issue_steps h fun _ => steps_ite (steps_done _) <| steps_ite (steps_done _) (steps_done _)

/-! ### Reserving loops and relaxation regions -/

theorem actRlbeg_steps (w : XWord) : (actRlbeg w s).Steps :=
  issue_steps h fun _ => steps_ite (steps_trap _ _ _) <| steps_ite (steps_trap _ _ _) <|
    steps_ite (steps_wait _) (steps_park _)

theorem actClaim_steps (w : MWord) : (actClaim w s).Steps := by
  refine issue_steps h fun c => ?_
  split
  · exact steps_trap _ _ _
  · exact steps_ite (steps_trap _ _ _) <| steps_ite (steps_trap _ _ _) (steps_done _)

theorem actRwave_steps (w : XWord) : (actRwave w s).Steps :=
  issue_steps h fun _ => steps_ite (steps_trap _ _ _) <| steps_ite (steps_wait _) (steps_park _)

theorem actRlend_steps (w : XWord) : (actRlend w s).Steps := by
  refine issue_steps h fun c => ?_
  refine steps_ite (steps_done _) ?_
  split
  · exact steps_trap _ _ _
  · exact steps_park _

theorem actRxbeg_steps (w : XWord) : (actRxbeg w s).Steps :=
  issue_steps h fun _ => steps_ite (steps_wait _) <| steps_ite (steps_trap _ _ _) <| steps_ite (steps_wait _) <|
    steps_ite (steps_trap _ _ _) (steps_park _)

theorem actRxin_steps (w : XWord) : (actRxin w s).Steps := by
  refine issue_steps h fun c => ?_
  split
  · exact steps_trap _ _ _
  · exact steps_ite (steps_trap _ _ _) (steps_done _)

theorem actRxout_steps (w : XWord) : (actRxout w s).Steps := by
  refine issue_steps h fun c => ?_
  split
  · exact steps_trap _ _ _
  · exact steps_ite (steps_trap _ _ _) (steps_done _)

theorem actRxjac_steps (w : XWord) : (actRxjac w s).Steps := by
  refine issue_steps h fun c => ?_
  split
  · exact steps_trap _ _ _
  · exact steps_ite (steps_trap _ _ _) (steps_done _)

theorem actRxst_steps (w : MWord) : (actRxst w s).Steps := by
  refine issue_steps h fun c => ?_
  split
  · exact steps_trap _ _ _
  split
  · exact (resolve_steps ..).of_act ‹_›
  · exact steps_ite (steps_done _) (steps_done _)

theorem actRxend_steps (w : XWord) : (actRxend w s).Steps := by
  refine issue_steps h fun c => ?_
  split
  · exact steps_trap _ _ _
  · exact steps_ite (steps_trap _ _ _) (steps_done _)

theorem actRxcmt_steps (w : XWord) : (actRxcmt w s).Steps := by
  refine issue_steps h fun c => ?_
  split
  · exact steps_trap _ _ _
  split
  · exact steps_trap _ _ _
  · exact steps_ite (steps_trap _ _ _) (steps_park _)

theorem actRxabort_steps (w : XWord) : (actRxabort w s).Steps := by
  refine issue_steps h fun c => ?_
  split
  · exact steps_trap _ _ _
  · exact steps_ite (steps_trap _ _ _) (steps_park _)

/-! ### Collectives and sketches -/

theorem actTcopy_steps (w : XWord) : (actTcopy w s).Steps := by
  refine issue_steps h fun c => ?_
  split
  · refine steps_ite (steps_trap _ _ _) <| steps_ite (steps_trap _ _ _) <| steps_ite (steps_trap _ _ _) <|
    steps_ite (steps_trap _ _ _) <| steps_ite (steps_wait _) ?_
    split
    · exact steps_trap _ _ _
    · exact steps_done _
  · exact steps_trap _ _ _

theorem actSketch_steps (σ : Word) (w : XWord) : (actSketch σ w s).Steps := by
  refine issue_steps h fun c => ?_
  split
  · exact steps_trap _ _ _
  refine steps_ite (steps_trap _ _ _) ?_
  extract_lets
  split
  · exact (resolveNow_steps ..).of_act ‹_›
  · exact steps_done _

theorem actSkxch_steps (w : XWord) : (actSkxch w s).Steps := by
  refine issue_steps h fun c => ?_
  refine steps_ite (steps_trap _ _ _) ?_
  split
  · exact steps_trap _ _ _
  split
  · exact (resolveNow_steps ..).of_act ‹_›
  split
  · exact steps_wait _
  · exact steps_ite (steps_trap _ _ _) <| steps_ite (steps_wait _) (steps_done _)

theorem actSkpeel_steps (w : XWord) : (actSkpeel w s).Steps := by
  refine issue_steps h fun c => ?_
  split
  · split
    · exact peel_steps ..
    · exact steps_wait _
  refine steps_ite (steps_trap _ _ _) ?_
  split
  · exact (resolveNow_steps ..).of_act ‹_›
  split
  · exact steps_wait _
  · exact steps_ite (steps_trap _ _ _) <| steps_ite (parkWord_steps ..) (peel_steps ..)

end

end Sys2Proof.Machine
end

section
/-! PROOFS of the scope statements, part 5: a step follows every instruction and every event, so every state steps. -/

namespace Sys2Proof.Machine

/-! ### Every instruction and every event -/

/-- A step follows an instruction of the current group. -/
theorem exec_instr_next {s : State} (h : s.HasCur) (v : View) : ∃ t, exec v.instr s = .next t := by
  cases v with
  | p w => exact actPair_steps h w
  | i op w => cases op <;> exact actImm_steps h _ w
  | r op w =>
    cases op
    case sfu => exact actSfu_steps h w
    case xacc => exact actXacc_steps h w
    case xcvt => exact actXcvt_steps h w
    case shfl => exact actShfl_steps h w
    case push => exact actPush_steps h w
    case bcast => exact actBcast_steps h w
    case scan => exact actScan_steps h w
    case lred => exact actLred_steps h w
    case vote => exact actVote_steps h w
    case kcg => exact actKcg_steps h w
    all_goals exact actAlu_steps h _ w
  | m op w =>
    cases op with
    | ld | ldt => exact actLoad_steps h _ w
    | st => exact actStore_steps h w
    | pref => exact actPref_steps h w
    | atom => exact actAtom_steps h w
    | red => exact actRed_steps h w
    | aord => exact actAord_steps h w
    | waitc => exact actWaitc_steps h w
    | qpush => exact actQpush_steps h w
    | qpop => exact actQpop_steps h w
    | fset => exact actFset_steps h w
    | fget => exact actFget_steps h w
    | claim => exact actClaim_steps h w
    | rxst => exact actRxst_steps h w
    | cpq => exact actCpq_steps h w
    | launch => exact actLaunch_steps h w
    | wb => exact actWb_steps h w
  | x op w =>
    cases op with
    | macq => exact actMacq_steps h w
    | marel => exact actMarel_steps h w
    | mcvr => exact actMcvr_steps h w
    | mma => exact actMma_steps h w
    | mld => exact actMld_steps h w
    | mzero => exact actMzero_steps h w
    | mdrain => exact actMdrain_steps h w
    | mfill => exact actMfill_steps h w
    | mcopy => exact actMcopy_steps h w
    | mstat => exact actMstat_steps h w
    | bwait => exact actBwait_steps h w
    | bset => exact actBset_steps h w
    | srnext => exact actSrnext_steps h w
    | tcopy => exact actTcopy_steps h w
    | skins | skdel => exact actSketch_steps h _ w
    | skxch => exact actSkxch_steps h w
    | skpeel => exact actSkpeel_steps h w
    | rlbeg => exact actRlbeg_steps h w
    | rwave => exact actRwave_steps h w
    | rlend => exact actRlend_steps h w
    | rxbeg => exact actRxbeg_steps h w
    | rxin => exact actRxin_steps h w
    | rxout => exact actRxout_steps h w
    | rxjac => exact actRxjac_steps h w
    | rxend => exact actRxend_steps h w
    | rxcmt => exact actRxcmt_steps h w
    | rxabort => exact actRxabort_steps h w
  | c op w =>
    cases op with
    | nop => exact actNop_steps h w
    | bra => exact actBra_steps h w
    | brs => exact actBrs_steps h w
    | jmp => exact actJmp_steps h w
    | call => exact actCall_steps h w
    | ret => exact actRet_steps h w
    | join => exact actJoin_steps h w
    | spawn => exact actSpawn_steps h w
    | fend => exact actFend_steps h w
    | yield => exact actYield_steps h w
    | arrive => exact actArrive_steps h w
    | waitb => exact actWaitb_steps h w
    | fence => exact actFence_steps h w
  | y op w =>
    cases op with
    | rdsr => exact actRdsr_steps h w
    | wrsr => exact actWrsr_steps h w
    | trap => exact actTrap_steps h w
    | eret => exact actEret_steps h w
    | brk => exact actBrk_steps h w
    | twc => exact actTwc_steps h w
    | tlbinv => exact actTlbinv_steps h w

/-- A step follows an event, in every state: its meaning is a next state. -/
theorem exec_event_next {i : Instr} (s : State) (h : i.view = none) : ∃ t, exec i s = .next t := by
  cases i <;> simp only [Instr.view, reduceCtorEq] at h <;> exact ⟨_, rfl⟩

/-- An instruction is the one that its view names. -/
theorem Instr.instr_of_view {i : Instr} {v : View} (h : i.view = some v) : v.instr = i := by
  cases i <;> cases h <;> rfl

theorem exec_next {s : State} (h : s.HasCur) (i : Instr) : ∃ t, exec i s = .next t := by
  cases e : i.view with
  | none => exact exec_event_next s e
  | some v => exact Instr.instr_of_view e ▸ exec_instr_next h v

/-! ### The step -/

/-- Decoding leaves the state as it is. -/
theorem Group.decodeAt_run {g : Group} {own : DWord} {w : IWord96} {b : Bool} {s t : State} {i : Instr}
    (h : g.decodeAt own w b s = .run i t) : t = s := by
  unfold Group.decodeAt at h
  split at h
  · cases h
  · cases h
  · extract_lets bad barred at h
    clear_value barred
    split at h
    · cases h
    · cases h; rfl

theorem State.access_ok_frame {s t : State} {ctx va n : Nat} {k : Kind} {mt0 : Bool} {tr : Tlb}
    (h : s.access ctx va n k mt0 = .ok t tr) : MemoryFrame s t := by
  have hw := s.access_frame ctx va n k mt0
  rwa [h] at hw

/-- An instruction that is fetched is a standing group's, and the fetch changes no more than an access does. -/
theorem State.fetch_run {s t : State} {gid : Nat} {i : Instr} (h : s.fetch gid = .run i t) :
    (s.group gid).isSome ∧ MemoryFrame s t := by
  unfold State.fetch at h
  split at h
  · cases h
  next g hg =>
  refine ⟨by simp [hg], ?_⟩
  split at h
  · cases h
  split at h
  · split at h
    · cases h
    · exact Group.decodeAt_run h ▸ .refl s
  split at h
  · cases h
  split at h
  · cases h
  split at h
  · split at h <;> cases h
  · cases h
  · next e =>
    split at h
    · cases h
    · exact Group.decodeAt_run h ▸ State.access_ok_frame e

/-- A picked group steps: it is current, and its fetch keeps it. -/
theorem stepGroup_next {s : State} {gid : Nat} (hc : s.sched.cur = some gid) : ∃ t, stepGroup gid s = .next t := by
  unfold stepGroup
  split
  · exact ⟨_, rfl⟩
  · exact ⟨_, rfl⟩
  · exact ⟨_, rfl⟩
  · next i u e =>
    obtain ⟨hg, hf⟩ := State.fetch_run e
    obtain ⟨t, ht⟩ := exec_next ⟨gid, hf.cur.trans hc, (hf.isSome_group gid).trans hg⟩ i
    rw [ht]
    exact ⟨_, rfl⟩

theorem stepEvent_next (i : Instr) (s : State) : ∃ t, stepEvent i s = .next t := by
  unfold stepEvent
  split
  · exact ⟨_, rfl⟩
  · next e => exact exec_event_next s e

theorem stepTurn_next (s : State) : ∃ t, stepTurn s = .next t := by
  unfold stepTurn
  split
  · exact stepGroup_next rfl
  split
  · exact stepEvent_next _ _
  split
  · split
    · exact stepEvent_next _ _
    · exact ⟨_, rfl⟩
  · exact ⟨_, rfl⟩

end Sys2Proof.Machine

namespace Sys2Proof
open Machine

/-- Settles O57: a picked group's instruction finds its group standing, so its meaning never answers that there is none, and
every event's meaning is a next state. -/
theorem noStepStops : Obligations.NoStepStops := by
  intro s
  obtain ⟨t, ht⟩ := stepTurn_next s
  exact ⟨t.keepWakes, by rw [step, ht]⟩

end Sys2Proof
end

section
/-! PROOFS of the statements of the virtual device, part 1: the checks that every instruction makes first, as a ladder in which the
first that fails decides, and the readiness of one register. -/

namespace Sys2Proof.Machine

/-! ### The shared checks as a ladder (R40) -/

/-- The first of some checks that fails decides, and a default when none does. -/
theorem findSome?_id_cons_getD {α : Type} (a : Option α) (l : List (Option α)) (d : α) :
    ((a :: l).findSome? id).getD d = a.getD ((l.findSome? id).getD d) := by
  cases a <;> rfl

theorem getD_ite_some {α : Type} (b : Bool) (e d : α) : (if b then some e else none).getD d = if b then e else d := by
  cases b <;> rfl

/-- The group is in no wait, or in one that is tried again and owes nothing. -/
def Group.Retrying (g : Group) : Prop := ∀ x, g.wait = some x → x.retries = true ∧ x.due = none

theorem Group.Retrying.any_not_retries {g : Group} (h : g.Retrying) : g.wait.any (!·.retries) = false := by
  cases e : g.wait with
  | none => rfl
  | some x => simp [(h x e).1]

theorem Group.Retrying.inDue {g : Group} (h : g.Retrying) : g.inDue = false := by
  cases e : g.wait with
  | none => simp [Group.inDue, e]
  | some x => simp [Group.inDue, e, (h x e).2]

/-- A group that stands at an instruction and is considered: it is the current one, its batch stands at `own`, and no instruction
of it has issued and waits. -/
structure State.Considers (s : State) (gid : Nat) (g : Group) (own : DWord) : Prop where
  cur : s.sched.cur = some gid
  group : s.group gid = some g
  pc : g.pc = some own
  retrying : g.Retrying

/-- The checks that follow those of R40 to R147: NONDET and RXBODY. -/
def State.bodyChecks (s : State) (f : Front) (gid : Nat) (g : Group) (own : DWord) : List (Option Entry) :=
  (s.checks f gid g own).drop 7

/-- The lanes that a trap of the first checks names: the active ones, or the whole batch while the guard cannot be read. -/
def Group.checkLanes (g : Group) (gd : Guard) (batch : List Nat) : List Nat :=
  if g.guardFull gd batch then g.active gd batch else batch

section
variable {s : State} {gid : Nat} {g : Group} {own : DWord} (h : s.Considers gid g own)
include h

/-- The shared checks are a ladder, in the order of R40: the first that fails decides, and when none does the instruction goes on. -/
theorem State.Considers.front_ladder (f : Front) : s.front f =
    if !(f.named.all fun p => g.within p.1 p.2) || f.illop g then
      .trap gid (Trap.mk' .illop own (g.checkLanes f.guard (g.batch own)))
    else if !(f.ports.all g.id.role.may) then .trap gid (Trap.mk' .role own (g.checkLanes f.guard (g.batch own)))
    else if f.mx && !s.ownsEngine gid g f.mxSole then .trap gid (Trap.mk' .mxown own (g.checkLanes f.guard (g.batch own)))
    else (s.guardCheck gid g own f.guard (g.batch own)).getD <|
      (s.readySrcs gid g own (g.active f.guard (g.batch own)) f.srcs).getD <|
      if s.dstBusy gid g f then .stall
      else ((s.bodyChecks f gid g own).findSome? id).getD (.go ⟨gid, g, own, g.batch own, g.active f.guard (g.batch own)⟩) := by
  obtain ⟨hc, hg, ho, hw⟩ := h
  have front : s.front f =
      ((s.checks f gid g own).findSome? id).getD (.go ⟨gid, g, own, g.batch own, g.active f.guard (g.batch own)⟩) := by
    simp only [State.front, hc, hg, ho]
    cases (s.checks f gid g own).findSome? id <;> rfl
  have split : s.checks f gid g own = (s.checks f gid g own).take 7 ++ s.bodyChecks f gid g own :=
    (List.take_append_drop 7 _).symm
  rw [front, split]
  simp only [State.checks, List.take_succ_cons, List.take_zero, List.cons_append, List.nil_append, findSome?_id_cons_getD,
    getD_ite_some, hw.any_not_retries, hw.inDue, Bool.false_and, Bool.not_false, Bool.true_and, Bool.false_eq_true, if_false,
    Option.getD_none, Group.checkLanes]

end

/-- With no active lane and outside a relaxation body, NONDET and RXBODY pass (R28, R312). -/
theorem State.bodyChecks_of_inactive (s : State) {f : Front} {gid : Nat} {g : Group} {own : DWord}
    (ha : g.active f.guard (g.batch own) = []) (hb : s.bodyOf gid g = none) : (s.bodyChecks f gid g own).findSome? id = none := by
  simp [State.bodyChecks, State.checks, State.fallsOut, ha, hb]

/-- With no active lane a commit leaves every register and its full/empty bit, and its batch goes on (R28). -/
theorem State.commit_inactive {s : State} {c : Ctx} (f : Front) (hg : s.group c.gid = some c.g) (ha : c.act = []) :
    ∃ g', (s.commit c f).group c.gid = some g' ∧ (∀ k, g'.reg k = c.g.reg k ∧ g'.isFull k = c.g.isFull k) ∧ c.GoesTo g' c.nextPc := by
  obtain ⟨a, hgroup⟩ := State.commitTo_group (c := c) (f := f) (pc := c.nextPc) hg
  have hlast : c.g.lastUse c.act f = c.g := by simp [Group.lastUse, ha]
  rw [Group.commit_eq, hlast] at hgroup
  refine ⟨_, hgroup, fun _ => ⟨rfl, rfl⟩, fun hh hd => ?_⟩
  show (c.g.commit c f c.nextPc _).fibres = _
  rw [Group.commit, hlast, Group.goOn_fibres]
  · rfl
  · exact hh
  · exact hd

/-- The first check that fails decides, and with no active lane an instruction commits nothing (R40, R131, R144, R147, R192):
by the ladder of the checks. -/
theorem saysSharedChecks : Says.SharedChecks := by
  intro s gid g own v hc hg ho hw f batch act lanes trap beyond barred foreign
  have ladder := State.Considers.front_ladder ⟨hc, hg, ho, hw⟩ f
  have hbeyond : (!(f.named.all fun p => g.within p.1 p.2) || f.illop g) = true ↔ beyond := by simp [beyond]
  have hbarred : (!(f.ports.all g.id.role.may)) = true ↔ barred := by simp [barred]
  have hforeign : (f.mx && !s.ownsEngine gid g f.mxSole) = true ↔ foreign := by simp [foreign]
  simp only [hbeyond, hbarred, hforeign] at ladder
  refine ⟨fun h1 => ?_, fun h1 h2 => ?_, fun h1 h2 h3 => ?_, fun h1 h2 h3 => ?_⟩
  · exact exec_trap (ladder.trans (if_pos h1))
  · exact exec_trap (by rw [ladder, if_neg h1, if_pos h2]; rfl)
  · exact exec_trap (by rw [ladder, if_neg h1, if_neg h2, if_pos h3]; rfl)
  rw [if_neg h1, if_neg h2, if_neg h3] at ladder
  refine ⟨fun k t hk => exec_trap (by rw [ladder, hk]; rfl), fun hguard => ?_⟩
  rw [hguard, Option.getD_none] at ladder
  refine ⟨fun k t hk => exec_trap (by rw [ladder, hk]; rfl), fun hsrcs => ?_⟩
  rw [hsrcs, Option.getD_none] at ladder
  refine ⟨fun hbusy => exec_stall (by rw [ladder, if_pos hbusy]), fun hbusy ha hb => ?_⟩
  rw [hbusy, if_neg Bool.false_ne_true, s.bodyChecks_of_inactive ha hb, Option.getD_none] at ladder
  obtain ⟨g', hg', hsame, hgoes⟩ := State.commit_inactive (c := ⟨gid, g, own, batch, act⟩) f hg ha
  exact ⟨exec_inactive ladder ha, g', hg', hsame, by simpa [Ctx.GoesTo, Ctx.nextPc] using hgoes⟩

/-! ### Readiness (R146, R147) -/

/-- The first register of an operand is numbered below 256 in one file, in every lane. -/
theorem Group.key_eq_regKey (g : Group) (x : Operand) (hx : x.isS = false) :
    ∃ file i, i < 256 ∧ ∀ l, g.key x l 0 = regKey file l i := by
  cases x with
  | s _ => cases hx
  | v i | o i | h i | k i | a i => exact ⟨_, i.toNat + 0, by have := i.isLt; omega, fun _ => rfl⟩

/-- A producer in flight for a register in one lane is one for it in any lane below 256 (R146). -/
theorem State.inFlight_lane (s : State) (gid core : Nat) (g : Group) {x : Operand} (hx : x.isS = false) {l : Nat} (hl : l < 256) :
    s.inFlight gid core (g.key x l 0) = s.inFlight gid core (g.key x 0 0) := by
  obtain ⟨file, i, hi, key⟩ := g.key_eq_regKey x hx
  have same : ∀ k, sameReg k (g.key x l 0) = sameReg k (g.key x 0 0) := by
    intro k
    have hfile : (file * 65536 + l * 256 + i) / 65536 = (file * 65536 + 0 * 256 + i) / 65536 := by omega
    have hindex : (file * 65536 + l * 256 + i) % 256 = (file * 65536 + 0 * 256 + i) % 256 := by omega
    simp only [sameReg, key, regKey, hfile, hindex]
  simp only [State.inFlight, same]

/-- The readiness of an operand's register over some lanes below 256: ready when it is full in each, else as its producer decides
(R146). -/
theorem State.readyOf_operand (s : State) (gid : Nat) (g : Group) (x : Operand) {act : List Nat} (hl : ∀ l ∈ act, l < 256) :
    s.readyOf gid g ((regLanes x act).map fun l => g.key x l 0) =
      if ((regLanes x act).filter fun l => !g.isFull (g.key x l 0)) = [] then .ready
      else if s.inFlight gid g.id.core (g.key x 0 0) then .blocking else .orphaned := by
  have fly : ∀ l ∈ (regLanes x act).filter (fun l => !g.isFull (g.key x l 0)),
      s.inFlight gid g.id.core (g.key x l 0) = s.inFlight gid g.id.core (g.key x 0 0) := by
    intro l hm
    have hm := (List.mem_filter.1 hm).1
    cases hx : x.isS with
    | true => simp only [regLanes, hx, if_true, List.mem_singleton] at hm; rw [hm]
    | false => exact s.inFlight_lane gid _ g hx (hl l (by simpa [regLanes, hx] using hm))
  simp only [State.readyOf, List.filter_map, List.isEmpty_iff, List.map_eq_nil_iff, List.all_map, Function.comp_def]
  generalize (regLanes x act).filter (fun l => !g.isFull (g.key x l 0)) = empty at fly ⊢
  cases empty with
  | nil => rfl
  | cons l rest =>
    have all : ((l :: rest).all fun k => s.inFlight gid g.id.core (g.key x k 0)) = s.inFlight gid g.id.core (g.key x 0 0) := by
      rw [Bool.eq_iff_iff, List.all_eq_true]
      exact ⟨fun h => fly l List.mem_cons_self ▸ h l List.mem_cons_self, fun h k hk => (fly k hk).trans h⟩
    simp [all]

/-- The sources of an instruction with one source of one register, with some active lane: what its readiness decides (R147). -/
theorem State.readySrcs_one (s : State) (gid : Nat) (g : Group) (own : DWord) {act : List Nat} {x : Src} (ha : act ≠ [])
    (hn : x.n = 1) (hb : x.x.hasBit = true) : s.readySrcs gid g own act [x] =
      match x.te, s.readyOf gid g ((regLanes x.x act).map fun l => g.key x.x l 0) with
      | _, .ready => none
      | true, _ => some (.trap gid (Trap.mk' .regempty own (g.emptyLanes x.x 0 act)))
      | false, .orphaned => some (.trap gid (Trap.mk' .orphan own (g.emptyLanes x.x 0 act)))
      | false, .blocking => some .stall := by
  have hact : act.isEmpty = false := by simpa using ha
  simp only [State.readySrcs, List.flatMap_cons, List.flatMap_nil, hn, List.range_one, List.map_cons, List.map_nil,
    List.append_nil, hb, hact, Bool.not_false, Bool.and_self, if_true, List.find?_cons, List.find?_nil, List.any_cons, List.any_nil]
  cases x.te <;> cases s.readyOf gid g ((regLanes x.x act).map fun l => g.key x.x l 0) <;> rfl

/-- What `Says.Readiness` says of a source holds whenever the lanes are below 256, as those of every group are. -/
theorem State.readySrcs_of_lanes (s : State) (gid : Nat) (g : Group) (own : DWord) {act : List Nat} {x : Src}
    (hl : ∀ l ∈ act, l < 256) (ha : act ≠ []) (hn : x.n = 1) (hb : x.x.hasBit = true) :
    let empty := (regLanes x.x act).filter fun l => !g.isFull (g.key x.x l 0)
    let named := if x.x.isS then act else empty
    s.readySrcs gid g own act [x] =
      if empty = [] then none
      else if x.te then some (.trap gid (Trap.mk' .regempty own named))
      else if s.inFlight gid g.id.core (g.key x.x 0 0) then some .stall
      else some (.trap gid (Trap.mk' .orphan own named)) := by
  intro empty named
  have hnamed : g.emptyLanes x.x 0 act = named := by
    simp only [Group.emptyLanes, named, empty]
    cases hs : x.x.isS <;> simp [regLanes, hs]
  rw [State.readySrcs_one s gid g own ha hn hb, State.readyOf_operand s gid g x.x hl, hnamed]
  by_cases he : empty = []
  · rw [if_pos he, if_pos he]
  · rw [if_neg he, if_neg he]
    cases x.te <;> cases s.inFlight gid g.id.core (g.key x.x 0 0) <;> rfl

/-! ### A lane that no group has -/

/-- An identity of the full budgets, as a launch gives it. -/
def strayIdent : Ident :=
  { ctx := 0, grid := 0, team := 0, teamCore := 0, core := 0, t := 0, role := .all, ridx := 0, rcnt := 1, width := 16, grpid := 0
    taskidx := 0, seed := 0, bin := false, det := false, vBud := 256, oBud := 16, sBud := 256, nbar := 64, cores := 1, share := 0
    secLo := 0x1_0000, textLo := 0x1_0000, textLen := 12, trapAt := none }

/-- A group whose s0 is empty: the key of s0 is also that of v0 in a lane 256. -/
def strayGroup : Group := (Group.start strayIdent 0 [] 0 0 false).setEmpty [regKey 1 0 0]

/-- Reset, with a producer of the group in flight to s0. -/
def strayState : State :=
  { State.reset with work := { State.reset.work with producers := [⟨0, 0, [(regKey 1 0 0, none)]⟩] } }

/-- A source v0. -/
def straySrc : Src := ⟨.v 0, 1, false, false⟩

/-- In lane 256 the model takes the producer of s0 for one of v0, and the instruction waits. -/
theorem readySrcs_stray : strayState.readySrcs 0 strayGroup 0 [256] [straySrc] = some .stall := by decide

/-- No producer is in flight for v0 as its lane 0 names it. -/
theorem inFlight_stray : strayState.inFlight 0 strayGroup.id.core (strayGroup.key (.v 0) 0 0) = false := by decide

end Sys2Proof.Machine

namespace Sys2Proof
open Machine

/-- Refutes O56: its second half, `Says.Readiness`, speaks of any numbers as lanes, and a register's key gives the lane 8 bits, so that
v0 in a lane 256 has the key of s0. With s0 empty and its producer in flight, the statement has ORPHAN and the model waits. The
first half holds (`saysSharedChecks`), and so does the second for lanes below 256 (`State.readySrcs_of_lanes`). -/
theorem not_sharedChecks : ¬ Obligations.SharedChecks := by
  intro ⟨_, readiness⟩
  obtain ⟨_, _, orphan, _⟩ := readiness strayState 0 strayGroup 0 [256] straySrc (by decide) rfl rfl
  have trapped := orphan rfl (by decide) inFlight_stray
  rw [readySrcs_stray] at trapped
  exact absurd trapped nofun

end Sys2Proof
end

section
/-! PROOFS of the statements of the virtual device, part 2: what the runtime registers, grants and assigns, each request by the
equation of its meaning. -/

namespace Sys2Proof.Machine

/-! ### Nothing waits to move into M -/

theorem State.drainLine_of_tc {s : State} (h : s.order.tc = []) (line : Nat) : s.drainLine line = s := by
  obtain ⟨mem, order, groups, grids, teams, cores, ctxs, work, dev, sched⟩ := s
  obtain ⟨tc, qch, reds, partials, hq, tlb, nodes⟩ := order
  cases h
  rfl

theorem State.mergeLine_of_partials {s : State} (h : s.order.partials = []) (line : Nat) : s.mergeLine line = s := by
  simp [State.mergeLine, h, sortPartials]

/-- An access moves nothing into M first when nothing waits to move. -/
theorem State.settle_of_settled {s : State} (h : Settled s) (pa n : Nat) : s.settle pa n = s := by
  have line : ∀ l, s.settleLine l = s := fun l => by
    rw [State.settleLine, State.drainLine_of_tc h.1, State.mergeLine_of_partials h.2]
  rw [State.settle]
  dsimp only
  generalize (if isAlias pa then _ else linesOf pa n) = lines
  induction lines with
  | nil => rfl
  | cons l lines ih => rw [List.foldl_cons, line, ih]

/-! ### The registration of queues (R102, R118, R233) -/

/-- A header that keeps its table: it and its ring are aligned, and its size is one of those that a queue has (R102). -/
def State.HeaderOk (s : State) (header : Nat) : Prop :=
  header % 64 = 0 ∧ leVal (s.readBytes (header + 0x18) 8) % 64 = 0 ∧ 4 ≤ (s.readByte (header + 0x20)).toNat ∧
    (s.readByte (header + 0x20)).toNat ≤ 16

theorem State.readHeader_of_ok {s : State} {header : Nat} (h : s.HeaderOk header) : s.readHeader header =
    some (BitVec.ofNat 64 (leVal (s.readBytes (header + 0x18) 8)), (s.readByte (header + 0x20)).toNat) := by
  obtain ⟨h1, h2, h3, h4⟩ := h
  simp [State.readHeader, State.phys8, h1, h2, h3, h4]

theorem State.readHeader_of_not_ok {s : State} {header : Nat} (h : ¬s.HeaderOk header) : s.readHeader header = none := by
  have : (header % 64 == 0 && s.phys8 (header + 0x18) % 64 == 0 && decide (4 ≤ (s.readByte (header + 0x20)).toNat) &&
      decide ((s.readByte (header + 0x20)).toNat ≤ 16)) = false := by
    rw [Bool.eq_false_iff]
    simpa [State.HeaderOk, State.phys8, and_assoc] using h
  simp [State.readHeader, this]

/-- A queue as its header gives it (R102). -/
def State.newQueue (s : State) (num cluster : Nat) (copy : Bool) (header : Nat) : Queue :=
  { num := num, cluster := cluster, copy := copy, header := header, ring := BitVec.ofNat 64 (leVal (s.readBytes (header + 0x18) 8))
    log2 := (s.readByte (header + 0x20)).toNat, faulted := false }

/-- The bytes that the registration of a queue writes from QNUM on: a copy queue's fault fields start at zero (log 30). -/
def queueFields (num : Nat) (copy : Bool) : List Byte := BitVec.ofNat 8 num :: if copy then List.replicate 30 0 else []

/-- A queue joins those of its context, in place of one with its number and its kind. -/
def Context.putQueue (c : Context) (q : Queue) : Context :=
  { c with queues := c.queues.filter (fun x => !(x.num == q.num && x.copy == q.copy)) ++ [q] }

section
variable {s : State} {header num : Nat} (hb : s.blocked header 64 true = false) (hn : num < 64)
include hb hn

/-- A header that the runtime's windows do not reach is refused (R221, R222). -/
theorem State.addQueue_refused (ctx : Nat) (copy : Bool) (cluster : Nat) (hm : s.runtimeMay header 64 .both = false) :
    s.addQueue ctx num header copy cluster = s.refuse .slice Config.runtimeId header .both := by
  simp [State.addQueue, hb, hm, Nat.not_le.2 hn]

theorem State.addQueue_bad (ctx : Nat) (copy : Bool) (cluster : Nat) (hm : s.runtimeMay header 64 .both = true) (hs : Settled s)
    (hh : ¬s.HeaderOk header) : s.addQueue ctx num header copy cluster = s := by
  simp [State.addQueue, hb, hm, Nat.not_le.2 hn, State.settle_of_settled hs, State.readHeader_of_not_ok hh]

theorem State.addQueue_ok (ctx : Nat) (copy : Bool) (cluster : Nat) (hm : s.runtimeMay header 64 .both = true) (hs : Settled s)
    (hh : s.HeaderOk header) : s.addQueue ctx num header copy cluster =
      (s.writeM (header + 0x21) (queueFields num copy)).modCtx ctx fun c =>
        c.putQueue (s.newQueue num cluster copy header) := by
  simp only [State.addQueue, hb, hm, Nat.not_le.2 hn, State.settle_of_settled hs, State.readHeader_of_ok hh]
  rfl

end

/-- The queue that was put is found by its number and its kind, and every other as before. -/
theorem Context.find?_putQueue (c : Context) (q : Queue) (n : Nat) (k : Bool) :
    ((c.putQueue q).queues.find? fun x => x.num == n && x.copy == k) =
      if n = q.num ∧ k = q.copy then some q else c.queues.find? fun x => x.num == n && x.copy == k := by
  simp only [Context.putQueue, List.find?_append, List.find?_filter, Bool.decide_and, Bool.decide_eq_true]
  split
  · next h =>
    obtain ⟨rfl, rfl⟩ := h
    have gone : (c.queues.find? fun x => !(x.num == q.num && x.copy == q.copy) && (x.num == q.num && x.copy == q.copy)) = none := by
      simp only [Bool.not_and_self, List.find?_eq_none, Bool.false_eq_true, not_false_eq_true, implies_true]
    rw [gone]
    simp
  · next h =>
    have other : (fun x : Queue => !(x.num == q.num && x.copy == q.copy) && (x.num == n && x.copy == k)) =
        fun x => x.num == n && x.copy == k := by
      funext x
      by_cases hx : x.num = n ∧ x.copy = k
      · obtain ⟨rfl, rfl⟩ := hx
        have hne : (x.num == q.num && x.copy == q.copy) = false := by
          rw [Bool.eq_false_iff]
          simpa using h
        simp only [hne, Bool.not_false, Bool.true_and]
      · simp [hx]
    have new : [q].find? (fun x => x.num == n && x.copy == k) = none := by
      have hne : (q.num == n && q.copy == k) = false := by
        rw [Bool.eq_false_iff]
        simpa [@eq_comm _ q.num, @eq_comm _ q.copy] using h
      simp only [List.find?_cons, hne, List.find?_nil]
    rw [other, new, Option.or_none]

theorem State.writeM_order (s : State) (pa : Nat) (l : List Byte) : (s.writeM pa l).order = s.order := by
  rw [State.writeM_eq]

theorem State.ctx_writeM (s : State) (pa : Nat) (l : List Byte) (k : Nat) : (s.writeM pa l).ctx k = s.ctx k :=
  State.ctx_of_ctxs (s.writeM_frame pa l).ctxs k

/-- A queue of a context that has received one: the new queue under its own number and kind, and every other as before. -/
theorem State.queue_putQueue {s t : State} {ctx : Nat} {c : Context} (hc : s.ctx ctx = some c) (ht : t.ctx ctx = s.ctx ctx)
    (q : Queue) (n : Nat) (k : Bool) : (t.modCtx ctx fun c => c.putQueue q).queue ctx n k =
      if n = q.num ∧ k = q.copy then some q else s.queue ctx n k := by
  simp [State.queue, ht, hc, Context.find?_putQueue]

/-- A registration that its context and, for a copy queue, its engine allow is the registration of the queue alone. -/
theorem exec_queueRegister {s : State} {ctx num header cluster : Nat} {copy : Bool} {c : Context} (hc : s.ctx ctx = some c)
    (he : copy = true → cluster < 24 ∧ s.engineQueues c.part cluster ctx num < 64) :
    exec (if copy then .queueRegister (.copy ctx cluster num header) else .queueRegister (.launch ctx num header)) s =
      .next (s.addQueue ctx num header copy (if copy then cluster else 0)) := by
  cases copy with
  | false =>
    show Host.Outcome.next (registerQueue _ s) = _
    simp [registerQueue, hc]
  | true =>
    obtain ⟨hcluster, hqueues⟩ := he rfl
    show Host.Outcome.next (registerQueue _ s) = _
    simp [registerQueue, hc, hcluster, Config.queuesPerOwner, hqueues]

/-! ### The completion queue (R109, R118) -/

section
variable {s : State} {ctx header : Nat} {c : Context} (hc : s.ctx ctx = some c)
include hc

theorem exec_completion_of_pending (hp : s.launchPending ctx c = true) :
    exec (.queueRegister (.completion ctx header)) s = .next s := by
  show Host.Outcome.next (registerQueue _ s) = _
  simp [registerQueue, hc, hp]

theorem exec_completion_of_none {t : State} (hp : s.launchPending ctx c = false) (h : s.completionAt header = (none, t)) :
    exec (.queueRegister (.completion ctx header)) s = .next t := by
  show Host.Outcome.next (registerQueue _ s) = _
  simp [registerQueue, hc, hp, h]

theorem exec_completion_of_some {q : Queue} {t : State} (hp : s.launchPending ctx c = false) (h : s.completionAt header = (some q, t)) :
    exec (.queueRegister (.completion ctx header)) s = .next (t.modCtx ctx fun c => { c with completion := some q }) := by
  show Host.Outcome.next (registerQueue _ s) = _
  simp [registerQueue, hc, hp, h]

end

theorem State.completionAt_refused {s : State} {header : Nat} (hb : s.blocked header 64 false = false)
    (hm : s.runtimeMay header 64 .read = false) :
    s.completionAt header = (none, s.refuse .slice Config.runtimeId header .read) := by
  simp [State.completionAt, hb, hm]

theorem State.completionAt_ok {s : State} {header : Nat} (hb : s.blocked header 64 false = false)
    (hm : s.runtimeMay header 64 .read = true) (hs : Settled s) (hh : s.HeaderOk header) :
    s.completionAt header = (some (s.newQueue 0 0 false header), s) := by
  simp [State.newQueue, State.completionAt, hb, hm, State.settle_of_settled hs, State.readHeader_of_ok hh]

/-! ### Partitions (R11) -/

/-- A partition's number stands among those of the partitions that lose a die exactly when it loses one. -/
theorem contains_lost_iff (parts : List (List Nat)) (dies : List Nat) (k : Nat) :
    ((parts.zipIdx.filter fun x => x.1.any dies.contains).map (·.2)).contains k = true ↔ ∃ d ∈ parts.getD k [], d ∈ dies := by
  simp only [List.contains_iff_mem, List.mem_map, List.mem_filter, Prod.exists, List.mem_zipIdx_iff_getElem?, List.any_eq_true,
    exists_eq_right, List.getD_eq_getElem?_getD]
  cases parts[k]? <;> simp

/-- The contexts that a partition receives. -/
theorem smFind_foldl_smSet (ctxs : List Nat) (m : SMap Nat) (n k : Nat) :
    smFind (ctxs.foldl (fun m c => smSet m c n) m) k = if k ∈ ctxs then some n else smFind m k := by
  induction ctxs generalizing m with
  | nil => rfl
  | cons c ctxs ih =>
    rw [List.foldl_cons, ih]
    by_cases hk : k = c
    · subst hk; simp
    · simp [hk, smFind_smSet_ne _ _ hk]

theorem State.ctx_foldl_modCtx (ctxs : List Nat) (s : State) (n k : Nat) :
    (ctxs.foldl (fun s c => s.modCtx c fun x => { x with part := n }) s).ctx k =
      (s.ctx k).map fun x => if k ∈ ctxs then { x with part := n } else x := by
  induction ctxs generalizing s with
  | nil => simp
  | cons c ctxs ih =>
    rw [List.foldl_cons, ih]
    by_cases hk : k = c
    · subst hk
      rw [State.ctx_modCtx_self, Option.map_map]
      congr 1
      funext x
      simp
    · simp [hk, State.ctx_modCtx_ne _ _ hk]

/-- Moving contexts to another partition changes contexts alone. -/
theorem State.foldl_modCtx_eq (ctxs : List Nat) (s : State) (f : Context → Context) :
    ctxs.foldl (fun s c => s.modCtx c f) s = { s with ctxs := (ctxs.foldl (fun s c => s.modCtx c f) s).ctxs } := by
  induction ctxs generalizing s with
  | nil => rfl
  | cons c ctxs ih => rw [List.foldl_cons, ih]; rfl

/-- Dies become a partition, which the device names for contexts; the partitions that lose a die are dissolved. -/
def State.withPartition (s : State) (dies ctxs : List Nat) : State :=
  { s with dev := { s.dev with
      partitions := s.dev.partitions.map (fun p => if ∃ d ∈ p, d ∈ dies then [] else p) ++ [dies]
      partOf := ctxs.foldl (fun m c => smSet m c s.dev.partitions.length) s.dev.partOf } }

/-- A request that keeps the rules of R11 is granted. -/
theorem assignPartition_of_ok {s : State} {dies ctxs : List Nat} (hd : dies.Nodup) (h8 : ∀ d ∈ dies, d < 8)
    (hl : dies.length ∈ [1, 2, 4, 8]) (hp : ∀ c ∈ ctxs, s.placed c = false)
    (hx : ∀ p ∈ s.ctxs, p.1 ∉ ctxs → ∀ d ∈ s.dev.partitions.getD p.2.part [], d ∉ dies) :
    assignPartition dies ctxs s =
      ctxs.foldl (fun t c => t.modCtx c fun x => { x with part := s.dev.partitions.length }) (s.withPartition dies ctxs) := by
  have placed : ctxs.any s.placed = false := by simpa using hp
  have whole : (s.ctxs.all fun c => !(((s.dev.partitions.zipIdx.filter fun x => x.1.any dies.contains).map (·.2)).contains c.2.part) ||
      ctxs.contains c.1) = true := by
    rw [List.all_eq_true]
    intro p hm
    by_cases hc : p.1 ∈ ctxs
    · simp [hc]
    · have keeps : ((s.dev.partitions.zipIdx.filter fun x => x.1.any dies.contains).map (·.2)).contains p.2.part = false := by
        rw [Bool.eq_false_iff, ne_eq, contains_lost_iff]
        rintro ⟨d, hd, hdies⟩
        exact hx p hm hc d hd hdies
      rw [keeps]; rfl
  have small : dies.all (· < 8) = true := by simpa using h8
  have count : [1, 2, 4, 8].contains dies.length = true := by simpa using hl
  simp only [assignPartition, hd, small, count, placed, whole, decide_true, Bool.not_false, Bool.and_self, if_true]
  simp [State.withPartition]

/-! ### The statement -/

/-- The registrations of R11, R102, R118, R233 and R333: each request by the equation of its meaning. -/
theorem saysRegistrations : Says.Registrations := by
  refine ⟨?queues, ?completion, ?reservation, ?domain, ?partition⟩
  case queues =>
    intro s ctx num header copy cluster c hc hs hn hb he ring log2 go
    have hgo : exec go s = .next (s.addQueue ctx num header copy (if copy then cluster else 0)) := exec_queueRegister hc he
    refine ⟨fun hm => ?_, fun hm h1 h2 h3 h4 => ?_, fun hm hbad => ?_⟩
    · rw [hgo, State.addQueue_refused hb hn ctx copy _ hm]
    · rw [State.addQueue_ok hb hn ctx copy _ hm hs ⟨h1, h2, h3, h4⟩] at hgo
      have found := State.queue_putQueue (t := s.writeM (header + 0x21) (queueFields num copy)) hc (State.ctx_writeM ..)
        (s.newQueue num (if copy then cluster else 0) copy header)
      refine ⟨_, hgo, State.writeM_order .., ?_, fun n k hne => ?_, State.writeM_mem ..⟩
      · exact (found num copy).trans (if_pos ⟨rfl, rfl⟩)
      · exact (found n k).trans (if_neg hne)
    · rw [hgo, State.addQueue_bad hb hn ctx copy _ hm hs hbad]
  case completion =>
    intro s ctx header c hc hs hb ring log2
    refine ⟨exec_completion_of_pending hc, fun hp hm => ?_, fun hp hm h1 h2 h3 h4 => ?_⟩
    · exact exec_completion_of_none hc hp (State.completionAt_refused hb hm)
    · refine ⟨_, exec_completion_of_some hc hp (State.completionAt_ok hb hm hs ⟨h1, h2, h3, h4⟩), rfl, ?_⟩
      rw [State.ctx_modCtx_self, hc]
      rfl
  case reservation =>
    intro s ctx slots kib c hc
    refine ⟨_, rfl, ?_⟩
    simp only [grantReservation, Bool.and_eq_true, decide_eq_true_eq, and_assoc]
    split
    · exact ⟨rfl, fun k hk => State.ctx_modCtx_ne _ _ hk, by rw [State.ctx_modCtx_self, hc]; rfl⟩
    · exact ⟨rfl, fun _ _ => rfl, hc⟩
  case domain =>
    intro s ctx rank gx gy gz c hc n may
    have hmay : (1 ≤ n && decide (n ≤ 1024) && decide (rank < n) && !(s.ctxs.any fun p => p.1 != ctx && p.2.domain.isSome)) = true ↔
        may := by
      simp [may, and_assoc]
    refine ⟨_, rfl, ?_⟩
    simp only [joinDomain]
    split
    · next h =>
      refine ⟨rfl, fun k hk => State.ctx_modCtx_ne _ _ hk, fun _ => ?_, fun hnot => absurd (hmay.1 h) hnot⟩
      rw [State.ctx_modCtx_self, hc]
      rfl
    · next h => exact ⟨rfl, fun _ _ => rfl, fun hyes => absurd (hmay.2 hyes) h, fun _ => rfl⟩
  case partition =>
    intro s dies ctxs hd h8 hl hp hx
    have hout : exec (.partitionAssign dies ctxs) s = .next (assignPartition dies ctxs s) := rfl
    rw [assignPartition_of_ok hd h8 hl hp hx] at hout
    have rest := State.foldl_modCtx_eq ctxs (s.withPartition dies ctxs) fun x => { x with part := s.dev.partitions.length }
    have moved := State.ctx_foldl_modCtx ctxs (s.withPartition dies ctxs) s.dev.partitions.length
    have named := smFind_foldl_smSet ctxs s.dev.partOf s.dev.partitions.length
    refine ⟨_, hout, ?_, ?_, ?_, fun k => ⟨?_, moved k⟩⟩
    · rw [rest]; rfl
    · rw [rest]; rfl
    · rw [rest]; rfl
    · rw [rest]; exact named k

end Sys2Proof.Machine
end

section
/-! PROOFS of the statements of the virtual device, part 3: images. What the loader writes changes no context and no access table, so
that a load or an unload changes those as its last moves say. -/

namespace Sys2Proof.Machine

/-! ### The access tables -/

theorem mem_targetKinds (t : Target) : t ∈ targetKinds := by cases t <;> decide

theorem tableKey_eq_iff {k m : Nat} {t u : Target} : tableKey k t = tableKey m u ↔ k = m ∧ t = u := by
  cases t <;> cases u <;> simp [tableKey, targetCode] <;> omega

/-- Distinct keys for distinct members. -/
theorem nodup_map_of_injective {α : Type} {f : α → Nat} (hf : ∀ a b, f a = f b → a = b) {l : List α} (h : l.Nodup) :
    (l.map f).Nodup :=
  List.Pairwise.map f (fun a b hne => mt (hf a b) hne) h

/-- What each row of a table holds after some of them, named once, are changed. -/
theorem smGet_foldl_smPut {α : Type} [DecidableEq α] (d : α) (f : α → α) {l : List Nat} (hl : l.Nodup) (m : SMap α) (k : Nat) :
    smGet d (l.foldl (fun m j => smPut d m j (f (smGet d m j))) m) k = if k ∈ l then f (smGet d m k) else smGet d m k := by
  induction l generalizing m with
  | nil => rfl
  | cons j l ih =>
    obtain ⟨hj, hl⟩ := List.nodup_cons.1 hl
    rw [List.foldl_cons, ih hl]
    by_cases hk : k = j
    · subst hk; simp [hj]
    · simp [hk, smGet_smPut_ne _ _ _ hk]

/-- Windows that join a master's stand at the end of its rows at every target, and no other row changes (log 27). -/
theorem State.smGet_grantAll (s : State) (master : Nat) (ws : List Window) (k : Nat) (t : Target) :
    smGet [] (s.grantAll master ws).dev.access (tableKey k t) =
      if k = master then smGet [] s.dev.access (tableKey k t) ++ ws else smGet [] s.dev.access (tableKey k t) := by
  have nodup : (targetKinds.map (tableKey master)).Nodup :=
    nodup_map_of_injective (fun _ _ h => (tableKey_eq_iff.1 h).2) (by decide)
  have mem : tableKey k t ∈ targetKinds.map (tableKey master) ↔ k = master := by
    simp [tableKey_eq_iff, mem_targetKinds, eq_comm]
  have rows := smGet_foldl_smPut [] (· ++ ws) nodup s.dev.access (tableKey k t)
  simp only [List.foldl_map, mem] at rows
  simp only [State.grantAll]
  exact rows

/-! ### What the runtime's accesses leave -/

/-- No context and no access table changes. -/
structure PlacingFrame (s t : State) : Prop where
  ctxs : t.ctxs = s.ctxs
  access : t.dev.access = s.dev.access

theorem PlacingFrame.refl (s : State) : PlacingFrame s s := ⟨rfl, rfl⟩

theorem PlacingFrame.trans {s t u : State} (h : PlacingFrame s t) (k : PlacingFrame t u) : PlacingFrame s u :=
  ⟨k.ctxs.trans h.ctxs, k.access.trans h.access⟩

theorem PlacingFrame.foldl {β : Type} {f : State → β → State} (hf : ∀ s b, PlacingFrame s (f s b)) (l : List β) (s : State) :
    PlacingFrame s (l.foldl f s) := by
  induction l generalizing s with
  | nil => exact .refl s
  | cons b l ih => exact (hf s b).trans (ih _)

theorem PlacingFrame.ctx {s t : State} (h : PlacingFrame s t) (k : Nat) : t.ctx k = s.ctx k := State.ctx_of_ctxs h.ctxs k

theorem State.hitMonitors_placing (s : State) (pa n : Nat) : PlacingFrame s (s.hitMonitors pa n) := by
  rw [State.hitMonitors_eq]; exact ⟨rfl, rfl⟩

theorem State.writeM_placing (s : State) (pa : Nat) (l : List Byte) : PlacingFrame s (s.writeM pa l) := by
  rw [State.writeM_eq]; exact ⟨rfl, rfl⟩

theorem State.writeEach_placing (s : State) (l : List (Nat × Byte)) : PlacingFrame s (s.writeEach l) := by
  refine PlacingFrame.trans ?start (PlacingFrame.foldl (fun _ _ => State.hitMonitors_placing _ _ _) l _)
  exact ⟨rfl, rfl⟩

theorem State.refuse_placing (s : State) (t : Target) (m pa : Nat) (k : Kind) : PlacingFrame s (s.refuse t m pa k) := ⟨rfl, rfl⟩

theorem State.landWrite_placing (s : State) (w : TcWrite) : PlacingFrame s (s.landWrite w) := by
  unfold State.landWrite
  split
  · exact s.writeM_placing _ _
  · exact s.refuse_placing _ _ _ _

theorem State.drainLine_placing (s : State) (line : Nat) : PlacingFrame s (s.drainLine line) := by
  refine PlacingFrame.trans ?start (PlacingFrame.foldl State.landWrite_placing _ _)
  exact ⟨rfl, rfl⟩

theorem State.mergeLine_placing (s : State) (line : Nat) : PlacingFrame s (s.mergeLine line) := by
  unfold State.mergeLine
  dsimp only
  split
  · exact .refl s
  · have doom : ∀ (t : State) (c : Nat), PlacingFrame t (t.doom c) := fun _ _ => ⟨rfl, rfl⟩
    refine (s.drainLine_placing line).trans <| PlacingFrame.trans ?taken <|
      (PlacingFrame.foldl (fun t _ => PlacingFrame.foldl doom _ t) _ _).trans <| State.writeEach_placing _ _
    exact ⟨rfl, rfl⟩

theorem State.performWrite_placing (s : State) (pa : Nat) (l : List Byte) : PlacingFrame s (s.performWrite pa l) :=
  (PlacingFrame.foldl (fun t k => (t.drainLine_placing k).trans (State.mergeLine_placing _ k)) _ s).trans (State.writeM_placing _ _ _)

theorem State.runtimeWrite_placing (s : State) (pa : Nat) (l : List Byte) : PlacingFrame s (s.runtimeWrite pa l) := by
  unfold State.runtimeWrite
  split
  · exact s.performWrite_placing _ _
  · exact s.refuse_placing _ _ _ _

/-! ### The tables that the loader makes (R215) -/

/-- A pool after tables were made of its frames: no more than `n` bytes of them. -/
structure Pool.Grows (n : Nat) (p q : Pool) : Prop where
  frame : PlacingFrame p.s q.s
  next : q.next ≤ p.next + n

theorem Pool.Grows.trans {n m : Nat} {p q r : Pool} (h : p.Grows n q) (k : q.Grows m r) : p.Grows (n + m) r :=
  ⟨h.frame.trans k.frame, by have := h.next; have := k.next; omega⟩

theorem Pool.below_grows (p : Pool) (ea : Nat) : p.Grows 4096 (p.below ea).2 := by
  unfold Pool.below
  dsimp only
  split
  · exact ⟨.refl _, by simp⟩
  · exact ⟨(State.runtimeWrite_placing _ _ _).trans (State.runtimeWrite_placing _ _ _), Nat.le_refl _⟩

theorem Pool.descend_succ (p : Pool) (t va lvl : Nat) : p.descend t va (lvl + 1) =
    (p.below (t + 8 * (va / 2 ^ (12 + 9 * (lvl + 1)) % 512))).2.descend
      (p.below (t + 8 * (va / 2 ^ (12 + 9 * (lvl + 1)) % 512))).1 va lvl := by
  rw [Pool.descend]

theorem Pool.descend_grows (p : Pool) (t va lvl : Nat) : p.Grows (4096 * lvl) (p.descend t va lvl).2 := by
  induction lvl generalizing p t with
  | zero => exact ⟨.refl _, Nat.le_refl _⟩
  | succ lvl ih =>
    rw [Nat.mul_succ, Nat.add_comm, Pool.descend_succ]
    exact (p.below_grows _).trans (ih _ _)

theorem Pool.map_grows (p : Pool) (root va pa : Nat) (x w : Bool) : p.Grows 16384 (p.map root va pa x w) := by
  have walk := p.descend_grows root va 4
  unfold Pool.map
  generalize p.descend root va 4 = d at walk
  exact ⟨walk.frame.trans (State.runtimeWrite_placing _ _ _), walk.next⟩

theorem Pool.foldl_map_grows {β : Type} (root : Nat) (va pa : β → Nat) (x w : β → Bool) (l : List β) (p : Pool) :
    p.Grows (16384 * l.length) (l.foldl (fun q b => q.map root (va b) (pa b) (x b) (w b)) p) := by
  induction l generalizing p with
  | nil => exact ⟨.refl _, Nat.le_refl _⟩
  | cons b l ih =>
    rw [List.length_cons, Nat.mul_succ, Nat.add_comm, List.foldl_cons]
    exact (p.map_grows _ _ _ _ _).trans (ih _)

/-! ### Placing an image (R70) -/

/-- An image as it is registered. -/
def Bko.image (x : Bko) (r : ImageReq) (id : Nat) : Image :=
  { id := id, base := r.base, frames := r.frames, size := x.extent, kernels := x.descs.zipIdx.map fun p => x.kernel r.base p.2 p.1
    windows := x.windows r.frames, held := targetKinds.map targetCode, withdrawn := false }

/-- The frames of a pool that became tables. -/
def Pool.made (q : Pool) (pool : Nat) : List (Nat × Nat) := if q.next = pool then [] else [(pool, q.next - pool)]

theorem Pool.mem_made {q : Pool} {pool n : Nat} (h : q.next ≤ pool + n) : ∀ y ∈ q.made pool, y.1 = pool ∧ y.2 ≤ n := by
  intro y hy
  unfold Pool.made at hy
  split at hy
  · cases hy
  · rw [List.mem_singleton.1 hy]
    exact ⟨rfl, Nat.sub_le_iff_le_add'.2 h⟩

/-- Placing an image writes its pages and its tables, and then registers it and its windows. -/
theorem State.placeImage_eq (s : State) (r : ImageReq) (c : Context) (x : Bko) : ∃ q : Pool,
    (Pool.mk s r.pool).Grows (16384 * x.pages.length) q ∧
    s.placeImage r c x = State.grantAll (q.s.newId.2.modCtx r.ctx fun c =>
      { c with images := c.images ++ [x.image r q.s.newId.1], tables := c.tables ++ q.made r.pool }) r.ctx (x.windows r.frames) := by
  refine ⟨_, ?_, rfl⟩
  have zeroed := PlacingFrame.foldl (f := fun t (p : Nat × Bool × Bool) => t.runtimeWrite (r.frames + 4096 * p.1) (List.replicate 4096 0))
    (fun _ _ => State.runtimeWrite_placing _ _ _) x.pages s
  have filled := PlacingFrame.foldl (f := fun t (b : Sect) => t.runtimeWrite (r.frames + b.addr) (x.relocated r.base b))
    (fun _ _ => State.runtimeWrite_placing _ _ _) x.loaded
  have mapped := Pool.foldl_map_grows c.root (fun p : Nat × Bool × Bool => r.base + 4096 * p.1) (fun p => r.frames + 4096 * p.1)
    (fun p => p.2.1) (fun p => p.2.2) x.pages
  exact ⟨(zeroed.trans (filled _)).trans (mapped ⟨_, r.pool⟩).frame, (mapped ⟨_, r.pool⟩).next⟩

theorem State.ctx_grantAll (s : State) (master : Nat) (ws : List Window) (k : Nat) : (s.grantAll master ws).ctx k = s.ctx k := rfl

/-- What placing an image leaves: its context has it and the frames of its tables, every other context is as it was, and its windows
join its context's at every target. -/
theorem State.placeImage_spec {s : State} {r : ImageReq} {c : Context} (hc : s.ctx r.ctx = some c) (x : Bko) : ∃ id made,
    (∀ y ∈ made, y.1 = r.pool ∧ y.2 ≤ 16384 * x.pages.length) ∧
    (s.placeImage r c x).ctx r.ctx = some { c with images := c.images ++ [x.image r id], tables := c.tables ++ made } ∧
    (∀ k, k ≠ r.ctx → (s.placeImage r c x).ctx k = s.ctx k) ∧
    ∀ k target, smGet [] (s.placeImage r c x).dev.access (tableKey k target) =
      if k = r.ctx then smGet [] s.dev.access (tableKey k target) ++ x.windows r.frames else smGet [] s.dev.access (tableKey k target) := by
  obtain ⟨q, ⟨frame, next⟩, placed⟩ := s.placeImage_eq r c x
  have ctx : ∀ k, q.s.newId.2.ctx k = s.ctx k := frame.ctx
  refine ⟨q.s.newId.1, q.made r.pool, Pool.mem_made next, ?_, fun k hk => ?_, fun k target => ?_⟩
  · rw [placed]
    rw [State.ctx_grantAll, State.ctx_modCtx_self, ctx, hc]
    rfl
  · rw [placed]
    rw [State.ctx_grantAll, State.ctx_modCtx_ne _ _ hk, ctx]
  · rw [placed, State.smGet_grantAll, ← frame.access]
    rfl

/-! ### The loader's answers (R60, R70) -/

/-- Ranges that do not touch lie one after the other. -/
theorem touch_eq_false_iff {a n b m : Nat} : touch a n b m = false ↔ b + m ≤ a ∨ a + n ≤ b := by
  simp [touch]; omega

/-- The place of an image that passes its checks does not do: it is not aligned or not free, its windows would grant writes on the
journal, or they are too many at some target. -/
def State.unfit (s : State) (r : ImageReq) (c : Context) (x : Bko) : Bool :=
  r.base % 2 ^ 21 != 0 || r.frames % 4096 != 0 || r.pool % 4096 != 0 || s.placeTaken r c x ||
  (x.windows r.frames).any (fun w => w.write && inJournal w.lo (w.hi - w.lo)) ||
  targetKinds.any fun t =>
    decide (Config.masterWindows < (smGet [] s.dev.access (tableKey r.ctx t)).length + (x.windows r.frames).length)

/-- The loader's status says how it answered (R70). -/
def State.answer (s : State) (status : Nat) : State := { s with dev := { s.dev with loader := status } }

/-- The loader's answer: the first check that fails, nothing in a place that does not do, and else the placed image. -/
theorem loadImage_eq {s : State} {r : ImageReq} {c : Context} (hc : s.ctx r.ctx = some c) : loadImage r s =
    if (Bko.ofFile r.file).check != 0 then s.answer (Bko.ofFile r.file).check
    else if s.unfit r c (Bko.ofFile r.file) then s
    else s.unlessRefused ((s.placeImage r c (Bko.ofFile r.file)).answer 0) := by
  rw [loadImage, hc]
  rfl

section
variable {s : State} {r : ImageReq} {c : Context} (hc : s.ctx r.ctx = some c)
include hc

theorem exec_imageLoad_of_check (h : (Bko.ofFile r.file).check ≠ 0) :
    exec (.imageLoad r) s = .next (s.answer (Bko.ofFile r.file).check) := by
  show Host.Outcome.next (loadImage r s) = _
  rw [loadImage_eq hc, if_pos (bne_iff_ne.2 h)]

theorem exec_imageLoad_of_unfit (h : (Bko.ofFile r.file).check = 0) (hu : s.unfit r c (Bko.ofFile r.file) = true) :
    exec (.imageLoad r) s = .next s := by
  show Host.Outcome.next (loadImage r s) = _
  rw [loadImage_eq hc, if_neg (by simp [h]), if_pos hu]

theorem exec_imageLoad_of_fit (h : (Bko.ofFile r.file).check = 0) (hu : s.unfit r c (Bko.ofFile r.file) = false) :
    exec (.imageLoad r) s = .next (s.unlessRefused ((s.placeImage r c (Bko.ofFile r.file)).answer 0)) := by
  show Host.Outcome.next (loadImage r s) = _
  rw [loadImage_eq hc, if_neg (by simp [h]), if_neg (by simp [hu])]

end

/-- A place is free when every range that the image takes lies apart from every one that is taken (R70; log 27). -/
theorem State.placeTaken_eq_false_iff (s : State) (r : ImageReq) (c : Context) (x : Bko) : s.placeTaken r c x = false ↔
    let n := ceilDiv x.extent 4096 * 4096
    let clear := fun (a m b k : Nat) => b + k ≤ a ∨ a + m ≤ b
    clear r.frames n r.pool (16384 * x.pages.length) ∧
    (∀ i ∈ c.images, clear r.base n i.base (ceilDiv i.size 4096 * 4096)) ∧
    (∀ p ∈ s.ctxs, ∀ i ∈ p.2.images, clear r.frames n i.frames (ceilDiv i.size 4096 * 4096) ∧
      clear r.pool (16384 * x.pages.length) i.frames (ceilDiv i.size 4096 * 4096)) ∧
    ∀ p ∈ s.ctxs, ∀ i ∈ p.2.tables, clear r.frames n i.1 i.2 ∧ clear r.pool (16384 * x.pages.length) i.1 i.2 := by
  simp only [State.placeTaken, Bool.or_eq_false_iff, List.any_eq_false, Bool.not_eq_true, touch_eq_false_iff, and_assoc,
    forall_and]

/-- A place does when it is aligned and free, and the image's windows may join its context's at every target. -/
theorem State.unfit_eq_false_iff (s : State) (r : ImageReq) (c : Context) (x : Bko) : s.unfit r c x = false ↔
    r.base % 2 ^ 21 = 0 ∧ r.frames % 4096 = 0 ∧ r.pool % 4096 = 0 ∧ s.placeTaken r c x = false ∧
    (∀ w ∈ x.windows r.frames, w.write = true → inJournal w.lo (w.hi - w.lo) = false) ∧
    ∀ target, (smGet [] s.dev.access (tableKey r.ctx target)).length + (x.windows r.frames).length ≤ 64 := by
  have room : (targetKinds.any fun t =>
      decide (Config.masterWindows < (smGet [] s.dev.access (tableKey r.ctx t)).length + (x.windows r.frames).length)) = false ↔
      ∀ target, (smGet [] s.dev.access (tableKey r.ctx target)).length + (x.windows r.frames).length ≤ 64 := by
    simp only [List.any_eq_false, mem_targetKinds, true_imp_iff, decide_eq_true_eq, Nat.not_lt]
    rfl
  simp only [State.unfit, Bool.or_eq_false_iff, room, bne_eq_false_iff_eq, List.any_eq_false, Bool.and_eq_true, not_and,
    Bool.not_eq_true, and_assoc]

/-- When one of the runtime's accesses was refused, the refusals alone are left (R222). -/
theorem State.unlessRefused_of_refused {s t : State} (h : t.dev.refusals.length ≠ s.dev.refusals.length) :
    s.unlessRefused t = { s with dev := { s.dev with refusals := t.dev.refusals } } := by
  rw [State.unlessRefused, if_neg h]

theorem State.unlessRefused_of_kept {s t : State} (h : t.dev.refusals.length = s.dev.refusals.length) : s.unlessRefused t = t := by
  rw [State.unlessRefused, if_pos h]

/-! ### Unloading (R72) -/

theorem State.unmapPage_placing (s : State) (ctx va : Nat) : PlacingFrame s (s.unmapPage ctx va) := by
  unfold State.unmapPage
  split
  · exact .refl s
  · next c _ =>
    generalize (Pool.mk s 0).descend c.root va 4 = d
    dsimp only
    split
    · exact s.runtimeWrite_placing _ _
    · exact .refl s

/-- An image's descriptors are withdrawn from a context. -/
def Context.withdraw (c : Context) (image : Nat) : Context :=
  { c with images := c.images.map fun x => if x.id == image then { x with withdrawn := true } else x }

/-- An image leaves a context. -/
def Context.dropImage (c : Context) (image : Nat) : Context := { c with images := c.images.filter (·.id != image) }

/-- Withdrawn or not, an image that leaves a context leaves the others. -/
theorem Context.dropImage_withdraw (c : Context) (image : Nat) : (c.withdraw image).dropImage image = c.dropImage image := by
  have kept : ∀ l : List Image, (l.map fun x => if x.id == image then { x with withdrawn := true } else x).filter (·.id != image) =
      l.filter (·.id != image) := by
    intro l
    induction l with
    | nil => rfl
    | cons x l ih =>
      by_cases hx : x.id = image <;> simpa [hx] using ih
  simp only [Context.dropImage, Context.withdraw, kept]

/-- The pages of an image, as addresses of its context. -/
def Image.pages (i : Image) : List Nat :=
  i.windows.flatMap fun w => (List.range ((w.hi - w.lo) / 4096)).map fun n => i.base + (w.lo - i.frames) + 4096 * n

/-- The image's windows leave its context's rows at the targets at which they stand. -/
def State.dropWindows (s : State) (ctx : Nat) (i : Image) : State :=
  { s with dev := { s.dev with access := i.held.foldl (fun tab k =>
      smPut [] tab (4 * ctx + k) (i.windows.foldl (fun l w => l.erase w) (smGet [] tab (4 * ctx + k)))) s.dev.access } }

theorem unloadImage_eq {s : State} {ctx image : Nat} {c : Context} {i : Image} (hc : s.ctx ctx = some c)
    (hi : c.images.find? (fun x => x.id == image) = some i) : unloadImage ctx image s =
      if s.grids.any (fun p => p.2.ctx == ctx && i.has p.2) then s.modCtx ctx (·.withdraw image)
      else State.dropWindows ((i.pages.foldl (fun t va => t.unmapPage ctx va) (s.modCtx ctx (·.withdraw image))).modCtx ctx
        (·.dropImage image)) ctx i := by
  have found : (s.ctx ctx).bind (fun c => c.images.find? (·.id == image)) = some i := by rw [hc]; exact hi
  rw [unloadImage, found]
  rfl

/-- Windows leave the rows at which they stand, and no other row changes. -/
theorem State.smGet_dropWindows (s : State) (ctx : Nat) {i : Image} (hn : i.held.Nodup) (target : Target) :
    smGet [] (s.dropWindows ctx i).dev.access (tableKey ctx target) =
      if targetCode target ∈ i.held then i.windows.foldl (fun l w => l.erase w) (smGet [] s.dev.access (tableKey ctx target))
      else smGet [] s.dev.access (tableKey ctx target) := by
  have nodup : (i.held.map (4 * ctx + ·)).Nodup := nodup_map_of_injective (fun _ _ => Nat.add_left_cancel) hn
  have mem : tableKey ctx target ∈ i.held.map (4 * ctx + ·) ↔ targetCode target ∈ i.held := by simp [tableKey]
  have rows := smGet_foldl_smPut [] (fun l => i.windows.foldl (fun l w => l.erase w) l) nodup s.dev.access (tableKey ctx target)
  simp only [List.foldl_map, mem] at rows
  exact rows

/-! ### The statement -/

/-- The loader's images of R60 and R70 to R72: a load by its three answers, an unload by whether a grid of the image is left. -/
theorem saysImages : Says.Images := by
  refine ⟨?load, ?unload⟩
  case load =>
    intro s r c hc x n clear free fits
    have place : fits ↔ s.unfit r c x = false := by
      rw [State.unfit_eq_false_iff, State.placeTaken_eq_false_iff]
    refine ⟨exec_imageLoad_of_check hc, fun h hno => ?unfit, fun h hfits => ?fit⟩
    case unfit => exact exec_imageLoad_of_unfit hc h (by simpa using mt place.2 hno)
    case fit =>
      have out : exec (.imageLoad r) s = .next (s.unlessRefused ((s.placeImage r c x).answer 0)) :=
        exec_imageLoad_of_fit hc h (place.1 hfits)
      obtain ⟨id, made, hmade, hctx, hothers, hrows⟩ := State.placeImage_spec hc x
      clear_value x
      generalize s.placeImage r c x = placed at out hctx hothers hrows ⊢
      refine ⟨fun href => ?_, fun hnot => ?_⟩
      · rw [State.unlessRefused_of_refused (t := placed.answer 0) href] at out
        exact ⟨_, out, rfl⟩
      · rw [State.unlessRefused_of_kept (t := placed.answer 0) (Decidable.not_not.1 hnot)] at out
        refine ⟨_, x.image r id, made, out, hctx, hmade, rfl, rfl, rfl, fun target => ?_, fun k hk => ⟨hothers k hk, fun target => ?_⟩⟩
        · exact (hrows r.ctx target).trans (if_pos rfl)
        · exact (hrows k target).trans (if_neg hk)
  case unload =>
    intro s ctx image c i hc hi busy
    have hout : exec (.imageUnload ctx image) s = .next (unloadImage ctx image s) := rfl
    rw [unloadImage_eq hc hi] at hout
    have hbusy : (s.grids.any fun p => p.2.ctx == ctx && i.has p.2) = true ↔ busy := by
      simp [busy, Image.has]
    refine ⟨fun h => ?_, fun h hn => ?_⟩
    · rw [if_pos (hbusy.2 h)] at hout
      refine ⟨_, hout, rfl, rfl, ?_⟩
      rw [State.ctx_modCtx_self, hc]
      simp [Context.withdraw]
    · rw [if_neg (mt hbusy.1 h)] at hout
      have unmapped := PlacingFrame.foldl (f := fun t va => t.unmapPage ctx va) (fun _ _ => State.unmapPage_placing _ _ _) i.pages
        (s.modCtx ctx (·.withdraw image))
      refine ⟨_, hout, ?_, fun target => ?_⟩
      · have left : ((i.pages.foldl (fun t va => t.unmapPage ctx va) (s.modCtx ctx (·.withdraw image))).modCtx ctx
            (·.dropImage image)).ctx ctx = some (c.dropImage image) := by
          rw [State.ctx_modCtx_self, unmapped.ctx, State.ctx_modCtx_self, hc]
          exact congrArg some (c.dropImage_withdraw image)
        exact left
      · rw [State.smGet_dropWindows _ _ hn, State.modCtx_dev, unmapped.access]
        rfl

end Sys2Proof.Machine

namespace Sys2Proof
open Machine

/-- Settles O52: each request by the equation of its meaning, and what the runtime's accesses leave of contexts and access tables. -/
theorem registrationsAndImages : Obligations.RegistrationsAndImages := ⟨saysRegistrations, saysImages⟩

end Sys2Proof
end
